-- ==== Sys2Proof/Word.lean ====
section
/-! DEFINITION. The plain words of the station: bytes, channels and channel sets, beam sets, line levels, rails, and
the eight-place record that holds one value for each receive channel. -/

namespace Sys2Proof

/-- A byte of a frame or of the configuration image. -/
abbrev Byte := BitVec 8

/-- The receive channels CH0–CH7 (introduction, "The station in the car"). -/
inductive Chan where
  | ch0 | ch1 | ch2 | ch3 | ch4 | ch5 | ch6 | ch7
  deriving DecidableEq, Repr

/-- The number of a channel, 0–7. -/
def Chan.num : Chan → Nat
  | .ch0 => 0 | .ch1 => 1 | .ch2 => 2 | .ch3 => 3 | .ch4 => 4 | .ch5 => 5 | .ch6 => 6 | .ch7 => 7

/-- The channel of a number; numbers above 7 are taken modulo 8 (callers check the range where the spec does). -/
def Chan.ofNum (n : Nat) : Chan :=
  match n % 8 with
  | 0 => .ch0 | 1 => .ch1 | 2 => .ch2 | 3 => .ch3 | 4 => .ch4 | 5 => .ch5 | 6 => .ch6 | _ => .ch7

/-- All channels in ascending channel number, the order in which the spec takes them. -/
def Chan.all : List Chan := [.ch0, .ch1, .ch2, .ch3, .ch4, .ch5, .ch6, .ch7]

/-- A channel set: bit c stands for CHc (R158). -/
abbrev ChanSet := BitVec 8

/-- A beam set: bit b stands for beam b, 0–8 (R158). -/
abbrev BeamSet := BitVec 9

/-- One value for each of CH0–CH7. -/
structure PerChan (α : Type) where
  ch0 : α
  ch1 : α
  ch2 : α
  ch3 : α
  ch4 : α
  ch5 : α
  ch6 : α
  ch7 : α
  deriving DecidableEq, Repr

/-- The value held for one channel. -/
def PerChan.get {α : Type} (v : PerChan α) : Chan → α
  | .ch0 => v.ch0 | .ch1 => v.ch1 | .ch2 => v.ch2 | .ch3 => v.ch3
  | .ch4 => v.ch4 | .ch5 => v.ch5 | .ch6 => v.ch6 | .ch7 => v.ch7

/-- The record with one channel's value replaced. -/
def PerChan.set {α : Type} (v : PerChan α) (c : Chan) (x : α) : PerChan α :=
  match c with
  | .ch0 => { v with ch0 := x } | .ch1 => { v with ch1 := x }
  | .ch2 => { v with ch2 := x } | .ch3 => { v with ch3 := x }
  | .ch4 => { v with ch4 := x } | .ch5 => { v with ch5 := x }
  | .ch6 => { v with ch6 := x } | .ch7 => { v with ch7 := x }

/-- The record whose value for each channel is computed from the channel. -/
def PerChan.ofFn {α : Type} (g : Chan → α) : PerChan α :=
  ⟨g .ch0, g .ch1, g .ch2, g .ch3, g .ch4, g .ch5, g .ch6, g .ch7⟩

/-- The level of a shared line: a dominant level overrides a recessive one (3.1, 9.1). -/
inductive LineLevel where
  | recessive | dominant
  deriving DecidableEq, Repr

/-- The two rails of the track. -/
inductive Rail where
  | left | right
  deriving DecidableEq, Repr

end Sys2Proof
end

