-- ==== Sys2Proof/Syntax.lean ====
section
/-! DEFINITION. The commands the station takes: one constructor for each row of spec/opcode_table.json, with the data the
row's event brings from outside. -/

namespace Sys2Proof

/-- The three kinds of strap pins, read at the release of reset (R147). -/
structure Straps where
  /-- the station address, four pins, 0–15 -/
  address : BitVec 4
  /-- the rail of the sled -/
  rail : Rail
  /-- the zone line enable strap (R39) -/
  zoneEnable : Bool
  deriving DecidableEq, Repr

/-- The five code slots of a claim period (3.1.1). -/
inductive CodeSlot where
  | slot1 | slot2 | slot3 | slot4 | slot5
  deriving DecidableEq, Repr

/-- The number of a code slot, 1–5. -/
def CodeSlot.num : CodeSlot → Nat
  | .slot1 => 1 | .slot2 => 2 | .slot3 => 3 | .slot4 => 4 | .slot5 => 5

/-- The blocks that take frames from the receive queue (R144). -/
inductive Block where
  | runController | volleySequencer | correlationUnit
  deriving DecidableEq, Repr

/-- The reception check that a discarded frame fails (R141). -/
inductive ReceptionCheck where
  | framing | sync | length | idleEarly | crc
  deriving DecidableEq, Repr

/-- The payload of a MASK frame (11.2). -/
structure MaskPayload where
  target : Byte
  setList : ChanSet
  clearList : ChanSet
  deriving DecidableEq, Repr

/-- The payload of a SUPPRESS frame (11.2): the rail byte and the two signed 32-bit positions. -/
structure SuppressPayload where
  rail : Byte
  a : BitVec 32
  b : BitVec 32
  deriving DecidableEq, Repr

/-- The payload of an INDICATION frame (11.2), field by field as the frame carries it. -/
structure IndicationPayload where
  origin : Byte
  seq : BitVec 16
  channel : Byte
  rail : Byte
  beam : Byte
  xStart : BitVec 32
  xEnd : BitVec 32
  zMin : BitVec 16
  zMax : BitVec 16
  peak : Byte
  hits : Byte
  spanned : BitVec 16
  flags : Byte
  deriving DecidableEq, Repr

/-- What the echo inputs of the transducer ports give over one hold: place n holds the samples of tick 0 onward at TPn (R22,
R59). -/
abbrev PortEchoes := List (List Byte)

/-- The commands, one for each row of the table of operations and events. -/
inductive Instr where
  /-- POWER_ON (R146): the supply rises from off. -/
  | powerOn
  /-- SUPPLY_LOW (R146): the supply falls below its operating level. -/
  | supplyLow
  /-- RESET_PIN (R146): the reset pin has been held low for 20 µs. -/
  | resetPin
  /-- RESET_RELEASE (R146, R147): the last reset cause is released; the strap pins as they stand. -/
  | resetRelease (straps : Straps)
  /-- LOAD_END (R147): the load completes; the bytes the configuration memory gave from offset 000h. -/
  | loadEnd (image : List Byte)
  /-- ENCODER_SAMPLE_INSTANT (R2): the raw levels of the two encoder inputs, true for high. -/
  | encoderSampleInstant (rawA rawB : Bool)
  /-- ZONE_LINE_LEVEL_CHANGE (R40): the level the zone line changes to. -/
  | zoneLineLevelChange (level : LineLevel)
  /-- QUIET (R40): the zone line has been recessive for 3 µs outside a claim period. -/
  | quiet
  /-- CODE_SLOT_READ (R44): the code slot at whose middle the line is read, and the level read. -/
  | codeSlotRead (slot : CodeSlot) (level : LineLevel)
  /-- CLAIM_PERIOD_END (R46): slot 5 of the claim period ends. -/
  | claimPeriodEnd
  /-- STUCK_TIMER_EXPIRY (R50): the stuck timer exceeds Tw. -/
  | stuckTimerExpiry
  /-- VOLLEY_COMPLETION (R27): the hold timer runs out; what the echo inputs of the ports gave over the hold. -/
  | volleyCompletion (echoes : PortEchoes)
  /-- LINK_IDLE_INSTANT (R134): the carriage link has been recessive for 6 µs. -/
  | linkIdleInstant
  /-- BEGIN_TIME (R137): the begin time of a deferring transmitter. -/
  | beginTime
  /-- FRAME_COMPLETE (R138): the stop bit of the last CRC character has been sent without mismatch. -/
  | frameComplete
  /-- READBACK_MISMATCH (R139): a transmitted bit reads back differently. -/
  | readbackMismatch
  /-- RECEIVE_ERROR (R141): the frame being gathered fails a reception check. -/
  | receiveError (check : ReceptionCheck)
  /-- FRAME_RECEIVED (R141): the last stop bit of a frame ends; the characters of the frame, sync byte first. -/
  | frameReceived (chars : List Byte)
  /-- SERVICE_TIME_END (R144): a block's service time for a frame ends. -/
  | serviceTimeEnd (block : Block)
  /-- RUNSTART (R150): the Run Controller takes a RUNSTART frame; the run number of its header. -/
  | runstart (run : Byte)
  /-- RUNSTOP (R152): the Run Controller takes a RUNSTOP frame; the run number of its header. -/
  | runstop (run : Byte)
  /-- MASK (R33): the Volley Sequencer takes a MASK frame. -/
  | mask (payload : MaskPayload)
  /-- SUPPRESS (R126): the Correlation Unit takes a SUPPRESS frame. -/
  | suppress (run : Byte) (payload : SuppressPayload)
  /-- INDICATION (R114): the Correlation Unit takes an INDICATION frame. -/
  | indication (run : Byte) (payload : IndicationPayload)
  /-- DRAIN_END (R153): the drain timer expires. -/
  | drainEnd
  /-- LINK_LEVEL_CHANGE (R134): the carriage link changes level. -/
  | linkLevelChange (level : LineLevel)
  deriving DecidableEq, Repr

end Sys2Proof
end

