-- ==== Sys2Proof/Config.lean ====
section
/-! DEFINITION. What the configuration image fixes for a station: the parameters of every block, as the load corrects
them (R147), held until the next reset. Machine/Load.lean reads them from the image. -/

namespace Sys2Proof

/-- The encoder counting modes (1.1). -/
inductive CountMode where
  | x1 | x2 | x4
  deriving DecidableEq, Repr

/-- One entry of the firing plan (2.1). -/
structure PlanEntry where
  chans : ChanSet
  /-- listening time in µs, 10–250 -/
  hold : Nat
  /-- 1, 2, 4 or 8 -/
  divider : Nat
  /-- 0 to divider − 1 -/
  phase : Nat
  deriving DecidableEq, Repr

/-- A flaw gate (4.1); it covers the ticks t with start ≤ t < stop. -/
structure FGate where
  enabled : Bool
  start : Nat
  stop : Nat
  threshold : Nat
  q : Nat
  /-- PEAK mode when set, FIRST mode when clear -/
  peak : Bool
  deriving DecidableEq, Repr

/-- A monitor gate (4.1), always in FIRST mode. -/
structure MGate where
  enabled : Bool
  start : Nat
  stop : Nat
  threshold : Nat
  q : Nat
  deriving DecidableEq, Repr

/-- The parameters of one receive channel. -/
structure ChanParams where
  /-- TP0–TP11 as 0–11, or none (R21) -/
  port : Option Nat
  f : FGate
  m : MGate
  /-- wedge delay w, 0–1023 ticks -/
  wedge : Nat
  /-- coupling source (R71) -/
  source : Chan
  kd : Nat
  kl : Nat
  kr : Nat
  /-- beam label, 0–8 (R85) -/
  beam : Nat
  /-- path factor k -/
  k : Nat
  sQ : Nat
  cQ : Nat
  /-- probe offset o, in qmm -/
  offset : Int
  tx : Nat
  tz : Nat
  /-- gap tolerance G -/
  g : Nat
  nmin : Nat
  deriving DecidableEq, Repr

/-- A pairing rule (8.1). -/
structure PairRule where
  setA : BeamSet
  setB : BeamSet
  dx : Nat
  dz : Nat
  cls : Nat
  deriving DecidableEq, Repr

/-- Everything the image fixes. -/
structure Params where
  /-- sample divider, 1–255 ticks -/
  p : Nat
  /-- qualification length, 4 or 8 -/
  n : Nat
  mode : CountMode
  /-- forward order: A_LEADS when set, B_LEADS when clear -/
  aLeads : Bool
  /-- scale, in 1/256 qmm a count -/
  s : Nat
  /-- step size D in qmm, 4–60 -/
  d : Nat
  /-- the firing plan; its last entry is the one with the end-of-cycle mark (R19) -/
  plan : List PlanEntry
  /-- stuck time, in ms -/
  tw : Nat
  chan : PerChan ChanParams
  lmax : Nat
  /-- pairing rules in image order; rule i is the ith -/
  rules : List PairRule
  /-- horizon H in qmm -/
  horizon : Nat
  single : BeamSet
  /-- receive overflow policy: DROP_OLDEST when set, DROP_NEW when clear (R143) -/
  dropOldest : Bool
  /-- drain time, in units of 10 ms -/
  drain : Nat
  deriving DecidableEq, Repr

/-- A gate that covers nothing. -/
def FGate.cleared : FGate := ⟨false, 0, 0, 0, 0, false⟩

/-- A monitor gate that covers nothing. -/
def MGate.cleared : MGate := ⟨false, 0, 0, 0, 0⟩

/-- The cleared parameters of a channel, between reset and the load. -/
def ChanParams.cleared : ChanParams :=
  { port := none, f := FGate.cleared, m := MGate.cleared, wedge := 0, source := .ch0, kd := 0, kl := 0, kr := 0,
    beam := 0, k := 0, sQ := 0, cQ := 0, offset := 0, tx := 0, tz := 0, g := 0, nmin := 0 }

/-- The parameters between a reset and the load that follows it: empty (R38, R94, R111, R132, R145). The spec gives no
values there and nothing reads them; the zeros are a DESIGN CHOICE (log entry 2, safe: no block acts on them). -/
def Params.cleared : Params :=
  { p := 0, n := 0, mode := .x1, aLeads := false, s := 0, d := 0, plan := [], tw := 0,
    chan := PerChan.ofFn (fun _ => ChanParams.cleared), lmax := 0, rules := [], horizon := 0, single := 0,
    dropOldest := false, drain := 0 }

end Sys2Proof
end

