-- ==== Sys2Proof/Machine/State.lean ====
section
/-! DEFINITION. The state of the station as plain data, block by block as the chapters list it; the records it sends; the
machine right after reset. Each chapter opens with the table of state its block holds. -/

namespace Sys2Proof.Machine

/-! ### Records and frames -/

/-- An indication record (R107); also the content of a peer's INDICATION frame. -/
structure Indication where
  origin : Nat
  seq : Nat
  channel : Chan
  rail : Rail
  beam : Nat
  xStart : Int
  xEnd : Int
  zMin : Nat
  zMax : Nat
  peak : Nat
  hits : Nat
  spanned : Nat
  saturated : Bool
  doubtful : Bool
  gapped : Bool
  long : Bool
  cut : Bool
  deriving DecidableEq, Repr

/-- A member of a call: origin, seq and beam of an indication (8.7). -/
structure Member where
  origin : Nat
  seq : Nat
  beam : Nat
  deriving DecidableEq, Repr

/-- A call record (8.7). -/
structure Call where
  seq : Nat
  cls : Nat
  rail : Rail
  xLo : Int
  xHi : Int
  zLo : Nat
  zHi : Nat
  peak : Nat
  first : Member
  second : Option Member
  uncertain : Bool
  early : Bool
  saturated : Bool
  doubtful : Bool
  long : Bool
  deriving DecidableEq, Repr

/-- Why a due channel did not examine the rail (5.4). -/
inductive Reason where
  | uncoupled | muted | unassigned | missed | blocked
  deriving DecidableEq, Repr

/-- The outcome of a due channel (5.4): GOOD, or one of the five reasons. -/
inductive ChanOutcome where
  | good
  | bad (reason : Reason)
  deriving DecidableEq, Repr

/-- How a gap closed (R80). -/
inductive Closure where
  | resumed | changed | full | stopped
  deriving DecidableEq, Repr

/-- A GAP record (R80). -/
structure GapRecord where
  origin : Nat
  seq : Nat
  channel : Chan
  beam : Nat
  rail : Rail
  reason : Reason
  xStart : Int
  xEnd : Int
  firings : Nat
  closure : Closure
  deriving DecidableEq, Repr

/-- The reset causes (R146). -/
inductive ResetCause where
  | powerOn | resetPin | supplyLow
  deriving DecidableEq, Repr

/-- The structural faults of the image (R147). -/
inductive FaultCode where
  | format | length | imageCrc | noEndMark | entryEmpty | entryOverfull | ruleCount
  deriving DecidableEq, Repr

/-- The warning kinds of one channel (R149). -/
structure ChanWarnings where
  port : Bool
  clampF : Bool
  clampM : Bool
  disabledF : Bool
  disabledM : Bool
  wedge : Bool
  coupling : Bool
  beam : Bool
  path : Bool
  sine : Bool
  cosine : Bool
  offset : Bool
  tracking : Bool
  deriving DecidableEq, Repr

/-- The warning set gathered at load (R149): each kind stands in it once. -/
structure Warnings where
  encoder : Bool
  plan : Bool
  zoneTw : Bool
  lmax : Bool
  horizon : Bool
  drain : Bool
  /-- RULE_CLASS of the rules 1–8, in order -/
  ruleClass : List Bool
  /-- PORT_CONFLICT of the ports TP0–TP11, in order -/
  portConflict : List Bool
  chan : PerChan ChanWarnings
  deriving DecidableEq, Repr

/-- No warning on a channel. -/
def ChanWarnings.empty : ChanWarnings :=
  ⟨false, false, false, false, false, false, false, false, false, false, false, false, false⟩

/-- The empty warning set. -/
def Warnings.empty : Warnings :=
  { encoder := false, plan := false, zoneTw := false, lmax := false, horizon := false, drain := false,
    ruleClass := List.replicate 8 false, portConflict := List.replicate 12 false, chan := PerChan.ofFn (fun _ => ChanWarnings.empty) }

/-- The reporter of an address conflict (R154). -/
inductive Reporter where
  | link | origin
  deriving DecidableEq, Repr

/-- Part 1 of RUN_SUMMARY: the fourteen counters, in the order of R155. -/
structure SummaryCounters where
  encoderError : Nat
  trackerOverflow : Nat
  sparse : Nat
  staleRun : Nat
  unpairedDrop : Nat
  suppressed : Nat
  suppressOverflow : Nat
  drop0 : Nat
  drop1 : Nat
  drop2 : Nat
  drop3 : Nat
  collision : Nat
  receiveError : Nat
  receiveOverflow : Nat
  deriving DecidableEq, Repr

/-- Part 2 of RUN_SUMMARY (R155). -/
structure SummaryTotals where
  /-- the addresses of the peers heard, ascending -/
  heard : List Nat
  gapTotal : Nat
  staleTotal : Nat
  indicationSeq : Nat
  callSeq : Nat
  gapSeq : Nat
  deriving DecidableEq, Repr

/-- The station events (R154). -/
inductive StationEvent where
  | stationUp (cause : ResetCause) (warnings : Warnings)
  | configFault (code : FaultCode) (entry : Nat)
  | zoneStuck
  | zoneClear
  /-- the limit reached: upper when set -/
  | positionLimit (upper : Bool)
  | addressConflict (reporter : Reporter)
  | runSummary1 (counters : SummaryCounters)
  | runSummary2 (totals : SummaryTotals)
  deriving DecidableEq, Repr

/-- A record in a transmit queue, with the run number its block gave it (R135). -/
structure Queued (α : Type) where
  run : Byte
  item : α
  deriving DecidableEq, Repr

/-- A good frame as received (R156). -/
structure Frame where
  /-- source address: bits 0–4 of the source byte -/
  source : BitVec 5
  kind : Byte
  run : Byte
  payload : List Byte
  deriving DecidableEq, Repr

/-! ### Run Controller (chapter 10) -/

inductive RunState where
  | loading | faulted | standby | running | stopping
  deriving DecidableEq, Repr

structure RunCtl where
  /-- a reset cause stands: the station is held in reset (R146) -/
  inReset : Bool
  runState : RunState
  cause : ResetCause
  straps : Straps
  /-- current run, 0–255 -/
  run : Byte
  pendingStart : Option Byte
  /-- the drain timer runs (R153) -/
  draining : Bool
  /-- time left in the drain, in ticks -/
  drainTimer : Nat
  conflict : Bool
  warnings : Warnings
  faultCode : Option FaultCode
  deriving DecidableEq, Repr

/-! ### Position Unit (chapter 1) -/

structure Pos where
  /-- qualified A and B, true for high -/
  qualA : Bool
  qualB : Bool
  agreeA : Nat
  agreeB : Nat
  refA : Bool
  refB : Bool
  /-- the first sample instant after the load is still to come (R3) -/
  firstSample : Bool
  /-- ticks to the next sample instant (R2) -/
  sampleClock : Nat
  /-- P, in qmm -/
  p : Int
  /-- fraction of P, in 1/256 qmm -/
  f : Nat
  /-- frontier F -/
  front : Int
  sIdx : Nat
  nextStep : Int
  limitFlag : Bool
  encoderError : Nat
  deriving DecidableEq, Repr

/-! ### Volley Sequencer (chapter 2) -/

inductive SqState where
  | off | waitStep | pending | hold
  deriving DecidableEq, Repr

/-- A step: its index and its step position (R12). -/
structure StepRef where
  index : Nat
  pos : Int
  deriving DecidableEq, Repr

/-- The volley in hold (R26). -/
structure Volley where
  entry : Nat
  fired : ChanSet
  pv : Int
  /-- the ports its channels pulsed at the start of the hold, TPn as n, in ascending channel number (R22, R26) -/
  pulsed : List Nat
  deriving DecidableEq, Repr

structure Seq where
  sq : SqState
  cycle : Option StepRef
  pointer : Option Nat
  waiting : Option StepRef
  volley : Option Volley
  /-- time left in the hold, in ticks -/
  holdTimer : Nat
  /-- the muted channels (R33) -/
  mask : ChanSet
  /-- channels whose closure request is held to the completion (R34) -/
  held : ChanSet
  deriving DecidableEq, Repr

/-! ### Zone Line Controller (chapter 3) -/

inductive ZlState where
  | off | idle | wait | claim | hold
  deriving DecidableEq, Repr

structure Zone where
  ctl : ZlState
  /-- the level of the zone line -/
  line : LineLevel
  quiet : Bool
  /-- ticks the line has been recessive since the last dominant level or the end of the last claim period, 0–75 -/
  recessiveTime : Nat
  /-- the claim period observed: ticks since its start edge; slot k covers ticks 25k to 25k + 24 -/
  claimPeriod : Option Nat
  /-- the last code slot this station has read in its claim, 0 for none -/
  slotRead : Nat
  claimCode : BitVec 5
  losses : Nat
  orphaned : Bool
  /-- ticks the line has been dominant in ZL_IDLE or ZL_WAIT -/
  stuckTimer : Nat
  stuck : Bool
  deriving DecidableEq, Repr

/-! ### Receive Channels and Gate Evaluator (chapter 4) -/

/-- A run of samples in progress inside an F gate (R61). -/
structure GateRun where
  first : Nat
  length : Nat
  greatest : Nat
  saturated : Bool
  deriving DecidableEq, Repr

/-- An F hit (R65). -/
structure Hit where
  tof : Nat
  amplitude : Nat
  saturated : Bool
  deriving DecidableEq, Repr

/-- The evaluation record of one fired channel (R60). -/
structure EvalRecord where
  chan : Chan
  fRun : Option GateRun
  fHit : Option Hit
  mRun : Nat
  mPresent : Bool
  deriving DecidableEq, Repr

/-! ### Coupling Monitor and Coverage Tracker (chapter 5) -/

inductive CouplingState where
  | coupled | doubtful | lost
  deriving DecidableEq, Repr

structure Coupling where
  state : CouplingState
  absence : Nat
  presence : Nat
  deriving DecidableEq, Repr

structure OpenGap where
  reason : Reason
  xStart : Int
  xEnd : Int
  firings : Nat
  deriving DecidableEq, Repr

structure ChanCoverage where
  gap : Option OpenGap
  reach : Option Int
  lastEnd : Option Int
  deriving DecidableEq, Repr

structure Coverage where
  chan : PerChan ChanCoverage
  gapSeq : Nat
  deriving DecidableEq, Repr

/-! ### Indication Tracker (chapter 7) -/

structure Slot where
  order : Nat
  lastX : Int
  lastZ : Nat
  xMin : Int
  xMax : Int
  zMin : Nat
  zMax : Nat
  peak : Nat
  hits : Nat
  spanned : Nat
  missRun : Nat
  saturated : Bool
  doubtful : Bool
  gapped : Bool
  deriving DecidableEq, Repr

structure ChanSlots where
  slot0 : Option Slot
  slot1 : Option Slot
  deriving DecidableEq, Repr

structure Tracker where
  chan : PerChan ChanSlots
  openOrder : Nat
  seq : Nat
  overflow : Nat
  sparse : Nat
  deriving DecidableEq, Repr

/-! ### Correlation Unit (chapter 8) -/

/-- The (origin, seq) by which a partner is named (8.2). -/
structure IndicationId where
  origin : Nat
  seq : Nat
  deriving DecidableEq, Repr

/-- An entry of the correlation table; PAIRED when it has a partner, UNPAIRED otherwise (8.2). -/
structure Entry where
  ind : Indication
  partner : Option IndicationId
  issued : Bool
  epoch : Nat
  deriving DecidableEq, Repr

/-- An entry of the peer table (8.3). -/
structure PeerEntry where
  seen : Bool
  valid : Bool
  lastSeq : Nat
  gapCount : Nat
  staleCount : Nat
  deriving DecidableEq, Repr

/-- A suppression span [a, b] (8.8). -/
structure Span where
  a : Int
  b : Int
  deriving DecidableEq, Repr

structure Correlation where
  /-- in arrival order, oldest first -/
  table : List Entry
  callSeq : Nat
  spans : List Span
  /-- one entry for each address 0–15 -/
  peers : List PeerEntry
  epoch : Nat
  staleRun : Nat
  unpairedDrop : Nat
  suppressed : Nat
  suppressOverflow : Nat
  deriving DecidableEq, Repr

/-! ### Link Controller (chapter 9) -/

inductive TxState where
  | off | idle | defer | send
  deriving DecidableEq, Repr

inductive RxState where
  | off | hunt | frame | skip
  deriving DecidableEq, Repr

/-- The transmit classes 0–3 (9.2). -/
inductive TxClass where
  | c0 | c1 | c2 | c3
  deriving DecidableEq, Repr

/-- The frame in flight: its class and characters (9); `flushed` when a run has started since it began (R136). -/
structure InFlight where
  cls : TxClass
  chars : List Byte
  flushed : Bool
  deriving DecidableEq, Repr

/-- What the receiver holds of the frame it gathers (R133, R141). -/
structure Gathering where
  /-- ticks since the start edge of the character in progress; none between characters -/
  since : Option Nat
  /-- the levels read of the character in progress, start bit first -/
  bits : List LineLevel
  /-- the characters gathered -/
  chars : List Byte
  deriving DecidableEq, Repr

structure Link where
  /-- the level of the carriage link -/
  level : LineLevel
  idle : Bool
  /-- ticks the link has been recessive without a break, 0–150 -/
  recessiveTime : Nat
  /-- ticks since the idle instant of the current idle -/
  sinceIdle : Nat
  q0 : List (Queued StationEvent)
  q1 : List (Queued Call)
  q2 : List (Queued Indication)
  q3 : List (Queued GapRecord)
  tx : TxState
  rank : Option Nat
  /-- ticks to the begin time, in TX_DEFER -/
  beginIn : Nat
  inFlight : Option InFlight
  /-- ticks to the end of the frame in flight, in TX_SEND -/
  sendLeft : Nat
  rx : RxState
  /-- the frame the receiver gathers, in RX_FRAME -/
  gather : Gathering
  rxQueue : List Frame
  /-- service time left of each block, in ticks, while it is busy with a frame (R144) -/
  busyRun : Option Nat
  busySeq : Option Nat
  busyCorr : Option Nat
  drop0 : Nat
  drop1 : Nat
  drop2 : Nat
  drop3 : Nat
  collision : Nat
  receiveError : Nat
  receiveOverflow : Nat
  deriving DecidableEq, Repr

/-! ### The station -/

/-- The state of the station, and the commands that wait, first in, first out. -/
structure State where
  rc : RunCtl
  cfg : Params
  pos : Pos
  seq : Seq
  zone : Zone
  /-- the evaluation records of the volley in hold, in ascending channel number (R60) -/
  acq : List EvalRecord
  coup : PerChan Coupling
  cov : Coverage
  trk : Tracker
  corr : Correlation
  link : Link
  pending : List Instr
  deriving DecidableEq, Repr

/-- The reasons a step could stop with a fault: there is none. The spec gives every command an effect in every state, so
this type has no constructor. -/
inductive Fault where
  deriving DecidableEq, Repr

/-- The reasons a step is refused. -/
inductive Refusal where
  /-- Raised only by an arm of exec whose command has no meaning yet (safe: the machine stops). No arm raises it. -/
  | notModelled (mnemonic : String)
  deriving DecidableEq, Repr

/-! ### Reset values, block by block -/

/-- The straps between a reset and its release: cleared (DESIGN CHOICE, log entry 3: the spec gives no value before the
read of R147). -/
def Straps.cleared : Straps := ⟨0, .left, false⟩

/-- The Run Controller after a reset of the given cause (R146). The station is held in reset until RESET_RELEASE; its run
state meanwhile is LOADING (DESIGN CHOICE, log entry 3). -/
def RunCtl.afterReset (cause : ResetCause) : RunCtl :=
  { inReset := true, runState := .loading, cause := cause, straps := Straps.cleared, run := 0, pendingStart := none,
    draining := false, drainTimer := 0, conflict := false, warnings := Warnings.empty, faultCode := none }

/-- The Position Unit after reset (R17, R3). -/
def Pos.afterReset : Pos :=
  { qualA := false, qualB := false, agreeA := 0, agreeB := 0, refA := false, refB := false, firstSample := false,
    sampleClock := 0, p := 0, f := 0, front := 0, sIdx := 0, nextStep := 0, limitFlag := false, encoderError := 0 }

/-- The Volley Sequencer after reset (R38, R33). -/
def Seq.afterReset : Seq :=
  { sq := .off, cycle := none, pointer := none, waiting := none, volley := none, holdTimer := 0, mask := 0, held := 0 }

/-- The Zone Line Controller after reset, on a line of the given level (R54, R40). The claim code and the recessive time
have no reset value in the spec: 0 (DESIGN CHOICE, log entry 3). -/
def Zone.afterReset (line : LineLevel) : Zone :=
  { ctl := .off, line := line, quiet := false, recessiveTime := 0, claimPeriod := none, slotRead := 0, claimCode := 0,
    losses := 0, orphaned := false, stuckTimer := 0, stuck := false }

/-- Coupling state after reset: COUPLED with both runs at 0 (R76). -/
def Coupling.afterReset : Coupling := ⟨.coupled, 0, 0⟩

/-- A channel with no gap, reach or last gap end (R82). -/
def ChanCoverage.none : ChanCoverage := ⟨Option.none, Option.none, Option.none⟩

/-- The Coverage Tracker at a reset and at a run start (R82). -/
def Coverage.cleared : Coverage := ⟨PerChan.ofFn (fun _ => ChanCoverage.none), 0⟩

/-- The Indication Tracker at a reset and at a run start (R110, R111). -/
def Tracker.cleared : Tracker :=
  { chan := PerChan.ofFn (fun _ => ⟨none, none⟩), openOrder := 0, seq := 0, overflow := 0, sparse := 0 }

/-- A peer entry after reset (R132). -/
def PeerEntry.afterReset : PeerEntry := ⟨false, false, 0, 0, 0⟩

/-- The Correlation Unit after reset (R132). -/
def Correlation.afterReset : Correlation :=
  { table := [], callSeq := 0, spans := [], peers := List.replicate 16 PeerEntry.afterReset, epoch := 0, staleRun := 0,
    unpairedDrop := 0, suppressed := 0, suppressOverflow := 0 }

/-- Nothing gathered. -/
def Gathering.empty : Gathering := ⟨none, [], []⟩

/-- The Link Controller after reset, on a link of the given level (R136, R145). That no block is busy with a frame is the
model's choice (DESIGN CHOICE, log entry 3). -/
def Link.afterReset (level : LineLevel) : Link :=
  { level := level, idle := false, recessiveTime := 0, sinceIdle := 0, q0 := [], q1 := [], q2 := [], q3 := [],
    tx := .off, rank := none, beginIn := 0, inFlight := none, sendLeft := 0, rx := .off,
    gather := Gathering.empty, rxQueue := [], busyRun := none, busySeq := none, busyCorr := none, drop0 := 0, drop1 := 0, drop2 := 0, drop3 := 0,
    collision := 0, receiveError := 0, receiveOverflow := 0 }

/-- The station right after a reset, on lines of the given levels, with the given commands waiting. -/
def State.afterReset (cause : ResetCause) (zoneLine carriage : LineLevel) (pending : List Instr) : State :=
  { rc := RunCtl.afterReset cause, cfg := Params.cleared, pos := Pos.afterReset, seq := Seq.afterReset,
    zone := Zone.afterReset zoneLine, acq := [], coup := PerChan.ofFn (fun _ => Coupling.afterReset),
    cov := Coverage.cleared, trk := Tracker.cleared, corr := Correlation.afterReset, link := Link.afterReset carriage,
    pending := pending }

/-- The machine right after reset: a reset of cause POWER_ON, both shared lines recessive (DESIGN CHOICE, log entry 3),
no command waiting. -/
def State.reset : State := State.afterReset .powerOn .recessive .recessive []

/-! ### One setter for each block -/

def State.setRc (s : State) (x : RunCtl) : State := { s with rc := x }
def State.setCfg (s : State) (x : Params) : State := { s with cfg := x }
def State.setPos (s : State) (x : Pos) : State := { s with pos := x }
def State.setSeq (s : State) (x : Seq) : State := { s with seq := x }
def State.setZone (s : State) (x : Zone) : State := { s with zone := x }
def State.setAcq (s : State) (x : List EvalRecord) : State := { s with acq := x }
def State.setCoup (s : State) (x : PerChan Coupling) : State := { s with coup := x }
def State.setCov (s : State) (x : Coverage) : State := { s with cov := x }
def State.setTrk (s : State) (x : Tracker) : State := { s with trk := x }
def State.setCorr (s : State) (x : Correlation) : State := { s with corr := x }
def State.setLink (s : State) (x : Link) : State := { s with link := x }
def State.setPending (s : State) (x : List Instr) : State := { s with pending := x }

end Sys2Proof.Machine
end

