-- ==== Sys2Proof/Machine/Flags.lean ====
section
/-! DEFINITION. Counters and judgements shared by the blocks: saturating counters, wrapping sequences, and what a block
reads of the run state. -/

namespace Sys2Proof.Machine

/-- A statistics counter raised by k: 16 bits, saturating at 65535 (introduction, Conventions). -/
def satAdd (n k : Nat) : Nat := min (n + k) 65535

/-- A counter raised by 1 that holds at a given top. -/
def satSucc (top n : Nat) : Nat := min (n + 1) top

/-- The next number of a 16-bit sequence, from 65535 to 0. -/
def nextSeq (n : Nat) : Nat := (n + 1) % 65536

/-- The next open order, from 2^32 − 1 to 0 (R96). -/
def nextOrder (n : Nat) : Nat := (n + 1) % 4294967296

/-- The rail gap epoch raised by 1, holding at 2^32 − 1 (R116). -/
def nextEpoch (n : Nat) : Nat := min (n + 1) 4294967295

/-- The station's own address, from the straps (R147). -/
def State.own (s : State) : Nat := s.rc.straps.address.toNat

/-- The station's own rail, from the strap (R147). -/
def State.rail (s : State) : Rail := s.rc.straps.rail

/-- The zone line is enabled (R39). -/
def State.zoneEnabled (s : State) : Bool := s.rc.straps.zoneEnable

/-- The run state is STANDBY, RUNNING or STOPPING: the qualifiers run (R3), the zone line is observed (R40) and received
frames are queued and dispatched (R145). -/
def State.operating (s : State) : Bool :=
  match s.rc.runState with
  | .standby | .running | .stopping => true
  | .loading | .faulted => false

/-- The run state is RUNNING or STOPPING. -/
def State.inRun (s : State) : Bool :=
  match s.rc.runState with
  | .running | .stopping => true
  | .loading | .faulted | .standby => false

/-- The zone line is enabled and observed (R39, R40). -/
def State.observing (s : State) : Bool := s.zoneEnabled && s.operating

/-- The carriage link is judged: every run state but LOADING (R134, R145). -/
def State.linkOn (s : State) : Bool :=
  match s.rc.runState with
  | .loading => false
  | .faulted | .standby | .running | .stopping => true

/-- A claim is urgent when the consecutive-loss count is 3 or more (R44). -/
def urgent (losses : Nat) : Bool := decide (3 ≤ losses)

end Sys2Proof.Machine
end

