-- ==== Sys2Proof/Machine/Operands.lean ====
section
/-! DEFINITION. Fields of bytes and sets: byte order (chapter 11: least significant byte first), bit fields, signed values,
channel sets and beam sets (R158). -/

namespace Sys2Proof.Machine

/-- The channel is in the set (R158). -/
def inSet (m : ChanSet) (c : Chan) : Bool := m.getLsbD c.num

/-- The set with the channel added. -/
def addToSet (m : ChanSet) (c : Chan) : ChanSet := m ||| (1#8 <<< c.num)

/-- The channels of a set in ascending channel number. -/
def chansOf (m : ChanSet) : List Chan := Chan.all.filter (fun c => inSet m c)

/-- The set of the channels a test selects. -/
def setOf (t : Chan → Bool) : ChanSet := (Chan.all.filter t).foldl addToSet 0

/-- The beam is in the set (R158). -/
def inBeams (m : BeamSet) (beam : Nat) : Bool := m.getLsbD beam

/-- The byte at an offset; a memory that does not answer there reads as all ones (R147). -/
def byteAt (bytes : List Byte) (off : Nat) : Nat := (bytes.getD off 0xFF#8).toNat

/-- The two-byte field at an offset, least significant byte first (chapter 11). -/
def wordAt (bytes : List Byte) (off : Nat) : Nat := byteAt bytes off + 256 * byteAt bytes (off + 1)

/-- The three-byte field at an offset, least significant byte first. -/
def tripleAt (bytes : List Byte) (off : Nat) : Nat := wordAt bytes off + 65536 * byteAt bytes (off + 2)

/-- The four-byte field at an offset, least significant byte first. -/
def longAt (bytes : List Byte) (off : Nat) : BitVec 32 :=
  BitVec.ofNat 32 (wordAt bytes off + 65536 * wordAt bytes (off + 2))

/-- Bit i of the byte at an offset. -/
def bitAt (bytes : List Byte) (off i : Nat) : Bool := (byteAt bytes off).testBit i

/-- The signed value of a 16-bit field. -/
def signed16 (n : Nat) : Int := (BitVec.ofNat 16 n).toInt

/-- A number as two bytes, least significant first. -/
def bytes2 (n : Nat) : List Byte := [BitVec.ofNat 8 n, BitVec.ofNat 8 (n / 256)]

/-- A position as four bytes, two's complement, least significant first. -/
def bytes4 (x : Int) : List Byte :=
  let v := (BitVec.ofInt 32 x).toNat
  [BitVec.ofNat 8 v, BitVec.ofNat 8 (v / 256), BitVec.ofNat 8 (v / 65536), BitVec.ofNat 8 (v / 16777216)]

/-- Flags as a number, the first flag in bit 0. -/
def packBits : List Bool → Nat
  | [] => 0
  | b :: bs => (if b then 1 else 0) + 2 * packBits bs

/-- The rail code of the formats (11.2). -/
def railCode : Rail → Byte
  | .left => 0x00#8
  | .right => 0x01#8

end Sys2Proof.Machine
end

