-- ==== Sys2Proof/Machine/Frames.lean ====
section
/-! DEFINITION. Chapter 11 and R133: the CRC, the frame on the link, the payload of every record, the characters of a byte,
and the fields of a received payload. -/

namespace Sys2Proof.Machine

/-! ### CRC and characters -/

/-- One bit step of the CRC of R156: polynomial 1021h, most significant bit first. -/
def crcShift (crc : BitVec 16) : BitVec 16 :=
  if crc.msb then (crc <<< 1) ^^^ 0x1021#16 else crc <<< 1

/-- The CRC after one more byte (R156). -/
def crcByte (crc : BitVec 16) (b : Byte) : BitVec 16 :=
  crcShift (crcShift (crcShift (crcShift (crcShift (crcShift (crcShift (crcShift
    (crc ^^^ (b.zeroExtend 16 <<< 8)))))))))

/-- The CRC over a list of bytes, from the initial value FFFFh, with no final inversion (R156). -/
def crc16 (bytes : List Byte) : BitVec 16 := bytes.foldl crcByte 0xFFFF#16

/-- The CRC as its two bytes, high byte first. -/
def crcBytes (crc : BitVec 16) : List Byte := [BitVec.ofNat 8 (crc.toNat / 256), BitVec.ofNat 8 crc.toNat]

/-- The level that sends a bit: 0 is dominant and 1 is left recessive (R133). -/
def bitLevel (b : Bool) : LineLevel := if b then .recessive else .dominant

/-- The ten levels of a character: start bit, eight data bits least significant first, stop bit (R133). -/
def charLevels (b : Byte) : List LineLevel :=
  [.dominant, bitLevel (b.getLsbD 0), bitLevel (b.getLsbD 1), bitLevel (b.getLsbD 2), bitLevel (b.getLsbD 3),
   bitLevel (b.getLsbD 4), bitLevel (b.getLsbD 5), bitLevel (b.getLsbD 6), bitLevel (b.getLsbD 7), .recessive]

/-- The time the characters take on the link, in ticks: one bit time is 0.5 µs, two bits to 25 ticks (R133). -/
def sendTicks (chars : List Byte) : Nat := (chars.map (fun b => (charLevels b).length)).sum * 25 / 2

/-! ### Frames -/

/-- The frame kind codes (11.2). -/
def kindRunstart : Byte := 0x01#8
def kindRunstop : Byte := 0x02#8
def kindMask : Byte := 0x03#8
def kindSuppress : Byte := 0x04#8
def kindIndication : Byte := 0x10#8
def kindCall : Byte := 0x11#8
def kindGap : Byte := 0x12#8
def kindEvent : Byte := 0x20#8

/-- The characters of a frame: sync byte, source byte, kind, run number, length, payload, CRC high byte first (R138,
11.1). -/
def frameChars (source : Nat) (kind run : Byte) (payload : List Byte) : List Byte :=
  let body := [BitVec.ofNat 8 source, kind, run, BitVec.ofNat 8 payload.length] ++ payload
  0x5A#8 :: body ++ crcBytes (crc16 body)

/-- The frame in a list of characters, when they pass the checks of R141: the sync byte, a length of at most 32, all the
characters the length gives, and the CRC; the source address is bits 0–4 of its byte (R156). -/
def parseFrame (chars : List Byte) : Option Frame :=
  match chars with
  | sync :: src :: kind :: run :: len :: rest =>
    let n := len.toNat
    if sync = 0x5A#8 ∧ n ≤ 32 ∧ rest.length = n + 2 ∧
        rest.drop n = crcBytes (crc16 (src :: kind :: run :: len :: rest.take n)) then
      some ⟨src.truncate 5, kind, run, rest.take n⟩
    else none
  | _ => none

/-! ### Codes and payloads of the records sent (11.2) -/

def reasonCode : Reason → Byte
  | .uncoupled => 0x01#8 | .muted => 0x02#8 | .unassigned => 0x03#8 | .missed => 0x04#8 | .blocked => 0x05#8

def closureCode : Closure → Byte
  | .resumed => 0x01#8 | .changed => 0x02#8 | .full => 0x03#8 | .stopped => 0x04#8

def causeCode : ResetCause → Byte
  | .powerOn => 0x01#8 | .resetPin => 0x02#8 | .supplyLow => 0x03#8

def faultCodeByte : FaultCode → Byte
  | .format => 0x01#8 | .length => 0x02#8 | .imageCrc => 0x03#8 | .noEndMark => 0x04#8 | .entryEmpty => 0x05#8
  | .entryOverfull => 0x06#8 | .ruleCount => 0x07#8

def reporterCode : Reporter → Byte
  | .link => 0x01#8 | .origin => 0x02#8

def limitCode (upper : Bool) : Byte := if upper then 0x01#8 else 0x00#8

/-- INDICATION payload, 23 bytes. -/
def indicationPayload (r : Indication) : List Byte :=
  [BitVec.ofNat 8 r.origin] ++ bytes2 r.seq ++ [BitVec.ofNat 8 r.channel.num, railCode r.rail, BitVec.ofNat 8 r.beam] ++
  bytes4 r.xStart ++ bytes4 r.xEnd ++ bytes2 r.zMin ++ bytes2 r.zMax ++
  [BitVec.ofNat 8 r.peak, BitVec.ofNat 8 r.hits] ++ bytes2 r.spanned ++
  [BitVec.ofNat 8 (packBits [r.saturated, r.doubtful, r.gapped, r.long, r.cut])]

/-- A call member, 4 bytes. -/
def memberBytes (m : Member) : List Byte := [BitVec.ofNat 8 m.origin] ++ bytes2 m.seq ++ [BitVec.ofNat 8 m.beam]

/-- CALL payload, 22 bytes for class 0 and 26 for classes 1–3. -/
def callPayload (r : Call) : List Byte :=
  bytes2 r.seq ++ [BitVec.ofNat 8 r.cls, railCode r.rail] ++ bytes4 r.xLo ++ bytes4 r.xHi ++ bytes2 r.zLo ++
  bytes2 r.zHi ++ [BitVec.ofNat 8 r.peak,
    BitVec.ofNat 8 (packBits [r.uncertain, r.early, r.saturated, r.doubtful, r.long])] ++
  memberBytes r.first ++ (match r.second with | none => [] | some m => memberBytes m)

/-- GAP payload, 18 bytes. -/
def gapPayload (r : GapRecord) : List Byte :=
  [BitVec.ofNat 8 r.origin] ++ bytes2 r.seq ++ [BitVec.ofNat 8 r.channel.num, BitVec.ofNat 8 r.beam, railCode r.rail,
    reasonCode r.reason] ++ bytes4 r.xStart ++ bytes4 r.xEnd ++ bytes2 r.firings ++ [closureCode r.closure]

/-- The thirteen warning kinds of a channel, bit 0 first (11.2). -/
def chanWarningBits (w : ChanWarnings) : List Bool :=
  [w.port, w.clampF, w.clampM, w.disabledF, w.disabledM, w.wedge, w.coupling, w.beam, w.path, w.sine, w.cosine,
   w.offset, w.tracking]

/-- The warning set as its 20 bytes (11.2). -/
def warningBytes (w : Warnings) : List Byte :=
  [BitVec.ofNat 8 (packBits [w.encoder, w.plan, w.zoneTw, w.lmax, w.horizon, w.drain]),
   BitVec.ofNat 8 (packBits w.ruleClass)] ++ bytes2 (packBits w.portConflict) ++
  Chan.all.flatMap (fun c => bytes2 (packBits (chanWarningBits (w.chan.get c))))

/-- The fourteen counters of RUN_SUMMARY part 1, in the order of R155. -/
def summaryCounterList (c : SummaryCounters) : List Nat :=
  [c.encoderError, c.trackerOverflow, c.sparse, c.staleRun, c.unpairedDrop, c.suppressed, c.suppressOverflow,
   c.drop0, c.drop1, c.drop2, c.drop3, c.collision, c.receiveError, c.receiveOverflow]

/-- The set of addresses as 16 bits, bit a for address a. -/
def heardBits (heard : List Nat) : Nat := packBits ((List.range 16).map (fun a => heard.contains a))

/-- EVENT payload: the event code and the bytes after it. -/
def eventPayload : StationEvent → List Byte
  | .stationUp cause w => 0x01#8 :: causeCode cause :: warningBytes w
  | .configFault code entry => [0x02#8, faultCodeByte code, BitVec.ofNat 8 entry]
  | .zoneStuck => [0x03#8]
  | .zoneClear => [0x04#8]
  | .positionLimit upper => [0x05#8, limitCode upper]
  | .addressConflict r => [0x06#8, reporterCode r]
  | .runSummary1 c => 0x07#8 :: 0x01#8 :: (summaryCounterList c).flatMap bytes2
  | .runSummary2 t => [0x07#8, 0x02#8] ++ bytes2 (heardBits t.heard) ++ bytes2 t.gapTotal ++ bytes2 t.staleTotal ++
      bytes2 t.indicationSeq ++ bytes2 t.callSeq ++ bytes2 t.gapSeq

/-! ### Fields of received payloads (11.2, R157) -/

def maskOfBytes (p : List Byte) : MaskPayload := ⟨p.getD 0 0, p.getD 1 0, p.getD 2 0⟩

def suppressOfBytes (p : List Byte) : SuppressPayload := ⟨p.getD 0 0, longAt p 1, longAt p 5⟩

def indicationOfBytes (p : List Byte) : IndicationPayload :=
  { origin := p.getD 0 0, seq := BitVec.ofNat 16 (wordAt p 1), channel := p.getD 3 0, rail := p.getD 4 0,
    beam := p.getD 5 0, xStart := longAt p 6, xEnd := longAt p 10, zMin := BitVec.ofNat 16 (wordAt p 14),
    zMax := BitVec.ofNat 16 (wordAt p 16), peak := p.getD 18 0, hits := p.getD 19 0,
    spanned := BitVec.ofNat 16 (wordAt p 20), flags := p.getD 22 0 }

/-- The form check of R114 with the channel of R157; the record the payload carries when it passes. The rail byte is
judged by check 3, not here. Bits 5–7 of the flags are ignored. -/
def indicationRecord (p : IndicationPayload) : Option Indication :=
  if p.origin.toNat ≤ 15 ∧ p.xStart.toInt ≤ p.xEnd.toInt ∧ p.zMin.toNat ≤ p.zMax.toNat ∧ p.zMax.toNat ≤ 6143 ∧
      p.beam.toNat ≤ 8 ∧ p.hits.toNat ≠ 0 ∧ p.channel.toNat ≤ 7 then
    some { origin := p.origin.toNat, seq := p.seq.toNat, channel := Chan.ofNum p.channel.toNat,
           rail := if p.rail = 0x00#8 then .left else .right, beam := p.beam.toNat, xStart := p.xStart.toInt,
           xEnd := p.xEnd.toInt, zMin := p.zMin.toNat, zMax := p.zMax.toNat, peak := p.peak.toNat,
           hits := p.hits.toNat, spanned := p.spanned.toNat, saturated := p.flags.getLsbD 0,
           doubtful := p.flags.getLsbD 1, gapped := p.flags.getLsbD 2, long := p.flags.getLsbD 3,
           cut := p.flags.getLsbD 4 }
  else none

/-! ### Dispatch by kind (R144, R157) -/

/-- What the dispatcher does with the frame at the head: hands it to a block as that block's command, discards it, or
discards it for a length that does not suit its kind. -/
inductive Disposal where
  | discard
  | badLength
  | hand (block : Block) (command : Instr)
  deriving DecidableEq, Repr

/-- The disposal of a frame at a station of the given address. -/
def disposal (own : Nat) (f : Frame) : Disposal :=
  if f.kind = kindRunstart then
    if f.payload.length = 0 then .hand .runController (.runstart f.run) else .badLength
  else if f.kind = kindRunstop then
    if f.payload.length = 0 then .hand .runController (.runstop f.run) else .badLength
  else if f.kind = kindMask then
    if f.payload.length = 3 then
      if (maskOfBytes f.payload).target.toNat = own then .hand .volleySequencer (.mask (maskOfBytes f.payload))
      else .discard
    else .badLength
  else if f.kind = kindSuppress then
    if f.payload.length = 9 then .hand .correlationUnit (.suppress f.run (suppressOfBytes f.payload)) else .badLength
  else if f.kind = kindIndication then
    if f.payload.length = 23 then .hand .correlationUnit (.indication f.run (indicationOfBytes f.payload))
    else .badLength
  else .discard

/-- The queue after the frames discarded at dispatch have left its head, and how many of them were of a wrong length. -/
def discardHeads (own : Nat) : List Frame → List Frame × Nat
  | [] => ([], 0)
  | f :: fs =>
    match disposal own f with
    | .discard => discardHeads own fs
    | .badLength => ((discardHeads own fs).1, (discardHeads own fs).2 + 1)
    | .hand _ _ => (f :: fs, 0)

end Sys2Proof.Machine
end

