-- ==== Sys2Proof/Machine/Ops.lean ====
section
/-! DEFINITION. Operations shared by the blocks: handing a record to a transmit queue and taking a rank (R135, R137), station
events (R154), the address conflict report, and taking a frame from the receive queue (R144). -/

namespace Sys2Proof.Machine

/-- The number of a transmit class. -/
def TxClass.num : TxClass → Nat
  | .c0 => 0 | .c1 => 1 | .c2 => 2 | .c3 => 3

/-- Ticks in 1 µs, from the 25 MHz reference (introduction, Conventions). -/
def microsecond : Nat := 25

/-! ### Rank (R137) -/

/-- The lowest-numbered class that is not empty. -/
def lowestClass (l : Link) : Option TxClass :=
  if l.q0 ≠ [] then some .c0
  else if l.q1 ≠ [] then some .c1
  else if l.q2 ≠ [] then some .c2
  else if l.q3 ≠ [] then some .c3
  else none

/-- The rank of a class at an address: c × 16 plus the address (R137). -/
def rankOf (own : Nat) (c : TxClass) : Nat := c.num * 16 + own

/-- The transmitter takes its rank and begin time from its queues; the begin time is the later of rank × 1 µs after the
idle instant and now (R137). With no record it stays in TX_IDLE. -/
def takeRank (own : Nat) (l : Link) : Link :=
  match lowestClass l with
  | none => { l with tx := .idle, rank := none, beginIn := 0 }
  | some c => { l with tx := .defer, rank := some (rankOf own c), beginIn := rankOf own c * microsecond - l.sinceIdle }

/-- A record has arrived in a queue: a transmitter in TX_IDLE whose queues were empty at the idle instant of the current
idle takes its rank now (R137). -/
def recordArrived (own : Nat) (l : Link) : Link :=
  if l.tx = .idle ∧ l.idle = true ∧ l.rank = none then takeRank own l else l

/-! ### The bits of the frame in flight (R133) -/

/-- The levels of a frame, bit by bit: ten for each character, with no gap between characters (R133). -/
def frameLevels (chars : List Byte) : List LineLevel := chars.flatMap charLevels

/-- The level the station drives: in TX_SEND that of the bit the time since the start of the frame lies in, two bits to 25
ticks; recessive otherwise (R133). -/
def driven (l : Link) : LineLevel :=
  match l.tx, l.inFlight with
  | .send, some fl => (frameLevels fl.chars).getD ((sendTicks fl.chars - l.sendLeft) * 2 / 25) .recessive
  | _, _ => .recessive

/-- The level a shared line is left at when the station stops driving it: recessive where it drove it dominant, and
otherwise as the others leave it (R48, R54, R145; log entries 5 and 15). -/
def levelUndriven (drive level : LineLevel) : LineLevel :=
  match drive with
  | .dominant => .recessive
  | .recessive => level

/-! ### Handing a record to its queue (R135) -/

/-- Capacities of the transmit queues (9.2). -/
def cap0 : Nat := 4
def cap1 : Nat := 24
def cap2 : Nat := 32
def cap3 : Nat := 16

def offer0 (own : Nat) (r : Queued StationEvent) (l : Link) : Link :=
  if l.q0.length < cap0 then recordArrived own { l with q0 := l.q0 ++ [r] } else { l with drop0 := satAdd l.drop0 1 }

def offer1 (own : Nat) (r : Queued Call) (l : Link) : Link :=
  if l.q1.length < cap1 then recordArrived own { l with q1 := l.q1 ++ [r] } else { l with drop1 := satAdd l.drop1 1 }

def offer2 (own : Nat) (r : Queued Indication) (l : Link) : Link :=
  if l.q2.length < cap2 then recordArrived own { l with q2 := l.q2 ++ [r] } else { l with drop2 := satAdd l.drop2 1 }

def offer3 (own : Nat) (r : Queued GapRecord) (l : Link) : Link :=
  if l.q3.length < cap3 then recordArrived own { l with q3 := l.q3 ++ [r] } else { l with drop3 := satAdd l.drop3 1 }

/-- The run number of an event: 0 for STATION_UP and CONFIG_FAULT, the current run for every other (R154). -/
def eventRun (s : State) : StationEvent → Byte
  | .stationUp _ _ => 0
  | .configFault _ _ => 0
  | .zoneStuck | .zoneClear | .positionLimit _ | .addressConflict _ | .runSummary1 _ | .runSummary2 _ => s.rc.run

/-- The Run Controller places an event on the class-0 queue (R154). -/
def queueEvent (e : StationEvent) (s : State) : State :=
  s.setLink (offer0 s.own ⟨eventRun s e, e⟩ s.link)

/-- A call, an indication record and a gap record go to their queues with the current run (R135). -/
def queueCall (r : Call) (s : State) : State := s.setLink (offer1 s.own ⟨s.rc.run, r⟩ s.link)
def queueIndication (r : Indication) (s : State) : State := s.setLink (offer2 s.own ⟨s.rc.run, r⟩ s.link)
def queueGap (r : GapRecord) (s : State) : State := s.setLink (offer3 s.own ⟨s.rc.run, r⟩ s.link)

/-- An address conflict is reported: the event is queued once under the conflict flag, which is set even where the queue
refuses the record (R154). -/
def reportConflict (r : Reporter) (s : State) : State :=
  if s.rc.conflict then s
  else (queueEvent (.addressConflict r) s).setRc { s.rc with conflict := true }

/-! ### Taking a frame from the receive queue (R144) -/

/-- Service time of a frame, in ticks, by the block's use of it (R144). -/
def runService : Nat := 10 * microsecond
def maskService : Nat := 10 * microsecond
def suppressService : Nat := 50 * microsecond
def indicationService : Nat := 200 * microsecond

/-- The service time left of a block, or none when it is not busy. -/
def busyOf (l : Link) : Block → Option Nat
  | .runController => l.busyRun
  | .volleySequencer => l.busySeq
  | .correlationUnit => l.busyCorr

def setBusy (l : Link) (b : Block) (t : Option Nat) : Link :=
  match b with
  | .runController => { l with busyRun := t }
  | .volleySequencer => { l with busySeq := t }
  | .correlationUnit => { l with busyCorr := t }

/-- The frames at the head of the receive queue that are discarded at dispatch leave it; each of a wrong length raises the
receive-error counter (R144, R157). -/
def discardAtDispatch (own : Nat) (l : Link) : Link :=
  let r := discardHeads own l.rxQueue
  { l with rxQueue := r.1, receiveError := satAdd l.receiveError r.2 }

/-- The frames now at the head of the receive queue are judged for discard (R144, R157). It follows a taking once the block
has acted on the frame, since the frame behind comes to the head only after that whole step. -/
def dispatchDiscards (s : State) : State := s.setLink (discardAtDispatch s.own s.link)

/-- A block takes the frame that is its command `c`, for a service time in ticks; none when it cannot take it now. The
block is not busy, and the frame is the head of the receive queue, or it has come through an empty queue at this same
instant (log entry 7). Frames are handed on in STANDBY, RUNNING and STOPPING (R145). -/
def takeFrame (b : Block) (c : Instr) (service : Nat) (s : State) : Option State :=
  if s.operating = true ∧ busyOf s.link b = none then
    match s.link.rxQueue with
    | [] => some (s.setLink (setBusy s.link b (some service)))
    | f :: fs =>
      if disposal s.own f = .hand b c then
        some (s.setLink (setBusy { s.link with rxQueue := fs } b (some service)))
      else none
  else none

end Sys2Proof.Machine
end

