-- ==== Sys2Proof/Machine/Correlation.lean ====
section
/-! DEFINITION. Chapter 8: the correlation table, the peer table, pairing, ageing, calls and the suppression list; the
meanings of INDICATION and SUPPRESS. -/

namespace Sys2Proof.Machine

def tableCap : Nat := 48
def spanCap : Nat := 8

/-- (origin, seq) of an entry. -/
def idOf (r : Indication) : IndicationId := ⟨r.origin, r.seq⟩

def memberOf (r : Indication) : Member := ⟨r.origin, r.seq, r.beam⟩

/-! ### Calls (R125) -/

/-- The extent lies wholly within one span. -/
def withinSpan (spans : List Span) (lo hi : Int) : Bool := spans.any (fun sp => decide (sp.a ≤ lo ∧ hi ≤ sp.b))

/-- The call record over one or two members (8.7, R125). -/
def callRecord (seq cls : Nat) (rail : Rail) (a : Indication) (b : Option Indication) (uncertain early : Bool) : Call :=
  match b with
  | none =>
    { seq := seq, cls := cls, rail := rail, xLo := a.xStart, xHi := a.xEnd, zLo := a.zMin, zHi := a.zMax,
      peak := a.peak, first := memberOf a, second := none, uncertain := uncertain, early := early,
      saturated := a.saturated, doubtful := a.doubtful, long := a.long }
  | some b =>
    { seq := seq, cls := cls, rail := rail, xLo := min a.xStart b.xStart, xHi := max a.xEnd b.xEnd,
      zLo := min a.zMin b.zMin, zHi := max a.zMax b.zMax, peak := max a.peak b.peak, first := memberOf a,
      second := some (memberOf b), uncertain := uncertain, early := early,
      saturated := a.saturated || b.saturated, doubtful := a.doubtful || b.doubtful, long := a.long || b.long }

/-- A call is built: it consumes a call sequence number, and is held back by suppression or handed to class 1 (R125). -/
def buildCall (cls : Nat) (a : Indication) (b : Option Indication) (uncertain early : Bool) (s : State) : State :=
  let call := callRecord s.corr.callSeq cls s.rail a b uncertain early
  let s1 := s.setCorr { s.corr with callSeq := nextSeq s.corr.callSeq }
  if withinSpan s.corr.spans call.xLo call.xHi then
    s1.setCorr { s1.corr with suppressed := satAdd s1.corr.suppressed 1 }
  else queueCall call s1

/-! ### Leaving the table (R117, R122, R123) -/

def isOwn (s : State) (e : Entry) : Bool := decide (e.ind.origin = s.own)

/-- The effect of an entry that leaves by expiry, or forced out when `early` (R123, R117). -/
def leaveEffect (early : Bool) (s : State) (e : Entry) : State :=
  if isOwn s e = true ∧ e.partner = none then
    if inBeams s.cfg.single e.ind.beam then
      buildCall 0 e.ind none (decide (s.corr.epoch ≠ e.epoch)) early s
    else s.setCorr { s.corr with unpairedDrop := satAdd s.corr.unpairedDrop 1 }
  else s

/-- The entry's far end is more than H behind the frontier (R122). -/
def aged (horizon : Nat) (front : Int) (e : Entry) : Bool := decide (e.ind.xEnd + horizon < front)

/-- An increase of the frontier ages the table, then the suppression list (R122, R127). -/
def frontierIncrease (front : Int) (s : State) : State :=
  let gone := s.corr.table.filter (aged s.cfg.horizon front)
  let s1 := s.setCorr { s.corr with table := s.corr.table.filter (fun e => !aged s.cfg.horizon front e) }
  let s2 := gone.foldl (leaveEffect false) s1
  s2.setCorr { s2.corr with spans := s2.corr.spans.filter (fun sp => !decide (sp.b + s.cfg.horizon < front)) }

/-- The oldest entry of a full table is forced out (R117). -/
def forceOut (s : State) : State :=
  match s.corr.table with
  | [] => s
  | e :: es => leaveEffect true (s.setCorr { s.corr with table := es }) e

/-! ### Pairing (R119, R120) -/

/-- Gap between two extents along the track, 0 where they overlap. -/
def gapX (a b : Indication) : Int := max 0 (max a.xStart b.xStart - min a.xEnd b.xEnd)

/-- Gap between two depth ranges, 0 where they overlap. -/
def gapZ (a b : Indication) : Int := max 0 ((max a.zMin b.zMin : Nat) - (min a.zMax b.zMax : Nat) : Int)

/-- A pairing rule matches two indications (R119). -/
def ruleMatches (n e : Indication) (r : PairRule) : Bool :=
  ((inBeams r.setA n.beam && inBeams r.setB e.beam) || (inBeams r.setB n.beam && inBeams r.setA e.beam)) &&
  decide (gapX n e ≤ r.dx) && decide (gapZ n e ≤ r.dz)

/-- The lowest-numbered rule that pairs a new indication with a table entry, if the entry is UNPAIRED and the two are not
of one origin and channel (R119). -/
def pairRule (rules : List PairRule) (n : Indication) (e : Entry) : Option PairRule :=
  if e.partner = none ∧ ¬(e.ind.origin = n.origin ∧ e.ind.channel = n.channel) then
    rules.find? (ruleMatches n e.ind)
  else none

/-- The pairing search, oldest entry first: the entries before the match, the match, its rule, the entries after it. -/
def pairSearch (rules : List PairRule) (n : Indication) : List Entry → Option (List Entry × Entry × PairRule × List Entry)
  | [] => none
  | e :: es =>
    match pairRule rules n e with
    | some r => some ([], e, r, es)
    | none =>
      match pairSearch rules n es with
      | none => none
      | some (pre, x, r, post) => some (e :: pre, x, r, post)

/-- The new entry is placed last and searched against the entries already there; a pair whose lower origin is this station
is called here (R113, R119, R120). -/
def insertPaired (n : Indication) (s : State) : State :=
  let fresh : Entry := ⟨n, none, false, s.corr.epoch⟩
  match pairSearch s.cfg.rules n s.corr.table with
  | none => s.setCorr { s.corr with table := s.corr.table ++ [fresh] }
  | some (pre, e, r, post) =>
    let mine := decide (min e.ind.origin n.origin = s.own)
    let e' : Entry := { e with partner := some (idOf n), issued := mine && isOwn s e }
    let n' : Entry := { fresh with partner := some (idOf e.ind), issued := mine && isOwn s fresh }
    let s1 := s.setCorr { s.corr with table := pre ++ e' :: post ++ [n'] }
    if mine then buildCall r.cls e.ind (some n) false false s1 else s1

/-- Insertion of a record, the oldest entry first forced out of a full table (R113, R117). -/
def insertRecord (n : Indication) (s : State) : State :=
  insertPaired n (if tableCap ≤ s.corr.table.length then forceOut s else s)

/-! ### Peer table (R115, R116) -/

def peerOf (s : State) (a : Nat) : PeerEntry := s.corr.peers.getD a PeerEntry.afterReset

/-- The sequence check on a peer's entry: whether the record is accepted, the entry after it, and whether the rail gap
epoch rises (R115). -/
def sequenceCheck (p : PeerEntry) (seq : Nat) : Bool × PeerEntry × Bool :=
  let q : PeerEntry := if p.seen then p else { p with seen := true, valid := false }
  let d := (seq + 65536 - q.lastSeq) % 65536
  if q.valid = false then (true, { q with lastSeq := seq, valid := true }, false)
  else if d = 0 then (false, q, false)
  else if d = 1 then (true, { q with lastSeq := seq }, false)
  else if d ≤ 32767 then (true, { q with lastSeq := seq, gapCount := satAdd q.gapCount (d - 1) }, true)
  else (false, { q with staleCount := satAdd q.staleCount 1 }, false)

/-- Check 4 of R114 on the station. -/
def peerCheck (origin seq : Nat) (s : State) : Bool × State :=
  let r := sequenceCheck (peerOf s origin) seq
  (r.1, s.setCorr { s.corr with
    peers := s.corr.peers.set origin r.2.1
    epoch := if r.2.2 then nextEpoch s.corr.epoch else s.corr.epoch })

/-- An overflow of the receive queue is reported: the epoch rises (R116, R143), in STANDBY too, where R131 has it hold until
the next run start (DESIGN CHOICE, log entry 22). -/
def overflowReport (s : State) : State := s.setCorr { s.corr with epoch := nextEpoch s.corr.epoch }

/-- A peer's record of the current run reaches the table: checks 2 to 5 of R114. -/
def peerRecord (railByte : Byte) (r : Indication) (s : State) : State :=
  if r.origin = s.own then reportConflict .origin s
  else if railByte ≠ railCode s.rail then s
  else
    let c := peerCheck r.origin r.seq s
    if c.1 = false then c.2
    else if c.2.corr.table.any (fun e => decide (idOf e.ind = idOf r)) then c.2
    else insertRecord r c.2

/-- An INDICATION frame taken by the unit: the form check, then the five checks in order (R114, R157). -/
def indicationTaken (run : Byte) (p : IndicationPayload) (s : State) : State :=
  match indicationRecord p with
  | none => s
  | some r =>
    if s.inRun = false then s
    else if run ≠ s.rc.run then s.setCorr { s.corr with staleRun := satAdd s.corr.staleRun 1 }
    else peerRecord p.rail r s

/-! ### Suppression list (R126) -/

/-- The span overlaps [a, b] or is adjacent to it (R126). -/
def touches (x : Span) (sp : Span) : Bool := decide (sp.a ≤ x.b + 1 ∧ x.a ≤ sp.b + 1)

/-- One span from the least start to the greatest end of the new span and those it touches. -/
def hullSpan (x : Span) (taken : List Span) : Span :=
  taken.foldl (fun acc sp => ⟨min acc.a sp.a, max acc.b sp.b⟩) x

/-- Insertion in order of start. -/
def insertSpan (x : Span) : List Span → List Span
  | [] => [x]
  | sp :: rest => if x.a ≤ sp.a then x :: sp :: rest else sp :: insertSpan x rest

/-- The list after a span is merged into it (R126). -/
def mergeSpan (x : Span) (spans : List Span) : List Span :=
  insertSpan (hullSpan x (spans.filter (touches x))) (spans.filter (fun sp => !touches x sp))

/-- A SUPPRESS frame taken by the unit (R126). The run number is judged before the rail, and the rail before the span (DEDUCED
from the order of R126, log entry 21). -/
def suppressTaken (run : Byte) (p : SuppressPayload) (s : State) : State :=
  if s.rc.runState ≠ .running then s
  else if run ≠ s.rc.run then s.setCorr { s.corr with staleRun := satAdd s.corr.staleRun 1 }
  else if p.rail ≠ railCode s.rail then s
  else if p.b.toInt < p.a.toInt then s
  else
    let merged := mergeSpan ⟨p.a.toInt, p.b.toInt⟩ s.corr.spans
    if spanCap < merged.length then
      s.setCorr { s.corr with suppressOverflow := satAdd s.corr.suppressOverflow 1 }
    else s.setCorr { s.corr with spans := merged }

/-! ### Run life (R129, R131) -/

/-- At a run start (R129). -/
def correlationRunStart (c : Correlation) : Correlation :=
  { table := [], callSeq := 0, spans := [],
    peers := c.peers.map (fun p => { p with valid := false, gapCount := 0, staleCount := 0 }),
    epoch := 0, staleRun := 0, unpairedDrop := 0, suppressed := 0, suppressOverflow := 0 }

/-- At the end of the drain: own UNPAIRED entries leave as if expiring, then the table and the list are emptied (R131). -/
def correlationDrainEnd (s : State) : State :=
  let s1 := s.corr.table.foldl (leaveEffect false) (s.setCorr { s.corr with table := [] })
  s1.setCorr { s1.corr with spans := [] }

/-! ### Meanings -/

/-- SUPPRESS (R126, R144). -/
def execSuppress (run : Byte) (p : SuppressPayload) (s : State) : Host.Outcome State Fault Refusal :=
  .next (match takeFrame .correlationUnit (.suppress run p) suppressService s with
    | none => s
    | some s' => dispatchDiscards (suppressTaken run p s'))

/-- INDICATION (R114, R144). -/
def execIndication (run : Byte) (p : IndicationPayload) (s : State) : Host.Outcome State Fault Refusal :=
  .next (match takeFrame .correlationUnit (.indication run p) indicationService s with
    | none => s
    | some s' => dispatchDiscards (indicationTaken run p s'))

end Sys2Proof.Machine
end

