-- ==== Sys2Proof/Machine/LinkControl.lean ====
section
/-! DEFINITION. Chapter 9: the idle judgement, the transmitter, the receiver, the receive queue and dispatch; the meanings of
the carriage link's commands. -/

namespace Sys2Proof.Machine

/-- Ticks of recessive link that make it idle: 12 bit times, 6 µs (R134). -/
def idleTicks : Nat := 6 * microsecond

/-- Capacity of the receive queue (R143). -/
def rxCap : Nat := 16

/-! ### Level and idle (R134, R141) -/

/-- A start edge: a character begins (R133). -/
def startEdge (g : Gathering) : Gathering := { g with since := some 0, bits := [] }

/-- A dominant level: the link is busy. A receiver in RX_HUNT takes it as the start bit of a frame's first character, and one
in RX_FRAME that is not inside a character takes a change to it as the start bit of the next (R133, R134, R141). -/
def linkDominant (l : Link) : Link :=
  let l1 := { l with level := .dominant, idle := false, recessiveTime := 0 }
  match l.rx with
  | .hunt => { l1 with rx := .frame, gather := startEdge Gathering.empty }
  | .frame =>
    if l.level = .recessive ∧ l.gather.since = none then { l1 with gather := startEdge l.gather } else l1
  | .off | .skip => l1

/-- The link carries the given level. -/
def linkLevel (level : LineLevel) (l : Link) : Link :=
  match level with
  | .dominant => linkDominant l
  | .recessive => { l with level := .recessive }

/-- The receiver at an idle instant: a frame not complete fails as idle before complete, and the receiver hunts again
(R141; log entry 9). -/
def receiverIdle (l : Link) : Link :=
  match l.rx with
  | .off => l
  | .hunt => l
  | .skip => { l with rx := .hunt }
  | .frame => { l with rx := .hunt, gather := Gathering.empty, receiveError := satAdd l.receiveError 1 }

/-- The transmitter at an idle instant: in TX_IDLE or TX_DEFER it takes its rank (R137). -/
def transmitterIdle (own : Nat) (l : Link) : Link :=
  match l.tx with
  | .idle | .defer => takeRank own { l with sinceIdle := 0 }
  | .off | .send => l

/-- The idle instant (R134, R137, R141). A LINK_IDLE_INSTANT given while the state's level is dominant is taken at its word,
and the link as recessive (DESIGN CHOICE, log entry 12). -/
def idleInstant (own : Nat) (l : Link) : Link :=
  transmitterIdle own (receiverIdle
    { l with level := .recessive, idle := true, recessiveTime := idleTicks, sinceIdle := 0 })

/-- The link has been recessive for 6 µs and is not judged idle yet: its idle instant has come (R134). -/
def dueLinkIdle (s : State) : Bool :=
  s.linkOn && decide (s.link.tx ≠ .send ∧ s.link.idle = false ∧ s.link.level = .recessive ∧
    idleTicks ≤ s.link.recessiveTime)

/-- The link goes dominant from outside. A link that has been recessive for 6 µs is idle at that edge, so an idle instant
still due is taken first: the transmitter takes its rank, and the edge is the start bit of a frame's first character (R134,
R137, R141). -/
def linkEdge (s : State) : State :=
  let l := if dueLinkIdle s then idleInstant s.own s.link else s.link
  s.setLink (linkDominant l)

/-- Another node changes the link's level; in LOADING the link is not judged, and only its level is known (R134, R141). -/
def linkLevelGiven (level : LineLevel) (s : State) : State :=
  if s.linkOn then
    match level with
    | .dominant => linkEdge s
    | .recessive => s.setLink (linkLevel .recessive s.link)
  else s.setLink { s.link with level := level }

/-! ### The link under the frame in flight (R133, R139) -/

/-- The link follows the station's drive where that changes from `before`: a bit driven dominant makes it dominant, and one
left recessive lets it go (log entry 5: unless LINK_LEVEL_CHANGE says that another node drives it). -/
def followDrive (before : LineLevel) (l : Link) : Link :=
  if driven l = before then l
  else
    match driven l with
    | .dominant => linkDominant l
    | .recessive => { l with level := .recessive, recessiveTime := 0 }

/-- The level a mismatching bit reads: the other of the two from the one driven (R139). -/
def mismatched (l : Link) : LineLevel :=
  match driven l with
  | .dominant => .recessive
  | .recessive => .dominant

/-! ### Transmitter (R137 to R139) -/

/-- The frame of the record at the head of the lowest-numbered class that is not empty (R138). -/
def headFrame (own : Nat) (l : Link) : Option InFlight :=
  match l.q0, l.q1, l.q2, l.q3 with
  | r :: _, _, _, _ => some ⟨.c0, frameChars own kindEvent r.run (eventPayload r.item), false⟩
  | [], r :: _, _, _ => some ⟨.c1, frameChars own kindCall r.run (callPayload r.item), false⟩
  | [], [], r :: _, _ => some ⟨.c2, frameChars own kindIndication r.run (indicationPayload r.item), false⟩
  | [], [], [], r :: _ => some ⟨.c3, frameChars own kindGap r.run (gapPayload r.item), false⟩
  | [], [], [], [] => none

/-- The begin time of a deferring transmitter: it begins if the link has stayed idle, and its start bit makes the link
dominant; otherwise it returns to TX_IDLE (R137, R138). With every queue flushed since it took its rank it has nothing to
send, and returns to TX_IDLE without a rank (log entry 10). An edge of the same tick that is given before BEGIN_TIME counts as
another node's beginning (DESIGN CHOICE, log entry 12). -/
def beginSending (own : Nat) (l : Link) : Link :=
  if l.idle then
    match headFrame own l with
    | some fl => linkDominant { l with tx := .send, inFlight := some fl, beginIn := 0, sendLeft := sendTicks fl.chars }
    | none => { l with tx := .idle, rank := none, beginIn := 0 }
  else { l with tx := .idle, beginIn := 0 }

/-- The head record of a class leaves its queue. -/
def dropHead (c : TxClass) (l : Link) : Link :=
  match c with
  | .c0 => { l with q0 := l.q0.drop 1 }
  | .c1 => { l with q1 := l.q1.drop 1 }
  | .c2 => { l with q2 := l.q2.drop 1 }
  | .c3 => { l with q3 := l.q3.drop 1 }

/-- The drop counter of a class rises by 1. -/
def countDrop (c : TxClass) (l : Link) : Link :=
  match c with
  | .c0 => { l with drop0 := satAdd l.drop0 1 }
  | .c1 => { l with drop1 := satAdd l.drop1 1 }
  | .c2 => { l with drop2 := satAdd l.drop2 1 }
  | .c3 => { l with drop3 := satAdd l.drop3 1 }

/-- The transmitter is back in TX_IDLE with no frame in flight. -/
def sendingOver (l : Link) : Link := { l with tx := .idle, inFlight := none, sendLeft := 0 }

/-- The frame in flight is complete: its record leaves its queue. The receiver in RX_FRAME has gathered it to the same stop
bit: the station's own good frame is dropped without entry or count, and the receiver waits for idle (R138, R141, R142; log
entry 14). The recessive time counts from the end of the stop bit (9.3, worked sequence; log entry 6), and a level that another
node has made dominant since that bit was read stays (R134); only the station's own drive is taken off the link. -/
def frameSent (l : Link) : Link :=
  match l.inFlight with
  | none => l
  | some fl =>
    { sendingOver (dropHead fl.cls l) with
      level := levelUndriven (driven l) l.level, recessiveTime := 0, rx := if l.rx = .frame then .skip else l.rx,
      gather := Gathering.empty }

/-- The frame in flight is abandoned on a readback mismatch; its record stays at the head, unless a run has started since
it began. The link carries the level that was read: dominant where a recessive bit was overridden, recessive where the driver
failed, and the recessive time then runs (R139, R136, R134; log entry 19). The receiver goes on as it stands: one in RX_FRAME
ends the character in progress and gathers on, and at each character's end the recessive time starts again (tickReceiver; DESIGN
CHOICE, log entry 6); in any other receiver state it counts from the last dominant level. -/
def frameAbandoned (l : Link) : Link :=
  match l.inFlight with
  | none => l
  | some fl =>
    let l1 := linkLevel (mismatched l) (sendingOver { l with collision := satAdd l.collision 1 })
    if fl.flushed then countDrop fl.cls (dropHead fl.cls l1) else l1

/-! ### Receiver (R141 to R143) -/

/-- The middle of bit k, in ticks from the edge its bits are timed from: the first tick at or after 12.5 k + 6.25 (log
entry 6). -/
def bitMiddle (k : Nat) : Nat := (50 * k + 28) / 4

/-- Ticks of a character, ten bits: 5 µs (R133). -/
def charTicks : Nat := 5 * microsecond

/-- The byte of a character's levels, start bit first: a recessive data bit is a 1, the least significant bit comes first
(R133). -/
def charByte (bits : List LineLevel) : Byte :=
  BitVec.ofNat 8 (packBits (((bits.drop 1).take 8).map (fun b => decide (b = .recessive))))

/-- A tick inside a character, `n` ticks after its start edge: the level is read at the middle of each of its ten bits
(R133). -/
def readBit (level : LineLevel) (n : Nat) (g : Gathering) : Gathering :=
  if n = bitMiddle g.bits.length ∧ g.bits.length < 10 then { g with since := some n, bits := g.bits ++ [level] }
  else { g with since := some n }

/-- The end of a character: its byte joins the frame, and the next dominant change is a start edge (R133). -/
def endChar (g : Gathering) : Gathering := ⟨none, [], g.chars ++ [charByte g.bits]⟩

/-- The receiver after a tick: in RX_FRAME it reads the bits of the character in progress. The recessive time starts again at
0 at the end of every character gathered, so that a stretch of fewer than 12 bit times between characters is accepted; the same
holds of a frame that this station has abandoned, which the receiver goes on gathering (R133, R139; DESIGN CHOICE, log entry
6). -/
def tickReceiver (l : Link) : Link :=
  match l.rx, l.gather.since with
  | .frame, some m =>
    if m + 1 < charTicks then { l with gather := readBit l.level (m + 1) l.gather }
    else { l with recessiveTime := 0, gather := endChar l.gather }
  | _, _ => l

/-- What the checks say of the frame as it is gathered so far: a dominant stop bit, a first character that is not the sync
byte, a length above 32, and at the last character the CRC, or a good frame; none while nothing is settled (R133, R141). -/
def receptionVerdict (g : Gathering) : Option Instr :=
  if g.bits.getD 9 .recessive = .dominant then some (.receiveError .framing)
  else if g.chars.headD 0x5A#8 ≠ 0x5A#8 then some (.receiveError .sync)
  else if 32 < (g.chars.getD 4 0).toNat then some (.receiveError .length)
  else if g.chars.length < 7 + (g.chars.getD 4 0).toNat then none
  else if (parseFrame g.chars).isSome then some (.frameReceived g.chars)
  else some (.receiveError .crc)

/-- The receiver waits for idle. -/
def receiverSkips (l : Link) : Link := { l with rx := .skip, gather := Gathering.empty }

/-- The frame being gathered is discarded by a check (R141). The recessive time goes on from the last dominant level, or from
the end of the last character gathered (DESIGN CHOICE, log entry 6). -/
def receptionFails (l : Link) : Link := receiverSkips { l with receiveError := satAdd l.receiveError 1 }

/-- A good frame enters the receive queue, or one is lost to its overflow (R143). -/
def enterReceiveQueue (f : Frame) (s : State) : State :=
  if s.link.rxQueue.length < rxCap then s.setLink { s.link with rxQueue := s.link.rxQueue ++ [f] }
  else
    overflowReport (s.setLink { s.link with
      rxQueue := if s.cfg.dropOldest then s.link.rxQueue.drop 1 ++ [f] else s.link.rxQueue
      receiveOverflow := satAdd s.link.receiveOverflow 1 })

/-- A good frame that is not this station's own: an address conflict, or a frame for the queue and the dispatcher (R142 to
R144). -/
def acceptFrame (f : Frame) (s : State) : State :=
  if f.source.toNat = s.own then reportConflict .link s
  else
    let s1 := enterReceiveQueue f s
    dispatchDiscards s1

/-- The last stop bit of a frame: the checks of R141, then R142 to R144; in FAULTED a good frame is discarded (R145). The
recessive time starts again at the end of a good frame's stop bit; after a frame that fails it goes on from the last dominant
level, or from the end of the last character gathered (DESIGN CHOICE, log entry 6). The level stays as the line has it: a line
that is dominant by then falls idle only after it goes recessive (R134). -/
def frameEnds (chars : List Byte) (s : State) : State :=
  match parseFrame chars with
  | none => s.setLink (receptionFails s.link)
  | some f =>
    let s1 := s.setLink { receiverSkips s.link with recessiveTime := 0 }
    if s.operating = false ∨ s.link.tx = .send then s1 else acceptFrame f s1

/-! ### Service time (R144) -/

/-- A block's service time ends, and the head of the receive queue may be discarded at dispatch or taken next (R144). -/
def serviceEnded (b : Block) (s : State) : State :=
  dispatchDiscards (s.setLink (setBusy s.link b none))

/-! ### Meanings -/

/-- LINK_LEVEL_CHANGE (R134, R141). -/
def execLinkLevelChange (level : LineLevel) (s : State) : Host.Outcome State Fault Refusal := .next (linkLevelGiven level s)

/-- LINK_IDLE_INSTANT (R134, R137, R141): not while the station's own frame is on the link. -/
def execLinkIdleInstant (s : State) : Host.Outcome State Fault Refusal :=
  .next (if s.linkOn = true ∧ s.link.tx ≠ .send then s.setLink (idleInstant s.own s.link) else s)

/-- BEGIN_TIME (R137, R138). -/
def execBeginTime (s : State) : Host.Outcome State Fault Refusal :=
  .next (if s.link.tx = .defer then s.setLink (beginSending s.own s.link) else s)

/-- FRAME_COMPLETE (R138). -/
def execFrameComplete (s : State) : Host.Outcome State Fault Refusal :=
  .next (if s.link.tx = .send then s.setLink (frameSent s.link) else s)

/-- READBACK_MISMATCH (R139). -/
def execReadbackMismatch (s : State) : Host.Outcome State Fault Refusal :=
  .next (if s.link.tx = .send then s.setLink (frameAbandoned s.link) else s)

/-- RECEIVE_ERROR (R141): every check discards the frame in the same way. -/
def execReceiveError (_check : ReceptionCheck) (s : State) : Host.Outcome State Fault Refusal :=
  .next (if s.link.rx = .frame then s.setLink (receptionFails s.link) else s)

/-- FRAME_RECEIVED (R141 to R145). -/
def execFrameReceived (chars : List Byte) (s : State) : Host.Outcome State Fault Refusal :=
  .next (if s.link.rx = .frame then frameEnds chars s else s)

/-- SERVICE_TIME_END (R144). -/
def execServiceTimeEnd (b : Block) (s : State) : Host.Outcome State Fault Refusal :=
  .next (if (busyOf s.link b).isSome then serviceEnded b s else s)

end Sys2Proof.Machine
end

