-- ==== Sys2Proof/Machine/Load.lean ====
section
/-! DEFINITION. The load of the configuration image: the checks of R147 in order (R159), the fields of 11.4, and the
corrections and warnings of the rules that own them (R1, R19, R21, R39, R55 to R58, R71, R85, R95, R112, R147). -/

namespace Sys2Proof.Machine

/-- A corrected value, and whether the correction records a warning. -/
structure Corrected where
  value : Nat
  warned : Bool
  deriving DecidableEq, Repr

def imageSize : Nat := 477

/-- Offset of the channel record of a channel, and of a pairing rule (11.4). -/
def chanOffset (c : Chan) : Nat := 0x089 + 0x21 * c.num
def ruleOffset (i : Nat) : Nat := 0x194 + 8 * i

/-! ### Corrections -/

/-- A value brought up to a least value, with a warning. -/
def atLeast (lo n : Nat) : Corrected := ⟨max lo n, decide (n < lo)⟩

/-- A value brought down to a greatest value, with a warning. -/
def atMost (hi n : Nat) : Corrected := ⟨min hi n, decide (hi < n)⟩

/-- A value brought within a range, with a warning. -/
def within (lo hi n : Nat) : Corrected := ⟨min hi (max lo n), decide (n < lo ∨ hi < n)⟩

/-- The greatest of 1, 2, 4 and 8 that does not exceed the divider; 0 is taken as 1 (R19). -/
def fitDivider (n : Nat) : Corrected :=
  let v := if 8 ≤ n then 8 else if 4 ≤ n then 4 else if 2 ≤ n then 2 else 1
  ⟨v, decide (v ≠ n)⟩

/-- The greatest of 1, 2, 3, 4, 6 and 8 that does not exceed the qualification count; 0 is taken as 1 (R55). -/
def fitQ (n : Nat) : Corrected :=
  let v := if 8 ≤ n then 8 else if 6 ≤ n then 6 else if 4 ≤ n then 4 else if 3 ≤ n then 3 else if 2 ≤ n then 2 else 1
  ⟨v, decide (v ≠ n)⟩

/-! ### Firing plan (R19) -/

/-- Offset of plan entry e (11.4). -/
def entryOffset (e : Nat) : Nat := 0x008 + 4 * e

/-- The end-of-cycle mark of plan entry e. -/
def endMark (im : List Byte) (e : Nat) : Bool := bitAt im (entryOffset e + 3) 7

def entryChans (im : List Byte) (e : Nat) : ChanSet := BitVec.ofNat 8 (byteAt im (entryOffset e))

/-- The number of plan entries up to and including the first marked one; none where no entry is marked (R19). -/
def planLength (im : List Byte) : Option Nat :=
  ((List.range 32).find? (endMark im)).map (· + 1)

/-- The first plan entry with an empty or overfull channel set (R147, check 5). -/
def entryFault (im : List Byte) (len : Nat) : Option (FaultCode × Nat) :=
  (List.range len).findSome? (fun e =>
    if (chansOf (entryChans im e)).length = 0 then some (FaultCode.entryEmpty, e)
    else if 4 < (chansOf (entryChans im e)).length then some (FaultCode.entryOverfull, e)
    else none)

/-- A plan entry as corrected, and whether a correction was made (R19). -/
def readEntry (im : List Byte) (e : Nat) : PlanEntry × Bool :=
  let hold := within 10 250 (byteAt im (entryOffset e + 1))
  let divider := fitDivider (byteAt im (entryOffset e + 2))
  let phase := byteAt im (entryOffset e + 3) % 128
  (⟨entryChans im e, hold.value, divider.value, phase % divider.value⟩,
   hold.warned || divider.warned || decide (divider.value ≤ phase))

def readPlan (im : List Byte) (len : Nat) : List (PlanEntry × Bool) := (List.range len).map (readEntry im)

/-! ### Ports (R21) -/

/-- A port field: TP0–TP11, none, or an unknown value taken as none with a warning (R21, R159). -/
def readPort (n : Nat) : Option Nat × Bool :=
  if n < 12 then (some n, false) else (none, decide (n ≠ 0xFF))

def rawPort (im : List Byte) (c : Chan) : Option Nat × Bool := readPort (byteAt im (chanOffset c))

/-- Two or more channels name the port (R21). -/
def portConflict (im : List Byte) (port : Nat) : Bool :=
  decide (2 ≤ (Chan.all.filter (fun c => decide ((rawPort im c).1 = some port))).length)

/-- The port of a channel, none where it is named by another channel too (R21). -/
def fitPort (im : List Byte) (c : Chan) : Option Nat :=
  match (rawPort im c).1 with
  | none => none
  | some p => if portConflict im p then none else some p

/-! ### Gates (R55 to R58) -/

/-- The shortest hold of the plan entries that name a channel, in µs (R56). -/
def shortestHold (plan : List PlanEntry) (c : Chan) : Option Nat :=
  ((plan.filter (fun e => inSet e.chans c)).map (fun e => e.hold)).min?

/-- A gate end brought within 6143 and within the shortest hold (R55, R56). -/
def fitEnd (hold : Option Nat) (n : Nat) : Corrected :=
  let v := match hold with
    | none => min 6143 n
    | some h => min (25 * h) (min 6143 n)
  ⟨v, decide (v ≠ n)⟩

/-- A gate threshold (R55). -/
def fitThreshold (n : Nat) : Corrected := within 1 254 n

/-- An F gate as corrected, and its GATE_CLAMP and GATE_DISABLED warnings (R55 to R58). -/
def readF (im : List Byte) (off : Nat) (hold : Option Nat) (wedge : Nat) : FGate × Bool × Bool :=
  let start := wordAt im (off + 0x01)
  let stop := fitEnd hold (wordAt im (off + 0x03))
  let threshold := fitThreshold (byteAt im (off + 0x05))
  let q := fitQ (byteAt im (off + 0x06))
  let raised := max start wedge
  let on := decide (raised < stop.value)
  (⟨on, raised, stop.value, threshold.value, q.value, bitAt im (off + 0x07) 0⟩,
   stop.warned || threshold.warned || q.warned || decide (start < wedge), !on)

/-- An M gate as corrected, and its warnings; one disabled in the image is not read and records none (R55, R56, R58). -/
def readM (im : List Byte) (off : Nat) (hold : Option Nat) : MGate × Bool × Bool :=
  if bitAt im (off + 0x0E) 0 then (MGate.cleared, false, false)
  else
    let start := wordAt im (off + 0x08)
    let stop := fitEnd hold (wordAt im (off + 0x0A))
    let threshold := fitThreshold (byteAt im (off + 0x0C))
    let q := fitQ (byteAt im (off + 0x0D))
    let on := decide (start < stop.value)
    (⟨on, start, stop.value, threshold.value, q.value⟩, stop.warned || threshold.warned || q.warned, !on)

/-! ### A channel record -/

/-- The parameters of a channel as corrected, and its warnings (R21, R55 to R58, R71, R85, R95). -/
def readChan (im : List Byte) (plan : List PlanEntry) (c : Chan) : ChanParams × ChanWarnings :=
  let off := chanOffset c
  let hold := shortestHold plan c
  let wedge := atMost 1023 (wordAt im (off + 0x0F))
  let f := readF im off hold wedge.value
  let m := readM im off hold
  let kd := atLeast 1 (byteAt im (off + 0x12) % 16)
  let kl := atLeast 1 (byteAt im (off + 0x12) / 16)
  let kr := atLeast 1 (byteAt im (off + 0x13) % 16)
  let beam := atMost 8 (byteAt im (off + 0x14) % 16)
  let k := atLeast 1 (wordAt im (off + 0x15))
  let sQ := atMost 32767 (wordAt im (off + 0x17))
  let cQ := atMost 32767 (wordAt im (off + 0x19))
  let o := signed16 (wordAt im (off + 0x1B))
  let g := atLeast 1 (byteAt im (off + 0x1F) % 16)
  let nmin := atLeast 1 (byteAt im (off + 0x20) % 32)
  ({ port := fitPort im c, f := f.1, m := m.1, wedge := wedge.value,
     source := Chan.ofNum (byteAt im (off + 0x11) % 8), kd := kd.value, kl := kl.value, kr := kr.value,
     beam := beam.value, k := k.value, sQ := sQ.value, cQ := cQ.value, offset := max (-32767) o,
     tx := byteAt im (off + 0x1D), tz := byteAt im (off + 0x1E), g := g.value, nmin := nmin.value },
   { port := (rawPort im c).2, clampF := f.2.1, clampM := m.2.1, disabledF := f.2.2, disabledM := m.2.2,
     wedge := wedge.warned, coupling := kd.warned || kl.warned || kr.warned, beam := beam.warned, path := k.warned,
     sine := sQ.warned, cosine := cQ.warned, offset := decide (o = -32768), tracking := g.warned || nmin.warned })

/-! ### Correlation and the rest -/

/-- The beam set of a two-byte field: bits 9–15 are ignored (R158). -/
def readBeams (im : List Byte) (off : Nat) : BeamSet := BitVec.ofNat 9 (wordAt im off)

/-- Pairing rule i, counted from 0, and its RULE_CLASS warning (R112). -/
def readRule (im : List Byte) (i : Nat) : PairRule × Bool :=
  let off := ruleOffset i
  let cls := atLeast 1 (byteAt im (off + 7) % 4)
  (⟨readBeams im off, readBeams im (off + 2), wordAt im (off + 4) % 1024, byteAt im (off + 6), cls.value⟩, cls.warned)

/-- The counting mode field; its fourth code is taken as X4 (R1). -/
def readMode (n : Nat) : CountMode :=
  match n with
  | 0 => .x1
  | 1 => .x2
  | _ => .x4

/-- The configuration as corrected, and the warning set (R147). -/
def readImage (im : List Byte) (len : Nat) : Params × Warnings :=
  let p := atLeast 1 (byteAt im 0x003)
  let modeField := byteAt im 0x004 / 2 % 4
  let s := atLeast 1 (wordAt im 0x005)
  let d := within 4 60 (byteAt im 0x007)
  let plan := readPlan im len
  let entries := plan.map Prod.fst
  let tw := atLeast 1 (byteAt im 0x088)
  let chans := PerChan.ofFn (fun c => readChan im entries c)
  let lmax := atLeast 16 (wordAt im 0x191 % 4096)
  let count := byteAt im 0x193
  let horizon := within 2000 80000 (tripleAt im 0x1D4 % 131072)
  let drain := atLeast 1 (byteAt im 0x1DA)
  ({ p := p.value, n := if bitAt im 0x004 0 then 8 else 4, mode := readMode modeField,
     aLeads := !(bitAt im 0x004 3), s := s.value, d := d.value, plan := entries, tw := tw.value,
     chan := PerChan.ofFn (fun c => (chans.get c).1), lmax := lmax.value,
     rules := (List.range count).map (fun i => (readRule im i).1), horizon := horizon.value,
     single := readBeams im 0x1D7, dropOldest := bitAt im 0x1D9 0, drain := drain.value },
   { encoder := p.warned || s.warned || d.warned || decide (modeField = 3),
     plan := plan.any Prod.snd, zoneTw := tw.warned, lmax := lmax.warned, horizon := horizon.warned,
     drain := drain.warned,
     ruleClass := (List.range 8).map (fun i => decide (i < count) && (readRule im i).2),
     portConflict := (List.range 12).map (portConflict im),
     chan := PerChan.ofFn (fun c => (chans.get c).2) })

/-! ### The checks (R147, R159) -/

/-- The verdict of a load: a structural fault with its entry number (0 where none applies), or the configuration. -/
inductive LoadVerdict where
  | refused (code : FaultCode) (entry : Nat)
  | accepted (params : Params) (warnings : Warnings)
  deriving DecidableEq, Repr

/-- The image bytes from offset 000h; a memory that gives fewer answers all ones beyond (R147). -/
def imageBytes (bytes : List Byte) : List Byte := (List.range imageSize).map (fun i => bytes.getD i 0xFF#8)

/-- The image is judged by the checks of R147 in order, then read and corrected. -/
def judgeImage (bytes : List Byte) : LoadVerdict :=
  let im := imageBytes bytes
  if byteAt im 0x000 ≠ 0x81 then .refused .format 0
  else if wordAt im 0x001 ≠ imageSize then .refused .length 0
  else if crcBytes (crc16 (im.take 0x1DB)) ≠ im.drop 0x1DB then .refused .imageCrc 0
  else
    match planLength im with
    | none => .refused .noEndMark 0
    | some len =>
      match entryFault im len with
      | some (code, e) => .refused code e
      | none =>
        if 8 < byteAt im 0x193 then .refused .ruleCount 0
        else .accepted (readImage im len).1 (readImage im len).2

end Sys2Proof.Machine
end

