-- ==== Sys2Proof/Machine/Projection.lean ====
section
/-! DEFINITION. Chapter 6: from time of flight to the along-track position and depth of a reflector. -/

namespace Sys2Proof.Machine

/-- The hit record handed to the Indication Tracker (R93). -/
structure HitRecord where
  chan : Chan
  x : Int
  z : Nat
  amplitude : Nat
  saturated : Bool
  doubtful : Bool
  deriving DecidableEq, Repr

/-- Beam direction of a beam label (R86). -/
def beamDir (beam : Nat) : Int :=
  if beam = 1 ∨ beam = 3 ∨ beam = 5 then 1
  else if beam = 2 ∨ beam = 4 ∨ beam = 6 then -1
  else 0

/-- The one-way path S, in 1/65536 qmm, of a hit at tick t (R88). -/
def pathOf (c : ChanParams) (t : Nat) : Nat := (t - c.wedge) * c.k

/-- A path times a Q15 fraction, rounded to the nearest qmm with halves up (R89, R90). -/
def roundQ15 (path frac : Nat) : Nat := (path * frac + 1073741824) / 2147483648

/-- Along-track magnitude a (R89). -/
def trackPart (c : ChanParams) (t : Nat) : Nat := roundQ15 (pathOf c t) c.sQ

/-- Depth z (R90). -/
def depthPart (c : ChanParams) (t : Nat) : Nat := roundQ15 (pathOf c t) c.cQ

/-- Reflector position X (R91). -/
def reflectorX (c : ChanParams) (pv : Int) (t : Nat) : Int := pv + c.offset + beamDir c.beam * trackPart c t

/-- The conversion of one hit (R87, R93). -/
def project (c : ChanParams) (chan : Chan) (pv : Int) (h : Hit) (doubtful : Bool) : HitRecord :=
  { chan := chan, x := reflectorX c pv h.tof, z := depthPart c h.tof, amplitude := h.amplitude,
    saturated := h.saturated, doubtful := doubtful }

end Sys2Proof.Machine
end

