-- ==== Sys2Proof/Machine/Tracking.lean ====
section
/-! DEFINITION. Chapter 7: slots, matching, hits and misses, closing, and the indication record. -/

namespace Sys2Proof.Machine

/-- How a slot closes: by gap tolerance, by its length, or cut by the station (7.6). -/
inductive CloseMark where
  | plain | long | cut
  deriving DecidableEq, Repr

/-- What becomes of a slot at an event: the slot that stays, or its close. -/
inductive SlotFate where
  | stays (slot : Slot)
  | closes (slot : Slot) (mark : CloseMark)
  deriving DecidableEq, Repr

/-! ### Slots (R96–R101) -/

/-- A slot opened by a hit (R96). -/
def openSlot (order : Nat) (h : HitRecord) : Slot :=
  { order := order, lastX := h.x, lastZ := h.z, xMin := h.x, xMax := h.x, zMin := h.z, zMax := h.z,
    peak := h.amplitude, hits := 1, spanned := 1, missRun := 0, saturated := h.saturated, doubtful := h.doubtful,
    gapped := false }

/-- Distance between two positions. -/
def distX (a b : Int) : Nat := (a - b).natAbs

/-- Distance between two depths. -/
def distZ (a b : Nat) : Nat := (a - b) + (b - a)

/-- The hit matches the slot (R97). -/
def slotMatches (c : ChanParams) (h : HitRecord) (sl : Slot) : Bool :=
  decide (distX h.x sl.lastX ≤ c.tx) && decide (distZ h.z sl.lastZ ≤ c.tz)

/-- Of two open slots, the first is the older: the second's open order is reached from its own by counting forward, with
wrapping, by less than 2^31 (R96). Two orders exactly 2^31 apart name neither as the older: the model takes the second
(DESIGN CHOICE, log entry 20). -/
def olderThan (a b : Slot) : Bool := decide ((b.order + 4294967296 - a.order) % 4294967296 < 2147483648)

/-- The taking slot with the hit, if its extent stays within Lmax; otherwise it closes LONG (R98, R99). -/
def offerHit (lmax : Nat) (h : HitRecord) (sl : Slot) : SlotFate :=
  if max sl.xMax h.x - min sl.xMin h.x ≤ (lmax : Int) then
    .stays { sl with
      lastX := h.x, lastZ := h.z, xMin := min sl.xMin h.x, xMax := max sl.xMax h.x, zMin := min sl.zMin h.z,
      zMax := max sl.zMax h.z, peak := max sl.peak h.amplitude, hits := satSucc 255 sl.hits,
      spanned := satSucc 4095 sl.spanned, missRun := 0, saturated := sl.saturated || h.saturated,
      doubtful := sl.doubtful || h.doubtful }
  else .closes sl .long

/-- A slot with a miss counted; it closes when its miss run reaches G (R101, R103). -/
def missSlot (g : Nat) (sl : Slot) : SlotFate :=
  let sl' := { sl with missRun := sl.missRun + 1, spanned := satSucc 4095 sl.spanned }
  if g ≤ sl'.missRun then .closes sl' .plain else .stays sl'

/-- The slot that is still open after an event. -/
def remaining : Option SlotFate → Option Slot
  | some (.stays sl) => some sl
  | some (.closes _ _) => none
  | none => none

/-- The slots an event closes in one channel, oldest first (R105). -/
def closesOf : Option SlotFate → Option SlotFate → List (Slot × CloseMark)
  | some (.closes a ma), some (.closes b mb) => if olderThan a b then [(a, ma), (b, mb)] else [(b, mb), (a, ma)]
  | some (.closes a ma), _ => [(a, ma)]
  | _, some (.closes b mb) => [(b, mb)]
  | _, _ => []

/-- The place that takes a hit: the matching slot, the nearer of two, the older of two equally near (R97). -/
inductive Place where
  | p0 | p1
  deriving DecidableEq, Repr

def takingPlace (c : ChanParams) (h : HitRecord) (sl : ChanSlots) : Option Place :=
  match sl.slot0, sl.slot1 with
  | some a, some b =>
    if slotMatches c h a && slotMatches c h b then
      if distX h.x a.lastX < distX h.x b.lastX then some .p0
      else if distX h.x b.lastX < distX h.x a.lastX then some .p1
      else if olderThan a b then some .p0 else some .p1
    else if slotMatches c h a then some .p0
    else if slotMatches c h b then some .p1
    else none
  | some a, none => if slotMatches c h a then some .p0 else none
  | none, some b => if slotMatches c h b then some .p1 else none
  | none, none => none

/-- What a hit does to the two slots of its channel: their fates, the place a new slot opens in, and whether the hit is
discarded for want of a slot (R97 to R101). -/
structure HitEffect where
  fate0 : Option SlotFate
  fate1 : Option SlotFate
  opens : Option Place
  discarded : Bool
  deriving DecidableEq, Repr

def hitEffect (c : ChanParams) (lmax : Nat) (h : HitRecord) (sl : ChanSlots) : HitEffect :=
  match takingPlace c h sl with
  | some .p0 =>
    let t := sl.slot0.map (offerHit lmax h)
    { fate0 := t, fate1 := sl.slot1.map (missSlot c.g), opens := if remaining t = none then some .p0 else none,
      discarded := false }
  | some .p1 =>
    let t := sl.slot1.map (offerHit lmax h)
    { fate0 := sl.slot0.map (missSlot c.g), fate1 := t, opens := if remaining t = none then some .p1 else none,
      discarded := false }
  | none =>
    { fate0 := sl.slot0.map (missSlot c.g), fate1 := sl.slot1.map (missSlot c.g),
      opens := if sl.slot0 = none then some .p0 else if sl.slot1 = none then some .p1 else none,
      discarded := decide (sl.slot0 ≠ none ∧ sl.slot1 ≠ none) }

/-! ### Closing (R106, R107) -/

/-- The indication record of a closed slot (R107). -/
def slotRecord (s : State) (c : Chan) (sl : Slot) (mark : CloseMark) : Indication :=
  { origin := s.own, seq := s.trk.seq, channel := c, rail := s.rail, beam := (s.cfg.chan.get c).beam,
    xStart := sl.xMin, xEnd := sl.xMax, zMin := sl.zMin, zMax := sl.zMax, peak := sl.peak, hits := sl.hits,
    spanned := sl.spanned, saturated := sl.saturated, doubtful := sl.doubtful, gapped := sl.gapped,
    long := decide (mark = .long), cut := decide (mark = .cut) }

/-- A closed slot is evaluated: an indication record goes to the correlation table and to class 2, or the slot is counted
sparse (R106, R107). -/
def evaluateClosed (c : Chan) (s : State) (closed : Slot × CloseMark) : State :=
  if (s.cfg.chan.get c).nmin ≤ closed.1.hits then
    let r := slotRecord s c closed.1 closed.2
    let s1 := s.setTrk { s.trk with seq := nextSeq s.trk.seq }
    queueIndication r (insertRecord r s1)
  else s.setTrk { s.trk with sparse := satAdd s.trk.sparse 1 }

/-- The slots of a channel are replaced by those that remain, and the closed ones evaluated in order. -/
def settleSlots (c : Chan) (slots : ChanSlots) (closed : List (Slot × CloseMark)) (s : State) : State :=
  closed.foldl (evaluateClosed c) (s.setTrk { s.trk with chan := s.trk.chan.set c slots })

/-! ### Events of the tracker (7.3) -/

/-- The slots of a channel after a hit, a new slot opened where the effect says. -/
def slotsAfterHit (e : HitEffect) (order : Nat) (h : HitRecord) : ChanSlots :=
  match e.opens with
  | some .p0 => ⟨some (openSlot order h), remaining e.fate1⟩
  | some .p1 => ⟨remaining e.fate0, some (openSlot order h)⟩
  | none => ⟨remaining e.fate0, remaining e.fate1⟩

/-- A hit record reaches the tracker (R97 to R100, R105). -/
def hitRecord (h : HitRecord) (s : State) : State :=
  let e := hitEffect (s.cfg.chan.get h.chan) s.cfg.lmax h (s.trk.chan.get h.chan)
  let s1 := s.setTrk { s.trk with
    openOrder := if e.opens = none then s.trk.openOrder else nextOrder s.trk.openOrder
    overflow := if e.discarded then satAdd s.trk.overflow 1 else s.trk.overflow }
  settleSlots h.chan (slotsAfterHit e s.trk.openOrder h) (closesOf e.fate0 e.fate1) s1

/-- A firing with no hit counts a miss on each open slot of its channel (R101). -/
def firingNoHit (c : Chan) (s : State) : State :=
  let sl := s.trk.chan.get c
  let f0 := sl.slot0.map (missSlot (s.cfg.chan.get c).g)
  let f1 := sl.slot1.map (missSlot (s.cfg.chan.get c).g)
  settleSlots c ⟨remaining f0, remaining f1⟩ (closesOf f0 f1) s

/-- A coverage mark sets GAPPED on every open slot of its channel (R102). -/
def coverageMark (c : Chan) (s : State) : State :=
  let sl := s.trk.chan.get c
  let marked : ChanSlots :=
    ⟨sl.slot0.map (fun x => { x with gapped := true }), sl.slot1.map (fun x => { x with gapped := true })⟩
  s.setTrk { s.trk with chan := s.trk.chan.set c marked }

/-- A closure request closes every open slot of its channel with CUT, oldest first (R104). -/
def closureRequest (c : Chan) (s : State) : State :=
  let sl := s.trk.chan.get c
  settleSlots c ⟨none, none⟩ (closesOf (sl.slot0.map (.closes · .cut)) (sl.slot1.map (.closes · .cut))) s

/-- Closure requests for several channels, in the order given. -/
def closureRequests (cs : List Chan) (s : State) : State := cs.foldl (fun t c => closureRequest c t) s

/-- The close of all slots at STOPPING, in ascending channel number (R109). -/
def closeAllSlots (s : State) : State := closureRequests Chan.all s

end Sys2Proof.Machine
end

