-- ==== Sys2Proof/Machine/Coupling.lean ====
section
/-! DEFINITION. Chapter 5, first part: the coupling state machine of each channel and its sources. -/

namespace Sys2Proof.Machine

/-- The machine after an M result, present or absent (R72). -/
def couplingAfter (p : ChanParams) (m : Coupling) (present : Bool) : Coupling :=
  match m.state, present with
  | .coupled, true => { m with absence := 0 }
  | .coupled, false =>
    if p.kd ≤ m.absence + 1 then { m with state := .doubtful, absence := 0 } else { m with absence := m.absence + 1 }
  | .doubtful, true => { m with state := .coupled, absence := 0 }
  | .doubtful, false =>
    if p.kl ≤ m.absence + 1 then ⟨.lost, 0, 0⟩ else { m with absence := m.absence + 1 }
  | .lost, true =>
    if p.kr ≤ m.presence + 1 then ⟨.coupled, 0, 0⟩ else { m with presence := m.presence + 1 }
  | .lost, false => { m with presence := 0 }

/-- The channels that name a channel as coupling source, in ascending channel number (R73). -/
def dependants (s : State) (c : Chan) : List Chan := Chan.all.filter (fun d => decide ((s.cfg.chan.get d).source = c))

/-- An M result advances its channel's machine; an entry to LOST closes the slots of every dependant (R72, R73). -/
def mResult (c : Chan) (present : Bool) (s : State) : State :=
  let old := s.coup.get c
  let new := couplingAfter (s.cfg.chan.get c) old present
  let s1 := s.setCoup (s.coup.set c new)
  if new.state = .lost ∧ old.state ≠ .lost then closureRequests (dependants s c) s1 else s1

/-- The coupling state a channel reads: its source's machine as it stands, with no further reference (R74). -/
def sourceState (s : State) (c : Chan) : CouplingState := (s.coup.get (s.cfg.chan.get c).source).state

/-- Coupling states at a run start: DOUBTFUL where the M gate is enabled, COUPLED where it is disabled (R76). -/
def couplingRunStart (p : Params) : PerChan Coupling :=
  PerChan.ofFn (fun c => ⟨if (p.chan.get c).m.enabled then .doubtful else .coupled, 0, 0⟩)

end Sys2Proof.Machine
end

