-- ==== Sys2Proof/Machine/Coverage.lean ====
section
/-! DEFINITION. Chapter 5, second part: outcomes, effective positions, open gaps and GAP records. -/

namespace Sys2Proof.Machine

/-- The greatest firings count of a gap (R79). -/
def firingsCap : Nat := 65535

/-- The reach a nominal position is held to (R77). -/
def heldToReach (reach : Option Int) (nominal : Int) : Int :=
  match reach with
  | none => nominal
  | some r => max nominal r

/-- The raise past the last gap end of a position that opens a gap (R77). -/
def raisedPast (lastEnd : Option Int) (x : Int) : Int :=
  match lastEnd with
  | none => x
  | some e => if x ≤ e then e + 1 else x

/-- The GAP record of a gap that closes (R80). -/
def gapRecord (s : State) (c : Chan) (g : OpenGap) (how : Closure) : GapRecord :=
  { origin := s.own, seq := s.cov.gapSeq, channel := c, beam := (s.cfg.chan.get c).beam, rail := s.rail,
    reason := g.reason, xStart := g.xStart, xEnd := g.xEnd, firings := g.firings, closure := how }

def setCoverage (c : Chan) (v : ChanCoverage) (s : State) : State :=
  s.setCov { s.cov with chan := s.cov.chan.set c v }

/-- A gap of a channel closes: its record is built and handed on, the sequence advances, and the channel has no open gap
(R80). -/
def closeGap (c : Chan) (g : OpenGap) (how : Closure) (s : State) : State :=
  let v := s.cov.chan.get c
  queueGap (gapRecord s c g how)
    (s.setCov { chan := s.cov.chan.set c { v with gap := none, lastEnd := some g.xEnd },
                gapSeq := nextSeq s.cov.gapSeq })

/-- A gap opens at an effective position, raised past the last gap end (R77, R78). -/
def openGap (c : Chan) (r : Reason) (eff : Int) (s : State) : State :=
  let v := s.cov.chan.get c
  let x := raisedPast v.lastEnd eff
  setCoverage c { v with gap := some ⟨r, x, x, 1⟩, reach := some x } s

/-- An open gap is extended by an outcome of its own reason; at 65535 firings it closes FULL (R78, R79). -/
def extendGap (c : Chan) (g : OpenGap) (eff : Int) (s : State) : State :=
  let v := s.cov.chan.get c
  let g' : OpenGap := { g with xEnd := eff, firings := g.firings + 1 }
  let s1 := setCoverage c { v with gap := some g', reach := some eff } s
  if firingsCap ≤ g'.firings then closeGap c g' .full s1 else s1

/-- An outcome of a channel taken at its effective position (R77, R78). -/
def takeOutcome (c : Chan) (o : ChanOutcome) (basis : Int) (s : State) : State :=
  let v := s.cov.chan.get c
  let eff := heldToReach v.reach (basis + (s.cfg.chan.get c).offset)
  match o, v.gap with
  | .good, none => setCoverage c { v with reach := some eff } s
  | .good, some g => closeGap c g .resumed (setCoverage c { v with reach := some eff } s)
  | .bad r, none => openGap c r eff s
  | .bad r, some g => if g.reason = r then extendGap c g eff s else openGap c r eff (closeGap c g .changed s)

/-- An outcome hands a coverage mark when it is MISSED or BLOCKED (R83). -/
def marksCoverage : ChanOutcome → Bool
  | .bad .missed | .bad .blocked => true
  | .good | .bad .uncoupled | .bad .muted | .bad .unassigned => false

/-- The Coverage Tracker takes an outcome, then hands the coverage mark (R78, R83). -/
def channelOutcome (c : Chan) (o : ChanOutcome) (basis : Int) (s : State) : State :=
  if marksCoverage o then coverageMark c (takeOutcome c o basis s) else takeOutcome c o basis s

/-- A channel's open gap, if any, closes STOPPED (R81). -/
def stopGap (s : State) (c : Chan) : State :=
  match (s.cov.chan.get c).gap with
  | none => s
  | some g => closeGap c g .stopped s

/-- The close of all gaps at STOPPING, in ascending channel number (R81). -/
def closeAllGaps (s : State) : State := Chan.all.foldl stopGap s

end Sys2Proof.Machine
end

