-- ==== Sys2Proof/Machine/Gates.lean ====
section
/-! DEFINITION. Chapter 4: qualified runs, F hits and M results over the samples of a volley, and the hand-over of a
completed volley's results (R67 to R69). -/

namespace Sys2Proof.Machine

/-- A fresh evaluation record, opened at the pulse (R60). -/
def freshRecord (c : Chan) : EvalRecord := ⟨c, none, none, 0, false⟩

/-! ### Runs (R61, R62) -/

/-- The open run after a sample at or above the threshold (R61). -/
def extendRun (t v : Nat) : Option GateRun → GateRun
  | none => ⟨t, 1, v, decide (v = 255)⟩
  | some r => ⟨r.first, r.length + 1, max r.greatest v, r.saturated || decide (v = 255)⟩

/-- The hit set from a run (R65). -/
def hitOfRun (r : GateRun) : Hit := ⟨r.first, r.greatest, r.saturated⟩

/-- The F hit after a run has ended: the first qualified run in FIRST mode, the earliest highest in PEAK mode (R62 to
R64). -/
def hitAfterRun (g : FGate) (held : Option Hit) (r : GateRun) : Option Hit :=
  if r.length < g.q then held
  else
    match held with
    | none => some (hitOfRun r)
    | some h => if g.peak = true ∧ h.amplitude < r.greatest then some (hitOfRun r) else some h

/-- The open F run, if any, ends and is judged. -/
def endFRun (g : FGate) (r : EvalRecord) : EvalRecord :=
  match r.fRun with
  | none => r
  | some run => { r with fRun := none, fHit := hitAfterRun g r.fHit run }

/-- The F gate takes the sample v of tick t; a run still open at the last tick of the gate is cut there (R61). -/
def takeF (g : FGate) (t v : Nat) (r : EvalRecord) : EvalRecord :=
  if g.enabled = true ∧ g.start ≤ t ∧ t < g.stop then
    let r1 := if g.threshold ≤ v then { r with fRun := some (extendRun t v r.fRun) } else endFRun g r
    if t + 1 = g.stop then endFRun g r1 else r1
  else r

/-- The open M run, if any, ends and is judged (R66). -/
def endMRun (g : MGate) (r : EvalRecord) : EvalRecord :=
  { r with mRun := 0, mPresent := r.mPresent || decide (0 < r.mRun ∧ g.q ≤ r.mRun) }

/-- The M gate takes the sample v of tick t; its run is counted up to Q (R66). -/
def takeM (g : MGate) (t v : Nat) (r : EvalRecord) : EvalRecord :=
  if g.enabled = true ∧ g.start ≤ t ∧ t < g.stop then
    let r1 := if g.threshold ≤ v then { r with mRun := min (r.mRun + 1) g.q } else endMRun g r
    if t + 1 = g.stop then endMRun g r1 else r1
  else r

/-- The record takes the samples of ticks t, t + 1, … in order (R59 to R61). -/
def takeSamples (c : ChanParams) : Nat → List Byte → EvalRecord → EvalRecord
  | _, [], r => r
  | t, v :: vs, r => takeSamples c (t + 1) vs (takeM c.m t v.toNat (takeF c.f t v.toNat r))

/-- The results of a record over a hold of h µs: the samples of ticks 0 to 25h − 1; a tick no sample was given for counts
as a sample of 0, which ends an open run (log entry 8). -/
def evaluate (c : ChanParams) (h : Nat) (samples : List Byte) (r : EvalRecord) : EvalRecord :=
  endMRun c.m (endFRun c.f (takeSamples c 0 (samples.take (microsecond * h)) r))

/-! ### The completion's hand-over (R67 to R69) -/

/-- The samples a channel acquired: those of its own port's echo input; none without a port (R22, R59). -/
def echoOf (echoes : PortEchoes) : Option Nat → List Byte
  | none => []
  | some port => echoes.getD port []

/-- The results of a fired channel's record over the hold of its volley (R59 to R66). -/
def resultOf (p : Params) (h : Nat) (echoes : PortEchoes) (r : EvalRecord) : EvalRecord :=
  evaluate (p.chan.get r.chan) h (echoOf echoes (p.chan.get r.chan).port) r

/-- The M result of a fired channel whose M gate is enabled goes to the Coupling Monitor (R67). -/
def handM (s : State) (r : EvalRecord) : State :=
  if (s.cfg.chan.get r.chan).m.enabled then mResult r.chan r.mPresent s else s

/-- The F hit or empty firing of a fired channel is judged against its source's coupling state (R68). -/
def judgeHit (pv : Int) (s : State) (r : EvalRecord) : State :=
  match sourceState s r.chan, r.fHit with
  | .lost, _ => s
  | .doubtful, some h => hitRecord (project (s.cfg.chan.get r.chan) r.chan pv h true) s
  | .coupled, some h => hitRecord (project (s.cfg.chan.get r.chan) r.chan pv h false) s
  | .doubtful, none => firingNoHit r.chan s
  | .coupled, none => firingNoHit r.chan s

/-- The hit is judged, then the channel's held closure request, if any, is handed (R68, R34). -/
def handF (pv : Int) (s : State) (r : EvalRecord) : State :=
  let s1 := judgeHit pv s r
  if inSet s1.seq.held r.chan then closureRequest r.chan s1 else s1

/-- A channel that cannot fire, and why: no port before muted (R24, R22). -/
def unfireable (p : Params) (mask : ChanSet) (c : Chan) : Option Reason :=
  if (p.chan.get c).port = none then some .unassigned
  else if inSet mask c then some .muted
  else none

/-- The outcome of a channel of the completed entry (R69). A channel with a port that did not fire was muted at the
grant. -/
def completionOutcome (s : State) (fired : ChanSet) (c : Chan) : ChanOutcome :=
  if inSet fired c then
    (match sourceState s c with
     | .lost => .bad .uncoupled
     | .doubtful | .coupled => .good)
  else if (s.cfg.chan.get c).port = none then .bad .unassigned
  else .bad .muted

/-- The outcome of one channel of the completed entry goes to the Coverage Tracker (R69). -/
def handOutcome (v : Volley) (s : State) (c : Chan) : State :=
  channelOutcome c (completionOutcome s v.fired c) v.pv s

/-- The hand-over of a completed volley: M results, then hits and held requests, then outcomes (R67 to R69). -/
def completeVolley (v : Volley) (e : PlanEntry) (echoes : PortEchoes) (s : State) : State :=
  let records := s.acq.map (resultOf s.cfg e.hold echoes)
  let s1 := records.foldl handM s
  let s2 := records.foldl (handF v.pv) s1
  (chansOf e.chans).foldl (handOutcome v) s2

end Sys2Proof.Machine
end

