-- ==== Sys2Proof/Machine/ZoneLine.lean ====
section
/-! DEFINITION. Chapter 3: quiet and claim periods, the claim code, requests, losing, releasing, the stuck line; the
meanings of the zone line's commands that need no other block. -/

namespace Sys2Proof.Machine

/-- Ticks of recessive line that make it quiet: 3 µs (R40). -/
def quietTicks : Nat := 3 * microsecond

/-- Ticks of a claim period: six slots of 1 µs (R40). -/
def claimTicks : Nat := 6 * microsecond

/-- Ticks of dominant line that the stuck time Tw allows (R50). -/
def stuckTicks (tw : Nat) : Nat := tw * (1000 * microsecond)

/-! ### The claim (3.1.1, R44) -/

/-- The claim code: the address, with bit 4 set when the claim is not urgent (3.1.1). -/
def claimCodeOf (address : BitVec 4) (losses : Nat) : BitVec 5 :=
  BitVec.ofNat 5 (address.toNat + if urgent losses then 0 else 16)

/-- The level a claimant drives in a code slot: slot 1 carries the urgency bit, slot 5 address bit 0; 0 is dominant
(3.1.1). -/
def slotDrive (code : BitVec 5) (slot : CodeSlot) : LineLevel :=
  if code.getLsbD (5 - slot.num) then .recessive else .dominant

/-- The middle of a code slot, in ticks from the start edge; a slot is 25 ticks, and its middle is taken at the 12th
(log entry 6). -/
def slotMiddle (slot : Nat) : Nat := slot * microsecond + 12

/-- The level the station drives on the zone line: dominant throughout a hold and in the start slot of its claim, the slot's
bit in each code slot, recessive otherwise (3.1.1, R44, R47). Slot k begins 25k ticks after the start edge. -/
def zoneDriven (z : Zone) : LineLevel :=
  match z.ctl with
  | .hold => .dominant
  | .claim =>
    let slot := min 5 (z.claimPeriod.getD 0 / microsecond)
    if 1 ≤ slot ∧ z.claimCode.getLsbD (5 - slot) = true then .recessive else .dominant
  | .off | .idle | .wait => .recessive

/-- The zone line follows the station's drive where that changes from `before`: a slot driven dominant makes it dominant, and
one left recessive lets it go (R44; log entry 5: unless ZONE_LINE_LEVEL_CHANGE says that another party drives it). -/
def followZoneDrive (before : LineLevel) (z : Zone) : Zone :=
  if zoneDriven z = before then z
  else
    match zoneDriven z with
    | .dominant => { z with line := .dominant, recessiveTime := 0 }
    | .recessive => { z with line := .recessive }

/-- The controller becomes a claimant: it drives the start slot, so the line is dominant, and its code is formed
(R42, R44). A claim period in progress goes on; otherwise its own edge starts one. -/
def enterClaim (address : BitVec 4) (z : Zone) : Zone :=
  { z with
    ctl := .claim, line := .dominant, quiet := false, recessiveTime := 0, claimPeriod := some (z.claimPeriod.getD 0),
    slotRead := 0, claimCode := claimCodeOf address z.losses, orphaned := false, stuckTimer := 0, stuck := false }

/-- The claim period in progress may still be joined: slot 0, no more than 0.5 µs after the edge (R42). -/
def joinWindow (z : Zone) : Bool :=
  match z.claimPeriod with
  | none => false
  | some t => decide (2 * t ≤ microsecond)

/-- A request with the line enabled (R42); it takes over an orphaned claim in progress (R49). -/
def zoneRequest (address : BitVec 4) (z : Zone) : Zone :=
  match z.ctl with
  | .idle => if z.quiet || joinWindow z then enterClaim address z else { z with ctl := .wait }
  | .claim => { z with orphaned := false }
  | .off | .wait | .hold => z

/-- Leaving the running states: ZL_OFF clears STUCK and the stuck timer, with no event (R51, R54). -/
def zoneOff (z : Zone) : Zone := { z with ctl := .off, stuckTimer := 0, stuck := false }

/-- The state a claim or hold ends in: ZL_IDLE in RUNNING, ZL_OFF outside it (R45, R48, R54). -/
def zoneRest (running : Bool) (z : Zone) : Zone := if running then { z with ctl := .idle } else zoneOff z

/-- The station stops driving the line. At the end of a hold it goes recessive unless another party drives it, which a level
change then reports; a claim that has won drives it no more, and it stays as the end of slot 5 left it (R47, R48; log
entry 5). -/
def zoneRelease (running : Bool) (z : Zone) : Zone :=
  zoneRest running { z with
    line := if z.ctl = .hold then .recessive else z.line
    recessiveTime := 0, orphaned := false }

/-- A withdrawal in RUNNING (R49). -/
def zoneWithdraw (z : Zone) : Zone :=
  match z.ctl with
  | .wait => { z with ctl := .idle }
  | .claim => { z with orphaned := true }
  | .off | .idle | .hold => z

/-- STOPPING entry (R54). -/
def zoneStop (z : Zone) : Zone :=
  match z.ctl with
  | .off | .idle | .wait => zoneOff z
  | .claim => { z with orphaned := true }
  | .hold => z

/-- A run start (R41). -/
def zoneRunStart (enabled : Bool) (z : Zone) : Zone :=
  { z with ctl := if enabled then .idle else .off, stuck := false, stuckTimer := 0, orphaned := false }

/-- The observation starts with STANDBY at the end of a good load: busy, the recessive time at 0 (R40). -/
def zoneStandby (z : Zone) : Zone := { z with quiet := false, recessiveTime := 0, claimPeriod := none }

/-! ### Events -/

/-- The observed line goes dominant: while quiet that is a start edge, which begins a claim period, and a request waiting
then claims on the same edge (R40, R43). -/
def lineDominant (address : BitVec 4) (z : Zone) : Zone :=
  let z1 := { z with line := .dominant, recessiveTime := 0 }
  if z.quiet then
    if z.ctl = .wait then enterClaim address { z1 with quiet := false, claimPeriod := some 0 }
    else { z1 with quiet := false, claimPeriod := some 0 }
  else z1

/-- The observed line goes recessive: the stuck timer returns to 0 (R50). -/
def lineRecessive (z : Zone) : Zone := { z with line := .recessive, stuckTimer := 0 }

/-- The line can become quiet: observed, outside a claim period, not driven by this station, not quiet yet (R40). -/
def canBecomeQuiet (s : State) : Bool :=
  s.observing && decide (s.zone.claimPeriod = none ∧ s.zone.ctl ≠ .claim ∧ s.zone.ctl ≠ .hold ∧ s.zone.quiet = false)

/-- STUCK is cleared at a quiet, with a ZONE_CLEAR event (R51). -/
def clearStuck (s : State) : State :=
  if s.zone.stuck then queueEvent .zoneClear (s.setZone { s.zone with stuck := false }) else s

/-- The line becomes quiet: STUCK is cleared, and a waiting request begins its claim (R40, R43, R51). A QUIET given while the
state's line is dominant is taken at its word, and the line as recessive (DESIGN CHOICE, log entry 12). -/
def quietReached (s : State) : State :=
  let s1 := s.setZone { s.zone with quiet := true, line := .recessive, recessiveTime := quietTicks, stuckTimer := 0 }
  let s2 := clearStuck s1
  if s2.zone.ctl = .wait then s2.setZone (enterClaim s2.rc.straps.address s2.zone) else s2

/-- The line has been recessive for 3 µs and its quiet has yet to be taken (R40). -/
def quietDue (s : State) : Bool :=
  canBecomeQuiet s && decide (s.zone.line = .recessive ∧ quietTicks ≤ s.zone.recessiveTime)

/-- The observed line goes dominant. A line that has been recessive for 3 µs is quiet at that edge, so a quiet still due is
taken first: the edge is a start edge, and the start slot of a waiting request falls on it (R40, R43, R51). -/
def edgeDominant (s : State) : State :=
  let s1 := if quietDue s then quietReached s else s
  s1.setZone (lineDominant s1.rc.straps.address s1.zone)

/-- The zone line changes level; a station that drives it dominant, in a hold or in a slot of its claim, keeps it dominant
(R40, R44, R47; log entry 11). -/
def lineLevelChange (level : LineLevel) (s : State) : State :=
  if s.zone.ctl = .hold then s
  else if s.observing then
    match level with
    | .dominant => edgeDominant s
    | .recessive => if zoneDriven s.zone = .dominant then s else s.setZone (lineRecessive s.zone)
  else s.setZone { s.zone with line := level }

/-- The claim is lost: the loss is counted and the request waits again, or is gone with an orphaned claim (R45, R54). -/
def claimLost (running : Bool) (z : Zone) : Zone :=
  let z1 := { z with losses := satSucc 255 z.losses, orphaned := false }
  if z.orphaned then zoneRest running z1 else { z1 with ctl := .wait }

/-- A claimant reads the line at the middle of a code slot (R44, R45). -/
def slotReading (running : Bool) (slot : CodeSlot) (level : LineLevel) (z : Zone) : Zone :=
  let z1 := { z with
    claimPeriod := some (max (z.claimPeriod.getD 0) (slotMiddle slot.num))
    slotRead := slot.num }
  if slotDrive z.claimCode slot = .dominant then { z1 with line := .dominant }
  else if level = .dominant then claimLost running { z1 with line := .dominant }
  else { z1 with line := .recessive }

/-- The stuck timer can run: the station neither claims nor holds, and the line is dominant (R50). -/
def stuckRuns (z : Zone) : Bool :=
  decide ((z.ctl = .idle ∨ z.ctl = .wait) ∧ z.line = .dominant ∧ z.stuck = false)

/-- The stuck timer exceeds Tw: STUCK is set and ZONE_STUCK queued (R50). -/
def stuckReached (s : State) : State :=
  queueEvent .zoneStuck (s.setZone { s.zone with stuck := true, stuckTimer := stuckTicks s.cfg.tw })

/-! ### Meanings -/

/-- ZONE_LINE_LEVEL_CHANGE (R40, R50). -/
def execZoneLineLevelChange (level : LineLevel) (s : State) : Host.Outcome State Fault Refusal :=
  .next (lineLevelChange level s)

/-- QUIET (R40, R43, R51). -/
def execQuiet (s : State) : Host.Outcome State Fault Refusal :=
  .next (if canBecomeQuiet s then quietReached s else s)

/-- CODE_SLOT_READ (R44, R45). -/
def execCodeSlotRead (slot : CodeSlot) (level : LineLevel) (s : State) : Host.Outcome State Fault Refusal :=
  .next (if s.zone.ctl = .claim then s.setZone (slotReading (decide (s.rc.runState = .running)) slot level s.zone) else s)

/-- STUCK_TIMER_EXPIRY (R50). -/
def execStuckTimerExpiry (s : State) : Host.Outcome State Fault Refusal :=
  .next (if stuckRuns s.zone then stuckReached s else s)

end Sys2Proof.Machine
end

