-- ==== Sys2Proof/Machine/Firing.lean ====
section
/-! DEFINITION. Chapter 2: due entries, the walk, requests and grants, volleys, overspeed, skipped steps and the channel
mask; the meanings of CLAIM_PERIOD_END and MASK. -/

namespace Sys2Proof.Machine

/-! ### Due entries and fireable channels (R20, R24) -/

/-- An entry is due at a step index (R20). -/
def dueAt (e : PlanEntry) (index : Nat) : Bool := decide (index % e.divider = e.phase)

/-- The fireable channels of an entry, against the mask as it stands (R24). -/
def fireable (s : State) (e : PlanEntry) : ChanSet :=
  setOf (fun c => inSet e.chans c && decide (unfireable s.cfg s.seq.mask c = none))

/-- The outcome of a channel of an entry that does not fire; a fireable channel has the given reason (R24, R28). -/
def unfiredOutcome (s : State) (reason : Reason) (c : Chan) : ChanOutcome :=
  .bad ((unfireable s.cfg s.seq.mask c).getD reason)

/-- An entry that is not fired hands the outcomes of all its channels, in ascending channel number (R24, R28). -/
def handUnfired (reason : Reason) (basis : Int) (s : State) (e : PlanEntry) : State :=
  (chansOf e.chans).foldl (fun t c => channelOutcome c (unfiredOutcome t reason c) basis t) s

/-- The entries of a list that are due at an index are given up, in plan order (R28 to R30, R32). -/
def giveUp (reason : Reason) (index : Nat) (basis : Int) (entries : List PlanEntry) (s : State) : State :=
  (entries.filter (fun e => dueAt e index)).foldl (handUnfired reason basis) s

/-! ### Firing (R25, R26) -/

/-- The ports a fired set pulses, in ascending channel number: each channel its own (R22, R26). -/
def portsOf (p : Params) (fired : ChanSet) : List Nat := (chansOf fired).filterMap (fun c => (p.chan.get c).port)

/-- A volley fires: the ports pulse, P is latched, the hold starts, and evaluation records are opened (R22, R26, R60). -/
def fireVolley (entry : Nat) (e : PlanEntry) (s : State) : State :=
  let fired := fireable s e
  (s.setSeq { s.seq with
    sq := .hold, volley := some ⟨entry, fired, s.pos.p, portsOf s.cfg fired⟩, holdTimer := e.hold * microsecond }).setAcq
    ((chansOf fired).map freshRecord)

/-- A request for the entry at the pointer: to the Zone Line Controller, or granted at once with the line disabled (R42,
R52). -/
def makeRequest (entry : Nat) (e : PlanEntry) (s : State) : State :=
  let s1 := s.setSeq { s.seq with sq := .pending, pointer := some entry }
  if s.zoneEnabled then s1.setZone (zoneRequest s.rc.straps.address s.zone) else fireVolley entry e s1

/-! ### The walk (R23) -/

/-- The walk of the plan from an entry on, for a cycle step: entries not due are passed, due entries with nothing to fire
hand their outcomes, and it stops at the first due entry with a fireable channel. -/
def walk (cycle : StepRef) : Nat → List PlanEntry → State → State × Option (Nat × PlanEntry)
  | _, [], s => (s, none)
  | i, e :: es, s =>
    if dueAt e cycle.index then
      if fireable s e = 0 then walk cycle (i + 1) es (handUnfired .missed cycle.pos s e)
      else (s, some (i, e))
    else walk cycle (i + 1) es s

/-- The cycle is finished: the sequencer waits for a step (R23). -/
def finishCycle (s : State) : State :=
  s.setSeq { s.seq with sq := .waitStep, cycle := none, pointer := none }

/-- The walk goes on from an entry, with a new request where it stops (R23, R27). -/
def walkOn (cycle : StepRef) (from_ : Nat) (s : State) : State :=
  let r := walk cycle from_ (s.cfg.plan.drop from_) s
  match r.2 with
  | none => finishCycle r.1
  | some (i, e) => makeRequest i e r.1

/-- A cycle starts at entry 0 for a step (R23). -/
def startCycle (cycle : StepRef) (s : State) : State :=
  walkOn cycle 0 (s.setSeq { s.seq with cycle := some cycle, waiting := none })

/-- A step in SQ_PENDING: the new walk takes over the standing request, or withdraws it (R29). -/
def takeOver (cycle : StepRef) (s : State) : State :=
  let r := walk cycle 0 s.cfg.plan (s.setSeq { s.seq with cycle := some cycle })
  match r.2 with
  | none => finishCycle (r.1.setZone (zoneWithdraw r.1.zone))
  | some (i, _) => r.1.setSeq { r.1.seq with pointer := some i }

/-! ### Steps (R23, R28 to R32) -/

/-- The outcomes of the skipped steps, in ascending index, MISSED for fireable channels (R32). -/
def skippedSteps (skipped : List StepRef) (s : State) : State :=
  skipped.foldl (fun t k => giveUp .missed k.index k.pos t.cfg.plan t) s

/-- What a step in SQ_HOLD gives up: the waiting cycle whole (R30), or the later entries of the old cycle (R28). -/
def giveUpInHold (s : State) : State :=
  match s.seq.waiting with
  | some w => giveUp .missed w.index w.pos s.cfg.plan s
  | none =>
    match s.seq.cycle, s.seq.volley with
    | some c, some v => giveUp .missed c.index c.pos (s.cfg.plan.drop (v.entry + 1)) s
    | _, _ => s

/-- What a step in SQ_PENDING gives up: the pending entry and the later ones, BLOCKED while the line is STUCK (R29,
R31). -/
def giveUpInPending (s : State) : State :=
  match s.seq.cycle, s.seq.pointer with
  | some c, some i =>
    giveUp (if s.zone.stuck then .blocked else .missed) c.index c.pos (s.cfg.plan.drop i) s
  | _, _ => s

/-- A step reaches the sequencer, with the skipped steps handed with it (R12, R13). -/
def takeStep (step : StepRef) (skipped : List StepRef) (s : State) : State :=
  match s.seq.sq with
  | .off => s
  | .waitStep => startCycle step (skippedSteps skipped s)
  | .pending => takeOver step (skippedSteps skipped (giveUpInPending s))
  | .hold =>
    let s1 := skippedSteps skipped (giveUpInHold s)
    s1.setSeq { s1.seq with waiting := some step, cycle := none, pointer := none }

/-! ### Grant (R25, R46, R48) -/

/-- The grant is taken: the pending entry is judged again and fires, or hands its outcomes while the line is released at
once and the walk goes on (R25, R46 to R48). -/
def takeGrant (s : State) : State :=
  match s.seq.pointer, s.seq.cycle with
  | some i, some c =>
    match s.cfg.plan[i]? with
    | some e =>
      if fireable s e = 0 then
        let s1 := handUnfired .missed c.pos s e
        walkOn c (i + 1) (s1.setZone (zoneRelease true s1.zone))
      else (fireVolley i e s).setZone { s.zone with ctl := .hold, line := .dominant }
    | none => s.setZone (zoneRelease true s.zone)
  | _, _ => s.setZone (zoneRelease true s.zone)

/-- Slot 5 ends: the claim period is over for every observer, and a remaining claimant has won. Its claim drives the line no
more, which is then as the other parties leave it (R40, R46, R48). -/
def claimEnded (s : State) : State :=
  let s1 := s.setZone { s.zone with claimPeriod := none, recessiveTime := 0 }
  if s.zone.ctl = .claim then
    let s2 := s1.setZone { s1.zone with losses := 0, line := levelUndriven (zoneDriven s.zone) s.zone.line }
    if s.zone.orphaned then s2.setZone (zoneRelease (decide (s.rc.runState = .running)) s2.zone)
    else takeGrant s2
  else s1

/-! ### The channel mask (R33, R34) -/

/-- The mask after a MASK frame: the clear list first, then the set list (R33). -/
def maskAfter (p : MaskPayload) (m : ChanSet) : ChanSet := (m &&& ~~~p.clearList) ||| p.setList

/-- The channels a MASK frame newly mutes (R34). -/
def newlyMuted (p : MaskPayload) (m : ChanSet) : ChanSet := maskAfter p m &&& ~~~m

/-- The fired set of the volley in hold, empty when none is. -/
def firedInHold (q : Seq) : ChanSet :=
  if q.sq = .hold then (match q.volley with | some v => v.fired | none => 0) else 0

/-- A MASK frame for own address is applied; closure requests of newly muted channels go to the tracker at once, or are
held for the channels of the volley in hold (R33, R34). -/
def applyMask (p : MaskPayload) (s : State) : State :=
  let new := newlyMuted p s.seq.mask
  let inHold := firedInHold s.seq
  let s1 := s.setSeq { s.seq with mask := maskAfter p s.seq.mask, held := s.seq.held ||| (new &&& inHold) }
  closureRequests (chansOf (new &&& ~~~inHold)) s1

/-! ### Meanings -/

/-- CLAIM_PERIOD_END (R46, R48). -/
def execClaimPeriodEnd (s : State) : Host.Outcome State Fault Refusal :=
  .next (if s.observing && s.zone.claimPeriod.isSome then claimEnded s else s)

/-- MASK (R33, R144): a frame for another address is discarded at dispatch and reaches no block. -/
def execMask (p : MaskPayload) (s : State) : Host.Outcome State Fault Refusal :=
  .next (if p.target.toNat = s.own then
      (match takeFrame .volleySequencer (.mask p) maskService s with
       | none => s
       | some s' => dispatchDiscards (applyMask p s'))
    else s)

end Sys2Proof.Machine
end

