-- ==== Sys2Proof/Machine/Position.lean ====
section
/-! DEFINITION. Chapter 1: qualification, counting, the position accumulator, the frontier and step issue; the meaning of
ENCODER_SAMPLE_INSTANT. -/

namespace Sys2Proof.Machine

/-- The limit of P, in qmm (R8). -/
def positionLimit : Int := 2000000000

/-- What one sample instant decodes to (1.3). -/
inductive Decoded where
  | none | forward | reverse | illegal
  deriving DecidableEq, Repr

/-- The qualified level and agree run of an input after a sample (R2). -/
def qualify (n : Nat) (level : Bool) (agree : Nat) (raw : Bool) : Bool × Nat :=
  if raw = level then (level, 0)
  else if n ≤ agree + 1 then (raw, 0)
  else (level, agree + 1)

/-- A count in the forward order A_LEADS, or its reverse in B_LEADS. -/
def orient (aLeads forward : Bool) : Decoded := if aLeads = forward then .forward else .reverse

/-- X4 decoding of a change from the reference pair to the new pair, each written (A, B) (R5). -/
def decodeX4 (aLeads : Bool) (refA refB newA newB : Bool) : Decoded :=
  match refA, refB, newA, newB with
  | false, false, true, false => orient aLeads true
  | true, false, true, true => orient aLeads true
  | true, true, false, true => orient aLeads true
  | false, true, false, false => orient aLeads true
  | false, false, false, true => orient aLeads false
  | false, true, true, true => orient aLeads false
  | true, true, true, false => orient aLeads false
  | true, false, false, false => orient aLeads false
  | false, false, false, false => .none
  | false, true, false, true => .none
  | true, false, true, false => .none
  | true, true, true, true => .none
  | false, false, true, true => .illegal
  | true, true, false, false => .illegal
  | true, false, false, true => .illegal
  | false, true, true, false => .illegal

/-- X1 and X2 decoding: edges of A, with the direction from B in the reference pair (R6). -/
def decodeA (x2 aLeads : Bool) (refA refB newA : Bool) : Decoded :=
  match refA, newA with
  | false, true => orient aLeads (!refB)
  | true, false => if x2 then orient aLeads refB else .none
  | false, false => .none
  | true, true => .none

/-- The count of a sample instant in the configured mode (R4 to R6). -/
def decodeCount (p : Params) (refA refB newA newB : Bool) : Decoded :=
  match p.mode with
  | .x1 => decodeA false p.aLeads refA refB newA
  | .x2 => decodeA true p.aLeads refA refB newA
  | .x4 => decodeX4 p.aLeads refA refB newA newB

/-! ### Accumulator (R7 to R9) -/

/-- The value of P and f, in 1/256 qmm. -/
def posValue (q : Pos) : Int := q.p * 256 + q.f

/-- P and f at a value in 1/256 qmm: its floor and remainder (R7). -/
def withValue (q : Pos) (v : Int) : Pos := { q with p := v / 256, f := (v % 256).toNat }

/-- A count is discarded at a limit: POSITION_LIMIT is queued once under the limit flag (R8, R9). -/
def countDiscarded (upper : Bool) (s : State) : State :=
  if s.pos.limitFlag then s
  else queueEvent (.positionLimit upper) (s.setPos { s.pos with limitFlag := true })

/-- A reverse count (R7, R8, R10). -/
def reverseCount (s : State) : State :=
  let q := withValue s.pos (posValue s.pos - s.cfg.s)
  if q.p < -positionLimit then countDiscarded false s else s.setPos q

/-! ### Frontier and steps (R10, R12, R13) -/

/-- The frontier rises to P when P has passed it, and the increase is handed to the Correlation Unit (R10). -/
def raiseFrontier (s : State) : State :=
  if s.pos.front < s.pos.p then frontierIncrease s.pos.p (s.setPos { s.pos with front := s.pos.p }) else s

/-- The steps that lie between two indices, each with its own step position (R13). -/
def skippedBetween (d : Nat) (old new : Nat) : List StepRef :=
  (List.range' (old + 1) (new - (old + 1))).map (fun i => ⟨i, ((i * d : Nat) : Int)⟩)

/-- Number of multiples of D from next_step to P (R12). -/
def stepsReached (d : Nat) (nextStep p : Int) : Nat := ((p - nextStep) / (d : Int)).toNat + 1

/-- A step is issued when P has reached next_step, in RUNNING (R12, R13). -/
def issueStep (s : State) : State :=
  if s.rc.runState = .running ∧ s.pos.nextStep ≤ s.pos.p then
    let k := stepsReached s.cfg.d s.pos.nextStep s.pos.p
    let idx := s.pos.sIdx + k
    let s1 := s.setPos { s.pos with sIdx := idx, nextStep := s.pos.nextStep + k * (s.cfg.d : Int) }
    takeStep ⟨idx, ((idx * s.cfg.d : Nat) : Int)⟩ (skippedBetween s.cfg.d s.pos.sIdx idx) s1
  else s

/-- A forward count: it is applied, the frontier rises, and a step may be issued; or it is discarded at the upper limit
(R7, R8, R10, R12). -/
def forwardCount (s : State) : State :=
  let q := withValue s.pos (posValue s.pos + s.cfg.s)
  if positionLimit < q.p then countDiscarded true s
  else issueStep (raiseFrontier (s.setPos q))

/-- An illegal transition raises the encoder-error counter (R5). -/
def illegalTransition (s : State) : State :=
  s.setPos { s.pos with encoderError := satAdd s.pos.encoderError 1 }

/-- A decoded count in RUNNING and STOPPING; in STANDBY it is discarded (R4). -/
def applyDecoded (d : Decoded) (s : State) : State :=
  if s.inRun then
    match d with
    | .none => s
    | .forward => forwardCount s
    | .reverse => reverseCount s
    | .illegal => illegalTransition s
  else s

/-! ### The sample instant (R2, R3) -/

/-- The first sample instant after the load takes the raw levels as they are (R3). -/
def firstSampled (period : Nat) (rawA rawB : Bool) (q : Pos) : Pos :=
  { q with
    qualA := rawA, qualB := rawB, agreeA := 0, agreeB := 0, refA := rawA, refB := rawB, firstSample := false,
    sampleClock := period }

/-- Both qualifiers act, and the reference pair becomes the qualified pair (R2, 1.3). -/
def sampled (period n : Nat) (rawA rawB : Bool) (q : Pos) : Pos :=
  let a := qualify n q.qualA q.agreeA rawA
  let b := qualify n q.qualB q.agreeB rawB
  { q with
    qualA := a.1, qualB := b.1, agreeA := a.2, agreeB := b.2, refA := a.1, refB := b.1, sampleClock := period }

/-- A sample instant while the qualifiers run (R2 to R4). -/
def sampleInstant (rawA rawB : Bool) (s : State) : State :=
  if s.pos.firstSample then s.setPos (firstSampled s.cfg.p rawA rawB s.pos)
  else
    let q := sampled s.cfg.p s.cfg.n rawA rawB s.pos
    applyDecoded (decodeCount s.cfg s.pos.refA s.pos.refB q.qualA q.qualB) (s.setPos q)

/-- ENCODER_SAMPLE_INSTANT (R2): the qualifiers run in STANDBY, RUNNING and STOPPING (R3). -/
def execEncoderSampleInstant (rawA rawB : Bool) (s : State) : Host.Outcome State Fault Refusal :=
  .next (if s.operating then sampleInstant rawA rawB s else s)

end Sys2Proof.Machine
end

