-- ==== Sys2Proof/Machine/RunControl.lean ====
section
/-! DEFINITION. Chapter 10: reset, the load, run starts, stopping and the drain; the completion of a volley, which may end a
run's stopping; the meanings of the Run Controller's commands and of VOLLEY_COMPLETION. -/

namespace Sys2Proof.Machine

/-! ### Reset (R146) -/

def zoneLineAfterReset (z : Zone) : LineLevel := levelUndriven (zoneDriven z) z.line

def linkLevelAfterReset (l : Link) : LineLevel := levelUndriven (driven l) l.level

/-- A reset of a given cause: every cause does the same full initialisation (R146). The levels of the shared lines are not
the station's to reset. -/
def takeReset (cause : ResetCause) (s : State) : State :=
  State.afterReset cause (zoneLineAfterReset s.zone) (linkLevelAfterReset s.link) s.pending

/-- The release of the last reset cause: LOADING is entered and the straps are read (R146, R147). -/
def releaseReset (straps : Straps) (s : State) : State :=
  s.setRc { s.rc with inReset := false, straps := straps }

/-! ### End of the load (R147 to R149, R145) -/

/-- The link is taken up on leaving LOADING: busy, the recessive time at 0 (R134, R145). -/
def linkTakenUp (l : Link) : Link :=
  { l with idle := false, recessiveTime := 0, sinceIdle := 0, tx := .idle, rank := none, rx := .skip,
           gather := Gathering.empty }

/-- A structural fault: FAULTED, with one CONFIG_FAULT event (R148). -/
def loadRefused (code : FaultCode) (entry : Nat) (s : State) : State :=
  let s1 := s.setRc { s.rc with runState := .faulted, faultCode := some code }
  queueEvent (.configFault code entry) (s1.setLink (linkTakenUp s1.link))

/-- A good load: STANDBY, with one STATION_UP event; the qualifiers await their first sample, and the line is observed
(R149, R3, R40, R145). -/
def loadAccepted (p : Params) (w : Warnings) (s : State) : State :=
  let s1 := (s.setRc { s.rc with runState := .standby, warnings := w }).setCfg p
  let s2 := s1.setPos { s1.pos with firstSample := true, sampleClock := 0 }
  let s3 := s2.setZone (zoneStandby s2.zone)
  queueEvent (.stationUp s3.rc.cause w) (s3.setLink (linkTakenUp s3.link))

def loadEnded (image : List Byte) (s : State) : State :=
  match judgeImage image with
  | .refused code entry => loadRefused code entry s
  | .accepted p w => loadAccepted p w s

/-! ### Run start (R151) -/

/-- The Position Unit at a run start (R16). -/
def posRunStart (d : Nat) (q : Pos) : Pos :=
  { q with p := 0, f := 0, front := 0, sIdx := 0, nextStep := d, limitFlag := false, encoderError := 0 }

/-- The Volley Sequencer at a run start (R36). -/
def seqRunStart (q : Seq) : Seq :=
  { q with sq := .waitStep, cycle := none, pointer := none, waiting := none, volley := none, holdTimer := 0, held := 0 }

/-- The flush of one class queue at a run start: what stays, and how many records were taken out. A record in flight stays
at the head until its frame ends (R136). -/
def flushQueue {α : Type} (inFlight : Bool) (q : List α) : List α × Nat :=
  if inFlight then (q.take 1, q.length - 1) else ([], q.length)

/-- The frame in flight is of the class. -/
def flying (l : Link) (c : TxClass) : Bool :=
  match l.inFlight with
  | none => false
  | some f => decide (f.cls = c)

/-- The frame in flight is marked as flushed, when it is of class 1, 2 or 3 (R136). -/
def markFlushed (f : InFlight) : InFlight := { f with flushed := f.flushed || decide (f.cls ≠ .c0) }

/-- The Link Controller at a run start: the seven counters are cleared, then classes 1 to 3 are emptied into the drop
counters (R136). -/
def linkRunStart (l : Link) : Link :=
  { l with
    q1 := (flushQueue (flying l .c1) l.q1).1
    q2 := (flushQueue (flying l .c2) l.q2).1
    q3 := (flushQueue (flying l .c3) l.q3).1
    inFlight := l.inFlight.map markFlushed
    drop0 := 0
    drop1 := satAdd 0 (flushQueue (flying l .c1) l.q1).2
    drop2 := satAdd 0 (flushQueue (flying l .c2) l.q2).2
    drop3 := satAdd 0 (flushQueue (flying l .c3) l.q3).2
    collision := 0, receiveError := 0, receiveOverflow := 0 }

/-- A run starts: the current run is set and every block applies its run-start rule (R151). -/
def startRun (run : Byte) (s : State) : State :=
  { s with
    rc := { s.rc with runState := .running, run := run, pendingStart := none, conflict := false }
    pos := posRunStart s.cfg.d s.pos
    seq := seqRunStart s.seq
    zone := zoneRunStart s.zoneEnabled s.zone
    coup := couplingRunStart s.cfg
    cov := Coverage.cleared
    trk := Tracker.cleared
    corr := correlationRunStart s.corr
    link := linkRunStart s.link }

/-! ### Stopping (R152, R37, R54) -/

/-- Drain time in ticks: units of 10 ms (R147, 10.2). -/
def drainTicks (units : Nat) : Nat := units * (10000 * microsecond)

/-- The sequencer reports SQ_OFF: all slots and gaps close and the drain timer starts (R152, R109, R81). -/
def stoppingClose (s : State) : State :=
  let s1 := closeAllGaps (closeAllSlots s)
  s1.setRc { s1.rc with draining := true, drainTimer := drainTicks s1.cfg.drain }

/-- The sequencer at STOPPING entry: unstarted entries and a waiting cycle are dropped, a request is withdrawn, a volley in
hold goes on (R37). -/
def seqStop (q : Seq) : Seq :=
  { q with
    sq := match q.sq with
      | .hold => .hold
      | .off | .waitStep | .pending => .off
    cycle := none, pointer := none, waiting := none }

/-- STOPPING is entered (R152, R37, R54). -/
def enterStopping (s : State) : State :=
  let s1 := ((s.setRc { s.rc with runState := .stopping }).setSeq (seqStop s.seq)).setZone (zoneStop s.zone)
  if s1.seq.sq = .off then stoppingClose s1 else s1

/-! ### Volley completion (R27, R37) -/

/-- The volley is cleared and the line released (R27, R47, R54, R69). -/
def volleyCleared (s : State) : State :=
  let s1 := (s.setAcq []).setSeq { s.seq with volley := none, holdTimer := 0, held := 0 }
  if s.zone.ctl = .hold then s1.setZone (zoneRelease (decide (s.rc.runState = .running)) s1.zone) else s1

/-- What follows the hand-over: the waiting cycle's walk, or the rest of the cycle's (R27, R28); in STOPPING the sequencer
is off and the run's slots and gaps close (R37). -/
def afterCompletion (v : Volley) (s : State) : State :=
  if s.rc.runState = .running then
    match s.seq.waiting, s.seq.cycle with
    | some w, _ => startCycle w s
    | none, some c => walkOn c (v.entry + 1) s
    | none, none => finishCycle s
  else stoppingClose (s.setSeq { s.seq with sq := .off, cycle := none, pointer := none, waiting := none })

/-- The volley in hold completes (R27). -/
def volleyCompleted (echoes : PortEchoes) (v : Volley) (e : PlanEntry) (s : State) : State :=
  afterCompletion v (volleyCleared (completeVolley v e echoes s))

/-- The volley in hold with its plan entry. -/
def holding (s : State) : Option (Volley × PlanEntry) :=
  if s.seq.sq = .hold then
    match s.seq.volley with
    | none => none
    | some v => (s.cfg.plan[v.entry]?).map (fun e => (v, e))
  else none

/-! ### RUNSTART and RUNSTOP (R150, R152) -/

/-- A RUNSTART frame taken by the Run Controller (R150). -/
def runstartTaken (r : Byte) (s : State) : State :=
  if r = 0 then s
  else
    match s.rc.runState with
    | .standby => startRun r s
    | .running =>
      if r = s.rc.run then s
      else enterStopping (s.setRc { s.rc with pendingStart := some r })
    | .stopping => if r = s.rc.run then s else s.setRc { s.rc with pendingStart := some r }
    | .loading | .faulted => s

/-- A RUNSTOP frame taken by the Run Controller (R152). -/
def runstopTaken (r : Byte) (s : State) : State :=
  if s.rc.runState = .running ∧ r = s.rc.run then enterStopping s else s

/-! ### End of the drain (R153, R155) -/

/-- The fourteen counters as they stand (R155). -/
def summaryCounters (s : State) : SummaryCounters :=
  { encoderError := s.pos.encoderError, trackerOverflow := s.trk.overflow, sparse := s.trk.sparse,
    staleRun := s.corr.staleRun, unpairedDrop := s.corr.unpairedDrop, suppressed := s.corr.suppressed,
    suppressOverflow := s.corr.suppressOverflow, drop0 := s.link.drop0, drop1 := s.link.drop1,
    drop2 := s.link.drop2, drop3 := s.link.drop3, collision := s.link.collision,
    receiveError := s.link.receiveError, receiveOverflow := s.link.receiveOverflow }

/-- The addresses of the peers heard. -/
def peersHeard (peers : List PeerEntry) : List Nat :=
  (List.range 16).filter (fun a => (peers.getD a PeerEntry.afterReset).seen)

/-- A total over the peer table, saturating at 65535 (R155). -/
def peerTotal (field : PeerEntry → Nat) (peers : List PeerEntry) : Nat := min 65535 (peers.map field).sum

/-- The totals and sequences as they stand (R155). -/
def summaryTotals (s : State) : SummaryTotals :=
  { heard := peersHeard s.corr.peers, gapTotal := peerTotal (fun p => p.gapCount) s.corr.peers,
    staleTotal := peerTotal (fun p => p.staleCount) s.corr.peers, indicationSeq := s.trk.seq,
    callSeq := s.corr.callSeq, gapSeq := s.cov.gapSeq }

/-- The two RUN_SUMMARY records, part 1 first, with the values as they stand (R155). -/
def queueSummary (s : State) : State :=
  queueEvent (.runSummary2 (summaryTotals s)) (queueEvent (.runSummary1 (summaryCounters s)) s)

/-- The drain ends: own unpaired entries are called or dropped, RUN_SUMMARY is queued, and the station enters STANDBY or
starts the pending run (R153). -/
def drainEnded (s : State) : State :=
  let s1 := queueSummary (correlationDrainEnd s)
  let s2 := s1.setRc { s1.rc with runState := .standby, draining := false, drainTimer := 0 }
  match s2.rc.pendingStart with
  | none => s2
  | some r => startRun r s2

/-! ### Meanings -/

/-- POWER_ON (R146). -/
def execPowerOn (s : State) : Host.Outcome State Fault Refusal := .next (takeReset .powerOn s)

/-- SUPPLY_LOW (R146). -/
def execSupplyLow (s : State) : Host.Outcome State Fault Refusal := .next (takeReset .supplyLow s)

/-- RESET_PIN (R146). -/
def execResetPin (s : State) : Host.Outcome State Fault Refusal := .next (takeReset .resetPin s)

/-- RESET_RELEASE (R146, R147). -/
def execResetRelease (straps : Straps) (s : State) : Host.Outcome State Fault Refusal :=
  .next (if s.rc.inReset then releaseReset straps s else s)

/-- LOAD_END (R147 to R149). -/
def execLoadEnd (image : List Byte) (s : State) : Host.Outcome State Fault Refusal :=
  .next (if s.rc.inReset = false ∧ s.rc.runState = .loading then loadEnded image s else s)

/-- VOLLEY_COMPLETION (R27). -/
def execVolleyCompletion (echoes : PortEchoes) (s : State) : Host.Outcome State Fault Refusal :=
  .next (match holding s with
    | none => s
    | some (v, e) => volleyCompleted echoes v e s)

/-- RUNSTART (R150, R144). -/
def execRunstart (r : Byte) (s : State) : Host.Outcome State Fault Refusal :=
  .next (match takeFrame .runController (.runstart r) runService s with
    | none => s
    | some s' => dispatchDiscards (runstartTaken r s'))

/-- RUNSTOP (R152, R144). -/
def execRunstop (r : Byte) (s : State) : Host.Outcome State Fault Refusal :=
  .next (match takeFrame .runController (.runstop r) runService s with
    | none => s
    | some s' => dispatchDiscards (runstopTaken r s'))

/-- DRAIN_END (R153). -/
def execDrainEnd (s : State) : Host.Outcome State Fault Refusal :=
  .next (if s.rc.runState = .stopping ∧ s.rc.draining = true then drainEnded s else s)

end Sys2Proof.Machine
end

