-- ==== Sys2Proof/Machine/Dispatch.lean ====
section
/-! DEFINITION. The command dispatch: one arm for each row of the table of operations and events. -/

namespace Sys2Proof.Machine

def exec (i : Instr) (s : State) : Host.Outcome State Fault Refusal :=
  match i with
  | .powerOn => Sys2Proof.Machine.execPowerOn s
  | .supplyLow => Sys2Proof.Machine.execSupplyLow s
  | .resetPin => Sys2Proof.Machine.execResetPin s
  | .resetRelease straps => Sys2Proof.Machine.execResetRelease straps s
  | .loadEnd image => Sys2Proof.Machine.execLoadEnd image s
  | .encoderSampleInstant rawA rawB => Sys2Proof.Machine.execEncoderSampleInstant rawA rawB s
  | .zoneLineLevelChange level => Sys2Proof.Machine.execZoneLineLevelChange level s
  | .quiet => Sys2Proof.Machine.execQuiet s
  | .codeSlotRead slot level => Sys2Proof.Machine.execCodeSlotRead slot level s
  | .claimPeriodEnd => Sys2Proof.Machine.execClaimPeriodEnd s
  | .stuckTimerExpiry => Sys2Proof.Machine.execStuckTimerExpiry s
  | .volleyCompletion echoes => Sys2Proof.Machine.execVolleyCompletion echoes s
  | .linkIdleInstant => Sys2Proof.Machine.execLinkIdleInstant s
  | .beginTime => Sys2Proof.Machine.execBeginTime s
  | .frameComplete => Sys2Proof.Machine.execFrameComplete s
  | .readbackMismatch => Sys2Proof.Machine.execReadbackMismatch s
  | .receiveError check => Sys2Proof.Machine.execReceiveError check s
  | .frameReceived chars => Sys2Proof.Machine.execFrameReceived chars s
  | .serviceTimeEnd block => Sys2Proof.Machine.execServiceTimeEnd block s
  | .runstart run => Sys2Proof.Machine.execRunstart run s
  | .runstop run => Sys2Proof.Machine.execRunstop run s
  | .mask payload => Sys2Proof.Machine.execMask payload s
  | .suppress run payload => Sys2Proof.Machine.execSuppress run payload s
  | .indication run payload => Sys2Proof.Machine.execIndication run payload s
  | .drainEnd => Sys2Proof.Machine.execDrainEnd s
  | .linkLevelChange level => Sys2Proof.Machine.execLinkLevelChange level s

end Sys2Proof.Machine
end

