-- ==== Sys2Proof/Machine/Clock.lean ====
section
/-! DEFINITION. Time: one tick of the 25 MHz reference advances the timers of every block; the commands that the station's
own timers and dispatcher bring; the instants at which time waits for data from outside. All of it stands behind the step
on an empty queue (log entries 4 and 6). -/

namespace Sys2Proof.Machine

/-- A timer that counts up to a top and holds there. -/
def countUp (top n : Nat) : Nat := if n < top then n + 1 else n

/-- The Position Unit after a tick: the sample clock counts down while the qualifiers run (R2, R3). -/
def tickPos (operating : Bool) (q : Pos) : Pos :=
  if operating then { q with sampleClock := q.sampleClock - 1 } else q

/-- The timers of the Zone Line Controller after a tick: the recessive time, the claim period and the stuck timer (R40,
R50). -/
def tickZoneTimers (tw : Nat) (z : Zone) : Zone :=
  { z with
    recessiveTime :=
      if z.line = .recessive ∧ z.claimPeriod = none then countUp quietTicks z.recessiveTime else z.recessiveTime
    claimPeriod := z.claimPeriod.map (countUp claimTicks)
    stuckTimer := if stuckRuns z then countUp (stuckTicks tw) z.stuckTimer else z.stuckTimer }

/-- The Zone Line Controller after a tick: its timers move, and the line follows the slots of the station's claim (R40, R44,
R50). -/
def tickZone (observing : Bool) (tw : Nat) (z : Zone) : Zone :=
  if observing then followZoneDrive (zoneDriven z) (tickZoneTimers tw z) else z

/-- The hold timer runs down in SQ_HOLD (R26). -/
def tickSeq (q : Seq) : Seq := if q.sq = .hold then { q with holdTimer := q.holdTimer - 1 } else q

/-- The drain timer runs down from the close (R153). -/
def tickRun (r : RunCtl) : RunCtl := if r.draining then { r with drainTimer := r.drainTimer - 1 } else r

/-- The timers of the Link Controller after a tick: the recessive time, the time since the idle instant, the deferral, the
frame in flight and the service times (R134, R137, R138, R144). -/
def tickLinkTimers (on : Bool) (l : Link) : Link :=
  { l with
    recessiveTime := if on = true ∧ l.level = .recessive then countUp idleTicks l.recessiveTime else l.recessiveTime
    sinceIdle := if l.idle then countUp (64 * microsecond) l.sinceIdle else l.sinceIdle
    beginIn := l.beginIn - 1
    sendLeft := l.sendLeft - 1
    busyRun := l.busyRun.map (· - 1)
    busySeq := l.busySeq.map (· - 1)
    busyCorr := l.busyCorr.map (· - 1) }

/-- The Link Controller after a tick: its timers move, the receiver reads the line, and the link follows the bits of the
frame in flight (R133). -/
def tickLink (on : Bool) (l : Link) : Link := followDrive (driven l) (tickReceiver (tickLinkTimers on l))

/-- One tick of 40 ns. -/
def tick (s : State) : State :=
  { s with
    rc := tickRun s.rc
    pos := tickPos s.operating s.pos
    seq := tickSeq s.seq
    zone := tickZone s.observing s.cfg.tw s.zone
    link := tickLink s.linkOn s.link }

/-! ### What the station's own timers bring -/

def dueClaimEnd (s : State) : Bool :=
  s.observing && (match s.zone.claimPeriod with | none => false | some t => decide (claimTicks ≤ t))

def dueStuck (s : State) : Bool := stuckRuns s.zone && decide (stuckTicks s.cfg.tw ≤ s.zone.stuckTimer)

def dueFrameComplete (s : State) : Bool := decide (s.link.tx = .send ∧ s.link.sendLeft = 0)

/-- The middle of a bit the station sends, with a level on the link other than the one it drives (R139). -/
def dueMismatch (s : State) : Bool :=
  match s.link.tx, s.link.inFlight with
  | .send, some fl =>
    let t := sendTicks fl.chars - s.link.sendLeft
    decide (t = bitMiddle (t * 2 / 25) ∧ s.link.level ≠ driven s.link)
  | _, _ => false

/-- What the receiver's checks say of the frame it gathers (R141). -/
def dueReception (s : State) : Option Instr :=
  if s.link.rx = .frame then receptionVerdict s.link.gather else none

def dueBegin (s : State) : Bool := decide (s.link.tx = .defer ∧ s.link.beginIn = 0)

def dueDrainEnd (s : State) : Bool :=
  decide (s.rc.runState = .stopping ∧ s.rc.draining = true ∧ s.rc.drainTimer = 0)

/-- The block whose service time has run out, if any. -/
def serviceOver (l : Link) : Option Block :=
  if l.busyRun = some 0 then some .runController
  else if l.busySeq = some 0 then some .volleySequencer
  else if l.busyCorr = some 0 then some .correlationUnit
  else none

/-- The command of the frame at the head of the receive queue, when its block is not busy (R144). -/
def takeable (s : State) : Option Instr :=
  if s.operating then
    match s.link.rxQueue with
    | [] => none
    | f :: _ =>
      match disposal s.own f with
      | .hand b c => if busyOf s.link b = none then some c else none
      | .discard => none
      | .badLength => none
  else none

/-- The command that the station's own timers or dispatcher bring now, in one fixed order where several fall together (log
entry 6: either order is the spec's). -/
def due (s : State) : Option Instr :=
  if dueClaimEnd s then some .claimPeriodEnd
  else if quietDue s then some .quiet
  else if dueStuck s then some .stuckTimerExpiry
  else if dueMismatch s then some .readbackMismatch
  else if dueFrameComplete s then some .frameComplete
  else
    match dueReception s with
    | some c => some c
    | none =>
      if dueBegin s then some .beginTime
      else if dueLinkIdle s then some .linkIdleInstant
      else
        match serviceOver s.link with
        | some b => some (.serviceTimeEnd b)
        | none => if dueDrainEnd s then some .drainEnd else takeable s

/-- An instant whose data come from outside: a sample instant, a volley's completion, or the middle of a code slot. Time
waits there for the command that brings them. -/
def awaitsOutside (s : State) : Bool :=
  (s.operating && decide (s.pos.sampleClock = 0)) ||
  decide (s.seq.sq = .hold ∧ s.seq.holdTimer = 0) ||
  decide (s.zone.ctl = .claim ∧ s.zone.slotRead < 5 ∧
    slotMiddle (s.zone.slotRead + 1) ≤ s.zone.claimPeriod.getD 0)

/-- The step on an empty queue: the command the station's own timers bring, or a tick, or waiting for outside data. -/
def idleStep (s : State) : Host.Outcome State Fault Refusal :=
  match due s with
  | some c => exec c s
  | none => .next (if awaitsOutside s then s else tick s)

end Sys2Proof.Machine
end

