-- ==== Sys2Proof/Machine/Step.lean ====
section
/-! DEFINITION. The step of the station: the command at the front of the queue, or the idle step on an empty queue. -/

namespace Sys2Proof.Machine

/-- One step: exec of the command at the front with the rest of the queue; on an empty queue, time (log entry 4). -/
def step (s : State) : Host.Outcome State Fault Refusal :=
  match s.pending with
  | [] => idleStep s
  | c :: rest => exec c (s.setPending rest)

/-- The state with the command that a word spells at the front of its queue; unchanged where the word spells none. -/
def State.withFetchWord (s : State) (nbits w : Nat) : State :=
  match decodeTableWord nbits w with
  | none => s
  | some c => s.setPending (c :: s.pending)

end Sys2Proof.Machine
end

