-- ==== Sys2Proof/Safety.lean ====
section
/-! DEFINITION. What claims about the station are stated in: frames by block, frames offered to a block, walks and requests, closes
of slots and gaps, and the station's laws as predicates on one state. -/

namespace Sys2Proof.Machine

/-! ### Frames -/

/-- The blocks of the state, for frames. -/
inductive Part where
  | rc | cfg | pos | seq | zone | acq | coup | cov | trk | corr | link | pending
  deriving DecidableEq, Repr

/-- Every block outside `touched` is the same in both states. -/
structure Keeps (touched : List Part) (s t : State) : Prop where
  rc : Part.rc ∉ touched → t.rc = s.rc
  cfg : Part.cfg ∉ touched → t.cfg = s.cfg
  pos : Part.pos ∉ touched → t.pos = s.pos
  seq : Part.seq ∉ touched → t.seq = s.seq
  zone : Part.zone ∉ touched → t.zone = s.zone
  acq : Part.acq ∉ touched → t.acq = s.acq
  coup : Part.coup ∉ touched → t.coup = s.coup
  cov : Part.cov ∉ touched → t.cov = s.cov
  trk : Part.trk ∉ touched → t.trk = s.trk
  corr : Part.corr ∉ touched → t.corr = s.corr
  link : Part.link ∉ touched → t.link = s.link
  pending : Part.pending ∉ touched → t.pending = s.pending

/-! ### Frames offered to a block (R144) -/

/-- The frame that is the command stands at the head of the receive queue for the block, or the queue is empty (log entry 7). -/
def atHead (b : Block) (c : Instr) (s : State) : Prop :=
  s.link.rxQueue = [] ∨ ∃ f fs, s.link.rxQueue = f :: fs ∧ disposal s.own f = .hand b c

/-- The block can take the frame now: the station hands frames on, the block is not busy, the frame is at the head. -/
structure Offered (b : Block) (c : Instr) (s : State) : Prop where
  operating : s.operating = true
  free : busyOf s.link b = none
  head : atHead b c s

/-- The link once a block has taken the frame offered to it, for a service time in ticks, and has done with it: the block is busy, the
frame has left the receive queue with the discarded ones that follow it, and those of a wrong length are counted (R144, R157). -/
def linkAfterTaking (b : Block) (ticks : Nat) (s : State) : Link :=
  let next := discardHeads s.own (s.link.rxQueue.drop 1)
  { s.link with
    busyRun := if b = .runController then some ticks else s.link.busyRun
    busySeq := if b = .volleySequencer then some ticks else s.link.busySeq
    busyCorr := if b = .correlationUnit then some ticks else s.link.busyCorr
    rxQueue := next.1, receiveError := min (s.link.receiveError + next.2) 65535 }

/-! ### Records handed to the transmit queues (R135, R137) -/

/-- A class holds a record, the head of its queue (R138). -/
def headOf (l : Link) : TxClass → Bool
  | .c0 => !l.q0.isEmpty
  | .c1 => !l.q1.isEmpty
  | .c2 => !l.q2.isEmpty
  | .c3 => !l.q3.isEmpty

/-- What handing records to some classes leaves of the link: all but those queues and their drop counters, and the rank that a
transmitter in TX_IDLE takes where its queues were empty at the idle instant. The records already queued stay as they are (R135,
R137). -/
structure HandsTo (own : Nat) (classes : List TxClass) (l m : Link) : Prop where
  rest : m = { l with
    q0 := m.q0, q1 := m.q1, q2 := m.q2, q3 := m.q3, drop0 := m.drop0, drop1 := m.drop1, drop2 := m.drop2, drop3 := m.drop3,
    tx := m.tx, rank := m.rank, beginIn := m.beginIn }
  c0 : .c0 ∉ classes → m.q0 = l.q0 ∧ m.drop0 = l.drop0
  c1 : .c1 ∉ classes → m.q1 = l.q1 ∧ m.drop1 = l.drop1
  c2 : .c2 ∉ classes → m.q2 = l.q2 ∧ m.drop2 = l.drop2
  c3 : .c3 ∉ classes → m.q3 = l.q3 ∧ m.drop3 = l.drop3
  queued : l.q0 <+: m.q0 ∧ l.q1 <+: m.q1 ∧ l.q2 <+: m.q2 ∧ l.q3 <+: m.q3
  ranked : (m.tx = l.tx ∧ m.rank = l.rank ∧ m.beginIn = l.beginIn) ∨
    (l.tx = .idle ∧ l.idle = true ∧ l.rank = none ∧ ∃ c, headOf m c = true ∧ m.tx = .defer ∧
      m.rank = some (16 * c.num + own) ∧ m.beginIn = 25 * (16 * c.num + own) - l.sinceIdle)

/-- A station event of a run is handed to class 0: it goes last while there is room, and is counted as dropped otherwise (R135,
R154). -/
structure EventHanded (own : Nat) (run : Byte) (e : StationEvent) (l m : Link) : Prop where
  room : l.q0.length < 4 → m.q0 = l.q0 ++ [⟨run, e⟩] ∧ m.drop0 = l.drop0
  full : 4 ≤ l.q0.length → m = { l with drop0 := min (l.drop0 + 1) 65535 }
  hands : HandsTo own [.c0] l m

/-! ### Configuration (R1, R19, R21, R55 to R58, R71, R85, R95, R112, R147) -/

/-- An entry of the firing plan as a load leaves it (R19). -/
structure EntryInRange (e : PlanEntry) : Prop where
  chans : 1 ≤ (chansOf e.chans).length ∧ (chansOf e.chans).length ≤ 4
  hold : 10 ≤ e.hold ∧ e.hold ≤ 250
  divider : e.divider ∈ [1, 2, 4, 8]
  phase : e.phase < e.divider

/-- The parameters of a channel as a load leaves them (R21, R55 to R58, R71, R85, R95). -/
structure ChanInRange (c : ChanParams) : Prop where
  port : ∀ p, c.port = some p → p ≤ 11
  fGate : c.f.enabled = true → c.f.start < c.f.stop ∧ c.f.stop ≤ 6143 ∧ c.wedge ≤ c.f.start
  fLevel : 1 ≤ c.f.threshold ∧ c.f.threshold ≤ 254 ∧ c.f.q ∈ [1, 2, 3, 4, 6, 8]
  mGate : c.m.enabled = true → c.m.start < c.m.stop ∧ c.m.stop ≤ 6143
  mLevel : c.m.enabled = true → 1 ≤ c.m.threshold ∧ c.m.threshold ≤ 254 ∧ c.m.q ∈ [1, 2, 3, 4, 6, 8]
  wedge : c.wedge ≤ 1023
  runs : (1 ≤ c.kd ∧ c.kd ≤ 15) ∧ (1 ≤ c.kl ∧ c.kl ≤ 15) ∧ (1 ≤ c.kr ∧ c.kr ≤ 15)
  beam : c.beam ≤ 8
  path : 1 ≤ c.k ∧ c.k ≤ 65535
  angle : c.sQ ≤ 32767 ∧ c.cQ ≤ 32767
  offset : -32767 ≤ c.offset ∧ c.offset ≤ 32767
  tolerance : c.tx ≤ 255 ∧ c.tz ≤ 255
  tracking : (1 ≤ c.g ∧ c.g ≤ 15) ∧ (1 ≤ c.nmin ∧ c.nmin ≤ 31)

/-- A pairing rule as a load leaves it (R112). -/
structure RuleInRange (r : PairRule) : Prop where
  dx : r.dx ≤ 1023
  dz : r.dz ≤ 255
  cls : 1 ≤ r.cls ∧ r.cls ≤ 3

/-- The configuration as a load leaves it. -/
structure ParamsInRange (p : Params) : Prop where
  encoder : (1 ≤ p.p ∧ p.p ≤ 255) ∧ (p.n = 4 ∨ p.n = 8) ∧ (1 ≤ p.s ∧ p.s ≤ 65535) ∧ 4 ≤ p.d ∧ p.d ≤ 60
  plan : (1 ≤ p.plan.length ∧ p.plan.length ≤ 32) ∧ ∀ e ∈ p.plan, EntryInRange e
  stuck : 1 ≤ p.tw ∧ p.tw ≤ 255
  chan : ∀ c, ChanInRange (p.chan.get c)
  ports : ∀ c d n, (p.chan.get c).port = some n → (p.chan.get d).port = some n → c = d
  fitted : ∀ e ∈ p.plan, ∀ c, inSet e.chans c = true →
    ((p.chan.get c).f.enabled = true → (p.chan.get c).f.stop ≤ 25 * e.hold) ∧
    ((p.chan.get c).m.enabled = true → (p.chan.get c).m.stop ≤ 25 * e.hold)
  lmax : 16 ≤ p.lmax ∧ p.lmax ≤ 4095
  rules : p.rules.length ≤ 8 ∧ ∀ r ∈ p.rules, RuleInRange r
  horizon : 2000 ≤ p.horizon ∧ p.horizon ≤ 80000
  drain : 1 ≤ p.drain ∧ p.drain ≤ 255

/-! ### Outcomes, walks and requests (R20, R23, R24, R28 to R32, R42, R52) -/

/-- One outcome handed to the Coverage Tracker, and the nominal position basis it carries. -/
structure Handed where
  chan : Chan
  outcome : ChanOutcome
  basis : Int
  deriving DecidableEq, Repr

/-- The state after the Coverage Tracker has taken outcomes in their order, each with its coverage mark (R78, R83). -/
def afterHanded (hs : List Handed) (s : State) : State :=
  hs.foldl (fun t h => channelOutcome h.chan h.outcome h.basis t) s

/-- Outcomes have been handed over in their order: the coverage, class 3 and its drop counter are as they leave them (R78, R80,
R135). -/
structure Took (hs : List Handed) (s t : State) : Prop where
  cov : t.cov = (afterHanded hs s).cov
  sent : t.link.q3 = (afterHanded hs s).link.q3
  dropped : t.link.drop3 = (afterHanded hs s).link.drop3

/-- The outcome of a channel whose entry is not fired: UNASSIGNED without a port, MUTED where it is muted, else the reason
(R24). -/
def unfired (s : State) (reason : Reason) (c : Chan) : ChanOutcome :=
  if (s.cfg.chan.get c).port = none then .bad .unassigned
  else if inSet s.seq.mask c = true then .bad .muted
  else .bad reason

/-- The outcomes of an entry that is not fired, in ascending channel number (R24, R28). -/
def unfiredEntry (s : State) (reason : Reason) (basis : Int) (e : PlanEntry) : List Handed :=
  (chansOf e.chans).map (fun c => ⟨c, unfired s reason c, basis⟩)

/-- The outcomes of those entries of a list that are due at an index, in plan order (R20, R28). -/
def unfiredDue (s : State) (reason : Reason) (index : Nat) (basis : Int) (entries : List PlanEntry) : List Handed :=
  (entries.filter (fun e => decide (index % e.divider = e.phase))).flatMap (unfiredEntry s reason basis)

/-- The entry has a channel that can fire: one with a port that is not muted (R24). -/
def CanFire (s : State) (e : PlanEntry) : Prop :=
  ∃ c, inSet e.chans c = true ∧ (s.cfg.chan.get c).port ≠ none ∧ inSet s.seq.mask c = false

/-- The fired set of an entry: exactly its channels that can fire (R26). -/
def FiredSet (s : State) (e : PlanEntry) (fired : ChanSet) : Prop :=
  ∀ c, inSet fired c = true ↔ inSet e.chans c = true ∧ (s.cfg.chan.get c).port ≠ none ∧ inSet s.seq.mask c = false

/-- The volley of an entry, as fired at P: its ports pulsed, each fired channel's own; the hold timer at the entry's hold; a
fresh evaluation record for each fired channel (R22, R26, R60). -/
def Fires (s : State) (i : Nat) (e : PlanEntry) (t : State) : Prop :=
  ∃ fired, FiredSet s e fired ∧ t.seq.sq = .hold ∧ t.seq.holdTimer = 25 * e.hold ∧
    t.seq.volley = some ⟨i, fired, t.pos.p, (Chan.all.filter (inSet fired)).filterMap (fun c => (s.cfg.chan.get c).port)⟩ ∧
    t.acq = (Chan.all.filter (inSet fired)).map (fun c => ⟨c, none, none, 0, false⟩)

/-- A walk from an entry on has no due entry that can fire (R23). -/
def WalkEnds (s : State) (index first : Nat) : Prop :=
  ∀ j e, first ≤ j → s.cfg.plan[j]? = some e → index % e.divider = e.phase → ¬ CanFire s e

/-- A walk from an entry on finds entry i first of those due that can fire (R23). -/
structure WalkStops (s : State) (index first i : Nat) (e : PlanEntry) : Prop where
  reached : first ≤ i
  entry : s.cfg.plan[i]? = some e
  due : index % e.divider = e.phase
  fires : CanFire s e
  passed : ∀ j x, first ≤ j → j < i → s.cfg.plan[j]? = some x → index % x.divider = x.phase → ¬ CanFire s x

/-- The line can be claimed at a request: it is quiet, or no more than 0.5 µs into a claim period (R42). -/
def ClaimableNow (z : Zone) : Prop := z.quiet = true ∨ ∃ n, z.claimPeriod = some n ∧ 2 * n ≤ 25

/-- A request for entry i, made with the zone line as z: a claim begins or is joined, the request waits, or it takes over an
orphaned claim; with the line disabled it is granted at once and the entry fires (R42, R44, R49, R52). -/
structure Requested (s : State) (z : Zone) (i : Nat) (e : PlanEntry) (t : State) : Prop where
  pends : s.zoneEnabled = true → t.seq.sq = .pending ∧ t.seq.pointer = some i
  claims : s.zoneEnabled = true → z.ctl = .idle → ClaimableNow z →
    t.zone.ctl = .claim ∧ t.zone.line = .dominant ∧ t.zone.quiet = false ∧ t.zone.orphaned = false ∧
    t.zone.claimPeriod = some (z.claimPeriod.getD 0) ∧ t.zone.losses = z.losses ∧
    t.zone.claimCode = claimCodeOf s.rc.straps.address z.losses
  waits : s.zoneEnabled = true → z.ctl = .idle → ¬ ClaimableNow z → t.zone = { z with ctl := .wait }
  joins : s.zoneEnabled = true → z.ctl = .claim → t.zone = { z with orphaned := false }
  disabled : s.zoneEnabled = false → t.zone = z ∧ Fires s i e t

/-- The walk of a cycle from an entry on, after the outcomes `before` and with the zone line as z: it hands the outcomes of the
due entries it passes, and requests for the entry it stops at, or finishes the cycle (R23, R24). -/
structure Walked (s : State) (z : Zone) (cycle : StepRef) (first : Nat) (before : List Handed) (t : State) : Prop where
  ends : WalkEnds s cycle.index first →
    Took (before ++ unfiredDue s .missed cycle.index cycle.pos (s.cfg.plan.drop first)) s t ∧
    t.seq.sq = .waitStep ∧ t.seq.cycle = none ∧ t.seq.pointer = none ∧ t.zone = z
  stops : ∀ i e, WalkStops s cycle.index first i e →
    Took (before ++ unfiredDue s .missed cycle.index cycle.pos ((s.cfg.plan.take i).drop first)) s t ∧
    t.seq.cycle = some cycle ∧ Requested s z i e t

/-! ### Closes of slots and gaps (R34, R73, R80, R81, R104 to R109) -/

/-- The sequence number k records after seq, from 65535 to 0 (R80, R107). -/
def seqAfter (seq : Nat) : Nat → Nat
  | 0 => seq
  | k + 1 => (seq + (k + 1)) % 65536

/-- The open slots of a channel, the older first: the one from whose open order the other's is reached by counting forward by less
than 2^31 (R96, R105; exactly 2^31 apart, the one in slot 1: log entry 20). -/
def openSlots (sl : ChanSlots) : List Slot :=
  match sl.slot0, sl.slot1 with
  | some a, some b => if (b.order + 4294967296 - a.order) % 4294967296 < 2147483648 then [a, b] else [b, a]
  | some a, none => [a]
  | none, some b => [b]
  | none, none => []

/-- The open slots of several channels, in the order in which one event closes them (R105). -/
def openIn (s : State) (cs : List Chan) : List (Chan × Slot) :=
  cs.flatMap (fun c => (openSlots (s.trk.chan.get c)).map (fun x => (c, x)))

/-- A slot that has closed, with its closure marks (R103 to R107). -/
structure ClosedSlot where
  chan : Chan
  slot : Slot
  long : Bool
  cut : Bool
  deriving DecidableEq, Repr

/-- Those closed slots with hits enough for an indication (R106). -/
def reportable (s : State) (xs : List ClosedSlot) : List ClosedSlot :=
  xs.filter (fun x => decide ((s.cfg.chan.get x.chan).nmin ≤ x.slot.hits))

/-- The indication record of a closed slot (R107). -/
def closedIndication (s : State) (seq : Nat) (x : ClosedSlot) : Indication :=
  { origin := s.own, seq := seq, channel := x.chan, rail := s.rail, beam := (s.cfg.chan.get x.chan).beam,
    xStart := x.slot.xMin, xEnd := x.slot.xMax, zMin := x.slot.zMin, zMax := x.slot.zMax, peak := x.slot.peak,
    hits := x.slot.hits, spanned := x.slot.spanned, saturated := x.slot.saturated, doubtful := x.slot.doubtful,
    gapped := x.slot.gapped, long := x.long, cut := x.cut }

/-- The records of closed slots, each with its sequence number (R105, R107). -/
def closedIndications (s : State) (xs : List ClosedSlot) : List Indication :=
  (reportable s xs).zipIdx.map (fun x => closedIndication s (seqAfter s.trk.seq x.2) x.1)

/-- What evaluating closed slots in their order leaves: one indication for each slot of Nmin hits or more, inserted in the table,
where the oldest entries make room at 48, and last on class 2 while there is room there, or counted as dropped there; the others counted
sparse (R105 to R107, R113, R117, R135). -/
structure SlotsClosed (s : State) (xs : List ClosedSlot) (t : State) : Prop where
  seq : t.trk.seq = seqAfter s.trk.seq (reportable s xs).length
  sparse : s.trk.sparse ≤ 65535 → t.trk.sparse = min (s.trk.sparse + (xs.length - (reportable s xs).length)) 65535
  sent : t.link.q2 = s.link.q2 ++
    ((closedIndications s xs).map (fun r => ⟨s.rc.run, r⟩)).take (32 - s.link.q2.length)
  dropped : s.link.drop2 ≤ 65535 →
    t.link.drop2 = min (s.link.drop2 + ((closedIndications s xs).length - (32 - s.link.q2.length))) 65535
  entered : s.corr.table.length ≤ 48 → t.corr.table.map (·.ind) = (s.corr.table.map (·.ind) ++ closedIndications s xs).drop
    (s.corr.table.length + (closedIndications s xs).length - 48)
  inserted : let u := (closedIndications s xs).foldl (fun v n => insertRecord n v) s
    t.corr = u.corr ∧ t.link.q1 = u.link.q1 ∧ t.link.drop1 = u.link.drop1

/-- What closing the slots of several channels with CUT leaves: the places free, and the slots evaluated (R104 to R107). -/
structure CutFor (s : State) (cs : List Chan) (t : State) : Prop where
  freed : ∀ c, t.trk.chan.get c = if c ∈ cs then ⟨none, none⟩ else s.trk.chan.get c
  counts : t.trk.openOrder = s.trk.openOrder ∧ t.trk.overflow = s.trk.overflow
  closed : SlotsClosed s ((openIn s cs).map (fun x => ⟨x.1, x.2, false, true⟩)) t

/-- What an event of one channel leaves of its tracker: the slots that remain, the open-order count, the overflow count, and the
slots it closes, evaluated; with none closed, nothing else (R96 to R107). -/
structure Settled (s : State) (c : Chan) (slots : ChanSlots) (order overflow : Nat) (closing : List ClosedSlot) (t : State) :
    Prop where
  chan : t.trk.chan = s.trk.chan.set c slots
  counts : t.trk.openOrder = order ∧ t.trk.overflow = overflow
  closed : SlotsClosed s closing t
  keeps : Keeps [.trk, .corr, .link] s t
  hands : HandsTo s.own [.c1, .c2] s.link t.link
  rests : closing = [] →
    t = { s with trk := { s.trk with chan := s.trk.chan.set c slots, openOrder := order, overflow := overflow } }

/-- The open gaps of the station, in ascending channel number (R81). -/
def openGaps (s : State) : List (Chan × OpenGap) :=
  Chan.all.filterMap (fun c => (s.cov.chan.get c).gap.map (fun g => (c, g)))

/-- What closing every open gap with STOPPED leaves: no open gap, each last gap end, and one GAP record for each gap with its
sequence number, last on class 3 while there is room, or counted as dropped there (R80, R81, R135). -/
structure GapsStopped (s t : State) : Prop where
  closed : ∀ c, t.cov.chan.get c = { s.cov.chan.get c with
    gap := none, lastEnd := ((s.cov.chan.get c).gap.map (fun g => some g.xEnd)).getD (s.cov.chan.get c).lastEnd }
  seq : t.cov.gapSeq = seqAfter s.cov.gapSeq (openGaps s).length
  sent : t.link.q3 = s.link.q3 ++ ((openGaps s).zipIdx.map (fun x => (⟨s.rc.run,
    { origin := s.own, seq := seqAfter s.cov.gapSeq x.2, channel := x.1.1, beam := (s.cfg.chan.get x.1.1).beam,
      rail := s.rail, reason := x.1.2.reason, xStart := x.1.2.xStart, xEnd := x.1.2.xEnd, firings := x.1.2.firings,
      closure := .stopped }⟩ : Queued GapRecord))).take (16 - s.link.q3.length)
  dropped : s.link.drop3 ≤ 65535 →
    t.link.drop3 = min (s.link.drop3 + ((openGaps s).length - (16 - s.link.q3.length))) 65535

/-! ### Calls (R123, R125, R135) -/

/-- A call's extent lies wholly within one suppression span (R125). -/
def heldBack (spans : List Span) (c : Call) : Bool := spans.any (fun sp => decide (sp.a ≤ c.xLo ∧ c.xHi ≤ sp.b))

/-- What several calls built in their order leave: each takes a call sequence number; those within a span are counted as
suppressed; the others go last on class 1 while there is room, and are counted as dropped there (R125, R135). -/
structure CallsMade (s : State) (calls : List Call) (t : State) : Prop where
  seq : t.corr.callSeq = seqAfter s.corr.callSeq calls.length
  suppressed : s.corr.suppressed ≤ 65535 → t.corr.suppressed =
    min (s.corr.suppressed + (calls.filter (fun c => heldBack s.corr.spans c)).length) 65535
  queued : t.link.q1 = s.link.q1 ++
    ((calls.filter (fun c => !heldBack s.corr.spans c)).map (fun c => ⟨s.rc.run, c⟩)).take (24 - s.link.q1.length)
  dropped : s.link.drop1 ≤ 65535 → t.link.drop1 = min (s.link.drop1 +
    ((calls.filter (fun c => !heldBack s.corr.spans c)).length - (24 - s.link.q1.length))) 65535
  hands : HandsTo s.own [.c1] s.link t.link

/-- The own UNPAIRED entries of a list (R123). -/
def ownUnpaired (s : State) (es : List Entry) : List Entry :=
  es.filter (fun e => decide (e.ind.origin = s.own ∧ e.partner = none))

/-- The SINGLE call of an entry that leaves (R117, R123). -/
def singleCall (s : State) (early : Bool) (seq : Nat) (e : Entry) : Call :=
  { seq := seq, cls := 0, rail := s.rail, xLo := e.ind.xStart, xHi := e.ind.xEnd, zLo := e.ind.zMin, zHi := e.ind.zMax,
    peak := e.ind.peak, first := ⟨e.ind.origin, e.ind.seq, e.ind.beam⟩, second := none,
    uncertain := decide (s.corr.epoch ≠ e.epoch), early := early, saturated := e.ind.saturated, doubtful := e.ind.doubtful,
    long := e.ind.long }

/-- The SINGLE calls of entries that leave in their order, each with its sequence number. -/
def singleCalls (s : State) (early : Bool) (gone : List Entry) : List Call :=
  ((ownUnpaired s gone).filter (fun e => inBeams s.cfg.single e.ind.beam)).zipIdx.map (fun x =>
    singleCall s early (seqAfter s.corr.callSeq x.2) x.1)

/-- What entries leaving the table by expiry, or forced out with EARLY, leave: a SINGLE call for each own UNPAIRED one of a
single-call beam, and an unpaired drop for each other own UNPAIRED one (R117, R123). -/
structure EntriesLeft (early : Bool) (s : State) (gone : List Entry) (t : State) : Prop where
  calls : CallsMade s (singleCalls s early gone) t
  dropped : s.corr.unpairedDrop ≤ 65535 → t.corr.unpairedDrop = min (s.corr.unpairedDrop +
    ((ownUnpaired s gone).filter (fun e => !inBeams s.cfg.single e.ind.beam)).length) 65535
  others : t.corr.peers = s.corr.peers ∧ t.corr.epoch = s.corr.epoch ∧ t.corr.staleRun = s.corr.staleRun ∧
    t.corr.suppressOverflow = s.corr.suppressOverflow

/-! ### Position (law 1, R10, R14) -/

/-- P stays within its limits, f is a fraction, and F is at least P and at least 0 (R8, R10). -/
structure PositionLaw (s : State) : Prop where
  limits : -2000000000 ≤ s.pos.p ∧ s.pos.p ≤ 2000000000
  fraction : s.pos.f ≤ 255
  behind : s.pos.p ≤ s.pos.front
  frontier : 0 ≤ s.pos.front ∧ s.pos.front ≤ 2000000000

/-- In RUNNING, next_step is (s_idx + 1) × D and s_idx is the floor of F/D (R14). -/
def StepLaw (s : State) : Prop :=
  s.rc.runState = .running →
    s.pos.nextStep = ((s.pos.sIdx : Int) + 1) * s.cfg.d ∧ (s.pos.sIdx : Int) = s.pos.front / s.cfg.d

/-- What the Position Unit keeps. -/
structure TravelLaw (s : State) : Prop where
  position : PositionLaw s
  step : StepLaw s
  size : s.operating = true → 4 ≤ s.cfg.d ∧ s.cfg.d ≤ 60

/-! ### Run start (R151) -/

/-- A run starts: every block as its run-start rule leaves it. The record of a class 1, 2 or 3 frame in flight stays at the head
with its frame marked as flushed; the others of those classes are taken out and counted in the new run's drop counters (R151, R16, R36,
R41, R76, R82, R110, R129, R136). -/
structure RunStarted (r : Byte) (s t : State) : Prop where
  rc : t.rc = { s.rc with runState := .running, run := r, pendingStart := none, conflict := false }
  pos : t.pos = { s.pos with
    p := 0, f := 0, front := 0, sIdx := 0, nextStep := s.cfg.d, limitFlag := false, encoderError := 0 }
  seq : t.seq = { s.seq with
    sq := .waitStep, cycle := none, pointer := none, waiting := none, volley := none, holdTimer := 0, held := 0 }
  zone : t.zone = { s.zone with
    ctl := if s.zoneEnabled then .idle else .off, stuck := false, stuckTimer := 0, orphaned := false }
  coup : ∀ c, t.coup.get c = ⟨if (s.cfg.chan.get c).m.enabled then .doubtful else .coupled, 0, 0⟩
  cov : (∀ c, t.cov.chan.get c = ⟨none, none, none⟩) ∧ t.cov.gapSeq = 0
  trk : (∀ c, t.trk.chan.get c = ⟨none, none⟩) ∧
    t.trk.openOrder = 0 ∧ t.trk.seq = 0 ∧ t.trk.overflow = 0 ∧ t.trk.sparse = 0
  corr : t.corr =
    { table := [], spans := [], callSeq := 0, epoch := 0, staleRun := 0, unpairedDrop := 0, suppressed := 0,
      suppressOverflow := 0, peers := s.corr.peers.map (fun p => ⟨p.seen, false, p.lastSeq, 0, 0⟩) }
  link : let flies := fun (c : TxClass) => if s.link.inFlight.map (·.cls) = some c then 1 else 0
    t.link = { s.link with
      q1 := s.link.q1.take (flies .c1), q2 := s.link.q2.take (flies .c2), q3 := s.link.q3.take (flies .c3)
      drop0 := 0, drop1 := min (s.link.q1.length - flies .c1) 65535
      drop2 := min (s.link.q2.length - flies .c2) 65535, drop3 := min (s.link.q3.length - flies .c3) 65535
      inFlight := s.link.inFlight.map (fun fl => { fl with flushed := fl.flushed || decide (fl.cls ≠ .c0) })
      collision := 0, receiveError := 0, receiveOverflow := 0 }
  keeps : t.cfg = s.cfg ∧ t.acq = s.acq ∧ t.pending = s.pending

/-! ### Run and sequencer (R36, R37, R146, R152) -/

/-- How the run state, the drain and the sequencer's state go together. -/
structure RunLaw (s : State) : Prop where
  reset : s.rc.inReset = true → s.rc.runState = .loading
  draining : s.rc.draining = true → s.rc.runState = .stopping ∧ s.seq.sq = .off
  stopping : s.rc.runState = .stopping → s.rc.draining = false → s.seq.sq = .hold
  running : s.rc.runState = .running → s.seq.sq ≠ .off
  serving : s.seq.sq ≠ .off → s.inRun = true
  off : s.seq.sq = .off →
    s.seq.cycle = none ∧ s.seq.pointer = none ∧ s.seq.waiting = none ∧ s.seq.volley = none
  waitStep : s.seq.sq = .waitStep →
    s.seq.cycle = none ∧ s.seq.pointer = none ∧ s.seq.waiting = none ∧ s.seq.volley = none
  pending : s.seq.sq = .pending → s.seq.waiting = none ∧ s.seq.volley = none ∧ s.seq.cycle ≠ none ∧
    ∃ i e, s.seq.pointer = some i ∧ s.cfg.plan[i]? = some e
  hold : s.seq.sq = .hold → ∃ v e, s.seq.volley = some v ∧ s.cfg.plan[v.entry]? = some e
  pendingStart : s.rc.pendingStart ≠ none → s.rc.runState = .stopping

/-! ### Zone line (law 2, R41, R46 to R54) -/

/-- How the zone line controller goes with the run state and the sequencer: the line is held exactly while a volley is in
hold, and a request stands exactly while the sequencer is in SQ_PENDING. -/
structure ZoneLaw (s : State) : Prop where
  disabled : s.zoneEnabled = false → s.zone.ctl = .off
  holds : s.zoneEnabled = true → (s.zone.ctl = .hold ↔ s.seq.sq = .hold)
  idle : s.zone.ctl = .idle → s.rc.runState = .running
  waits : s.zone.ctl = .wait → s.rc.runState = .running ∧ s.seq.sq = .pending
  claims : s.zone.ctl = .claim → s.zone.orphaned = false → s.rc.runState = .running ∧ s.seq.sq = .pending
  requested : s.zoneEnabled = true → s.seq.sq = .pending →
    s.zone.ctl = .wait ∨ (s.zone.ctl = .claim ∧ s.zone.orphaned = false)
  runs : s.zoneEnabled = true → s.rc.runState = .running → s.zone.ctl ≠ .off
  resting : s.operating = false → s.zone.ctl = .off
  driving : s.zone.ctl = .claim ∨ s.zone.ctl = .hold → s.zone.quiet = false
  stuck : s.zone.stuck = true → s.zone.ctl = .idle ∨ s.zone.ctl = .wait
  timer : s.zone.ctl ≠ .idle → s.zone.ctl ≠ .wait → s.zone.stuckTimer = 0
  losses : s.zone.losses ≤ 255

/-- The run, the sequencer and the zone line together. -/
structure FiringLaw (s : State) : Prop where
  run : RunLaw s
  zone : ZoneLaw s

/-! ### Coverage (law 8, R77 to R80) -/

/-- A channel's coverage: an open gap's span grows forward from beyond the last gap end and ends at the reach, its firings
stay below 65535, and the reach is at or beyond the last gap end. -/
structure ChanCoverageLaw (v : ChanCoverage) : Prop where
  span : ∀ g, v.gap = some g → g.xStart ≤ g.xEnd ∧ v.reach = some g.xEnd
  firings : ∀ g, v.gap = some g → 1 ≤ g.firings ∧ g.firings < 65535
  clear : ∀ g e, v.gap = some g → v.lastEnd = some e → e < g.xStart
  reached : ∀ e, v.lastEnd = some e → ∃ r, v.reach = some r ∧ e ≤ r

def CoverageLaw (s : State) : Prop := ∀ c, ChanCoverageLaw (s.cov.chan.get c)

/-! ### Tracking (laws 4 and 5 in part, R96 to R108) -/

/-- An open slot within the bounds its record must meet, for a greatest extent and a gap tolerance. -/
structure SlotLaw (lmax g : Nat) (sl : Slot) : Prop where
  hits : 1 ≤ sl.hits ∧ sl.hits ≤ 255
  spanned : sl.hits ≤ sl.spanned ∧ sl.spanned ≤ 4095
  extent : sl.xMin ≤ sl.xMax ∧ sl.xMax - sl.xMin ≤ lmax
  last : (sl.xMin ≤ sl.lastX ∧ sl.lastX ≤ sl.xMax) ∧ sl.zMin ≤ sl.lastZ ∧ sl.lastZ ≤ sl.zMax
  misses : sl.missRun < g

/-- Every open slot meets its bounds, and no slot is open before a good load (R111). -/
structure TrackerLaw (s : State) : Prop where
  slots : ∀ c sl, ((s.trk.chan.get c).slot0 = some sl ∨ (s.trk.chan.get c).slot1 = some sl) →
    SlotLaw s.cfg.lmax (s.cfg.chan.get c).g sl
  free : s.operating = false → ∀ c, s.trk.chan.get c = ⟨none, none⟩
  tolerance : s.operating = true → ∀ c, 1 ≤ (s.cfg.chan.get c).g

/-! ### Correlation (law 6 in part, law 9, R113 to R127) -/

/-- The suppression list as law 9 has it: sorted by start, pairwise disjoint and non-adjacent, at most eight spans. -/
structure SpansLaw (spans : List Span) : Prop where
  count : spans.length ≤ 8
  ordered : ∀ sp ∈ spans, sp.a ≤ sp.b
  apart : spans.Pairwise (fun x y => x.b + 1 < y.a)

/-- The table within its capacity, the suppression list as law 9 has it, one peer entry for each address, the epoch within its
top. -/
structure CorrelationLaw (s : State) : Prop where
  capacity : s.corr.table.length ≤ 48
  spans : SpansLaw s.corr.spans
  peers : s.corr.peers.length = 16
  epoch : s.corr.epoch ≤ 4294967295

/-! ### Reception (R133, R141) -/

/-- What one tick does to the frame a receiver gathers: in RX_FRAME it counts the ticks since the start edge of the character in
progress, reads the level at the middle of each of the ten bits, k bit times and a half on, and at the end of the character, 125
ticks on, adds its byte, whose bit i is a 1 where the level i + 1 bits on was recessive (R133). -/
structure Gathers (l : Link) (g : Gathering) : Prop where
  rests : l.rx ≠ .frame ∨ l.gather.since = none → g = l.gather
  counts : ∀ m, l.rx = .frame → l.gather.since = some m → m < 124 → g.since = some (m + 1) ∧
    g.chars = l.gather.chars ∧
    (m + 1 = (50 * l.gather.bits.length + 28) / 4 ∧ l.gather.bits.length < 10 → g.bits = l.gather.bits ++ [l.level]) ∧
    (¬(m + 1 = (50 * l.gather.bits.length + 28) / 4 ∧ l.gather.bits.length < 10) → g.bits = l.gather.bits)
  ends : ∀ m, l.rx = .frame → l.gather.since = some m → 124 ≤ m → g.since = none ∧ g.bits = [] ∧
    ∃ b : Byte, g.chars = l.gather.chars ++ [b] ∧ (9 ≤ l.gather.bits.length → ∀ i < 8,
      b.getLsbD i = decide (l.gather.bits.getD (i + 1) .dominant = .recessive))

/-- What a frame gathered so far has come to: a stop bit read dominant, a first character that is not the sync byte, a length
above 32, or all the characters its length gives, good or with a CRC that differs (R133, R141). -/
def Judged (g : Gathering) (c : Instr) : Prop :=
  let n := (g.chars.getD 4 0).toNat
  let framed := g.bits.getD 9 .recessive = .recessive
  let synced := g.chars = [] ∨ g.chars.getD 0 0 = 0x5A#8
  let whole := 7 + n ≤ g.chars.length
  let good := g.chars.drop (5 + n) = crcBytes (crc16 ((g.chars.take (5 + n)).drop 1))
  (¬framed ∧ c = .receiveError .framing) ∨ (framed ∧ ¬synced ∧ c = .receiveError .sync) ∨
  (framed ∧ synced ∧ 32 < n ∧ c = .receiveError .length) ∨
  (framed ∧ synced ∧ n ≤ 32 ∧ whole ∧ good ∧ c = .frameReceived g.chars) ∨
  (framed ∧ synced ∧ n ≤ 32 ∧ whole ∧ ¬good ∧ c = .receiveError .crc)

/-! ### Link (law 10, R135 to R145) -/

/-- The queues within their capacities, a frame in flight exactly in TX_SEND, ranks 0–63, a transmitter and receiver that
are off exactly in LOADING, and nothing gathered outside RX_FRAME. -/
structure LinkLaw (s : State) : Prop where
  queues : s.link.q0.length ≤ 4 ∧ s.link.q1.length ≤ 24 ∧ s.link.q2.length ≤ 32 ∧ s.link.q3.length ≤ 16
  received : s.link.rxQueue.length ≤ 16
  flight : s.link.tx = .send ↔ s.link.inFlight ≠ none
  record : ∀ fl, s.link.inFlight = some fl → headOf s.link fl.cls = true
  rank : ∀ r, s.link.rank = some r → r ≤ 63
  deferring : s.link.tx = .defer → s.link.rank ≠ none
  off : (s.link.tx = .off ↔ s.rc.runState = .loading) ∧ (s.link.rx = .off ↔ s.rc.runState = .loading)
  gathering : s.link.rx ≠ .frame → s.link.gather = ⟨none, [], []⟩

end Sys2Proof.Machine
end

