-- ==== Sys2Proof/Certificates/Slice0/Obligations.lean ====
section
/-! DEFINITION. The statements for the provers. Each docstring names the rules of spec/ it follows; the model's own choices are
named by their log entry. -/

open Sys2Proof Sys2Proof.Machine

/-! ### The step and the queue -/

/-- A step with a command at the front of the queue is that command on the state with the rest of the queue. -/
def Obligations.StepRunsTheFrontCommand : Prop :=
  ∀ (s : State) (c : Instr) (rest : List Instr), s.pending = c :: rest →
    step s = exec c { s with pending := rest }

/-- No command changes the queue of commands. The queue, and its standing through a reset, are the model's choice (log entries 1
and 15): the spec has no queue of commands. -/
def Obligations.ExecKeepsTheQueue : Prop :=
  ∀ (c : Instr) (s t : State), exec c s = .next t → t.pending = s.pending

/-- The step on an empty queue is time (the model's choice, log entries 4 and 6). What the station's own timers bring stands in
one order: a claim period of 6 µs (150 ticks) ends; a line recessive for 3 µs outside one becomes quiet; the stuck timer at Tw;
the middle of a bit it sends with another level on the link; a frame sent to its end; what the checks say of the frame gathered;
the begin time; a link recessive for 6 µs; a service time over; the drain over; the head frame of the receive queue for a block
that is not busy. A sample instant, the end of the hold and the middle of a code slot wait for the command that brings their
data. Else one tick of 40 ns passes: the timers move by 1, the zone line follows the slots of the station's claim, 25 ticks
each, the receiver reads the bits of a character at their middles, and the link follows the bits of the frame in flight, 12.5
ticks each (R2, R26, R40, R44, R50, R133, R134, R137 to R139, R141, R144, R153). That a line goes recessive where the station's
own slot or bit does, with no other party driving it, is the model's choice (log entry 5), and so is the recessive time's start
at a character's end (log entry 6). -/
def Obligations.EmptyQueueStepIsTime : Prop :=
  ∀ s : State, s.pending = [] →
    let z := s.zone
    let l := s.link
    let claimEnd := s.observing = true ∧ ∃ n, z.claimPeriod = some n ∧ 150 ≤ n
    let quiet := s.observing = true ∧ z.claimPeriod = none ∧ z.ctl ≠ .claim ∧ z.ctl ≠ .hold ∧ z.quiet = false ∧
      z.line = .recessive ∧ 75 ≤ z.recessiveTime
    let stuckRuns := (z.ctl = .idle ∨ z.ctl = .wait) ∧ z.line = .dominant ∧ z.stuck = false
    let stuck := stuckRuns ∧ s.cfg.tw * 25000 ≤ z.stuckTimer
    let sent := l.tx = .send ∧ l.sendLeft = 0
    let mismatch := l.tx = .send ∧ ∃ fl, l.inFlight = some fl ∧
      let at_ := 125 * fl.chars.length - l.sendLeft
      at_ = (50 * (at_ * 2 / 25) + 28) / 4 ∧ l.level ≠ (fl.chars.flatMap charLevels).getD (at_ * 2 / 25) .recessive
    let judged := fun c => l.rx = .frame ∧ Judged l.gather c
    let begins := l.tx = .defer ∧ l.beginIn = 0
    let idle := s.linkOn = true ∧ l.tx ≠ .send ∧ l.idle = false ∧ l.level = .recessive ∧ 150 ≤ l.recessiveTime
    let served := fun b => busyOf l b = some 0
    let drained := s.rc.runState = .stopping ∧ s.rc.draining = true ∧ s.rc.drainTimer = 0
    let zoneDue := claimEnd ∨ quiet ∨ stuck
    let linkDue := mismatch ∨ sent ∨ (∃ c, judged c) ∨ begins ∨ idle
    let takes := fun c => s.operating = true ∧ ∃ f fs b, l.rxQueue = f :: fs ∧ disposal s.own f = .hand b c ∧
      busyOf l b = none
    let timed := zoneDue ∨ linkDue ∨ (∃ b, served b) ∨ drained
    let awaits := (s.operating = true ∧ s.pos.sampleClock = 0) ∨ (s.seq.sq = .hold ∧ s.seq.holdTimer = 0) ∨
      (z.ctl = .claim ∧ z.slotRead < 5 ∧ 25 * (z.slotRead + 1) + 12 ≤ z.claimPeriod.getD 0)
    (claimEnd → step s = exec .claimPeriodEnd s) ∧
    (¬claimEnd → quiet → step s = exec .quiet s) ∧
    (¬claimEnd → ¬quiet → stuck → step s = exec .stuckTimerExpiry s) ∧
    (¬zoneDue → mismatch → step s = exec .readbackMismatch s) ∧
    (¬zoneDue → ¬mismatch → sent → step s = exec .frameComplete s) ∧
    (¬zoneDue → ¬mismatch → ¬sent → ∀ c, judged c → step s = exec c s) ∧
    (¬zoneDue → (∀ c, ¬judged c) → begins → step s = exec .beginTime s) ∧
    (¬zoneDue → (∀ c, ¬judged c) → ¬begins → idle → step s = exec .linkIdleInstant s) ∧
    (¬zoneDue → ¬linkDue → served .runController → step s = exec (.serviceTimeEnd .runController) s) ∧
    (¬zoneDue → ¬linkDue → ¬served .runController → served .volleySequencer →
      step s = exec (.serviceTimeEnd .volleySequencer) s) ∧
    (¬zoneDue → ¬linkDue → ¬served .runController → ¬served .volleySequencer → served .correlationUnit →
      step s = exec (.serviceTimeEnd .correlationUnit) s) ∧
    (¬zoneDue → ¬linkDue → (∀ b, ¬served b) → drained → step s = exec .drainEnd s) ∧
    (¬timed → ∀ c, takes c → step s = exec c s) ∧
    (¬timed → (∀ c, ¬takes c) → awaits → step s = .next s) ∧
    (¬timed → (∀ c, ¬takes c) → ¬awaits → ∃ t, step s = .next t ∧ Keeps [.rc, .pos, .seq, .zone, .link] s t ∧
      t.rc = (if s.rc.draining = true then { s.rc with drainTimer := s.rc.drainTimer - 1 } else s.rc) ∧
      t.pos = (if s.operating = true then { s.pos with sampleClock := s.pos.sampleClock - 1 } else s.pos) ∧
      t.seq = (if s.seq.sq = .hold then { s.seq with holdTimer := s.seq.holdTimer - 1 } else s.seq) ∧
      (s.observing = false → t.zone = z) ∧
      (s.observing = true → t.zone = { z with
        line := t.zone.line, recessiveTime := t.zone.recessiveTime, claimPeriod := z.claimPeriod.map (· + 1),
        stuckTimer := t.zone.stuckTimer } ∧
        (stuckRuns → t.zone.stuckTimer = z.stuckTimer + 1) ∧ (¬stuckRuns → t.zone.stuckTimer = z.stuckTimer) ∧
        (z.line = .recessive → z.claimPeriod = none → z.recessiveTime < 75 →
          t.zone.recessiveTime = z.recessiveTime + 1) ∧
        (z.ctl ≠ .claim → t.zone.line = z.line ∧
          (z.line = .dominant ∨ z.claimPeriod ≠ none ∨ 75 ≤ z.recessiveTime → t.zone.recessiveTime = z.recessiveTime)) ∧
        (∀ n, z.ctl = .claim → z.claimPeriod = some n →
          let drive := fun (m : Nat) =>
            if m < 25 ∨ z.claimCode.getLsbD (5 - min 5 (m / 25)) = false then LineLevel.dominant else .recessive
          (drive (n + 1) = drive n → t.zone.line = z.line ∧ t.zone.recessiveTime = z.recessiveTime) ∧
          (drive (n + 1) ≠ drive n → t.zone.line = drive (n + 1) ∧
            t.zone.recessiveTime = if drive (n + 1) = .dominant then 0 else z.recessiveTime))) ∧
      t.link = { l with
        level := t.link.level, idle := t.link.idle, recessiveTime := t.link.recessiveTime,
        rx := t.link.rx, gather := t.link.gather, sinceIdle := t.link.sinceIdle, beginIn := l.beginIn - 1,
        sendLeft := l.sendLeft - 1,
        busyRun := l.busyRun.map (· - 1), busySeq := l.busySeq.map (· - 1), busyCorr := l.busyCorr.map (· - 1) } ∧
      (l.idle = true → l.sinceIdle < 1600 → t.link.sinceIdle = l.sinceIdle + 1) ∧
      ∃ g, Gathers l g ∧
      (let charEnds := l.rx = .frame ∧ 124 ≤ l.gather.since.getD 0;
        (l.tx ≠ .send → t.link.level = l.level ∧ t.link.idle = l.idle ∧ t.link.rx = l.rx ∧ t.link.gather = g ∧
          (charEnds → t.link.recessiveTime = 0) ∧
          (¬charEnds → s.linkOn = true → l.level = .recessive → l.recessiveTime < 150 →
            t.link.recessiveTime = l.recessiveTime + 1) ∧
          (¬charEnds → l.level = .dominant → t.link.recessiveTime = l.recessiveTime)) ∧
        (∀ fl, l.tx = .send → l.inFlight = some fl →
          let bit := fun (left : Nat) =>
            (fl.chars.flatMap charLevels).getD ((125 * fl.chars.length - left) * 2 / 25) .recessive
          (bit (l.sendLeft - 1) = bit l.sendLeft →
            t.link.level = l.level ∧ t.link.idle = l.idle ∧ t.link.rx = l.rx ∧ t.link.gather = g) ∧
          (bit (l.sendLeft - 1) ≠ bit l.sendLeft →
            t.link.level = bit (l.sendLeft - 1) ∧ t.link.recessiveTime = 0 ∧
            (bit (l.sendLeft - 1) = .recessive → t.link.idle = l.idle ∧ t.link.rx = l.rx ∧ t.link.gather = g) ∧
            (bit (l.sendLeft - 1) = .dominant → t.link.idle = false ∧
              t.link.rx = (if l.rx = .hunt then .frame else l.rx) ∧
              t.link.gather = if l.rx = .hunt then ⟨some 0, [], []⟩
                else if l.rx = .frame ∧ l.level = .recessive ∧ g.since = none then ⟨some 0, [], g.chars⟩ else g)))))

/-! ### Reset and load (chapter 10) -/

/-- POWER_ON, SUPPLY_LOW and RESET_PIN each do the same full initialisation and record their cause (R146, R17, R38, R54, R60,
R76, R82, R94, R111, R132, R136, R145). The plan, the ports, the rules and every parameter are empty until the next load; the
zeros they then hold are the model's choice (log entry 2). A shared line keeps its level, with this station's own drive taken
off it (R54, R145, log entries 5 and 15). That the held station is in LOADING with inReset set and that no block stays busy with
a frame are the model's choice (log entry 3), and so is the queue's standing through the reset (log entry 15). -/
def Obligations.ResetInitialisesEveryBlock : Prop :=
  ∀ (s : State) (c : Instr) (cause : ResetCause),
    ((c = .powerOn ∧ cause = .powerOn) ∨ (c = .supplyLow ∧ cause = .supplyLow) ∨ (c = .resetPin ∧ cause = .resetPin)) →
    ∃ t, exec c s = .next t ∧
      (t.rc.inReset = true ∧ t.rc.runState = .loading ∧ t.rc.cause = cause ∧ t.rc.run = 0 ∧ t.rc.pendingStart = none ∧
        t.rc.draining = false ∧ t.rc.drainTimer = 0 ∧ t.rc.conflict = false ∧ t.rc.warnings = Warnings.empty ∧
        t.rc.faultCode = none) ∧
      (t.pos.p = 0 ∧ t.pos.f = 0 ∧ t.pos.front = 0 ∧ t.pos.sIdx = 0 ∧ t.pos.nextStep = 0 ∧ t.pos.limitFlag = false ∧
        t.pos.encoderError = 0 ∧ t.pos.qualA = false ∧ t.pos.qualB = false ∧ t.pos.agreeA = 0 ∧ t.pos.agreeB = 0 ∧
        t.pos.refA = false ∧ t.pos.refB = false) ∧
      (t.seq.sq = .off ∧ t.seq.cycle = none ∧ t.seq.pointer = none ∧ t.seq.waiting = none ∧ t.seq.volley = none ∧
        t.seq.holdTimer = 0 ∧ t.seq.mask = 0 ∧ t.seq.held = 0 ∧ t.acq = []) ∧
      (t.zone.ctl = .off ∧ t.zone.quiet = false ∧ t.zone.claimPeriod = none ∧ t.zone.losses = 0 ∧
        t.zone.orphaned = false ∧ t.zone.stuckTimer = 0 ∧ t.zone.stuck = false) ∧
      (∀ ch, t.coup.get ch = ⟨.coupled, 0, 0⟩) ∧
      (∀ ch, t.cov.chan.get ch = ⟨none, none, none⟩) ∧ t.cov.gapSeq = 0 ∧
      (∀ ch, t.trk.chan.get ch = ⟨none, none⟩) ∧
      (t.trk.openOrder = 0 ∧ t.trk.seq = 0 ∧ t.trk.overflow = 0 ∧ t.trk.sparse = 0) ∧
      (t.corr.table = [] ∧ t.corr.spans = [] ∧ t.corr.callSeq = 0 ∧ t.corr.epoch = 0 ∧
        t.corr.peers = List.replicate 16 ⟨false, false, 0, 0, 0⟩ ∧ t.corr.staleRun = 0 ∧ t.corr.unpairedDrop = 0 ∧
        t.corr.suppressed = 0 ∧ t.corr.suppressOverflow = 0) ∧
      (t.link.q0 = [] ∧ t.link.q1 = [] ∧ t.link.q2 = [] ∧ t.link.q3 = [] ∧ t.link.rxQueue = [] ∧ t.link.tx = .off ∧
        t.link.rx = .off ∧ t.link.gather = ⟨none, [], []⟩ ∧ t.link.inFlight = none ∧ t.link.idle = false ∧
        t.link.drop0 = 0 ∧ t.link.drop1 = 0 ∧ t.link.drop2 = 0 ∧ t.link.drop3 = 0 ∧ t.link.collision = 0 ∧ t.link.receiveError = 0 ∧
        t.link.receiveOverflow = 0 ∧ t.link.busyRun = none ∧ t.link.busySeq = none ∧ t.link.busyCorr = none) ∧
      (t.cfg = Params.cleared ∧ t.cfg.plan = [] ∧ t.cfg.rules = [] ∧ ∀ ch, (t.cfg.chan.get ch).port = none ∧
        (t.cfg.chan.get ch).f.enabled = false ∧ (t.cfg.chan.get ch).m.enabled = false) ∧
      (let slot := s.zone.claimPeriod.getD 0 / 25;
        let drives := s.zone.ctl = .hold ∨
          (s.zone.ctl = .claim ∧ (slot = 0 ∨ s.zone.claimCode.getLsbD (5 - min 5 slot) = false));
        (drives → t.zone.line = .recessive) ∧ (¬drives → t.zone.line = s.zone.line)) ∧
      (s.link.tx ≠ .send → t.link.level = s.link.level) ∧
      (∀ fl, s.link.tx = .send → s.link.inFlight = some fl →
        let bit := (fl.chars.flatMap charLevels).getD ((125 * fl.chars.length - s.link.sendLeft) * 2 / 25) .recessive;
        (bit = .dominant → t.link.level = .recessive) ∧ (bit = .recessive → t.link.level = s.link.level)) ∧
      t.pending = s.pending

/-- RESET_RELEASE of a station in reset reads the straps and leaves every block as the reset left it (R146, R147); with no reset
standing it has no effect, which is the model's choice (log entry 11). -/
def Obligations.ReleaseReadsTheStraps : Prop :=
  ∀ (s : State) (straps : Straps),
    (s.rc.inReset = true → ∃ t, exec (.resetRelease straps) s = .next t ∧
      t.rc = { s.rc with inReset := false, straps := straps } ∧ Keeps [.rc] s t) ∧
    (s.rc.inReset = false → exec (.resetRelease straps) s = .next s)

/-- A load whose image fails a check ends in FAULTED with the code of the check and one CONFIG_FAULT event of run 0 on class 0;
one whose image passes ends in STANDBY with the corrected configuration, one STATION_UP event of run 0 carrying the reset cause
and the warning set, the first sample awaited and the zone line judged busy. Either takes the link up, with nothing to send
until the link is idle; an event that a full class 0 refuses is counted there; every other block stays (R148, R149, R3, R40,
R134, R135, R145). LOAD_END outside LOADING, or while the station is held in reset, has no effect, which is the model's choice
(log entries 11 and 3). -/
def Obligations.LoadEndsInFaultedOrStandby : Prop :=
  ∀ (s : State) (image : List Byte),
    let up := { s.link with
      idle := false, recessiveTime := 0, sinceIdle := 0, tx := .idle, rank := none, rx := .skip,
      gather := ⟨none, [], []⟩ }
    (s.rc.inReset = false → s.rc.runState = .loading →
      ∀ code entry, judgeImage image = .refused code entry → ∃ t, exec (.loadEnd image) s = .next t ∧
        t.rc = { s.rc with runState := .faulted, faultCode := some code } ∧
        EventHanded s.own 0 (.configFault code entry) up t.link ∧
        (s.link.q0.length < 4 → t.link = { up with q0 := s.link.q0 ++ [⟨0, .configFault code entry⟩] }) ∧
        Keeps [.rc, .link] s t) ∧
    (s.rc.inReset = false → s.rc.runState = .loading →
      ∀ p w, judgeImage image = .accepted p w → ∃ t, exec (.loadEnd image) s = .next t ∧
        t.rc = { s.rc with runState := .standby, warnings := w } ∧ t.cfg = p ∧
        t.pos = { s.pos with firstSample := true, sampleClock := 0 } ∧
        t.zone = { s.zone with quiet := false, recessiveTime := 0, claimPeriod := none } ∧
        EventHanded s.own 0 (.stationUp s.rc.cause w) up t.link ∧
        (s.link.q0.length < 4 → t.link = { up with q0 := s.link.q0 ++ [⟨0, .stationUp s.rc.cause w⟩] }) ∧
        Keeps [.rc, .cfg, .pos, .zone, .link] s t) ∧
    (s.rc.inReset = true ∨ s.rc.runState ≠ .loading → exec (.loadEnd image) s = .next s)

/-- The checks of a load stand in their order: format, length, CRC, end mark, channel sets, rule count; the first that fails
gives the fault code, and a memory that does not answer fails the first (R147, R159). -/
def Obligations.LoadChecksStandInOrder : Prop :=
  ∀ bytes : List Byte,
    let im := imageBytes bytes
    let crcGood := crcBytes (crc16 (im.take 475)) = im.drop 475
    (byteAt im 0 ≠ 0x81 → judgeImage bytes = .refused .format 0) ∧
    (byteAt im 0 = 0x81 → wordAt im 1 ≠ 477 → judgeImage bytes = .refused .length 0) ∧
    (byteAt im 0 = 0x81 → wordAt im 1 = 477 → ¬crcGood → judgeImage bytes = .refused .imageCrc 0) ∧
    (byteAt im 0 = 0x81 → wordAt im 1 = 477 → crcGood → (∀ e < 32, endMark im e = false) →
      judgeImage bytes = .refused .noEndMark 0) ∧
    (∀ last < 32, byteAt im 0 = 0x81 → wordAt im 1 = 477 → crcGood → endMark im last = true →
      (∀ e < last, endMark im e = false) →
      (∀ bad ≤ last, (∀ e < bad, (chansOf (entryChans im e)).length ∈ [1, 2, 3, 4]) →
        ((chansOf (entryChans im bad)).length = 0 → judgeImage bytes = .refused .entryEmpty bad) ∧
        (4 < (chansOf (entryChans im bad)).length → judgeImage bytes = .refused .entryOverfull bad)) ∧
      ((∀ e ≤ last, (chansOf (entryChans im e)).length ∈ [1, 2, 3, 4]) →
        (8 < byteAt im 0x193 → judgeImage bytes = .refused .ruleCount 0) ∧
        (byteAt im 0x193 ≤ 8 → ∃ p w, judgeImage bytes = .accepted p w ∧ p.plan.length = last + 1 ∧
          p.rules.length = byteAt im 0x193))) ∧
    judgeImage [] = .refused .format 0

/-- Every configuration that a load accepts lies within the ranges that the corrections of the chapters give it, and each field
is the one at its offset of 11.4, as given where it is in range and as its rule corrects it where it is not; each warning kind
of R149 stands in the warning set exactly where a correction of its rule was made (R1, R19, R21, R39, R55 to R58, R71, R85, R95,
R112, R147, R158). -/
def Obligations.AcceptedConfigurationIsInRange : Prop :=
  ∀ (bytes : List Byte) (p : Params) (w : Warnings), judgeImage bytes = .accepted p w →
    let b := byteAt (imageBytes bytes)
    let b2 := fun off => b off + 256 * b (off + 1)
    let rounded := fun (steps : List Nat) (given v : Nat) =>
      v ∈ steps ∧ v ≤ max 1 given ∧ ∀ step ∈ steps, step ≤ given → step ≤ v
    let record := fun (c : Chan) => 0x089 + 0x21 * c.num
    ParamsInRange p ∧
    (p.p = max 1 (b 0x003) ∧ p.n = (if (b 0x004).testBit 0 then 8 else 4) ∧
      p.mode = ([CountMode.x1, .x2, .x4, .x4].getD (b 0x004 / 2 % 4) .x4) ∧ p.aLeads = !(b 0x004).testBit 3 ∧
      p.s = max 1 (b2 0x005) ∧ p.d = min 60 (max 4 (b 0x007)) ∧ p.tw = max 1 (b 0x088) ∧
      p.lmax = max 16 (b2 0x191 % 4096) ∧ p.horizon = min 80000 (max 2000 ((b2 0x1D4 + 65536 * b 0x1D6) % 131072)) ∧
      (∀ beam < 9, p.single.getLsbD beam = (b2 0x1D7).testBit beam) ∧ p.dropOldest = (b 0x1D9).testBit 0 ∧
      p.drain = max 1 (b 0x1DA)) ∧
    ((w.encoder = true ↔ b 0x003 = 0 ∨ b 0x004 / 2 % 4 = 3 ∨ b2 0x005 = 0 ∨ b 0x007 < 4 ∨ 60 < b 0x007) ∧
      (w.zoneTw = true ↔ b 0x088 = 0) ∧ (w.lmax = true ↔ b2 0x191 % 4096 < 16) ∧
      (let h := (b2 0x1D4 + 65536 * b 0x1D6) % 131072; w.horizon = true ↔ h < 2000 ∨ 80000 < h) ∧
      (w.drain = true ↔ b 0x1DA = 0)) ∧
    (∀ e < p.plan.length, ∃ entry, p.plan[e]? = some entry ∧
      entry.chans = BitVec.ofNat 8 (b (0x008 + 4 * e)) ∧ entry.hold = min 250 (max 10 (b (0x009 + 4 * e))) ∧
      rounded [1, 2, 4, 8] (b (0x00A + 4 * e)) entry.divider ∧ entry.phase = b (0x00B + 4 * e) % 128 % entry.divider) ∧
    (w.plan = true ↔ ∃ e, ∃ entry, p.plan[e]? = some entry ∧ (entry.hold ≠ b (0x009 + 4 * e) ∨
      entry.divider ≠ b (0x00A + 4 * e) ∨ entry.phase ≠ b (0x00B + 4 * e) % 128)) ∧
    (∀ i < p.rules.length,
      (∃ r, p.rules[i]? = some r ∧
        (∀ beam < 9, r.setA.getLsbD beam = (b2 (0x194 + 8 * i)).testBit beam ∧
          r.setB.getLsbD beam = (b2 (0x196 + 8 * i)).testBit beam) ∧
        r.dx = b2 (0x198 + 8 * i) % 1024 ∧ r.dz = b (0x19A + 8 * i) ∧ r.cls = max 1 (b (0x19B + 8 * i) % 4)) ∧
      (w.ruleClass[i]? = some true ↔ b (0x19B + 8 * i) % 4 = 0)) ∧
    (∀ i, p.rules.length ≤ i → w.ruleClass[i]? ≠ some true) ∧
    (∀ port, w.portConflict[port]? = some true ↔
      port < 12 ∧ ∃ c d : Chan, c ≠ d ∧ b (record c) = port ∧ b (record d) = port) ∧
    (∀ c : Chan,
      let at_ := fun off => b (record c + off)
      let at2 := fun off => b2 (record c + off)
      let q := p.chan.get c
      let v := w.chan.get c
      let fitted := fun (given stop : Nat) =>
        let bounds := given :: 6143 :: (p.plan.filter (fun e => inSet e.chans c)).map (fun e => 25 * e.hold);
        stop ∈ bounds ∧ ∀ n ∈ bounds, stop ≤ n
      let signed := if at2 0x1B < 32768 then (at2 0x1B : Int) else at2 0x1B - 65536
      (∀ port, q.port = some port ↔ port < 12 ∧ at_ 0x00 = port ∧ ∀ d, b (record d) = port → d = c) ∧
      (v.port = true ↔ 12 ≤ at_ 0x00 ∧ at_ 0x00 ≠ 255) ∧
      (q.wedge = min 1023 (at2 0x0F) ∧ (v.wedge = true ↔ 1023 < at2 0x0F)) ∧
      (q.f.start = max (at2 0x01) q.wedge ∧ fitted (at2 0x03) q.f.stop ∧ q.f.threshold = min 254 (max 1 (at_ 0x05)) ∧
        rounded [1, 2, 3, 4, 6, 8] (at_ 0x06) q.f.q ∧ q.f.peak = (at_ 0x07).testBit 0 ∧
        (q.f.enabled = true ↔ q.f.start < q.f.stop) ∧ (v.disabledF = true ↔ q.f.stop ≤ q.f.start) ∧
        (v.clampF = true ↔ q.f.start ≠ at2 0x01 ∨ q.f.stop ≠ at2 0x03 ∨ q.f.threshold ≠ at_ 0x05 ∨ q.f.q ≠ at_ 0x06)) ∧
      (if (at_ 0x0E).testBit 0 = true then q.m.enabled = false ∧ v.clampM = false ∧ v.disabledM = false
        else q.m.start = at2 0x08 ∧ fitted (at2 0x0A) q.m.stop ∧ q.m.threshold = min 254 (max 1 (at_ 0x0C)) ∧
          rounded [1, 2, 3, 4, 6, 8] (at_ 0x0D) q.m.q ∧
          (q.m.enabled = true ↔ q.m.start < q.m.stop) ∧ (v.disabledM = true ↔ q.m.stop ≤ q.m.start) ∧
          (v.clampM = true ↔ q.m.stop ≠ at2 0x0A ∨ q.m.threshold ≠ at_ 0x0C ∨ q.m.q ≠ at_ 0x0D)) ∧
      (q.source.num = at_ 0x11 % 8 ∧ q.kd = max 1 (at_ 0x12 % 16) ∧ q.kl = max 1 (at_ 0x12 / 16) ∧
        q.kr = max 1 (at_ 0x13 % 16) ∧
        (v.coupling = true ↔ at_ 0x12 % 16 = 0 ∨ at_ 0x12 / 16 = 0 ∨ at_ 0x13 % 16 = 0)) ∧
      (q.beam = min 8 (at_ 0x14 % 16) ∧ (v.beam = true ↔ 8 < at_ 0x14 % 16)) ∧
      (q.k = max 1 (at2 0x15) ∧ (v.path = true ↔ at2 0x15 = 0)) ∧
      (q.sQ = min 32767 (at2 0x17) ∧ (v.sine = true ↔ 32767 < at2 0x17)) ∧
      (q.cQ = min 32767 (at2 0x19) ∧ (v.cosine = true ↔ 32767 < at2 0x19)) ∧
      (q.offset = max (-32767) signed ∧ (v.offset = true ↔ signed = -32768)) ∧
      (q.tx = at_ 0x1D ∧ q.tz = at_ 0x1E ∧ q.g = max 1 (at_ 0x1F % 16) ∧ q.nmin = max 1 (at_ 0x20 % 32) ∧
        (v.tracking = true ↔ at_ 0x1F % 16 = 0 ∨ at_ 0x20 % 32 = 0)))

/-! ### Position and steps (chapter 1) -/

/-- The first sample instant after a good load sets both qualified levels and the reference pair to the raw levels and both
agree runs to 0, with no count (R3); outside STANDBY, RUNNING and STOPPING a sample instant has no effect (log entry 11). -/
def Obligations.FirstSampleTakesTheRawLevels : Prop :=
  ∀ (s : State) (a b : Bool),
    (s.operating = true → s.pos.firstSample = true → ∃ t, exec (.encoderSampleInstant a b) s = .next t ∧
      t.pos = { s.pos with
        qualA := a, qualB := b, refA := a, refB := b, agreeA := 0, agreeB := 0, firstSample := false,
        sampleClock := s.cfg.p } ∧
      Keeps [.pos] s t) ∧
    (s.operating = false → exec (.encoderSampleInstant a b) s = .next s)

/-- A qualified level changes at the nth consecutive sample that disagrees with it, and not before; an agreeing sample sets the
agree run to 0 (R2). -/
def Obligations.QualifiedLevelChangesAtTheNthSample : Prop :=
  ∀ (n : Nat) (level : Bool), 1 ≤ n →
    let after := fun k => (List.replicate k (!level)).foldl (fun (q : Bool × Nat) raw => qualify n q.1 q.2 raw) (level, 0)
    (∀ k < n, after k = (level, k)) ∧ after n = (!level, 0) ∧ ∀ run, qualify n level run level = (level, 0)

/-- In STANDBY both qualifiers act and the reference pair follows them, and every decoded count is discarded: P, f, F, the steps
and the encoder-error counter stay (R2, R4). -/
def Obligations.StandbyDiscardsCounts : Prop :=
  ∀ (s : State) (a b : Bool), s.rc.runState = .standby → s.pos.firstSample = false →
    ∃ t, exec (.encoderSampleInstant a b) s = .next t ∧ Keeps [.pos] s t ∧
      t.pos = { s.pos with
        qualA := (qualify s.cfg.n s.pos.qualA s.pos.agreeA a).1, agreeA := (qualify s.cfg.n s.pos.qualA s.pos.agreeA a).2,
        qualB := (qualify s.cfg.n s.pos.qualB s.pos.agreeB b).1, agreeB := (qualify s.cfg.n s.pos.qualB s.pos.agreeB b).2,
        refA := (qualify s.cfg.n s.pos.qualA s.pos.agreeA a).1, refB := (qualify s.cfg.n s.pos.qualB s.pos.agreeB b).1,
        sampleClock := s.cfg.p }

/-- In RUNNING and STOPPING a forward count within the limit adds s/256 qmm exactly: P and f become the floor and the remainder
of the new value, F becomes P where P has passed it, and neither the counter nor the limit flag changes (R7, R8, R10). Where F
rises the new frontier ages the table and the suppression list, with the calls of the entries that expire (R10, R122, R127), and
where it does not they stay. -/
def Obligations.ForwardCountMovesPositionAndFrontier : Prop :=
  ∀ (s : State) (a b : Bool), s.inRun = true → s.pos.firstSample = false →
    let q := sampled s.cfg.p s.cfg.n a b s.pos
    let value := s.pos.p * 256 + s.pos.f + s.cfg.s
    decodeCount s.cfg s.pos.refA s.pos.refB q.qualA q.qualB = .forward → value / 256 ≤ 2000000000 →
    ∃ t, exec (.encoderSampleInstant a b) s = .next t ∧
      t.pos.p * 256 + t.pos.f = value ∧ t.pos.f ≤ 255 ∧ t.pos.front = max s.pos.front t.pos.p ∧
      t.pos.limitFlag = s.pos.limitFlag ∧ t.pos.encoderError = s.pos.encoderError ∧
      t.pos.refA = q.qualA ∧ t.pos.refB = q.qualB ∧
      (s.rc.runState = .stopping → t.pos.sIdx = s.pos.sIdx ∧ t.pos.nextStep = s.pos.nextStep ∧ t.seq = s.seq) ∧
      (let u := if s.pos.front < t.pos.p then frontierIncrease t.pos.p s else s;
        t.corr = u.corr ∧ t.link.q1 = u.link.q1 ∧ t.link.drop1 = u.link.drop1 ∧
        (s.rc.runState = .stopping → t.link = u.link)) ∧
      Keeps [.pos, .seq, .zone, .acq, .cov, .trk, .corr, .link] s t ∧ HandsTo s.own [.c1, .c3] s.link t.link

/-- In RUNNING and STOPPING a reverse count within the limit subtracts s/256 qmm exactly; F, the steps and every other block
stay (R7, R8, R10, R11). -/
def Obligations.ReverseCountMovesPositionOnly : Prop :=
  ∀ (s : State) (a b : Bool), s.inRun = true → s.pos.firstSample = false →
    let q := sampled s.cfg.p s.cfg.n a b s.pos
    let value := s.pos.p * 256 + s.pos.f - s.cfg.s
    decodeCount s.cfg s.pos.refA s.pos.refB q.qualA q.qualB = .reverse → -2000000000 ≤ value / 256 →
    ∃ t, exec (.encoderSampleInstant a b) s = .next t ∧
      t.pos.p * 256 + t.pos.f = value ∧ t.pos.f ≤ 255 ∧
      t.pos = { q with p := t.pos.p, f := t.pos.f } ∧ Keeps [.pos] s t

/-- A count that would take P beyond a limit is discarded: P, f, F and the steps stay, and the first such count of a run queues
one POSITION_LIMIT with the limit reached and sets the limit flag, even where class 0 is full (R8, R9, R135). -/
def Obligations.CountBeyondALimitIsDiscarded : Prop :=
  ∀ (s : State) (a b upper : Bool), s.inRun = true → s.pos.firstSample = false →
    let q := sampled s.cfg.p s.cfg.n a b s.pos
    let d := decodeCount s.cfg s.pos.refA s.pos.refB q.qualA q.qualB
    ((upper = true ∧ d = .forward ∧ 2000000000 < (s.pos.p * 256 + s.pos.f + s.cfg.s) / 256) ∨
      (upper = false ∧ d = .reverse ∧ (s.pos.p * 256 + s.pos.f - s.cfg.s) / 256 < -2000000000)) →
    ∃ t, exec (.encoderSampleInstant a b) s = .next t ∧ t.pos = { q with limitFlag := true } ∧
      Keeps [.pos, .link] s t ∧
      (s.pos.limitFlag = true → t.link = s.link) ∧
      (s.pos.limitFlag = false → EventHanded s.own s.rc.run (.positionLimit upper) s.link t.link)

/-- A sample instant decodes by the tables of R5 and R6: in X4 a turn of the pair (A, B) through low-low, high-low, high-high,
low-high is forward in A_LEADS and reverse in B_LEADS, a turn the other way the opposite, and both levels changed is illegal; in
X1 a rise of A counts, and in X2 a fall too, with the direction from B before it. No count leaves P, f, F and the steps as they
are; an illegal transition raises the encoder-error counter by 1, holding at 65535, and the reference pair moves all the same.
-/
def Obligations.IllegalTransitionRaisesTheErrorCounter : Prop :=
  ∀ (s : State) (a b : Bool), s.inRun = true → s.pos.firstSample = false →
    let q := sampled s.cfg.p s.cfg.n a b s.pos
    let d := decodeCount s.cfg s.pos.refA s.pos.refB q.qualA q.qualB
    let turns : List ((Bool × Bool) × (Bool × Bool)) :=
      [((false, false), (true, false)), ((true, false), (true, true)), ((true, true), (false, true)),
       ((false, true), (false, false))]
    let before := (s.pos.refA, s.pos.refB)
    let after := (q.qualA, q.qualB)
    let rises := s.pos.refA = false ∧ q.qualA = true
    let falls := s.pos.refA = true ∧ q.qualA = false
    (s.cfg.mode = .x4 →
      (d = .forward ↔ if s.cfg.aLeads = true then (before, after) ∈ turns else (after, before) ∈ turns) ∧
      (d = .reverse ↔ if s.cfg.aLeads = true then (after, before) ∈ turns else (before, after) ∈ turns) ∧
      (d = .illegal ↔ q.qualA ≠ s.pos.refA ∧ q.qualB ≠ s.pos.refB)) ∧
    (s.cfg.mode = .x2 →
      (d = .forward ↔ (rises ∧ s.pos.refB ≠ s.cfg.aLeads) ∨ (falls ∧ s.pos.refB = s.cfg.aLeads)) ∧
      (d = .reverse ↔ (rises ∧ s.pos.refB = s.cfg.aLeads) ∨ (falls ∧ s.pos.refB ≠ s.cfg.aLeads))) ∧
    (s.cfg.mode = .x1 →
      (d = .forward ↔ rises ∧ s.pos.refB ≠ s.cfg.aLeads) ∧ (d = .reverse ↔ rises ∧ s.pos.refB = s.cfg.aLeads)) ∧
    (s.cfg.mode ≠ .x4 → d ≠ .illegal) ∧
    (d = .illegal → ∃ t, exec (.encoderSampleInstant a b) s = .next t ∧
      t.pos = { q with encoderError := min (s.pos.encoderError + 1) 65535 } ∧ Keeps [.pos] s t) ∧
    (d = .none → ∃ t, exec (.encoderSampleInstant a b) s = .next t ∧ t.pos = q ∧ Keeps [.pos] s t)

/-- In RUNNING a forward count that reaches next_step issues one step, of index k the floor of P/D, and next_step becomes the
multiple of D beyond P; a count short of it issues none (R12, R13). The skipped indices hand MISSED or what keeps a channel from
firing (R32). In SQ_WAIT_STEP the step's walk begins at entry 0 (R23, R24, R42, R52). In SQ_PENDING the pending entry and the
later due ones are given up, BLOCKED while the line is STUCK and MISSED otherwise, and the new walk takes over the request that
stands or withdraws it (R29, R31, R49). In SQ_HOLD the volley goes on, the waiting cycle or the rest of the old cycle is given
up as MISSED, and the step becomes the waiting cycle (R28, R30). A sequencer that is off takes no step. -/
def Obligations.StepIsIssuedAtNextStep : Prop :=
  ∀ (s : State) (a b : Bool), s.rc.runState = .running → s.pos.firstSample = false → TravelLaw s →
    let q := sampled s.cfg.p s.cfg.n a b s.pos
    let p := (s.pos.p * 256 + s.pos.f + s.cfg.s) / 256
    let stays := fun (t : State) => t.seq = s.seq ∧ t.zone = s.zone ∧ t.acq = s.acq ∧ t.cov = s.cov ∧ t.trk = s.trk ∧
      HandsTo s.own [.c1] s.link t.link
    decodeCount s.cfg s.pos.refA s.pos.refB q.qualA q.qualB = .forward → p ≤ 2000000000 →
    ∃ t, exec (.encoderSampleInstant a b) s = .next t ∧ HandsTo s.own [.c1, .c3] s.link t.link ∧
      (p < s.pos.nextStep → t.pos.sIdx = s.pos.sIdx ∧ t.pos.nextStep = s.pos.nextStep ∧ stays t) ∧
      (s.pos.nextStep ≤ p →
        let k := t.pos.sIdx
        let here : StepRef := ⟨k, (k : Int) * s.cfg.d⟩
        let skipped := (List.range' (s.pos.sIdx + 1) (k - (s.pos.sIdx + 1))).flatMap
          (fun j => unfiredDue s .missed j ((j : Int) * s.cfg.d) s.cfg.plan)
        s.pos.sIdx < k ∧ (k : Int) = p / s.cfg.d ∧ t.pos.nextStep = ((k : Int) + 1) * s.cfg.d ∧
        (s.seq.sq = .off → stays t) ∧
        (s.seq.sq = .waitStep → Walked s s.zone here 0 skipped t ∧ t.trk = (afterHanded skipped s).trk ∧
          t.seq.waiting = none ∧ t.seq.mask = s.seq.mask ∧ (t.seq.sq ≠ .hold → t.acq = s.acq)) ∧
        (∀ c i, s.seq.sq = .pending → s.seq.cycle = some c → s.seq.pointer = some i →
          let given := unfiredDue s (if s.zone.stuck = true then .blocked else .missed) c.index c.pos (s.cfg.plan.drop i) ++ skipped
          t.trk = (afterHanded given s).trk ∧ t.acq = s.acq ∧
          (∀ i' e, WalkStops s k 0 i' e →
            Took (given ++ unfiredDue s .missed k here.pos (s.cfg.plan.take i')) s t ∧
            t.seq = { s.seq with cycle := some here, pointer := some i' } ∧ t.zone = s.zone) ∧
          (WalkEnds s k 0 →
            Took (given ++ unfiredDue s .missed k here.pos s.cfg.plan) s t ∧
            t.seq = { s.seq with sq := .waitStep, cycle := none, pointer := none } ∧
            (s.zone.ctl = .wait → t.zone = { s.zone with ctl := .idle }) ∧
            (s.zone.ctl = .claim → t.zone = { s.zone with orphaned := true }) ∧
            (s.zone.ctl ≠ .wait → s.zone.ctl ≠ .claim → t.zone = s.zone))) ∧
        (s.seq.sq = .hold →
          t.seq = { s.seq with waiting := some here, cycle := none, pointer := none } ∧ t.zone = s.zone ∧ t.acq = s.acq ∧
          (∀ w, s.seq.waiting = some w →
            let given := unfiredDue s .missed w.index w.pos s.cfg.plan ++ skipped
            Took given s t ∧ t.trk = (afterHanded given s).trk) ∧
          (∀ c v, s.seq.waiting = none → s.seq.cycle = some c → s.seq.volley = some v →
            let given := unfiredDue s .missed c.index c.pos (s.cfg.plan.drop (v.entry + 1)) ++ skipped
            Took given s t ∧ t.trk = (afterHanded given s).trk)))

/-- Law 1 and R14: every step keeps P within its limits and at or behind F, F at or above 0, and in RUNNING next_step equal to
(s_idx + 1) × D and s_idx the floor of F/D. -/
def Obligations.EveryStepKeepsTheTravelLaw : Prop :=
  ∀ s t : State, TravelLaw s → step s = .next t → TravelLaw t

/-! ### Firing (chapter 2) -/

/-- A claim won at the end of slot 5 for a pending entry with a fireable channel fires it: exactly the entry's channels that
have a port and are not muted, each pulsing its own port, P latched as Pv, the hold timer at the entry's hold, a fresh
evaluation record for each fired channel in ascending order, the line held, and the loss count cleared (R22, R24, R25, R26, R46,
R47, R60). Where every channel has been muted meanwhile, nothing fires: the entry hands its outcomes, the line is released at
once (recessive where slot 5 was driven dominant, which is the model's choice, log entry 5, and as it stands where slot 5 was
recessive), and the walk goes on from the next entry (R25, R48). At a station that is no claimant the claim period is over and
the recessive time starts again at 0 (R40). -/
def Obligations.GrantFiresTheFireableChannels : Prop :=
  ∀ s : State, s.observing = true → s.zone.claimPeriod ≠ none →
    let slot := s.zone.claimPeriod.getD 0 / 25
    let drives := slot = 0 ∨ s.zone.claimCode.getLsbD (5 - min 5 slot) = false
    (∀ (i : Nat) (c : StepRef) (e : PlanEntry), s.zone.ctl = .claim → s.zone.orphaned = false →
      s.seq.pointer = some i → s.seq.cycle = some c → s.cfg.plan[i]? = some e →
      (CanFire s e → ∃ t fired, exec .claimPeriodEnd s = .next t ∧ FiredSet s e fired ∧ Fires s i e t ∧
        t.seq = { s.seq with
          sq := .hold, holdTimer := 25 * e.hold,
          volley := some ⟨i, fired, s.pos.p,
            (Chan.all.filter (inSet fired)).filterMap (fun ch => (s.cfg.chan.get ch).port)⟩ } ∧
        t.zone = { s.zone with ctl := .hold, line := .dominant, claimPeriod := none, recessiveTime := 0, losses := 0 } ∧
        Keeps [.seq, .zone, .acq] s t) ∧
      (¬CanFire s e → ∃ t, exec .claimPeriodEnd s = .next t ∧
        Walked s { s.zone with
            ctl := .idle, line := if drives then .recessive else s.zone.line, claimPeriod := none, recessiveTime := 0,
            losses := 0 }
          c (i + 1) (unfiredEntry s .missed c.pos e) t ∧
        (t.seq.sq ≠ .hold → t.acq = s.acq) ∧ t.trk = s.trk ∧ t.seq.mask = s.seq.mask ∧
        Keeps [.seq, .zone, .acq, .cov, .link] s t ∧ HandsTo s.own [.c3] s.link t.link)) ∧
    (s.zone.ctl ≠ .claim → ∃ t, exec .claimPeriodEnd s = .next t ∧
      t.zone = { s.zone with claimPeriod := none, recessiveTime := 0 } ∧ Keeps [.zone] s t)

/-- A won claim whose request has been withdrawn releases the line at once and clears the loss count, and nothing fires; the
controller rests in ZL_IDLE in RUNNING and in ZL_OFF outside it (R46, R48, R49, R54). A line that slot 5 drove dominant is then
recessive, which is the model's choice (log entry 5); where slot 5 was recessive its level stays, whatever the other parties
drive. -/
def Obligations.OrphanedWinReleasesTheLine : Prop :=
  ∀ s : State, s.observing = true → s.zone.claimPeriod ≠ none → s.zone.ctl = .claim → s.zone.orphaned = true →
    let slot := s.zone.claimPeriod.getD 0 / 25
    let drives := slot = 0 ∨ s.zone.claimCode.getLsbD (5 - min 5 slot) = false
    ∃ t, exec .claimPeriodEnd s = .next t ∧ Keeps [.zone] s t ∧
      t.zone.ctl = (if s.rc.runState = .running then .idle else .off) ∧
      (drives → t.zone.line = .recessive) ∧ (¬drives → t.zone.line = s.zone.line) ∧
      t.zone.recessiveTime = 0 ∧ t.zone.claimPeriod = none ∧ t.zone.losses = 0 ∧ t.zone.orphaned = false

/-- A MASK frame for own address applies its clear list, then its set list, and cuts the open slots of each newly muted channel
at once, in ascending channel number, or holds the request for a channel of the volley in hold; every other channel's slots
stay, and the plan, the fired set and the cycle are not reached (R33, R34, R35). Each slot cut becomes an indication with CUT,
in the table and on class 2 or counted as dropped there, or is counted sparse; but for what it hands on, the link is as any
taken frame leaves it (R104 to R107, R135, R144, R157; which of two orders 2^31 apart is older: log entry 20). A MASK frame for
another address reaches no block. -/
def Obligations.MaskClearsThenSets : Prop :=
  ∀ (s : State) (p : MaskPayload),
    (p.target.toNat = s.own → Offered .volleySequencer (.mask p) s → ∃ t, exec (.mask p) s = .next t ∧
      (∀ c, inSet t.seq.mask c = (inSet p.setList c || (inSet s.seq.mask c && !inSet p.clearList c))) ∧
      (∀ c, inSet t.seq.held c = (inSet s.seq.held c ||
        (inSet t.seq.mask c && !inSet s.seq.mask c && inSet (firedInHold s.seq) c))) ∧
      t.seq = { s.seq with mask := t.seq.mask, held := t.seq.held } ∧
      (∀ c, t.trk.chan.get c =
        if inSet t.seq.mask c && !inSet s.seq.mask c && !inSet (firedInHold s.seq) c then ⟨none, none⟩
        else s.trk.chan.get c) ∧
      CutFor s (Chan.all.filter (fun c =>
        inSet t.seq.mask c && !inSet s.seq.mask c && !inSet (firedInHold s.seq) c)) t ∧
      Keeps [.seq, .trk, .corr, .link] s t ∧
      HandsTo s.own [.c1, .c2] (linkAfterTaking .volleySequencer 250 s) t.link) ∧
    (p.target.toNat ≠ s.own → exec (.mask p) s = .next s)

/-- The completion of the volley in hold: every fired channel is evaluated over the samples of its own port; its M result
advances its own machine where its M gate is enabled, every other machine stays (R22, R67). Then, by its source's state: a hit
or an empty firing of a LOST source reaches no slot (law 11), any other is tracked, DOUBTFUL where the source is, and a held
request cuts (R68, R34). Last, each channel of the entry has its outcome at Pv (R69). The records are discarded. In RUNNING the
line is released and the walk goes on (R27, R28). In STOPPING the sequencer is off, every slot left by the hand-over closes with
CUT, every gap left by the outcomes with STOPPED, each with its record or count, and the drain starts (R37, R70, R80, R81, R109,
R152). The line's level after the release is the model's choice (log entry 5). -/
def Obligations.CompletionHandsOnAndEnds : Prop :=
  ∀ (s : State) (echoes : PortEchoes) (v : Volley) (e : PlanEntry),
    s.seq.sq = .hold → s.seq.volley = some v → s.cfg.plan[v.entry]? = some e →
    (s.acq.map (·.chan)).Nodup →
    let result := fun (r : EvalRecord) => evaluate (s.cfg.chan.get r.chan) e.hold
      (((s.cfg.chan.get r.chan).port.map (fun n => echoes.getD n [])).getD []) r
    ∃ t, exec (.volleyCompletion echoes) s = .next t ∧
      let source := fun c => (t.coup.get (s.cfg.chan.get c).source).state
      let kept := fun c =>
        if source c = .lost ∧ (s.coup.get (s.cfg.chan.get c).source).state ≠ .lost then ⟨none, none⟩ else s.trk.chan.get c
      let open_ := fun c (order : Nat) =>
        { s with trk := { s.trk with chan := s.trk.chan.set c (kept c), openOrder := order } }
      let outcomes := (chansOf e.chans).map (fun c => (⟨c,
        if inSet v.fired c = true then (if source c = .lost then .bad .uncoupled else .good)
        else if (s.cfg.chan.get c).port = none then .bad .unassigned else .bad .muted, v.pv⟩ : Handed))
      let handed := (s.acq.map result).foldl (handF v.pv) ((s.acq.map result).foldl handM s)
      (∀ r ∈ s.acq, (s.cfg.chan.get r.chan).m.enabled = true →
        t.coup.get r.chan = couplingAfter (s.cfg.chan.get r.chan) (s.coup.get r.chan) (result r).mPresent) ∧
      (∀ c, (∀ r ∈ s.acq, r.chan = c → (s.cfg.chan.get c).m.enabled = false) → t.coup.get c = s.coup.get c) ∧
      t.cfg = s.cfg ∧ t.pos = s.pos ∧ t.seq.mask = s.seq.mask ∧ t.seq.held = 0 ∧
      HandsTo s.own [.c1, .c2, .c3] s.link t.link ∧
      (∀ c, (∀ r ∈ s.acq, r.chan ≠ c) → handed.trk.chan.get c = kept c) ∧
      (∀ r ∈ s.acq, let c := r.chan;
        (inSet s.seq.held c = true → handed.trk.chan.get c = ⟨none, none⟩) ∧
        (inSet s.seq.held c = false →
          (source c = .lost → handed.trk.chan.get c = kept c) ∧
          (source c ≠ .lost → (result r).fHit = none →
            handed.trk.chan.get c = (firingNoHit c (open_ c s.trk.openOrder)).trk.chan.get c) ∧
          (∀ hit, source c ≠ .lost → (result r).fHit = some hit → ∃ order,
            handed.trk.chan.get c = (hitRecord (project (s.cfg.chan.get c) c v.pv hit (decide (source c = .doubtful)))
              (open_ c order)).trk.chan.get c))) ∧
      (s.rc.runState = .running → t.rc = s.rc ∧ (t.seq.sq ≠ .hold → t.acq = [] ∧ t.seq.volley = none) ∧
        (t.trk = handed.trk ∧ t.corr = handed.corr ∧ t.link.q1 = handed.link.q1 ∧ t.link.q2 = handed.link.q2 ∧
          t.link.drop1 = handed.link.drop1 ∧ t.link.drop2 = handed.link.drop2) ∧
        (let z := if s.zone.ctl = .hold then
            { s.zone with ctl := .idle, line := .recessive, recessiveTime := 0, orphaned := false } else s.zone;
          (∀ w, s.seq.waiting = some w → Walked s z w 0 outcomes t) ∧
          (∀ c, s.seq.waiting = none → s.seq.cycle = some c → Walked s z c (v.entry + 1) outcomes t) ∧
          (s.seq.waiting = none → s.seq.cycle = none →
            t.zone = z ∧ t.seq.sq = .waitStep ∧ Took outcomes s t))) ∧
      (s.rc.runState = .stopping →
        t.rc = { s.rc with draining := true, drainTimer := s.cfg.drain * 250000 } ∧
        t.seq.sq = .off ∧ t.seq.volley = none ∧ t.acq = [] ∧ t.zone.ctl ≠ .hold ∧
        CutFor handed Chan.all t ∧ GapsStopped (afterHanded outcomes s) t) ∧
      (s.rc.runState = .running → s.zoneEnabled = true → s.zone.ctl = .hold → s.zone.quiet = false →
        s.zone.claimPeriod = none →
        t.rc = s.rc ∧ t.seq.sq ≠ .hold ∧ t.seq.volley = none ∧ t.acq = [] ∧ t.zone.line = .recessive ∧
        (t.zone.ctl = .idle ∨ t.zone.ctl = .wait))

/-- How the run state, the sequencer and the zone line go together at every step: a volley is in hold exactly while the line is
held, a request stands exactly while the sequencer is pending, and outside RUNNING the station neither waits nor claims anew
(law 2, R36, R37, R41, R46 to R54, R152). -/
def Obligations.EveryStepKeepsTheFiringLaw : Prop :=
  ∀ s t : State, FiringLaw s → step s = .next t → FiringLaw t

/-! ### Zone line (chapter 3) -/

/-- The claim code is the address for an urgent claim and 16 plus the address otherwise, and of two claimants the one with the
lower code drives dominant in the first code slot where they differ, while the other drives recessive there: the lower code
never loses to the higher, and the higher reads dominant against its own recessive drive (R44, R45, 3.1.1). -/
def Obligations.LowerClaimCodeWins : Prop :=
  (∀ (address : BitVec 4) (losses : Nat),
    (claimCodeOf address losses).toNat = if 3 ≤ losses then address.toNat else 16 + address.toNat) ∧
  ∀ a b : BitVec 5, a.toNat < b.toNat → ∃ slot,
    slotDrive a slot = .dominant ∧ slotDrive b slot = .recessive ∧
    ∀ earlier, earlier.num < slot.num → slotDrive a earlier = slotDrive b earlier

/-- A change of the observed line to dominant while it is quiet is a start edge: a claim period begins, and a waiting station
drives its start slot on the same edge with the code of its losses so far. The line is also quiet at an edge that comes when it
has been recessive for 3 µs outside a claim period, though QUIET is yet to be taken, and STUCK is then cleared with ZONE_CLEAR.
While the line is busy the change begins no claim period. A change to recessive returns the stuck timer to 0 (R40, R43, R44,
R50, R51). A line that the station drives dominant stays dominant: in ZL_HOLD a level change has no effect, and in a start slot,
or a code slot of bit 0, of its claim a change to recessive has none (R44, R47; the model's choice, log entry 11). -/
def Obligations.StartEdgeBeginsAClaimPeriod : Prop :=
  ∀ s : State, s.observing = true →
    let z := s.zone
    let due := z.claimPeriod = none ∧ z.ctl ≠ .claim ∧ z.quiet = false ∧ z.line = .recessive ∧ 75 ≤ z.recessiveTime
    (∀ level, z.ctl = .hold → exec (.zoneLineLevelChange level) s = .next s) ∧
    (z.ctl ≠ .hold → ∃ t, exec (.zoneLineLevelChange .dominant) s = .next t ∧ Keeps [.zone, .link] s t ∧
      t.zone.line = .dominant ∧ t.zone.recessiveTime = 0 ∧ t.zone.quiet = false ∧ t.zone.losses = z.losses ∧
      (z.quiet = false → ¬due → t.zone = { z with line := .dominant, recessiveTime := 0 }) ∧
      (z.quiet = true ∨ due →
        t.zone.claimPeriod = some 0 ∧
        (z.ctl = .wait → t.zone.ctl = .claim ∧ t.zone.orphaned = false ∧ t.zone.stuck = false ∧
          t.zone.claimCode = claimCodeOf s.rc.straps.address z.losses) ∧
        (z.ctl ≠ .wait → t.zone.ctl = z.ctl)) ∧
      (¬(due ∧ z.stuck = true) → t.link = s.link) ∧
      (due → z.stuck = true → t.zone.stuck = false ∧ EventHanded s.own s.rc.run .zoneClear s.link t.link)) ∧
    (let slot := z.claimPeriod.getD 0 / 25
      let drives := z.ctl = .claim ∧ (slot = 0 ∨ z.claimCode.getLsbD (5 - min 5 slot) = false)
      (drives → exec (.zoneLineLevelChange .recessive) s = .next s) ∧
      (z.ctl ≠ .hold → ¬drives → ∃ t, exec (.zoneLineLevelChange .recessive) s = .next t ∧ Keeps [.zone] s t ∧
        t.zone = { z with line := .recessive, stuckTimer := 0 }))

/-- QUIET outside a claim period: the line is quiet; STUCK, where set, is cleared with a ZONE_CLEAR event of the current run; a
waiting request drives its start slot, which begins a claim period (R40, R43, R51). That the line is then recessive, whatever
its level in the state, is the model's choice (log entry 12). -/
def Obligations.QuietClearsStuckAndClaims : Prop :=
  ∀ s : State, s.observing = true → s.zone.claimPeriod = none → s.zone.quiet = false →
    s.zone.ctl ≠ .claim → s.zone.ctl ≠ .hold →
    ∃ t, exec .quiet s = .next t ∧ Keeps [.zone, .link] s t ∧ t.zone.stuck = false ∧ t.zone.stuckTimer = 0 ∧
      t.zone.losses = s.zone.losses ∧
      (s.zone.ctl ≠ .wait → t.zone.quiet = true ∧ t.zone.line = .recessive ∧ t.zone.claimPeriod = none ∧
        t.zone.ctl = s.zone.ctl) ∧
      (s.zone.ctl = .wait → t.zone.ctl = .claim ∧ t.zone.line = .dominant ∧ t.zone.claimPeriod = some 0 ∧
        t.zone.quiet = false ∧ t.zone.orphaned = false ∧
        t.zone.claimCode = claimCodeOf s.rc.straps.address s.zone.losses) ∧
      (s.zone.stuck = false → t.link = s.link) ∧
      (s.zone.stuck = true → EventHanded s.own s.rc.run .zoneClear s.link t.link)

/-- At the middle of a code slot a claimant that drives recessive and reads dominant has lost: its loss count rises by 1,
holding at 255, and it waits, or its withdrawn request is gone. In every other reading the claim goes on with its code and its
losses unchanged (R44, R45, R54). A station that is no claimant reads nothing, and the command has no effect (log entry 11). -/
def Obligations.ClaimIsLostOnADominantReading : Prop :=
  ∀ (s : State) (slot : CodeSlot) (level : LineLevel),
    (s.zone.ctl ≠ .claim → exec (.codeSlotRead slot level) s = .next s) ∧
    (s.zone.ctl = .claim → ∃ t, exec (.codeSlotRead slot level) s = .next t ∧ Keeps [.zone] s t ∧
      t.zone.claimCode = s.zone.claimCode ∧
      (slotDrive s.zone.claimCode slot = .recessive → level = .dominant →
        t.zone.losses = min (s.zone.losses + 1) 255 ∧ t.zone.orphaned = false ∧
        t.zone.ctl = (if s.zone.orphaned = false then .wait
          else if s.rc.runState = .running then .idle else .off)) ∧
      (slotDrive s.zone.claimCode slot = .dominant ∨ level = .recessive →
        t.zone.ctl = .claim ∧ t.zone.losses = s.zone.losses ∧ t.zone.orphaned = s.zone.orphaned))

/-- The stuck timer's expiry in ZL_IDLE or ZL_WAIT with the line dominant sets STUCK and queues ZONE_STUCK once, even where
class 0 refuses the event (R50). That the timer then stands at Tw is log entry 6; that the command has no effect with STUCK set,
or in any other state, is log entry 11. -/
def Obligations.StuckTimerExpirySetsStuck : Prop :=
  ∀ s : State,
    ((s.zone.ctl = .idle ∨ s.zone.ctl = .wait) → s.zone.line = .dominant → s.zone.stuck = false →
      ∃ t, exec .stuckTimerExpiry s = .next t ∧ Keeps [.zone, .link] s t ∧
        t.zone = { s.zone with stuck := true, stuckTimer := s.cfg.tw * 25000 } ∧
        EventHanded s.own s.rc.run .zoneStuck s.link t.link) ∧
    (s.zone.stuck = true ∨ (s.zone.ctl ≠ .idle ∧ s.zone.ctl ≠ .wait) → exec .stuckTimerExpiry s = .next s)

/-! ### Gates (chapter 4) -/

/-- At a completion an enabled F gate holds a hit exactly when some Q consecutive samples inside the gate lie at or above its
threshold; the hit's tof lies in the gate, its amplitude is at least the threshold, and SATURATED means an amplitude of 255
(R61, R62, R63, R64, R65). A missing sample counts as 0 (log entry 8). -/
def Obligations.FHitExistsForAQualifiedRun : Prop :=
  ∀ (c : ChanParams) (h : Nat) (samples : List Byte) (chan : Chan),
    c.f.enabled = true → 1 ≤ c.f.q → 1 ≤ c.f.threshold → c.f.stop ≤ 25 * h →
    let at_ := fun t => (samples.getD t 0).toNat
    let r := evaluate c h samples ⟨chan, none, none, 0, false⟩
    (r.fHit ≠ none ↔ ∃ t, c.f.start ≤ t ∧ t + c.f.q ≤ c.f.stop ∧ ∀ i < c.f.q, c.f.threshold ≤ at_ (t + i)) ∧
    (∀ hit, r.fHit = some hit → c.f.start ≤ hit.tof ∧ hit.tof < c.f.stop ∧ c.f.threshold ≤ hit.amplitude ∧
      hit.amplitude ≤ 255 ∧ (hit.saturated = true → hit.amplitude = 255) ∧
      ∀ i < c.f.q, c.f.threshold ≤ at_ (hit.tof + i))

/-- The hit is a whole run: from its tof on, every sample up to the run's end lies at or above the threshold, the run begins at
the gate start or after a sample below the threshold and ends at the gate end or at such a sample, it has Q samples or more, its
amplitude is its greatest sample, and SATURATED tells whether a sample of it is 255 (R61, R62, R65). In FIRST mode no qualified
run begins before it (R63); in PEAK mode no sample of a qualified run exceeds its amplitude, and every qualified run before it
stays below (R64). A missing sample counts as 0 (log entry 8). -/
def Obligations.FHitIsTheFirstOrTheHighest : Prop :=
  ∀ (c : ChanParams) (h : Nat) (samples : List Byte) (chan : Chan) (hit : Hit),
    c.f.enabled = true → 1 ≤ c.f.q → 1 ≤ c.f.threshold → c.f.stop ≤ 25 * h →
    (evaluate c h samples ⟨chan, none, none, 0, false⟩).fHit = some hit →
    let at_ := fun t => (samples.getD t 0).toNat
    let qualified := fun t => c.f.start ≤ t ∧ t + c.f.q ≤ c.f.stop ∧ ∀ i < c.f.q, c.f.threshold ≤ at_ (t + i)
    (∃ length, c.f.q ≤ length ∧ hit.tof + length ≤ c.f.stop ∧ (∀ i < length, c.f.threshold ≤ at_ (hit.tof + i)) ∧
      (hit.tof + length = c.f.stop ∨ at_ (hit.tof + length) < c.f.threshold) ∧
      (hit.tof = c.f.start ∨ (c.f.start < hit.tof ∧ at_ (hit.tof - 1) < c.f.threshold)) ∧
      (∃ i < length, at_ (hit.tof + i) = hit.amplitude) ∧ (∀ i < length, at_ (hit.tof + i) ≤ hit.amplitude) ∧
      (hit.saturated = true ↔ ∃ i < length, at_ (hit.tof + i) = 255)) ∧
    ∀ t, qualified t →
      (c.f.peak = false → hit.tof ≤ t) ∧
      (c.f.peak = true → ∀ i < c.f.q, at_ (t + i) ≤ hit.amplitude ∧ (t < hit.tof → at_ (t + i) < hit.amplitude))

/-- The M result of an enabled M gate is present exactly when some Q consecutive samples inside the gate lie at or above its
threshold (R66). A missing sample counts as 0 (log entry 8). -/
def Obligations.MResultIsPresentForAQualifiedRun : Prop :=
  ∀ (c : ChanParams) (h : Nat) (samples : List Byte) (chan : Chan),
    c.m.enabled = true → 1 ≤ c.m.q → 1 ≤ c.m.threshold → c.m.stop ≤ 25 * h →
    ((evaluate c h samples ⟨chan, none, none, 0, false⟩).mPresent = true ↔
      ∃ t, c.m.start ≤ t ∧ t + c.m.q ≤ c.m.stop ∧ ∀ i < c.m.q, c.m.threshold ≤ (samples.getD (t + i) 0).toNat)

/-! ### Coupling and coverage (chapter 5) -/

/-- From COUPLED with both runs at 0, k consecutive absences leave COUPLED for k below Kd, DOUBTFUL from Kd on, and LOST exactly
at Kd + Kl; from LOST, Kr consecutive presences and no fewer restore COUPLED; one presence restores COUPLED from DOUBTFUL. A
result of the other kind ends a run: a presence in COUPLED sets the absence run to 0, an absence in LOST the presence run (R72).
-/
def Obligations.CouplingIsLostAfterKdPlusKlAbsences : Prop :=
  ∀ p : ChanParams, 1 ≤ p.kd → 1 ≤ p.kl → 1 ≤ p.kr →
    let after := fun (m : Coupling) (k : Nat) (present : Bool) =>
      (List.replicate k present).foldl (couplingAfter p) m
    (∀ k < p.kd, after ⟨.coupled, 0, 0⟩ k false = ⟨.coupled, k, 0⟩) ∧
    (∀ k < p.kl, after ⟨.coupled, 0, 0⟩ (p.kd + k) false = ⟨.doubtful, k, 0⟩) ∧
    (∀ k, after ⟨.coupled, 0, 0⟩ (p.kd + p.kl + k) false = ⟨.lost, 0, 0⟩) ∧
    (∀ k < p.kr, after ⟨.lost, 0, 0⟩ k true = ⟨.lost, 0, k⟩) ∧
    after ⟨.lost, 0, 0⟩ p.kr true = ⟨.coupled, 0, 0⟩ ∧
    (∀ absences presences, couplingAfter p ⟨.doubtful, absences, presences⟩ true = ⟨.coupled, 0, presences⟩) ∧
    (∀ absences presences, couplingAfter p ⟨.coupled, absences, presences⟩ true = ⟨.coupled, 0, presences⟩) ∧
    (∀ absences presences, couplingAfter p ⟨.lost, absences, presences⟩ false = ⟨.lost, absences, 0⟩)

/-- An M result that takes a channel's machine to LOST cuts every slot of every channel that names it as source, in ascending
channel number: each becomes an indication with CUT, in the table and on class 2 or counted as dropped there, or is counted
sparse. It leaves every other channel's slots and machine as they are; any other M result leaves all slots (R72, R73, R104 to
R107, R135; which of two orders 2^31 apart is older: log entry 20). -/
def Obligations.EntryToLostCutsTheDependants : Prop :=
  ∀ (s : State) (c d : Chan) (present : Bool),
    let m := couplingAfter (s.cfg.chan.get c) (s.coup.get c) present
    let t := mResult c present s
    t.coup.get c = m ∧ (d ≠ c → t.coup.get d = s.coup.get d) ∧
    (m.state = .lost → (s.coup.get c).state ≠ .lost → (s.cfg.chan.get d).source = c →
      t.trk.chan.get d = ⟨none, none⟩) ∧
    (m.state = .lost → (s.coup.get c).state ≠ .lost →
      CutFor s (Chan.all.filter (fun x => decide ((s.cfg.chan.get x).source = c))) t ∧ Keeps [.coup, .trk, .corr, .link] s t ∧
        HandsTo s.own [.c1, .c2] s.link t.link) ∧
    ((s.cfg.chan.get d).source ≠ c → t.trk.chan.get d = s.trk.chan.get d) ∧
    (m.state ≠ .lost ∨ (s.coup.get c).state = .lost → t = { s with coup := s.coup.set c m })

/-- A bad outcome of another reason closes the open gap with CHANGED: its GAP record takes the gap sequence and goes last on
class 3, or is counted as dropped there, and the new gap opens at the effective position, beyond the closed gap's end (R77, R78,
R80, R135). -/
def Obligations.ChangedReasonClosesAndOpensAGap : Prop :=
  ∀ (s : State) (c : Chan) (g : OpenGap) (r : Reason) (basis : Int),
    (s.cov.chan.get c).gap = some g → g.reason ≠ r → ChanCoverageLaw (s.cov.chan.get c) →
    let t := takeOutcome c (.bad r) basis s
    let nominal := basis + (s.cfg.chan.get c).offset
    let x := max nominal (g.xEnd + 1)
    (t.cov.chan.get c) = ⟨some ⟨r, x, x, 1⟩, some x, some g.xEnd⟩ ∧
    (∀ d, d ≠ c → t.cov.chan.get d = s.cov.chan.get d) ∧
    t.cov.gapSeq = (s.cov.gapSeq + 1) % 65536 ∧
    (s.link.q3.length < 16 → t.link.q3 = s.link.q3 ++ [⟨s.rc.run,
      { origin := s.own, seq := s.cov.gapSeq, channel := c, beam := (s.cfg.chan.get c).beam, rail := s.rail,
        reason := g.reason, xStart := g.xStart, xEnd := g.xEnd, firings := g.firings, closure := .changed }⟩]) ∧
    (¬ s.link.q3.length < 16 → t.link = { s.link with drop3 := min (s.link.drop3 + 1) 65535 }) ∧
    Keeps [.cov, .link] s t ∧ (s.link.q3.length < 16 → t.link.drop3 = s.link.drop3) ∧
    HandsTo s.own [.c3] s.link t.link

/-- A bad outcome of the open gap's reason extends it to the effective position, and at 65535 firings closes it at once with
FULL; a GOOD outcome closes it with RESUMED, and with no gap open only moves the reach. With no gap open a bad outcome opens one
of 1 firing that starts and ends at the effective position: the nominal one where the channel has no reach yet, else the greater
of it and the reach, raised past the last gap end. The reach never falls. A GAP record takes the gap sequence and goes last on
class 3, or is counted as dropped there (R77, R78, R79, R80, R135). -/
def Obligations.SameReasonExtendsAndGoodResumes : Prop :=
  ∀ (s : State) (c : Chan) (g : OpenGap) (basis : Int),
    ChanCoverageLaw (s.cov.chan.get c) →
    let nominal := basis + (s.cfg.chan.get c).offset
    let old := s.cov.chan.get c
    let recorded := fun (t : State) (xEnd : Int) (firings : Nat) (how : Closure) =>
      t.cov.gapSeq = (s.cov.gapSeq + 1) % 65536 ∧ (∀ d, d ≠ c → t.cov.chan.get d = s.cov.chan.get d) ∧
      Keeps [.cov, .link] s t ∧
      (s.link.q3.length < 16 → t.link.q3 = s.link.q3 ++ [⟨s.rc.run,
        { origin := s.own, seq := s.cov.gapSeq, channel := c, beam := (s.cfg.chan.get c).beam, rail := s.rail,
          reason := g.reason, xStart := g.xStart, xEnd := xEnd, firings := firings, closure := how }⟩] ∧
        t.link.drop3 = s.link.drop3) ∧ HandsTo s.own [.c3] s.link t.link ∧
      (¬ s.link.q3.length < 16 → t.link = { s.link with drop3 := min (s.link.drop3 + 1) 65535 })
    (old.gap = some g → g.firings + 1 < 65535 → ∃ x, x = max nominal g.xEnd ∧
      (takeOutcome c (.bad g.reason) basis s) =
        { s with cov := { s.cov with
            chan := s.cov.chan.set c ⟨some ⟨g.reason, g.xStart, x, g.firings + 1⟩, some x, old.lastEnd⟩ } }) ∧
    (old.gap = some g → g.firings + 1 = 65535 →
      let t := takeOutcome c (.bad g.reason) basis s
      let x := max nominal g.xEnd
      t.cov.chan.get c = ⟨none, some x, some x⟩ ∧ recorded t x 65535 .full) ∧
    (old.gap = some g →
      let t := takeOutcome c .good basis s
      t.cov.chan.get c = ⟨none, some (max nominal g.xEnd), some g.xEnd⟩ ∧ recorded t g.xEnd g.firings .resumed) ∧
    (old.gap = none → ∀ r, old.reach = some r →
      takeOutcome c .good basis s =
        { s with cov := { s.cov with chan := s.cov.chan.set c ⟨none, some (max nominal r), old.lastEnd⟩ } }) ∧
    (old.gap = none → old.reach = none →
      takeOutcome c .good basis s =
        { s with cov := { s.cov with chan := s.cov.chan.set c ⟨none, some nominal, old.lastEnd⟩ } }) ∧
    (∀ reason, old.gap = none → ∃ x,
      takeOutcome c (.bad reason) basis s =
        { s with cov := { s.cov with chan := s.cov.chan.set c ⟨some ⟨reason, x, x, 1⟩, some x, old.lastEnd⟩ } } ∧
      (old.reach = none → x = nominal) ∧
      (∀ r, old.reach = some r → old.lastEnd = none → x = max nominal r) ∧
      (∀ r e, old.reach = some r → old.lastEnd = some e → x = max (max nominal r) (e + 1)))

/-- Law 8: every step keeps, for every channel, an open gap whose span grows forward from beyond the last gap end closed, with 1
to 65534 firings, and a reach at or beyond both; so the gap records of a channel have disjoint spans in increasing order. -/
def Obligations.EveryStepKeepsTheCoverageLaw : Prop :=
  ∀ s t : State, CoverageLaw s → step s = .next t → CoverageLaw t

/-! ### Projection (chapter 6) -/

/-- The depth of a hit is the path S = (t − w) × k times the cosine, the floor of S × cQ plus 2^30 divided by 2^31, so the whole
qmm nearest to the exact depth with halves up; it does not depend on the beam (R88, R90). -/
def Obligations.DepthIsTheNearestQmm : Prop :=
  ∀ (c : ChanParams) (chan : Chan) (pv : Int) (h : Hit) (doubtful : Bool) (beam : Nat),
    let z := (project c chan pv h doubtful).z
    let path := (h.tof - c.wedge) * c.k
    z * 2 ^ 31 ≤ path * c.cQ + 2 ^ 30 ∧ path * c.cQ + 2 ^ 30 < (z + 1) * 2 ^ 31 ∧
    z = (project { c with beam := beam } chan pv h doubtful).z

/-- The reflector lies at Pv + o + dir × a, where a is the whole qmm nearest to S × sQ with halves up and the sign is applied
after the rounding: beams 1, 3 and 5 place it a ahead of the probe, beams 2, 4 and 6 the same a behind, and the others under it
(R86, R89, R91). -/
def Obligations.ReflectorLiesEitherSideOfTheProbe : Prop :=
  ∀ (c : ChanParams) (chan : Chan) (pv : Int) (h : Hit) (doubtful : Bool), ∃ a : Nat,
    a * 2 ^ 31 ≤ (h.tof - c.wedge) * c.k * c.sQ + 2 ^ 30 ∧
    (h.tof - c.wedge) * c.k * c.sQ + 2 ^ 30 < (a + 1) * 2 ^ 31 ∧
    (∀ beam ∈ [1, 3, 5], (project { c with beam := beam } chan pv h doubtful).x = pv + c.offset + a) ∧
    (∀ beam ∈ [2, 4, 6], (project { c with beam := beam } chan pv h doubtful).x = pv + c.offset - a) ∧
    (∀ beam ∈ [0, 7, 8], (project { c with beam := beam } chan pv h doubtful).x = pv + c.offset)

/-- Law 12: for every hit of a channel in range, 0 ≤ a ≤ 6143, 0 ≤ z ≤ 6143 and |X| ≤ 2,000,038,910 (R92). -/
def Obligations.ProjectionStaysWithinItsBounds : Prop :=
  ∀ (c : ChanParams) (chan : Chan) (pv : Int) (h : Hit) (doubtful : Bool),
    h.tof - c.wedge ≤ 6143 → c.k ≤ 65535 → c.sQ ≤ 32767 → c.cQ ≤ 32767 →
    -32767 ≤ c.offset → c.offset ≤ 32767 → -2000000000 ≤ pv → pv ≤ 2000000000 →
    trackPart c h.tof ≤ 6143 ∧ (project c chan pv h doubtful).z ≤ 6143 ∧
    -2000038910 ≤ (project c chan pv h doubtful).x ∧ (project c chan pv h doubtful).x ≤ 2000038910

/-! ### Tracking (chapter 7) -/

/-- A hit goes to the slot it matches, within Lmax: to the channel's one open slot, to the one of two open slots that matches,
of two that match to the one whose last X lies nearer, and at equal distances to the older, by their open orders, whichever
place the taking slot holds. The other slot counts a miss (R96, R97, R98, R101). Where its miss run stays below G it stays open,
and nothing else changes. Where its miss run reaches G it closes at that miss with no closure mark, and its place is free: with
Nmin hits or more it becomes an indication record with the next seq, last in the table, where the oldest leaves at 48 entries,
and last on class 2 or counted as dropped there; with fewer it is counted sparse (R103, R106, R107, R113, R117, R135). -/
def Obligations.NearerSlotTakesTheHit : Prop :=
  ∀ (s : State) (h : HitRecord) (near far : Slot) (first : Bool),
    let c := s.cfg.chan.get h.chan
    let slots := fun (x y : Option Slot) => if first then (⟨x, y⟩ : ChanSlots) else ⟨y, x⟩
    let matched := fun (x : Slot) => distX h.x x.lastX ≤ c.tx ∧ distZ h.z x.lastZ ≤ c.tz
    let older := (far.order + 4294967296 - near.order) % 4294967296 < 2147483648 ∧
      2147483648 ≤ (near.order + 4294967296 - far.order) % 4294967296
    let taken := { near with
      lastX := h.x, lastZ := h.z, xMin := min near.xMin h.x, xMax := max near.xMax h.x,
      zMin := min near.zMin h.z, zMax := max near.zMax h.z, peak := max near.peak h.amplitude,
      hits := min (near.hits + 1) 255, spanned := min (near.spanned + 1) 4095, missRun := 0,
      saturated := near.saturated || h.saturated, doubtful := near.doubtful || h.doubtful }
    let after := fun (y : Option Slot) =>
      { s with trk := { s.trk with chan := s.trk.chan.set h.chan (slots (some taken) y) } }
    matched near → max near.xMax h.x - min near.xMin h.x ≤ (s.cfg.lmax : Int) →
    (s.trk.chan.get h.chan = slots (some near) none → hitRecord h s = after none) ∧
    (s.trk.chan.get h.chan = slots (some near) (some far) →
      (¬ matched far ∨ distX h.x near.lastX < distX h.x far.lastX ∨
        (distX h.x near.lastX = distX h.x far.lastX ∧ older)) →
      let missed := { far with missRun := far.missRun + 1, spanned := min (far.spanned + 1) 4095 }
      (far.missRun + 1 < c.g → hitRecord h s = after (some missed)) ∧
      (c.g ≤ far.missRun + 1 →
        Settled s h.chan (slots (some taken) none) s.trk.openOrder s.trk.overflow [⟨h.chan, missed, false, false⟩] (hitRecord h s)))

/-- A hit that would widen the slot it goes to beyond Lmax closes that slot with LONG as it stood, and opens a new one in the
freed place with the open-order count: its channel's one open slot, or of two the one that matches, the nearer, or the older.
The other slot counts a miss, and closes too where that miss reaches G; the older of the two closes first (R96, R97, R98, R99,
R101, R103, R105). A closed slot with Nmin hits or more becomes an indication record with the next seq, last in the table, where
the oldest leaves at 48 entries, and last on class 2 or counted as dropped there; with fewer the slot is counted sparse (R106,
R107, R113, R117, R135). -/
def Obligations.LongSlotBecomesAnIndication : Prop :=
  ∀ (s : State) (h : HitRecord) (old : Slot) (first : Bool),
    let c := s.cfg.chan.get h.chan
    let slots := fun (x y : Option Slot) => if first then (⟨x, y⟩ : ChanSlots) else ⟨y, x⟩
    let matched := fun (x : Slot) => distX h.x x.lastX ≤ c.tx ∧ distZ h.z x.lastZ ≤ c.tz
    let before := fun (x y : Slot) => (y.order + 4294967296 - x.order) % 4294967296 < 2147483648 ∧
      2147483648 ≤ (x.order + 4294967296 - y.order) % 4294967296
    let opened : Slot :=
      { order := s.trk.openOrder, lastX := h.x, lastZ := h.z, xMin := h.x, xMax := h.x, zMin := h.z, zMax := h.z,
        peak := h.amplitude, hits := 1, spanned := 1, missRun := 0, saturated := h.saturated, doubtful := h.doubtful,
        gapped := false }
    let after := fun (y : Option Slot) (closing : List ClosedSlot) =>
      Settled s h.chan (slots (some opened) y) ((s.trk.openOrder + 1) % 4294967296) s.trk.overflow closing (hitRecord h s)
    let long : ClosedSlot := ⟨h.chan, old, true, false⟩
    matched old → (s.cfg.lmax : Int) < max old.xMax h.x - min old.xMin h.x →
    (s.trk.chan.get h.chan = slots (some old) none → after none [long]) ∧
    (∀ other, s.trk.chan.get h.chan = slots (some old) (some other) →
      (¬ matched other ∨ distX h.x old.lastX < distX h.x other.lastX ∨
        (distX h.x old.lastX = distX h.x other.lastX ∧ before old other)) →
      let missed := { other with missRun := other.missRun + 1, spanned := min (other.spanned + 1) 4095 }
      let plain : ClosedSlot := ⟨h.chan, missed, false, false⟩
      (other.missRun + 1 < c.g → after (some missed) [long]) ∧
      (c.g ≤ other.missRun + 1 → before old other → after none [long, plain]) ∧
      (c.g ≤ other.missRun + 1 → before other old → after none [plain, long]))

/-- A hit that matches neither of two open slots is discarded: the overflow counter rises by 1 and both slots count a miss. A
firing with no hit counts a miss on each open slot, one or two, and nothing else (R100, R101). A slot whose miss run stays below
G stays open. One whose miss run reaches G closes at that miss with no closure mark, its spanned counting the miss; of two that
close at one event the older closes first (R103, R105; which of two orders 2^31 apart is older: log entry 20). With Nmin hits or
more a closed slot becomes an indication record with the next seq, last in the table, where the oldest leaves at 48 entries, and
last on class 2 or counted as dropped there, and with fewer it is counted sparse (R106, R107, R113, R117, R135). A hit that
matches no open slot opens one in a free place, slot 0 where both are free, with the open-order count, which rises by 1; an open
slot beside it counts a miss (R96, R100). -/
def Obligations.UnmatchedHitIsAnOverflow : Prop :=
  ∀ s : State,
    let missed := fun (x : Slot) => { x with missRun := x.missRun + 1, spanned := min (x.spanned + 1) 4095 }
    let stays := fun (c : Chan) (x : Slot) => if x.missRun + 1 < (s.cfg.chan.get c).g then some (missed x) else none
    let closing := fun (c : Chan) (xs : List Slot) =>
      (xs.filter (fun x => decide ((s.cfg.chan.get c).g ≤ x.missRun + 1))).map (fun x => (⟨c, missed x, false, false⟩ : ClosedSlot))
    (∀ c : Chan,
      let sl := s.trk.chan.get c
      Settled s c ⟨sl.slot0.bind (stays c), sl.slot1.bind (stays c)⟩ s.trk.openOrder s.trk.overflow
        (closing c (openSlots sl)) (firingNoHit c s)) ∧
    ∀ h : HitRecord,
      let p := s.cfg.chan.get h.chan
      let unmatched := fun (x : Slot) => ¬(distX h.x x.lastX ≤ p.tx ∧ distZ h.z x.lastZ ≤ p.tz)
      let opened : Slot :=
        { order := s.trk.openOrder, lastX := h.x, lastZ := h.z, xMin := h.x, xMax := h.x, zMin := h.z, zMax := h.z,
          peak := h.amplitude, hits := 1, spanned := 1, missRun := 0, saturated := h.saturated, doubtful := h.doubtful,
          gapped := false }
      let opens := fun (slots : ChanSlots) (closed : List ClosedSlot) =>
        Settled s h.chan slots ((s.trk.openOrder + 1) % 4294967296) s.trk.overflow closed (hitRecord h s)
      (∀ a b, s.trk.chan.get h.chan = ⟨some a, some b⟩ → unmatched a → unmatched b →
        Settled s h.chan ⟨stays h.chan a, stays h.chan b⟩ s.trk.openOrder (min (s.trk.overflow + 1) 65535)
          (closing h.chan (openSlots ⟨some a, some b⟩)) (hitRecord h s)) ∧
      (s.trk.chan.get h.chan = ⟨none, none⟩ → opens ⟨some opened, none⟩ []) ∧
      (∀ a, unmatched a →
        (s.trk.chan.get h.chan = ⟨some a, none⟩ → opens ⟨stays h.chan a, some opened⟩ (closing h.chan [a])) ∧
        (s.trk.chan.get h.chan = ⟨none, some a⟩ → opens ⟨some opened, stays h.chan a⟩ (closing h.chan [a])))

/-- A coverage mark sets GAPPED on every open slot of its channel and leaves all else of the slots, every other channel and
every other block as they are; a channel with no open slot is not affected, and further marks change nothing (R102). It is
handed after a MISSED or BLOCKED outcome of the channel and after no other (R83). -/
def Obligations.CoverageMarkSetsGappedOnly : Prop :=
  ∀ (s : State) (c d : Chan),
    let t := coverageMark c s
    Keeps [.trk] s t ∧
    (t.trk.chan.get c).slot0 = (s.trk.chan.get c).slot0.map (fun x => { x with gapped := true }) ∧
    (t.trk.chan.get c).slot1 = (s.trk.chan.get c).slot1.map (fun x => { x with gapped := true }) ∧
    (d ≠ c → t.trk.chan.get d = s.trk.chan.get d) ∧
    t.trk = { s.trk with chan := t.trk.chan } ∧
    (s.trk.chan.get c = ⟨none, none⟩ → t = s) ∧ coverageMark c t = t ∧
    ∀ (o : ChanOutcome) (basis : Int),
      ((o = .bad .missed ∨ o = .bad .blocked) →
        channelOutcome c o basis s = coverageMark c (takeOutcome c o basis s)) ∧
      (o ≠ .bad .missed → o ≠ .bad .blocked → channelOutcome c o basis s = takeOutcome c o basis s)

/-- A closure request closes every open slot of its channel with CUT, each with Nmin hits or more becoming an indication in the
table and on class 2 or counted as dropped there, each other counted sparse. Nothing else changes, but for the calls and the
rank that the records bring: classes 0 and 3, the receiver and the frame in flight stay (R137). Of two slots the older closes
first whichever place it holds: the two records take successive seqs in that order on class 2 (R104, R105, R106, R107, R135;
which of two orders 2^31 apart is older: log entry 20). -/
def Obligations.ClosureRequestCutsOldestFirst : Prop :=
  (∀ (s : State) (c : Chan), CutFor s [c] (closureRequest c s) ∧ Keeps [.trk, .corr, .link] s (closureRequest c s) ∧
    HandsTo s.own [.c1, .c2] s.link (closureRequest c s).link) ∧
  ∀ (s : State) (c : Chan) (older newer : Slot) (first : Bool),
    s.trk.chan.get c = (if first then ⟨some older, some newer⟩ else ⟨some newer, some older⟩) →
    (newer.order + 4294967296 - older.order) % 4294967296 < 2147483648 →
    2147483648 ≤ (older.order + 4294967296 - newer.order) % 4294967296 →
    (s.cfg.chan.get c).nmin ≤ older.hits → (s.cfg.chan.get c).nmin ≤ newer.hits → s.link.q2.length + 2 ≤ 32 →
    let record := fun (x : Slot) (seq : Nat) => (⟨s.rc.run,
      { origin := s.own, seq := seq, channel := c, rail := s.rail, beam := (s.cfg.chan.get c).beam, xStart := x.xMin,
        xEnd := x.xMax, zMin := x.zMin, zMax := x.zMax, peak := x.peak, hits := x.hits, spanned := x.spanned,
        saturated := x.saturated, doubtful := x.doubtful, gapped := x.gapped, long := false, cut := true }⟩ :
      Queued Indication)
    let t := closureRequest c s
    t.trk.chan = s.trk.chan.set c ⟨none, none⟩ ∧
    t.link.q2 = s.link.q2 ++ [record older s.trk.seq, record newer ((s.trk.seq + 1) % 65536)] ∧
    t.trk.seq = ((s.trk.seq + 1) % 65536 + 1) % 65536 ∧ Keeps [.trk, .corr, .link] s t

/-- Law 4, and law 5 in part (its bound of 6143 on z and its Nmin are not here): every step keeps each open slot within 1 ≤ hits
≤ 255, hits ≤ spanned ≤ 4095, an extent of at most Lmax, ordered X and z bounds and a miss run below G, and no slot open in
LOADING and FAULTED. -/
def Obligations.EveryStepKeepsTheTrackerLaw : Prop :=
  ∀ s t : State, TrackerLaw s → step s = .next t → TrackerLaw t

/-! ### Correlation (chapter 8) -/

/-- The sequence check: the first record of a peer since the run start is accepted; then, with d the seq less the last seq
modulo 65536, d = 1 is accepted, 2 to 32767 accepted with d − 1 added to the gap count and the epoch raised, 0 discarded, and
the rest discarded with the stale count raised; no other peer's entry changes (R115, R116). -/
def Obligations.SequenceCheckJudgesThePeer : Prop :=
  ∀ (s : State) (origin seq : Nat) (p : PeerEntry),
    s.corr.peers[origin]? = some p → p.lastSeq ≤ 65535 → seq ≤ 65535 →
    let d := ((seq : Int) - p.lastSeq) % 65536
    let ok := (peerCheck origin seq s).1
    let t := (peerCheck origin seq s).2
    Keeps [.corr] s t ∧ t.corr = { s.corr with peers := t.corr.peers, epoch := t.corr.epoch } ∧
    (∀ other, other ≠ origin → t.corr.peers[other]? = s.corr.peers[other]?) ∧
    (p.seen = false ∨ p.valid = false → ok = true ∧ t.corr.epoch = s.corr.epoch ∧
      t.corr.peers[origin]? = some { p with seen := true, valid := true, lastSeq := seq }) ∧
    (p.seen = true → p.valid = true →
      (d = 0 → ok = false ∧ t = s) ∧
      (d = 1 → ok = true ∧ t.corr.epoch = s.corr.epoch ∧ t.corr.peers[origin]? = some { p with lastSeq := seq }) ∧
      (2 ≤ d → d ≤ 32767 → ok = true ∧ t.corr.epoch = min (s.corr.epoch + 1) 4294967295 ∧
        t.corr.peers[origin]? = some { p with lastSeq := seq, gapCount := (min (p.gapCount + (d - 1)) 65535).toNat }) ∧
      (32768 ≤ d → ok = false ∧ t.corr.epoch = s.corr.epoch ∧
        t.corr.peers[origin]? = some { p with staleCount := min (p.staleCount + 1) 65535 }))

/-- An INDICATION that fails the form check is discarded without count, and so is one of the other rail (check 3); one that
fails the sequence check leaves what that check gives (check 4), and one whose (origin, seq) stands in the table leaves the peer
table's update (check 5). One of the current run that passes all is inserted as the last entry, the entries before it in their
order, with the pairing search and the call of PairNamesEachOtherAndIsCalledOnce over the table as it then stands, the oldest
first forced out of a table of 48: own, UNPAIRED and of a single-call beam it gives a call of class 0 with EARLY, of another
beam it is counted as dropped. One of another run in RUNNING or STOPPING raises the stale-run counter (check 1), one in STANDBY
is discarded without count, and one naming own address is reported as a conflict, once under the conflict flag (check 2, R154).
Whatever becomes of it, the frame leaves the queue, the unit is busy with it for 200 µs, and the rest of the link stays but for
what is handed to a queue (R114, R115, R117, R119, R130, R144, R157). -/
def Obligations.IndicationIsCheckedAndInserted : Prop :=
  ∀ (s : State) (run : Byte) (p : IndicationPayload),
    Offered .correlationUnit (.indication run p) s →
    let taken := linkAfterTaking .correlationUnit 5000 s
    (15 < p.origin.toNat ∨ p.xEnd.toInt < p.xStart.toInt ∨ p.zMax.toNat < p.zMin.toNat ∨ 6143 < p.zMax.toNat ∨
        8 < p.beam.toNat ∨ p.hits.toNat = 0 ∨ 7 < p.channel.toNat →
      exec (.indication run p) s = .next { s with link := taken }) ∧
    ∀ r, indicationRecord p = some r →
    let checked := (peerCheck r.origin r.seq s).2
    let current := s.inRun = true ∧ run = s.rc.run
    let passes := current ∧ r.origin ≠ s.own ∧ p.rail = railCode s.rail ∧ (peerCheck r.origin r.seq s).1 = true
    let fresh := ∀ e ∈ s.corr.table, e.ind.origin ≠ r.origin ∨ e.ind.seq ≠ r.seq
    (passes → fresh → s.corr.table.length < 48 →
      ∃ t, exec (.indication run p) s = .next t ∧ Keeps [.corr, .link] s t ∧ HandsTo s.own [.c1] taken t.link ∧
        t.corr.table.map (·.ind) = s.corr.table.map (·.ind) ++ [r] ∧
        t.corr.peers = checked.corr.peers ∧ t.corr.epoch = checked.corr.epoch ∧
        t.corr = (insertPaired r checked).corr ∧ t.link.q1 = (insertPaired r checked).link.q1 ∧
        t.link.drop1 = (insertPaired r checked).link.drop1) ∧
    (∀ old rest, passes → fresh → s.corr.table = old :: rest → s.corr.table.length = 48 →
      ∃ t, exec (.indication run p) s = .next t ∧ Keeps [.corr, .link] s t ∧ HandsTo s.own [.c1] taken t.link ∧
        t.corr.table.map (·.ind) = rest.map (·.ind) ++ [r] ∧
        t.corr.peers = checked.corr.peers ∧ t.corr.epoch = checked.corr.epoch ∧
        (∃ u, Keeps [.corr, .link] s u ∧ EntriesLeft true checked [old] u ∧ u.corr.table = rest ∧
          u.corr.spans = s.corr.spans ∧ t.corr = (insertPaired r u).corr ∧ t.link.q1 = (insertPaired r u).link.q1 ∧
          t.link.drop1 = (insertPaired r u).link.drop1) ∧
        (old.ind.origin = s.own → old.partner = none → inBeams s.cfg.single old.ind.beam = true →
          t.corr.unpairedDrop = s.corr.unpairedDrop) ∧
        (old.ind.origin = s.own → old.partner = none → inBeams s.cfg.single old.ind.beam = false →
          t.corr.unpairedDrop = min (s.corr.unpairedDrop + 1) 65535) ∧
        (old.ind.origin ≠ s.own ∨ old.partner ≠ none → t.corr.unpairedDrop = s.corr.unpairedDrop)) ∧
    (passes → ¬fresh → exec (.indication run p) s = .next { s with corr := checked.corr, link := taken }) ∧
    (current → r.origin ≠ s.own → p.rail = railCode s.rail → (peerCheck r.origin r.seq s).1 = false →
      exec (.indication run p) s = .next { s with corr := checked.corr, link := taken }) ∧
    (current → r.origin ≠ s.own → p.rail ≠ railCode s.rail →
      exec (.indication run p) s = .next { s with link := taken }) ∧
    (s.inRun = true → run ≠ s.rc.run → exec (.indication run p) s = .next { s with
      corr := { s.corr with staleRun := min (s.corr.staleRun + 1) 65535 }, link := taken }) ∧
    (s.rc.runState = .standby → exec (.indication run p) s = .next { s with link := taken }) ∧
    (current → r.origin = s.own → s.rc.conflict = true → exec (.indication run p) s = .next { s with link := taken }) ∧
    (current → r.origin = s.own → s.rc.conflict = false → ∃ t, exec (.indication run p) s = .next t ∧
      t = { s with rc := { s.rc with conflict := true }, link := t.link } ∧
      EventHanded s.own s.rc.run (.addressConflict .origin) taken t.link)

/-- A rule matches a new entry and an UNPAIRED one, not of the same origin and channel, when their beams lie one in each of its
sets, their extents lie within Dx of each other and their depths within Dz. The new entry pairs with the oldest entry that a
rule matches, by the lowest-numbered such rule: both become PAIRED and name each other, every other entry stays, and the station
whose address is the lower origin builds a call of the rule's class, marking its own members issued; with no match the entry
stays UNPAIRED and no call is built (R113, R119, R120). The call takes the call sequence number; where its extent lies wholly
within one suppression span it is not handed on and the suppressed counter rises, and otherwise it goes last on class 1, or is
counted as dropped where class 1 is full (R125, R135). Of a full table the oldest entry is forced out before the search, own
UNPAIRED and of a single-call beam with a SINGLE call marked EARLY, which goes the same way (R117, R123). -/
def Obligations.PairNamesEachOtherAndIsCalledOnce : Prop :=
  ∀ (s : State) (n : Indication),
    let t := insertPaired n s
    let fresh : Entry := ⟨n, none, false, s.corr.epoch⟩
    let free := fun (e : Entry) => e.partner = none ∧ ¬(e.ind.origin = n.origin ∧ e.ind.channel = n.channel)
    let agrees := fun (e : Entry) (r : PairRule) =>
      ((inBeams r.setA n.beam = true ∧ inBeams r.setB e.ind.beam = true) ∨
        (inBeams r.setB n.beam = true ∧ inBeams r.setA e.ind.beam = true)) ∧
      max n.xStart e.ind.xStart - min n.xEnd e.ind.xEnd ≤ r.dx ∧
      max n.zMin e.ind.zMin ≤ min n.zMax e.ind.zMax + r.dz
    let unmatched := fun (e : Entry) => free e → ∀ r ∈ s.cfg.rules, ¬agrees e r
    ((∀ e ∈ s.corr.table, unmatched e) →
      t = { s with corr := { s.corr with table := s.corr.table ++ [fresh] } }) ∧
    (∀ (pre post : List Entry) (e : Entry) (i : Nat) (r : PairRule),
      s.corr.table = pre ++ e :: post → (∀ x ∈ pre, unmatched x) → free e →
      s.cfg.rules[i]? = some r → agrees e r → (∀ j < i, ∀ x, s.cfg.rules[j]? = some x → ¬agrees e x) →
      let mine := min e.ind.origin n.origin = s.own
      t.corr.table = pre ++
        { e with partner := some ⟨n.origin, n.seq⟩, issued := decide (mine ∧ e.ind.origin = s.own) } :: post ++
        [{ fresh with partner := some ⟨e.ind.origin, e.ind.seq⟩, issued := decide (mine ∧ n.origin = s.own) }] ∧
      Keeps [.corr, .link] s t ∧
      (¬mine → t.corr.callSeq = s.corr.callSeq ∧ t.link = s.link) ∧
      (mine →
        let call : Call :=
          { seq := s.corr.callSeq, cls := r.cls, rail := s.rail, xLo := min e.ind.xStart n.xStart,
            xHi := max e.ind.xEnd n.xEnd, zLo := min e.ind.zMin n.zMin, zHi := max e.ind.zMax n.zMax,
            peak := max e.ind.peak n.peak, first := ⟨e.ind.origin, e.ind.seq, e.ind.beam⟩,
            second := some ⟨n.origin, n.seq, n.beam⟩, uncertain := false, early := false,
            saturated := e.ind.saturated || n.saturated, doubtful := e.ind.doubtful || n.doubtful,
            long := e.ind.long || n.long }
        let held := ∃ sp ∈ s.corr.spans, sp.a ≤ call.xLo ∧ call.xHi ≤ sp.b
        t.corr.callSeq = (s.corr.callSeq + 1) % 65536 ∧ HandsTo s.own [.c1] s.link t.link ∧
        (held → t.corr.suppressed = min (s.corr.suppressed + 1) 65535 ∧ t.link = s.link) ∧
        (¬held → t.corr.suppressed = s.corr.suppressed ∧
          (s.link.q1.length < 24 → t.link.q1 = s.link.q1 ++ [⟨s.rc.run, call⟩] ∧ t.link.drop1 = s.link.drop1) ∧
          (24 ≤ s.link.q1.length → t.link = { s.link with drop1 := min (s.link.drop1 + 1) 65535 })))) ∧
    (s.corr.table.length < 48 → insertRecord n s = t) ∧
    (∀ old rest, s.corr.table = old :: rest → s.corr.table.length = 48 → ∃ u, insertRecord n s = insertPaired n u ∧
      Keeps [.corr, .link] s u ∧ u.corr.table = rest ∧ u.corr.spans = s.corr.spans ∧ EntriesLeft true s [old] u)

/-- An increase of the frontier removes exactly the entries with X_end + H below it and the spans with b + H below it; each own
UNPAIRED entry that leaves takes one call sequence number where its beam is in the single-call set, and is counted as an
unpaired drop otherwise; peer entries and PAIRED ones leave without either (R122, R123, R127). The calls are judged against the
spans as they stood, the table going first: one within a span is counted as suppressed, the others go last on class 1 while
there is room and are counted as dropped there (R125, R135). -/
def Obligations.FrontierIncreaseAgesTableAndSpans : Prop :=
  ∀ (s : State) (front : Int), s.corr.callSeq ≤ 65535 → s.corr.unpairedDrop ≤ 65535 →
    let t := frontierIncrease front s
    let leaving := s.corr.table.filter (fun e =>
      decide (e.ind.xEnd + s.cfg.horizon < front ∧ e.ind.origin = s.own ∧ e.partner = none))
    t.corr.table = s.corr.table.filter (fun e => decide (front ≤ e.ind.xEnd + s.cfg.horizon)) ∧
    t.corr.spans = s.corr.spans.filter (fun sp => decide (front ≤ sp.b + s.cfg.horizon)) ∧
    t.corr.callSeq = (s.corr.callSeq + (leaving.filter (fun e => inBeams s.cfg.single e.ind.beam)).length) % 65536 ∧
    t.corr.unpairedDrop = min 65535
      (s.corr.unpairedDrop + (leaving.filter (fun e => !inBeams s.cfg.single e.ind.beam)).length) ∧
    EntriesLeft false s (s.corr.table.filter (fun e => decide (e.ind.xEnd + s.cfg.horizon < front))) t ∧
    t.corr.peers = s.corr.peers ∧ t.corr.epoch = s.corr.epoch ∧ Keeps [.corr, .link] s t

/-- A SUPPRESS frame of the current run and own rail in RUNNING with a ≤ b merges its span: the list covers what it covered and
the span, and stays sorted, disjoint and non-adjacent; where no span touches it and eight stand already, the list stays and the
suppress-overflow counter rises. In STANDBY and STOPPING it is discarded without count, and in RUNNING one of the other rail, of
an unknown rail byte or with a above b too (R126, R157, law 9). Whatever becomes of it, the unit is busy with it for 50 µs, and
of the link only the receive queue and the count of frames discarded behind it change (R144). One of another run in RUNNING is
counted stale, whatever its rail and span: that the run number is judged before them is DEDUCED (log entry 21). -/
def Obligations.SuppressMergesItsSpan : Prop :=
  ∀ (s : State) (run : Byte) (p : SuppressPayload),
    Offered .correlationUnit (.suppress run p) s → SpansLaw s.corr.spans →
    let taken := linkAfterTaking .correlationUnit 1250 s
    let covers := fun (spans : List Span) (x : Int) => ∃ sp ∈ spans, sp.a ≤ x ∧ x ≤ sp.b
    let apart := ∀ sp ∈ s.corr.spans, sp.b + 1 < p.a.toInt ∨ p.b.toInt + 1 < sp.a
    (s.rc.runState = .running → run = s.rc.run → p.rail = railCode s.rail → p.a.toInt ≤ p.b.toInt →
      ∃ t, exec (.suppress run p) s = .next t ∧ t = { s with corr := t.corr, link := taken } ∧
        (¬(apart ∧ s.corr.spans.length = 8) → SpansLaw t.corr.spans ∧
          (∀ x, covers t.corr.spans x ↔ covers s.corr.spans x ∨ (p.a.toInt ≤ x ∧ x ≤ p.b.toInt)) ∧
          t.corr = { s.corr with spans := t.corr.spans }) ∧
        (apart → s.corr.spans.length = 8 →
          t.corr = { s.corr with suppressOverflow := min (s.corr.suppressOverflow + 1) 65535 })) ∧
    (s.rc.runState = .running → run ≠ s.rc.run → exec (.suppress run p) s = .next { s with
      corr := { s.corr with staleRun := min (s.corr.staleRun + 1) 65535 }, link := taken }) ∧
    (s.rc.runState = .running → run = s.rc.run → p.rail ≠ railCode s.rail ∨ p.b.toInt < p.a.toInt →
      exec (.suppress run p) s = .next { s with link := taken }) ∧
    (s.rc.runState ≠ .running → exec (.suppress run p) s = .next { s with link := taken })

/-- Law 6 in part (its 48 entries; not the uniqueness of (origin, seq), nor the partners) and law 9: every step keeps the table
at 48 entries or fewer and the suppression list at eight spans or fewer, sorted by start, pairwise disjoint and non-adjacent,
with one peer entry for each of the sixteen addresses and the epoch at or below its top. -/
def Obligations.EveryStepKeepsTheCorrelationLaw : Prop :=
  ∀ s t : State, CorrelationLaw s → step s = .next t → CorrelationLaw t

/-! ### Run control (chapter 10) -/

/-- A RUNSTART of a run number other than 0 in STANDBY starts the run in every block: the position at 0 with the first step due
at D, the sequencer waiting for a step with the mask kept, the zone line idle where enabled, each channel DOUBTFUL or COUPLED by
its M gate, gaps, slots and table empty with their sequences at 0, the peers' seen flags and last seqs kept, class 0 kept and
classes 1 to 3 flushed into their drop counters, but for the record of a frame in flight, which stays at the head with its frame
marked as flushed; a frame of a wrong length behind it is discarded after the start and counted then (R150, R151, R16, R36, R41,
R76, R82, R110, R129, R136, R144, R157). -/
def Obligations.RunstartStartsARun : Prop :=
  ∀ (s : State) (r : Byte), r ≠ 0 → s.rc.runState = .standby → Offered .runController (.runstart r) s →
    let taken := { s with link := { s.link with busyRun := some 250, rxQueue := s.link.rxQueue.drop 1 } }
    let behind := discardHeads s.own (s.link.rxQueue.drop 1)
    ∃ u, RunStarted r taken u ∧ exec (.runstart r) s = .next { u with
      link := { u.link with rxQueue := behind.1, receiveError := min behind.2 65535 } }

/-- A RUNSTOP of the current run in RUNNING enters STOPPING, and so does a RUNSTART of another run, which becomes the pending
start: the cycle and the waiting cycle are dropped without an outcome; with a volley in hold it goes on, and slots, gaps and the
drain wait for it; with none the sequencer is off, all slots close with CUT, those of Nmin hits or more as indications in the
table and on class 2 or counted as dropped there, then all gaps with STOPPED, each with its GAP record on class 3 or counted as
dropped there, and the drain starts (R150, R152, R37, R54, R80, R81, R105 to R107, R109, R135; which of two orders 2^31 apart is
older: log entry 20). A RUNSTOP of another run or outside RUNNING only leaves the queue, with the discarded frames behind it,
and makes the Run Controller busy for 10 µs (R144, R157). In STOPPING a RUNSTART of another run becomes the pending start,
replacing any held; one of the current run in RUNNING or STOPPING, and one of run 0, only leaves the queue. -/
def Obligations.RunstopEntersStopping : Prop :=
  (∀ (s : State) (c : Instr) (r : Byte) (start : Option Byte),
    ((c = .runstop r ∧ r = s.rc.run ∧ start = s.rc.pendingStart) ∨
      (c = .runstart r ∧ r ≠ 0 ∧ r ≠ s.rc.run ∧ start = some r)) →
    s.rc.runState = .running → Offered .runController c s →
    ∃ t, exec c s = .next t ∧ t.rc.runState = .stopping ∧ t.rc.run = s.rc.run ∧ t.rc.pendingStart = start ∧
      t.pos = s.pos ∧ t.seq = { s.seq with
        sq := if s.seq.sq = .hold then .hold else .off, cycle := none, pointer := none, waiting := none } ∧
      HandsTo s.own [.c1, .c2, .c3] (linkAfterTaking .runController 250 s) t.link ∧
      t.zone.losses = s.zone.losses ∧
      (s.zone.ctl = .claim → t.zone = { s.zone with orphaned := true }) ∧ (s.zone.ctl = .hold → t.zone = s.zone) ∧
      (s.zone.ctl = .idle ∨ s.zone.ctl = .wait → t.zone = { s.zone with ctl := .off, stuck := false, stuckTimer := 0 }) ∧
      (s.seq.sq = .hold → Keeps [.rc, .seq, .zone, .link] s t ∧ t.rc.draining = s.rc.draining ∧
        t.link = linkAfterTaking .runController 250 s) ∧
      (s.seq.sq ≠ .hold → Keeps [.rc, .seq, .zone, .cov, .trk, .corr, .link] s t ∧ t.rc.draining = true ∧
        t.rc.drainTimer = s.cfg.drain * 250000 ∧ (∀ ch, t.trk.chan.get ch = ⟨none, none⟩) ∧
        (∀ ch, (t.cov.chan.get ch).gap = none) ∧ CutFor s Chan.all t ∧ GapsStopped s t)) ∧
  (∀ (s : State) (r : Byte), s.rc.runState ≠ .running ∨ r ≠ s.rc.run → Offered .runController (.runstop r) s →
    exec (.runstop r) s = .next { s with link := linkAfterTaking .runController 250 s }) ∧
  ∀ (s : State) (r : Byte), Offered .runController (.runstart r) s →
    (s.rc.runState = .stopping → r ≠ 0 → r ≠ s.rc.run → exec (.runstart r) s = .next { s with
      rc := { s.rc with pendingStart := some r }, link := linkAfterTaking .runController 250 s }) ∧
    (r = 0 ∨ (s.inRun = true ∧ r = s.rc.run) →
      exec (.runstart r) s = .next { s with link := linkAfterTaking .runController 250 s })

/-- DRAIN_END in the drain: every own UNPAIRED entry of a single-call beam gives a call of class 0 without EARLY, in table
order, and every other own UNPAIRED one is counted as dropped; a call within a suppression span is held back and counted, and
one that class 1 has no room for is counted as dropped there; the table and the suppression list are emptied (R131, R123, R125,
R135). Then the two RUN_SUMMARY records of the stopping run are queued with the values as they stand at that moment, part 1
first; with one place left on class 0 part 2 is refused and counted, with none both are (R135, R154, R155). The station enters
STANDBY, where classes 1 to 3, their counters and the rest of the link stay as the summary left them; a pending run starts from
there at once, in every block, its flush counting the records of classes 1 to 3 in the new run's drop counters (R153, R151,
R136). Outside the drain it has no effect, which is the model's choice (log entry 11). -/
def Obligations.DrainEndSummarisesTheRun : Prop :=
  ∀ s : State,
    (s.rc.runState = .stopping → s.rc.draining = true → s.corr.callSeq ≤ 65535 → s.corr.unpairedDrop ≤ 65535 →
      let leaving := s.corr.table.filter (fun e => decide (e.ind.origin = s.own ∧ e.partner = none))
      let called := leaving.filter (fun e => inBeams s.cfg.single e.ind.beam)
      let dropped := leaving.filter (fun e => !inBeams s.cfg.single e.ind.beam)
      ∃ u v, Keeps [.corr, .link] s u ∧ u.corr.table = [] ∧ u.corr.spans = [] ∧
        u.corr.callSeq = (s.corr.callSeq + called.length) % 65536 ∧
        u.corr.unpairedDrop = min 65535 (s.corr.unpairedDrop + dropped.length) ∧
        u.corr.peers = s.corr.peers ∧ u.corr.epoch = s.corr.epoch ∧ u.corr.staleRun = s.corr.staleRun ∧
        u.corr.suppressOverflow = s.corr.suppressOverflow ∧
        EntriesLeft false s s.corr.table u ∧
        (let counters : SummaryCounters :=
          { encoderError := s.pos.encoderError, trackerOverflow := s.trk.overflow, sparse := s.trk.sparse,
            staleRun := s.corr.staleRun, unpairedDrop := u.corr.unpairedDrop, suppressed := u.corr.suppressed,
            suppressOverflow := s.corr.suppressOverflow, drop0 := s.link.drop0, drop1 := u.link.drop1,
            drop2 := s.link.drop2, drop3 := s.link.drop3, collision := s.link.collision,
            receiveError := s.link.receiveError, receiveOverflow := s.link.receiveOverflow };
        let totals : SummaryTotals :=
          { heard := (List.range 16).filter (fun a => (s.corr.peers.getD a ⟨false, false, 0, 0, 0⟩).seen),
            gapTotal := min 65535 (s.corr.peers.map (·.gapCount)).sum,
            staleTotal := min 65535 (s.corr.peers.map (·.staleCount)).sum, indicationSeq := s.trk.seq,
            callSeq := u.corr.callSeq, gapSeq := s.cov.gapSeq };
        HandsTo s.own [.c0] u.link v.link ∧
        (s.link.q0.length + 2 ≤ 4 → v.link.drop0 = s.link.drop0 ∧ v.link.q0 = s.link.q0 ++
          [⟨s.rc.run, .runSummary1 counters⟩, ⟨s.rc.run, .runSummary2 totals⟩]) ∧
        (s.link.q0.length + 1 = 4 → v.link.drop0 = min (s.link.drop0 + 1) 65535 ∧
          v.link.q0 = s.link.q0 ++ [⟨s.rc.run, .runSummary1 counters⟩]) ∧
        (4 ≤ s.link.q0.length → v.link = { u.link with drop0 := min (s.link.drop0 + 2) 65535 })) ∧
        v = { u with rc := { s.rc with runState := .standby, draining := false, drainTimer := 0 }, link := v.link } ∧
        (s.rc.pendingStart = none → exec .drainEnd s = .next v) ∧
        (∀ r, s.rc.pendingStart = some r → ∃ t, exec .drainEnd s = .next t ∧ RunStarted r v t)) ∧
    (s.rc.runState ≠ .stopping ∨ s.rc.draining = false → exec .drainEnd s = .next s)

/-! ### Carriage link (chapters 9 and 11) -/

/-- A frame as the station builds it passes every check of reception: the characters of a record's frame parse to the frame of
their source, kind, run number and payload, for every payload of at most 32 bytes (R138, R141, R156, 11.1). The payload of a
record has the length and the fields of 11.2, each at its offset, least significant byte first, the spare bits of its flags and
sets 0; an INDICATION payload is read back as the record it was built from (11.2, R155). A frame of a block's kind and length is
handed over with the fields of 11.2 at their offsets; a MASK frame of another target is discarded (R144, R157, R158). -/
def Obligations.BuiltFramesPassReception : Prop :=
  let u1 := fun (p : List Byte) (off : Nat) => (p.getD off 0).toNat
  let u2 := fun p off => u1 p off + 256 * u1 p (off + 1)
  let u4 := fun p off => u2 p off + 65536 * u2 p (off + 2)
  let position := fun p off => if u4 p off < 2147483648 then (u4 p off : Int) else u4 p off - 4294967296
  let places := fun (x : Int) => -2147483648 ≤ x ∧ x < 2147483648
  let flags := fun (n : Nat) (bits : List Bool) => ∀ i, n.testBit i = bits.getD i false
  let rail := fun (r : Rail) => if r = .left then 0 else 1
  (∀ (source : Nat) (kind run : Byte) (payload : List Byte), source < 32 → payload.length ≤ 32 →
    (frameChars source kind run payload).length = 7 + payload.length ∧
    parseFrame (frameChars source kind run payload) = some ⟨BitVec.ofNat 5 source, kind, run, payload⟩) ∧
  (∀ r : Indication, r.origin ≤ 15 → r.seq ≤ 65535 → r.beam ≤ 8 → places r.xStart → places r.xEnd → r.xStart ≤ r.xEnd →
    r.zMin ≤ r.zMax → r.zMax ≤ 6143 → r.peak ≤ 255 → 1 ≤ r.hits → r.hits ≤ 255 → r.spanned ≤ 65535 →
    let p := indicationPayload r
    (p.length = 23 ∧ u1 p 0 = r.origin ∧ u2 p 1 = r.seq ∧ u1 p 3 = r.channel.num ∧ u1 p 4 = rail r.rail ∧
      u1 p 5 = r.beam ∧ position p 6 = r.xStart ∧ position p 10 = r.xEnd ∧ u2 p 14 = r.zMin ∧ u2 p 16 = r.zMax ∧
      u1 p 18 = r.peak ∧ u1 p 19 = r.hits ∧ u2 p 20 = r.spanned ∧
      flags (u1 p 22) [r.saturated, r.doubtful, r.gapped, r.long, r.cut]) ∧
    indicationRecord (indicationOfBytes p) = some r) ∧
  (∀ r : Call, r.seq ≤ 65535 → r.cls ≤ 3 → places r.xLo → places r.xHi → r.zLo ≤ 65535 → r.zHi ≤ 65535 → r.peak ≤ 255 →
    (∀ m : Member, m = r.first ∨ r.second = some m → m.origin ≤ 15 ∧ m.seq ≤ 65535 ∧ m.beam ≤ 8) →
    (r.second = none ↔ r.cls = 0) →
    let p := callPayload r
    let member := fun off (m : Member) => u1 p off = m.origin ∧ u2 p (off + 1) = m.seq ∧ u1 p (off + 3) = m.beam
    p.length = (if r.cls = 0 then 22 else 26) ∧ u2 p 0 = r.seq ∧ u1 p 2 = r.cls ∧ u1 p 3 = rail r.rail ∧
    position p 4 = r.xLo ∧ position p 8 = r.xHi ∧ u2 p 12 = r.zLo ∧ u2 p 14 = r.zHi ∧ u1 p 16 = r.peak ∧
    flags (u1 p 17) [r.uncertain, r.early, r.saturated, r.doubtful, r.long] ∧ member 18 r.first ∧
    ∀ m, r.second = some m → member 22 m) ∧
  (∀ r : GapRecord, r.origin ≤ 15 → r.seq ≤ 65535 → r.beam ≤ 8 → places r.xStart → places r.xEnd → r.firings ≤ 65535 →
    let p := gapPayload r
    p.length = 18 ∧ u1 p 0 = r.origin ∧ u2 p 1 = r.seq ∧ u1 p 3 = r.channel.num ∧ u1 p 4 = r.beam ∧
    u1 p 5 = rail r.rail ∧ some r.reason = [.uncoupled, .muted, .unassigned, .missed, .blocked][u1 p 6 - 1]? ∧
    1 ≤ u1 p 6 ∧ position p 7 = r.xStart ∧ position p 11 = r.xEnd ∧ u2 p 15 = r.firings ∧
    some r.closure = [.resumed, .changed, .full, .stopped][u1 p 17 - 1]? ∧ 1 ≤ u1 p 17) ∧
  (∀ (cause : ResetCause) (w : Warnings), w.ruleClass.length = 8 → w.portConflict.length = 12 →
    let p := eventPayload (.stationUp cause w)
    p.length = 22 ∧ u1 p 0 = 1 ∧ some cause = [.powerOn, .resetPin, .supplyLow][u1 p 1 - 1]? ∧ 1 ≤ u1 p 1 ∧
    flags (u1 p 2) [w.encoder, w.plan, w.zoneTw, w.lmax, w.horizon, w.drain] ∧ flags (u1 p 3) w.ruleClass ∧
    flags (u2 p 4) w.portConflict ∧
    ∀ c, let v := w.chan.get c
      flags (u2 p (6 + 2 * c.num)) [v.port, v.clampF, v.clampM, v.disabledF, v.disabledM, v.wedge, v.coupling, v.beam,
        v.path, v.sine, v.cosine, v.offset, v.tracking]) ∧
  (∀ (code : FaultCode) (entry : Nat), entry ≤ 31 →
    let p := eventPayload (.configFault code entry)
    p.length = 3 ∧ u1 p 0 = 2 ∧ u1 p 2 = entry ∧ 1 ≤ u1 p 1 ∧ some code =
      [.format, .length, .imageCrc, .noEndMark, .entryEmpty, .entryOverfull, .ruleCount][u1 p 1 - 1]?) ∧
  (eventPayload .zoneStuck = [0x03#8] ∧ eventPayload .zoneClear = [0x04#8] ∧
    eventPayload (.positionLimit false) = [0x05#8, 0x00#8] ∧ eventPayload (.positionLimit true) = [0x05#8, 0x01#8] ∧
    eventPayload (.addressConflict .link) = [0x06#8, 0x01#8] ∧
    eventPayload (.addressConflict .origin) = [0x06#8, 0x02#8]) ∧
  (∀ k : SummaryCounters,
    let counters := [k.encoderError, k.trackerOverflow, k.sparse, k.staleRun, k.unpairedDrop, k.suppressed,
      k.suppressOverflow, k.drop0, k.drop1, k.drop2, k.drop3, k.collision, k.receiveError, k.receiveOverflow]
    (∀ n ∈ counters, n ≤ 65535) →
    let p := eventPayload (.runSummary1 k)
    p.length = 30 ∧ u1 p 0 = 7 ∧ u1 p 1 = 1 ∧ ∀ i < 14, counters[i]? = some (u2 p (2 + 2 * i))) ∧
  (∀ k : SummaryTotals, k.gapTotal ≤ 65535 → k.staleTotal ≤ 65535 → k.indicationSeq ≤ 65535 → k.callSeq ≤ 65535 →
    k.gapSeq ≤ 65535 →
    let p := eventPayload (.runSummary2 k)
    p.length = 14 ∧ u1 p 0 = 7 ∧ u1 p 1 = 2 ∧ (∀ a < 16, (u2 p 2).testBit a = k.heard.contains a) ∧
    u2 p 4 = k.gapTotal ∧ u2 p 6 = k.staleTotal ∧ u2 p 8 = k.indicationSeq ∧ u2 p 10 = k.callSeq ∧ u2 p 12 = k.gapSeq) ∧
  (∀ (own : Nat) (source : BitVec 5) (run : Byte) (p : List Byte),
    let lists := fun (m : ChanSet) off => ∀ c, inSet m c = (u1 p off).testBit c.num
    (p.length = 0 → disposal own ⟨source, 0x01#8, run, p⟩ = .hand .runController (.runstart run) ∧
      disposal own ⟨source, 0x02#8, run, p⟩ = .hand .runController (.runstop run)) ∧
    (p.length = 3 → u1 p 0 ≠ own → disposal own ⟨source, 0x03#8, run, p⟩ = .discard) ∧
    (p.length = 3 → u1 p 0 = own → ∃ m, disposal own ⟨source, 0x03#8, run, p⟩ = .hand .volleySequencer (.mask m) ∧
      m.target.toNat = u1 p 0 ∧ lists m.setList 1 ∧ lists m.clearList 2) ∧
    (p.length = 9 → ∃ m, disposal own ⟨source, 0x04#8, run, p⟩ = .hand .correlationUnit (.suppress run m) ∧
      m.rail.toNat = u1 p 0 ∧ m.a.toInt = position p 1 ∧ m.b.toInt = position p 5) ∧
    (p.length = 23 → ∃ m, disposal own ⟨source, 0x10#8, run, p⟩ = .hand .correlationUnit (.indication run m) ∧
      m.origin.toNat = u1 p 0 ∧ m.seq.toNat = u2 p 1 ∧ m.channel.toNat = u1 p 3 ∧ m.rail.toNat = u1 p 4 ∧
      m.beam.toNat = u1 p 5 ∧ m.xStart.toInt = position p 6 ∧ m.xEnd.toInt = position p 10 ∧ m.zMin.toNat = u2 p 14 ∧
      m.zMax.toNat = u2 p 16 ∧ m.peak.toNat = u1 p 18 ∧ m.hits.toNat = u1 p 19 ∧ m.spanned.toNat = u2 p 20 ∧
      m.flags.toNat = u1 p 22))

/-- The frame commands' taking: a block that can take the frame at the head is busy with it for the service time of its kind,
and the frame leaves the queue with the discarded ones that follow it; a frame that its block cannot take now has no effect
(R144, log entry 7 for the empty queue and for the frame that is not there, log entry 11). The end of a service time frees the
block, and changes nothing but the discarded frames at the head of the queue, those of a wrong length counted as receive errors
(R157); of a block that is not busy it has no effect (log entry 11). -/
def Obligations.TakingAFrameMakesItsBlockBusy : Prop :=
  ∀ (s : State) (b : Block) (c : Instr) (ticks : Nat),
    (((∃ r, c = .runstart r) ∨ (∃ r, c = .runstop r)) ∧ b = .runController ∧ ticks = 250 ∨
      (∃ p, c = .mask p ∧ p.target.toNat = s.own) ∧ b = .volleySequencer ∧ ticks = 250 ∨
      (∃ r p, c = .suppress r p) ∧ b = .correlationUnit ∧ ticks = 1250 ∨
      (∃ r p, c = .indication r p) ∧ b = .correlationUnit ∧ ticks = 5000) →
    (Offered b c s → ∃ t, exec c s = .next t ∧ busyOf t.link b = some ticks ∧
      t.link.rxQueue = (discardHeads s.own (s.link.rxQueue.drop 1)).1 ∧
      ∀ other, other ≠ b → busyOf t.link other = busyOf s.link other) ∧
    (¬ Offered b c s → exec c s = .next s) ∧
    (∀ left, busyOf s.link b = some left → exec (.serviceTimeEnd b) s = .next { s with link := { s.link with
      busyRun := if b = .runController then none else s.link.busyRun
      busySeq := if b = .volleySequencer then none else s.link.busySeq
      busyCorr := if b = .correlationUnit then none else s.link.busyCorr
      rxQueue := (discardHeads s.own s.link.rxQueue).1
      receiveError := min (s.link.receiveError + (discardHeads s.own s.link.rxQueue).2) 65535 } } ∧
      ∃ k, s.link.rxQueue.drop k = (discardHeads s.own s.link.rxQueue).1) ∧
    (busyOf s.link b = none → exec (.serviceTimeEnd b) s = .next s)

/-- A frame that passes the checks ends with the receiver waiting for idle, the level of the link as it stands (R134) and the
recessive time from there on (log entry 6). One of another source enters the receive queue last, whatever its kind; at sixteen
frames one is lost by the overflow policy, whatever its kind, with the overflow counted and the epoch raised, in STANDBY too
(log entry 22). Then the frames at the head that no block takes leave it: a CALL, GAP, EVENT or unknown kind, and a MASK of
another target, without count; one of a wrong length for its kind with a receive error. Behind a frame that waits for its block
every frame waits; at an empty queue one that no block takes leaves at once (R116, R143, R144, R157). One of own address that
the station did not send is reported as a conflict once, the flag set even where class 0 refuses the event. The station's own
frame, taken to be the one received in TX_SEND (log entry 14), and in FAULTED every frame, is dropped silently (R141, R142,
R145, R154). One that fails a check, by its characters or by RECEIVE_ERROR, raises the receive-error counter only. -/
def Obligations.ReceptionQueuesOrDiscards : Prop :=
  ∀ (s : State) (chars : List Byte) (f : Frame) (check : ReceptionCheck),
    s.link.rx = .frame → s.link.receiveError ≤ 65535 →
    let ended := { s.link with rx := .skip, gather := ⟨none, [], []⟩, recessiveTime := 0 }
    let failed := { s with link := { s.link with
      rx := .skip, gather := ⟨none, [], []⟩, receiveError := min (s.link.receiveError + 1) 65535 } }
    let lengths : List (Byte × Nat) := [(0x01#8, 0), (0x02#8, 0), (0x03#8, 3), (0x04#8, 9), (0x10#8, 23)]
    let waits := fun (x : Frame) => ∃ b c, disposal s.own x = .hand b c
    exec (.receiveError check) s = .next failed ∧
    (parseFrame chars = none → exec (.frameReceived chars) s = .next failed) ∧
    (parseFrame chars = some f → s.operating = true → s.link.tx ≠ .send → f.source.toNat ≠ s.own →
      (let room := s.link.rxQueue.length < 16;
        let queue := if room then s.link.rxQueue ++ [f]
          else if s.cfg.dropOldest then s.link.rxQueue.drop 1 ++ [f] else s.link.rxQueue;
        exec (.frameReceived chars) s = .next { s with
          corr := { s.corr with epoch := if room then s.corr.epoch else min (s.corr.epoch + 1) 4294967295 }
          link := { ended with
            receiveOverflow := if room then s.link.receiveOverflow else min (s.link.receiveOverflow + 1) 65535
            rxQueue := (discardHeads s.own queue).1
            receiveError := min (s.link.receiveError + (discardHeads s.own queue).2) 65535 } }) ∧
      (∀ g gs, s.link.rxQueue = g :: gs → waits g → s.link.rxQueue.length < 16 →
        exec (.frameReceived chars) s = .next { s with link := { ended with rxQueue := s.link.rxQueue ++ [f] } }) ∧
      (s.link.rxQueue = [] →
        (waits f → exec (.frameReceived chars) s = .next { s with link := { ended with rxQueue := [f] } }) ∧
        (disposal s.own f = .discard → exec (.frameReceived chars) s = .next { s with link := ended }) ∧
        (disposal s.own f = .badLength → exec (.frameReceived chars) s = .next { s with link := { ended with
          receiveError := min (s.link.receiveError + 1) 65535 } }))) ∧
    (∀ (gone : List Frame) (g : Frame) (rest : List Frame), (∀ x ∈ gone, ¬waits x) → waits g →
      let bad := (gone.filter (fun x => decide (disposal s.own x = .badLength))).length
      discardHeads s.own (gone ++ g :: rest) = (g :: rest, bad) ∧ discardHeads s.own gone = ([], bad)) ∧
    ((∀ x ∈ lengths, f.kind ≠ x.1) → disposal s.own f = .discard) ∧
    (∀ x ∈ lengths, f.kind = x.1 → (f.payload.length ≠ x.2 ↔ disposal s.own f = .badLength)) ∧
    (f.kind = 0x03#8 → f.payload.length = 3 → ((f.payload.getD 0 0).toNat ≠ s.own ↔ disposal s.own f = .discard)) ∧
    (parseFrame chars = some f → s.operating = false ∨ s.link.tx = .send →
      exec (.frameReceived chars) s = .next { s with link := ended }) ∧
    (parseFrame chars = some f → s.operating = true → s.link.tx ≠ .send →
      f.source.toNat = s.own → ∃ t, exec (.frameReceived chars) s = .next t ∧
        t = { s with rc := { s.rc with conflict := true }, link := t.link } ∧ (s.rc.conflict = true → t.link = ended) ∧
        (s.rc.conflict = false → EventHanded s.own s.rc.run (.addressConflict .link) ended t.link))

/-- In LOADING the link is not judged (R134, log entry 11). A dominant level makes the link busy, and a hunting receiver gathers
a frame from it; at an edge on a link already recessive for 6 µs the idle instant is taken first, so the transmitter has its
rank and the edge starts a frame. The idle instant makes the link idle, and the receiver hunts, an unfinished frame counted as
an error; a transmitter in TX_IDLE or TX_DEFER takes the lowest-numbered class that holds a record, and its rank is 16 times the
class plus own address, with the begin time that many microseconds on (R134, R137, R141, log entry 9). Given on a level that is
dominant in the state it makes the link recessive, which is the model's choice (log entry 12). A transmitter in TX_IDLE whose
queues were empty at the idle instant takes the rank of a record that arrives in the same idle, with what is left of the time to
its begin time (R137). In TX_SEND LINK_IDLE_INSTANT has no effect, which is the model's choice (log entry 11). -/
def Obligations.IdleInstantGivesTheRank : Prop :=
  ∀ (s : State) (c : TxClass),
    (s.linkOn = false → exec .linkIdleInstant s = .next s ∧
      ∀ level, exec (.linkLevelChange level) s = .next { s with link := { s.link with level := level } }) ∧
    (s.linkOn = true →
    let idleDue := s.link.tx ≠ .send ∧ s.link.idle = false ∧ s.link.level = .recessive ∧ 150 ≤ s.link.recessiveTime
    (idleDue → ∃ t u, exec .linkIdleInstant s = .next t ∧ t.link.idle = true ∧
      exec (.linkLevelChange .dominant) t = .next u ∧ exec (.linkLevelChange .dominant) s = .next u ∧
      u.link.idle = false ∧ u.link.level = .dominant ∧ u.link.recessiveTime = 0 ∧
      (s.link.rx ≠ .off → u.link.rx = .frame ∧ u.link.gather = ⟨some 0, [], []⟩) ∧
      u.link.tx = t.link.tx ∧ u.link.rank = t.link.rank ∧ u.link.beginIn = t.link.beginIn) ∧
    (¬idleDue → ∃ t, exec (.linkLevelChange .dominant) s = .next t ∧ t = { s with link := { s.link with
      level := .dominant, idle := false, recessiveTime := 0, rx := t.link.rx, gather := t.link.gather } } ∧
      (s.link.rx = .hunt → t.link.rx = .frame ∧ t.link.gather = ⟨some 0, [], []⟩) ∧
      (s.link.rx ≠ .hunt → t.link.rx = s.link.rx) ∧
      (s.link.rx = .frame → t.link.gather = if s.link.level = .recessive ∧ s.link.gather.since = none
        then ⟨some 0, [], s.link.gather.chars⟩ else s.link.gather) ∧
      (s.link.rx ≠ .hunt → s.link.rx ≠ .frame → t.link.gather = s.link.gather)) ∧
    exec (.linkLevelChange .recessive) s = .next { s with link := { s.link with level := .recessive } } ∧
    (s.link.tx ≠ .send → ∃ t, exec .linkIdleInstant s = .next t ∧ Keeps [.link] s t ∧
      t.link.idle = true ∧ t.link.level = .recessive ∧ t.link.sinceIdle = 0 ∧
      (s.link.rx ≠ .off → t.link.rx = .hunt) ∧
      t.link.gather = (if s.link.rx = .frame then ⟨none, [], []⟩ else s.link.gather) ∧
      t.link.receiveError =
        (if s.link.rx = .frame then min (s.link.receiveError + 1) 65535 else s.link.receiveError) ∧
      (t.link.q0 = s.link.q0 ∧ t.link.q1 = s.link.q1 ∧ t.link.q2 = s.link.q2 ∧ t.link.q3 = s.link.q3 ∧
        t.link.rxQueue = s.link.rxQueue) ∧
      (s.link.tx = .idle ∨ s.link.tx = .defer →
        (headOf s.link c = true → (∀ lower : TxClass, lower.num < c.num → headOf s.link lower = false) →
          t.link.tx = .defer ∧ t.link.rank = some (16 * c.num + s.own) ∧
          t.link.beginIn = 25 * (16 * c.num + s.own)) ∧
        ((∀ any : TxClass, headOf s.link any = false) → t.link.tx = .idle ∧ t.link.rank = none))) ∧
    (s.link.tx = .send → exec .linkIdleInstant s = .next s) ∧
    (s.link.tx = .idle → s.link.idle = true → s.link.rank = none → (∀ any : TxClass, headOf s.link any = false) →
      let ranked := fun (t : State) (x : TxClass) => t.link.tx = .defer ∧ t.link.rank = some (16 * x.num + s.own) ∧
        t.link.beginIn = 25 * (16 * x.num + s.own) - s.link.sinceIdle
      (∀ e, ranked (queueEvent e s) .c0) ∧ (∀ r, ranked (queueCall r s) .c1) ∧ (∀ r, ranked (queueIndication r s) .c2) ∧
      ∀ r, ranked (queueGap r s) .c3))

/-- At the begin time a transmitter whose link has stayed idle sends the frame of the record at the head of the lowest-numbered
class that holds one, and its start bit makes the link busy; with every queue flushed it has nothing to send (log entry 10), and
one whose link has not stayed idle returns to TX_IDLE (R137, R138). A frame sent to its end takes its record out of its queue,
and a receiver that gathered it drops it without count (R138, R142, log entry 14); the link keeps its level, less a bit the
station still drives (R134, log entry 5), and the recessive time starts there (log entry 6). One abandoned on a mismatch raises
the collision counter and leaves its record at the head, unless a run has started since it began, when the record leaves and is
counted as dropped; the link then carries the level read, the other from the bit sent (R139, R136, R133, log entry 19). Each
command has no effect in another transmitter state (log entry 11). -/
def Obligations.TransmitterSendsTheHeadRecord : Prop :=
  ∀ s : State,
    let l := s.link
    let bit := fun (fl : InFlight) =>
      (fl.chars.flatMap charLevels).getD ((125 * fl.chars.length - l.sendLeft) * 2 / 25) .recessive
    let queues := fun (m : Link) (gone : Option TxClass) =>
      m.q0 = (if gone = some .c0 then l.q0.drop 1 else l.q0) ∧ m.q1 = (if gone = some .c1 then l.q1.drop 1 else l.q1) ∧
      m.q2 = (if gone = some .c2 then l.q2.drop 1 else l.q2) ∧ m.q3 = (if gone = some .c3 then l.q3.drop 1 else l.q3)
    let drops := fun (m : Link) (counted : Option TxClass) =>
      m.drop0 = (if counted = some .c0 then min (l.drop0 + 1) 65535 else l.drop0) ∧
      m.drop1 = (if counted = some .c1 then min (l.drop1 + 1) 65535 else l.drop1) ∧
      m.drop2 = (if counted = some .c2 then min (l.drop2 + 1) 65535 else l.drop2) ∧
      m.drop3 = (if counted = some .c3 then min (l.drop3 + 1) 65535 else l.drop3)
    (l.tx = .defer → l.idle = false →
      exec .beginTime s = .next { s with link := { l with tx := .idle, beginIn := 0 } }) ∧
    (l.tx = .defer → l.idle = true → ∃ t, exec .beginTime s = .next t ∧ Keeps [.link] s t ∧
      queues t.link none ∧ drops t.link none ∧ t.link.collision = l.collision ∧
      (let sends := fun cls chars => t.link.tx = .send ∧ t.link.inFlight = some ⟨cls, chars, false⟩ ∧
          t.link.sendLeft = 125 * chars.length ∧ t.link.idle = false ∧ t.link.level = .dominant ∧
          t.link.recessiveTime = 0 ∧ t.link.rx = (if l.rx = .hunt then .frame else l.rx) ∧
          (l.rx = .hunt → t.link.gather = ⟨some 0, [], []⟩);
        (∀ r rest, l.q0 = r :: rest → sends .c0 (frameChars s.own 0x20#8 r.run (eventPayload r.item))) ∧
        (∀ r rest, l.q0 = [] → l.q1 = r :: rest → sends .c1 (frameChars s.own 0x11#8 r.run (callPayload r.item))) ∧
        (∀ r rest, l.q0 = [] → l.q1 = [] → l.q2 = r :: rest →
          sends .c2 (frameChars s.own 0x10#8 r.run (indicationPayload r.item))) ∧
        (∀ r rest, l.q0 = [] → l.q1 = [] → l.q2 = [] → l.q3 = r :: rest →
          sends .c3 (frameChars s.own 0x12#8 r.run (gapPayload r.item))) ∧
        (l.q0 = [] → l.q1 = [] → l.q2 = [] → l.q3 = [] → t.link = { l with tx := .idle, rank := none, beginIn := 0 }))) ∧
    (∀ fl, l.tx = .send → l.inFlight = some fl →
      (∃ t, exec .frameComplete s = .next t ∧ Keeps [.link] s t ∧ t.link.tx = .idle ∧ t.link.inFlight = none ∧
        queues t.link (some fl.cls) ∧ drops t.link none ∧ t.link.collision = l.collision ∧
        (bit fl = .dominant → t.link.level = .recessive) ∧ (bit fl = .recessive → t.link.level = l.level) ∧
        (l.sendLeft = 0 → bit fl = .recessive) ∧ t.link.idle = l.idle ∧ t.link.recessiveTime = 0 ∧
        t.link.rx = (if l.rx = .frame then .skip else l.rx) ∧
        t.link.gather = ⟨none, [], []⟩ ∧ t.link.receiveError = l.receiveError ∧
        t.link.rxQueue = l.rxQueue) ∧
      (∃ t, exec .readbackMismatch s = .next t ∧ Keeps [.link] s t ∧ t.link.tx = .idle ∧ t.link.inFlight = none ∧
        t.link.collision = min (l.collision + 1) 65535 ∧
        (fl.flushed = false → queues t.link none ∧ drops t.link none) ∧
        (fl.flushed = true → queues t.link (some fl.cls) ∧ drops t.link (some fl.cls)) ∧
        (bit fl = .recessive → t.link.level = .dominant ∧ t.link.idle = false ∧ t.link.recessiveTime = 0) ∧
        (bit fl = .recessive → l.level = .dominant → l.rx ≠ .hunt → t.link.rx = l.rx ∧ t.link.gather = l.gather) ∧
        (bit fl = .dominant → t.link.level = .recessive ∧ t.link.idle = l.idle ∧ t.link.recessiveTime = l.recessiveTime ∧
          t.link.rx = l.rx ∧ t.link.gather = l.gather))) ∧
    (l.tx = .send → l.inFlight = none → exec .frameComplete s = .next s ∧ exec .readbackMismatch s = .next s) ∧
    (l.tx ≠ .send → exec .frameComplete s = .next s ∧ exec .readbackMismatch s = .next s) ∧
    (l.tx ≠ .defer → exec .beginTime s = .next s)

/-- Law 10 in part: every step keeps each transmit queue within its capacity and the receive queue within sixteen frames, a
frame in flight exactly in TX_SEND with its record still queued in its class, ranks at or below 63, and the transmitter and
receiver off exactly in LOADING. -/
def Obligations.EveryStepKeepsTheLinkLaw : Prop :=
  ∀ s t : State, LinkLaw s → step s = .next t → LinkLaw t

/-! ### Reset -/

/-- The machine right after reset meets every law whose keeping is stated above. -/
def Obligations.ResetMeetsEveryLaw : Prop :=
  TravelLaw State.reset ∧ FiringLaw State.reset ∧ CoverageLaw State.reset ∧ TrackerLaw State.reset ∧
  CorrelationLaw State.reset ∧ LinkLaw State.reset
end

