-- ==== Sys2Proof/Laws/Exec.lean ====
section
/-! SUPPORT. What each command answers, once: exec's arm and its meaning opened together, so that a proof rewrites with the
command's lemma and never unfolds the dispatch. -/

namespace Sys2Proof.Machine

theorem step_cons {s : State} {c : Instr} {rest : List Instr} (h : s.pending = c :: rest) :
    step s = exec c (s.setPending rest) := by rw [step, h]

theorem step_nil {s : State} (h : s.pending = []) : step s = idleStep s := by rw [step, h]

theorem exec_powerOn (s : State) : exec .powerOn s = .next (takeReset .powerOn s) := rfl
theorem exec_supplyLow (s : State) : exec .supplyLow s = .next (takeReset .supplyLow s) := rfl
theorem exec_resetPin (s : State) : exec .resetPin s = .next (takeReset .resetPin s) := rfl

theorem exec_resetRelease (st : Straps) (s : State) :
    exec (.resetRelease st) s = .next (if s.rc.inReset then releaseReset st s else s) := rfl

theorem exec_loadEnd (im : List Byte) (s : State) :
    exec (.loadEnd im) s =
      .next (if s.rc.inReset = false ∧ s.rc.runState = .loading then loadEnded im s else s) := rfl

theorem exec_encoderSampleInstant (a b : Bool) (s : State) :
    exec (.encoderSampleInstant a b) s = .next (if s.operating then sampleInstant a b s else s) := rfl

theorem exec_zoneLineLevelChange (l : LineLevel) (s : State) :
    exec (.zoneLineLevelChange l) s = .next (lineLevelChange l s) := rfl

theorem exec_quiet (s : State) : exec .quiet s = .next (if canBecomeQuiet s then quietReached s else s) := rfl

theorem exec_codeSlotRead (slot : CodeSlot) (l : LineLevel) (s : State) :
    exec (.codeSlotRead slot l) s =
      .next (if s.zone.ctl = .claim then
        s.setZone (slotReading (decide (s.rc.runState = .running)) slot l s.zone) else s) := rfl

theorem exec_claimPeriodEnd (s : State) :
    exec .claimPeriodEnd s = .next (if s.observing && s.zone.claimPeriod.isSome then claimEnded s else s) := rfl

theorem exec_stuckTimerExpiry (s : State) :
    exec .stuckTimerExpiry s = .next (if stuckRuns s.zone then stuckReached s else s) := rfl

theorem exec_volleyCompletion (x : PortEchoes) (s : State) :
    exec (.volleyCompletion x) s =
      .next (match holding s with | none => s | some (v, e) => volleyCompleted x v e s) := rfl

theorem exec_linkIdleInstant (s : State) :
    exec .linkIdleInstant s =
      .next (if s.linkOn = true ∧ s.link.tx ≠ .send then s.setLink (idleInstant s.own s.link) else s) := rfl

theorem exec_beginTime (s : State) :
    exec .beginTime s = .next (if s.link.tx = .defer then s.setLink (beginSending s.own s.link) else s) := rfl

theorem exec_frameComplete (s : State) :
    exec .frameComplete s = .next (if s.link.tx = .send then s.setLink (frameSent s.link) else s) := rfl

theorem exec_readbackMismatch (s : State) :
    exec .readbackMismatch s = .next (if s.link.tx = .send then s.setLink (frameAbandoned s.link) else s) := rfl

theorem exec_receiveError (k : ReceptionCheck) (s : State) :
    exec (.receiveError k) s = .next (if s.link.rx = .frame then s.setLink (receptionFails s.link) else s) := rfl

theorem exec_frameReceived (x : List Byte) (s : State) :
    exec (.frameReceived x) s = .next (if s.link.rx = .frame then frameEnds x s else s) := rfl

theorem exec_serviceTimeEnd (b : Block) (s : State) :
    exec (.serviceTimeEnd b) s = .next (if (busyOf s.link b).isSome then serviceEnded b s else s) := rfl

theorem exec_runstart (r : Byte) (s : State) :
    exec (.runstart r) s = .next (match takeFrame .runController (.runstart r) runService s with
      | none => s
      | some s' => dispatchDiscards (runstartTaken r s')) := rfl

theorem exec_runstop (r : Byte) (s : State) :
    exec (.runstop r) s = .next (match takeFrame .runController (.runstop r) runService s with
      | none => s
      | some s' => dispatchDiscards (runstopTaken r s')) := rfl

theorem exec_mask (p : MaskPayload) (s : State) :
    exec (.mask p) s = .next (if p.target.toNat = s.own then
        (match takeFrame .volleySequencer (.mask p) maskService s with
         | none => s
         | some s' => dispatchDiscards (applyMask p s'))
      else s) := rfl

theorem exec_suppress (r : Byte) (p : SuppressPayload) (s : State) :
    exec (.suppress r p) s = .next (match takeFrame .correlationUnit (.suppress r p) suppressService s with
      | none => s
      | some s' => dispatchDiscards (suppressTaken r p s')) := rfl

theorem exec_indication (r : Byte) (p : IndicationPayload) (s : State) :
    exec (.indication r p) s = .next (match takeFrame .correlationUnit (.indication r p) indicationService s with
      | none => s
      | some s' => dispatchDiscards (indicationTaken r p s')) := rfl

theorem exec_drainEnd (s : State) :
    exec .drainEnd s =
      .next (if s.rc.runState = .stopping ∧ s.rc.draining = true then drainEnded s else s) := rfl

theorem exec_linkLevelChange (l : LineLevel) (s : State) :
    exec (.linkLevelChange l) s = .next (linkLevelGiven l s) := rfl

/-! ### A load's two ends -/

theorem loadEnded_refused {im : List Byte} {code : FaultCode} {e : Nat} (h : judgeImage im = .refused code e) (s : State) :
    loadEnded im s = loadRefused code e s := by
  unfold loadEnded; rw [h]

theorem loadEnded_accepted {im : List Byte} {p : Params} {w : Warnings} (h : judgeImage im = .accepted p w) (s : State) :
    loadEnded im s = loadAccepted p w s := by
  unfold loadEnded; rw [h]

end Sys2Proof.Machine
end

