-- ==== Sys2Proof/Laws/State.lean ====
section
/-! SUPPORT. One lemma per block per setter of the state: what a setter writes, and that it leaves every other block alone. -/

namespace Sys2Proof.Machine

section
variable (s : State)

@[simp] theorem State.setRc_rc (x : RunCtl) : (s.setRc x).rc = x := rfl
@[simp] theorem State.setRc_cfg (x : RunCtl) : (s.setRc x).cfg = s.cfg := rfl
@[simp] theorem State.setRc_pos (x : RunCtl) : (s.setRc x).pos = s.pos := rfl
@[simp] theorem State.setRc_seq (x : RunCtl) : (s.setRc x).seq = s.seq := rfl
@[simp] theorem State.setRc_zone (x : RunCtl) : (s.setRc x).zone = s.zone := rfl
@[simp] theorem State.setRc_acq (x : RunCtl) : (s.setRc x).acq = s.acq := rfl
@[simp] theorem State.setRc_coup (x : RunCtl) : (s.setRc x).coup = s.coup := rfl
@[simp] theorem State.setRc_cov (x : RunCtl) : (s.setRc x).cov = s.cov := rfl
@[simp] theorem State.setRc_trk (x : RunCtl) : (s.setRc x).trk = s.trk := rfl
@[simp] theorem State.setRc_corr (x : RunCtl) : (s.setRc x).corr = s.corr := rfl
@[simp] theorem State.setRc_link (x : RunCtl) : (s.setRc x).link = s.link := rfl
@[simp] theorem State.setRc_pending (x : RunCtl) : (s.setRc x).pending = s.pending := rfl

@[simp] theorem State.setCfg_rc (x : Params) : (s.setCfg x).rc = s.rc := rfl
@[simp] theorem State.setCfg_cfg (x : Params) : (s.setCfg x).cfg = x := rfl
@[simp] theorem State.setCfg_pos (x : Params) : (s.setCfg x).pos = s.pos := rfl
@[simp] theorem State.setCfg_seq (x : Params) : (s.setCfg x).seq = s.seq := rfl
@[simp] theorem State.setCfg_zone (x : Params) : (s.setCfg x).zone = s.zone := rfl
@[simp] theorem State.setCfg_acq (x : Params) : (s.setCfg x).acq = s.acq := rfl
@[simp] theorem State.setCfg_coup (x : Params) : (s.setCfg x).coup = s.coup := rfl
@[simp] theorem State.setCfg_cov (x : Params) : (s.setCfg x).cov = s.cov := rfl
@[simp] theorem State.setCfg_trk (x : Params) : (s.setCfg x).trk = s.trk := rfl
@[simp] theorem State.setCfg_corr (x : Params) : (s.setCfg x).corr = s.corr := rfl
@[simp] theorem State.setCfg_link (x : Params) : (s.setCfg x).link = s.link := rfl
@[simp] theorem State.setCfg_pending (x : Params) : (s.setCfg x).pending = s.pending := rfl

@[simp] theorem State.setPos_rc (x : Pos) : (s.setPos x).rc = s.rc := rfl
@[simp] theorem State.setPos_cfg (x : Pos) : (s.setPos x).cfg = s.cfg := rfl
@[simp] theorem State.setPos_pos (x : Pos) : (s.setPos x).pos = x := rfl
@[simp] theorem State.setPos_seq (x : Pos) : (s.setPos x).seq = s.seq := rfl
@[simp] theorem State.setPos_zone (x : Pos) : (s.setPos x).zone = s.zone := rfl
@[simp] theorem State.setPos_acq (x : Pos) : (s.setPos x).acq = s.acq := rfl
@[simp] theorem State.setPos_coup (x : Pos) : (s.setPos x).coup = s.coup := rfl
@[simp] theorem State.setPos_cov (x : Pos) : (s.setPos x).cov = s.cov := rfl
@[simp] theorem State.setPos_trk (x : Pos) : (s.setPos x).trk = s.trk := rfl
@[simp] theorem State.setPos_corr (x : Pos) : (s.setPos x).corr = s.corr := rfl
@[simp] theorem State.setPos_link (x : Pos) : (s.setPos x).link = s.link := rfl
@[simp] theorem State.setPos_pending (x : Pos) : (s.setPos x).pending = s.pending := rfl

@[simp] theorem State.setSeq_rc (x : Seq) : (s.setSeq x).rc = s.rc := rfl
@[simp] theorem State.setSeq_cfg (x : Seq) : (s.setSeq x).cfg = s.cfg := rfl
@[simp] theorem State.setSeq_pos (x : Seq) : (s.setSeq x).pos = s.pos := rfl
@[simp] theorem State.setSeq_seq (x : Seq) : (s.setSeq x).seq = x := rfl
@[simp] theorem State.setSeq_zone (x : Seq) : (s.setSeq x).zone = s.zone := rfl
@[simp] theorem State.setSeq_acq (x : Seq) : (s.setSeq x).acq = s.acq := rfl
@[simp] theorem State.setSeq_coup (x : Seq) : (s.setSeq x).coup = s.coup := rfl
@[simp] theorem State.setSeq_cov (x : Seq) : (s.setSeq x).cov = s.cov := rfl
@[simp] theorem State.setSeq_trk (x : Seq) : (s.setSeq x).trk = s.trk := rfl
@[simp] theorem State.setSeq_corr (x : Seq) : (s.setSeq x).corr = s.corr := rfl
@[simp] theorem State.setSeq_link (x : Seq) : (s.setSeq x).link = s.link := rfl
@[simp] theorem State.setSeq_pending (x : Seq) : (s.setSeq x).pending = s.pending := rfl

@[simp] theorem State.setZone_rc (x : Zone) : (s.setZone x).rc = s.rc := rfl
@[simp] theorem State.setZone_cfg (x : Zone) : (s.setZone x).cfg = s.cfg := rfl
@[simp] theorem State.setZone_pos (x : Zone) : (s.setZone x).pos = s.pos := rfl
@[simp] theorem State.setZone_seq (x : Zone) : (s.setZone x).seq = s.seq := rfl
@[simp] theorem State.setZone_zone (x : Zone) : (s.setZone x).zone = x := rfl
@[simp] theorem State.setZone_acq (x : Zone) : (s.setZone x).acq = s.acq := rfl
@[simp] theorem State.setZone_coup (x : Zone) : (s.setZone x).coup = s.coup := rfl
@[simp] theorem State.setZone_cov (x : Zone) : (s.setZone x).cov = s.cov := rfl
@[simp] theorem State.setZone_trk (x : Zone) : (s.setZone x).trk = s.trk := rfl
@[simp] theorem State.setZone_corr (x : Zone) : (s.setZone x).corr = s.corr := rfl
@[simp] theorem State.setZone_link (x : Zone) : (s.setZone x).link = s.link := rfl
@[simp] theorem State.setZone_pending (x : Zone) : (s.setZone x).pending = s.pending := rfl

@[simp] theorem State.setAcq_rc (x : List EvalRecord) : (s.setAcq x).rc = s.rc := rfl
@[simp] theorem State.setAcq_cfg (x : List EvalRecord) : (s.setAcq x).cfg = s.cfg := rfl
@[simp] theorem State.setAcq_pos (x : List EvalRecord) : (s.setAcq x).pos = s.pos := rfl
@[simp] theorem State.setAcq_seq (x : List EvalRecord) : (s.setAcq x).seq = s.seq := rfl
@[simp] theorem State.setAcq_zone (x : List EvalRecord) : (s.setAcq x).zone = s.zone := rfl
@[simp] theorem State.setAcq_acq (x : List EvalRecord) : (s.setAcq x).acq = x := rfl
@[simp] theorem State.setAcq_coup (x : List EvalRecord) : (s.setAcq x).coup = s.coup := rfl
@[simp] theorem State.setAcq_cov (x : List EvalRecord) : (s.setAcq x).cov = s.cov := rfl
@[simp] theorem State.setAcq_trk (x : List EvalRecord) : (s.setAcq x).trk = s.trk := rfl
@[simp] theorem State.setAcq_corr (x : List EvalRecord) : (s.setAcq x).corr = s.corr := rfl
@[simp] theorem State.setAcq_link (x : List EvalRecord) : (s.setAcq x).link = s.link := rfl
@[simp] theorem State.setAcq_pending (x : List EvalRecord) : (s.setAcq x).pending = s.pending := rfl

@[simp] theorem State.setCoup_rc (x : PerChan Coupling) : (s.setCoup x).rc = s.rc := rfl
@[simp] theorem State.setCoup_cfg (x : PerChan Coupling) : (s.setCoup x).cfg = s.cfg := rfl
@[simp] theorem State.setCoup_pos (x : PerChan Coupling) : (s.setCoup x).pos = s.pos := rfl
@[simp] theorem State.setCoup_seq (x : PerChan Coupling) : (s.setCoup x).seq = s.seq := rfl
@[simp] theorem State.setCoup_zone (x : PerChan Coupling) : (s.setCoup x).zone = s.zone := rfl
@[simp] theorem State.setCoup_acq (x : PerChan Coupling) : (s.setCoup x).acq = s.acq := rfl
@[simp] theorem State.setCoup_coup (x : PerChan Coupling) : (s.setCoup x).coup = x := rfl
@[simp] theorem State.setCoup_cov (x : PerChan Coupling) : (s.setCoup x).cov = s.cov := rfl
@[simp] theorem State.setCoup_trk (x : PerChan Coupling) : (s.setCoup x).trk = s.trk := rfl
@[simp] theorem State.setCoup_corr (x : PerChan Coupling) : (s.setCoup x).corr = s.corr := rfl
@[simp] theorem State.setCoup_link (x : PerChan Coupling) : (s.setCoup x).link = s.link := rfl
@[simp] theorem State.setCoup_pending (x : PerChan Coupling) : (s.setCoup x).pending = s.pending := rfl

@[simp] theorem State.setCov_rc (x : Coverage) : (s.setCov x).rc = s.rc := rfl
@[simp] theorem State.setCov_cfg (x : Coverage) : (s.setCov x).cfg = s.cfg := rfl
@[simp] theorem State.setCov_pos (x : Coverage) : (s.setCov x).pos = s.pos := rfl
@[simp] theorem State.setCov_seq (x : Coverage) : (s.setCov x).seq = s.seq := rfl
@[simp] theorem State.setCov_zone (x : Coverage) : (s.setCov x).zone = s.zone := rfl
@[simp] theorem State.setCov_acq (x : Coverage) : (s.setCov x).acq = s.acq := rfl
@[simp] theorem State.setCov_coup (x : Coverage) : (s.setCov x).coup = s.coup := rfl
@[simp] theorem State.setCov_cov (x : Coverage) : (s.setCov x).cov = x := rfl
@[simp] theorem State.setCov_trk (x : Coverage) : (s.setCov x).trk = s.trk := rfl
@[simp] theorem State.setCov_corr (x : Coverage) : (s.setCov x).corr = s.corr := rfl
@[simp] theorem State.setCov_link (x : Coverage) : (s.setCov x).link = s.link := rfl
@[simp] theorem State.setCov_pending (x : Coverage) : (s.setCov x).pending = s.pending := rfl

@[simp] theorem State.setTrk_rc (x : Tracker) : (s.setTrk x).rc = s.rc := rfl
@[simp] theorem State.setTrk_cfg (x : Tracker) : (s.setTrk x).cfg = s.cfg := rfl
@[simp] theorem State.setTrk_pos (x : Tracker) : (s.setTrk x).pos = s.pos := rfl
@[simp] theorem State.setTrk_seq (x : Tracker) : (s.setTrk x).seq = s.seq := rfl
@[simp] theorem State.setTrk_zone (x : Tracker) : (s.setTrk x).zone = s.zone := rfl
@[simp] theorem State.setTrk_acq (x : Tracker) : (s.setTrk x).acq = s.acq := rfl
@[simp] theorem State.setTrk_coup (x : Tracker) : (s.setTrk x).coup = s.coup := rfl
@[simp] theorem State.setTrk_cov (x : Tracker) : (s.setTrk x).cov = s.cov := rfl
@[simp] theorem State.setTrk_trk (x : Tracker) : (s.setTrk x).trk = x := rfl
@[simp] theorem State.setTrk_corr (x : Tracker) : (s.setTrk x).corr = s.corr := rfl
@[simp] theorem State.setTrk_link (x : Tracker) : (s.setTrk x).link = s.link := rfl
@[simp] theorem State.setTrk_pending (x : Tracker) : (s.setTrk x).pending = s.pending := rfl

@[simp] theorem State.setCorr_rc (x : Correlation) : (s.setCorr x).rc = s.rc := rfl
@[simp] theorem State.setCorr_cfg (x : Correlation) : (s.setCorr x).cfg = s.cfg := rfl
@[simp] theorem State.setCorr_pos (x : Correlation) : (s.setCorr x).pos = s.pos := rfl
@[simp] theorem State.setCorr_seq (x : Correlation) : (s.setCorr x).seq = s.seq := rfl
@[simp] theorem State.setCorr_zone (x : Correlation) : (s.setCorr x).zone = s.zone := rfl
@[simp] theorem State.setCorr_acq (x : Correlation) : (s.setCorr x).acq = s.acq := rfl
@[simp] theorem State.setCorr_coup (x : Correlation) : (s.setCorr x).coup = s.coup := rfl
@[simp] theorem State.setCorr_cov (x : Correlation) : (s.setCorr x).cov = s.cov := rfl
@[simp] theorem State.setCorr_trk (x : Correlation) : (s.setCorr x).trk = s.trk := rfl
@[simp] theorem State.setCorr_corr (x : Correlation) : (s.setCorr x).corr = x := rfl
@[simp] theorem State.setCorr_link (x : Correlation) : (s.setCorr x).link = s.link := rfl
@[simp] theorem State.setCorr_pending (x : Correlation) : (s.setCorr x).pending = s.pending := rfl

@[simp] theorem State.setLink_rc (x : Link) : (s.setLink x).rc = s.rc := rfl
@[simp] theorem State.setLink_cfg (x : Link) : (s.setLink x).cfg = s.cfg := rfl
@[simp] theorem State.setLink_pos (x : Link) : (s.setLink x).pos = s.pos := rfl
@[simp] theorem State.setLink_seq (x : Link) : (s.setLink x).seq = s.seq := rfl
@[simp] theorem State.setLink_zone (x : Link) : (s.setLink x).zone = s.zone := rfl
@[simp] theorem State.setLink_acq (x : Link) : (s.setLink x).acq = s.acq := rfl
@[simp] theorem State.setLink_coup (x : Link) : (s.setLink x).coup = s.coup := rfl
@[simp] theorem State.setLink_cov (x : Link) : (s.setLink x).cov = s.cov := rfl
@[simp] theorem State.setLink_trk (x : Link) : (s.setLink x).trk = s.trk := rfl
@[simp] theorem State.setLink_corr (x : Link) : (s.setLink x).corr = s.corr := rfl
@[simp] theorem State.setLink_link (x : Link) : (s.setLink x).link = x := rfl
@[simp] theorem State.setLink_pending (x : Link) : (s.setLink x).pending = s.pending := rfl

@[simp] theorem State.setPending_rc (x : List Instr) : (s.setPending x).rc = s.rc := rfl
@[simp] theorem State.setPending_cfg (x : List Instr) : (s.setPending x).cfg = s.cfg := rfl
@[simp] theorem State.setPending_pos (x : List Instr) : (s.setPending x).pos = s.pos := rfl
@[simp] theorem State.setPending_seq (x : List Instr) : (s.setPending x).seq = s.seq := rfl
@[simp] theorem State.setPending_zone (x : List Instr) : (s.setPending x).zone = s.zone := rfl
@[simp] theorem State.setPending_acq (x : List Instr) : (s.setPending x).acq = s.acq := rfl
@[simp] theorem State.setPending_coup (x : List Instr) : (s.setPending x).coup = s.coup := rfl
@[simp] theorem State.setPending_cov (x : List Instr) : (s.setPending x).cov = s.cov := rfl
@[simp] theorem State.setPending_trk (x : List Instr) : (s.setPending x).trk = s.trk := rfl
@[simp] theorem State.setPending_corr (x : List Instr) : (s.setPending x).corr = s.corr := rfl
@[simp] theorem State.setPending_link (x : List Instr) : (s.setPending x).link = s.link := rfl
@[simp] theorem State.setPending_pending (x : List Instr) : (s.setPending x).pending = x := rfl

end

end Sys2Proof.Machine
end

