-- ==== Sys2Proof/Laws/Frames.lean ====
section
/-! SUPPORT. Frames: for each shared operation, the blocks of the state it can touch. `Keeps touched s t` says that t has
every block of s outside the list; the operations' lemmas are cited where an operation would otherwise be unfolded. -/

namespace Sys2Proof.Machine

theorem Keeps.refl (l : List Part) (s : State) : Keeps l s s := by
  constructor <;> intro _ <;> rfl

theorem Keeps.trans {l : List Part} {s t u : State} (h : Keeps l s t) (k : Keeps l t u) : Keeps l s u where
  rc n := (k.rc n).trans (h.rc n)
  cfg n := (k.cfg n).trans (h.cfg n)
  pos n := (k.pos n).trans (h.pos n)
  seq n := (k.seq n).trans (h.seq n)
  zone n := (k.zone n).trans (h.zone n)
  acq n := (k.acq n).trans (h.acq n)
  coup n := (k.coup n).trans (h.coup n)
  cov n := (k.cov n).trans (h.cov n)
  trk n := (k.trk n).trans (h.trk n)
  corr n := (k.corr n).trans (h.corr n)
  link n := (k.link n).trans (h.link n)
  pending n := (k.pending n).trans (h.pending n)

/-- A longer list of touched blocks says less. -/
theorem Keeps.mono {l m : List Part} {s t : State} (h : Keeps l s t) (sub : ∀ b ∈ l, b ∈ m) : Keeps m s t where
  rc n := h.rc (fun x => n (sub _ x))
  cfg n := h.cfg (fun x => n (sub _ x))
  pos n := h.pos (fun x => n (sub _ x))
  seq n := h.seq (fun x => n (sub _ x))
  zone n := h.zone (fun x => n (sub _ x))
  acq n := h.acq (fun x => n (sub _ x))
  coup n := h.coup (fun x => n (sub _ x))
  cov n := h.cov (fun x => n (sub _ x))
  trk n := h.trk (fun x => n (sub _ x))
  corr n := h.corr (fun x => n (sub _ x))
  link n := h.link (fun x => n (sub _ x))
  pending n := h.pending (fun x => n (sub _ x))

/-- A fold of an operation touches what the operation touches. -/
theorem Keeps.foldl {α : Type} {l : List Part} {f : State → α → State} (h : ∀ s a, Keeps l s (f s a)) (xs : List α)
    (s : State) : Keeps l s (xs.foldl f s) := by
  induction xs generalizing s with
  | nil => exact Keeps.refl l s
  | cons x xs ih => exact (h s x).trans (ih (f s x))

/-! ### One lemma per setter -/

theorem keeps_setRc (s : State) (x : RunCtl) : Keeps [.rc] s (s.setRc x) := by constructor <;> simp
theorem keeps_setCfg (s : State) (x : Params) : Keeps [.cfg] s (s.setCfg x) := by constructor <;> simp
theorem keeps_setPos (s : State) (x : Pos) : Keeps [.pos] s (s.setPos x) := by constructor <;> simp
theorem keeps_setSeq (s : State) (x : Seq) : Keeps [.seq] s (s.setSeq x) := by constructor <;> simp
theorem keeps_setZone (s : State) (x : Zone) : Keeps [.zone] s (s.setZone x) := by constructor <;> simp
theorem keeps_setAcq (s : State) (x : List EvalRecord) : Keeps [.acq] s (s.setAcq x) := by constructor <;> simp
theorem keeps_setCoup (s : State) (x : PerChan Coupling) : Keeps [.coup] s (s.setCoup x) := by constructor <;> simp
theorem keeps_setCov (s : State) (x : Coverage) : Keeps [.cov] s (s.setCov x) := by constructor <;> simp
theorem keeps_setTrk (s : State) (x : Tracker) : Keeps [.trk] s (s.setTrk x) := by constructor <;> simp
theorem keeps_setCorr (s : State) (x : Correlation) : Keeps [.corr] s (s.setCorr x) := by constructor <;> simp
theorem keeps_setLink (s : State) (x : Link) : Keeps [.link] s (s.setLink x) := by constructor <;> simp

/-! ### Shared operations -/

theorem queueEvent_keeps (e : StationEvent) (s : State) : Keeps [.link] s (queueEvent e s) := keeps_setLink _ _
theorem queueCall_keeps (r : Call) (s : State) : Keeps [.link] s (queueCall r s) := keeps_setLink _ _
theorem queueIndication_keeps (r : Indication) (s : State) : Keeps [.link] s (queueIndication r s) := keeps_setLink _ _
theorem queueGap_keeps (r : GapRecord) (s : State) : Keeps [.link] s (queueGap r s) := keeps_setLink _ _

theorem reportConflict_keeps (r : Reporter) (s : State) : Keeps [.rc, .link] s (reportConflict r s) := by
  unfold reportConflict
  split
  · exact Keeps.refl _ _
  · exact ((queueEvent_keeps _ s).mono (by decide)).trans ((keeps_setRc _ _).mono (by decide))

theorem dispatchDiscards_keeps (s : State) : Keeps [.link] s (dispatchDiscards s) := keeps_setLink _ _

/-- A frame is taken, or not, at the cost of the link alone; it is taken only while the station operates. -/
theorem takeFrame_some {b : Block} {c : Instr} {n : Nat} {s t : State} (h : takeFrame b c n s = some t) :
    s.operating = true ∧ busyOf s.link b = none ∧ Keeps [.link] s t := by
  unfold takeFrame at h
  split at h
  · rename_i ok
    refine ⟨ok.1, ok.2, ?_⟩
    split at h
    · injection h with h; subst h; exact keeps_setLink _ _
    · split at h
      · injection h with h; subst h; exact keeps_setLink _ _
      · cases h
  · cases h

/-- A frame offered to its block is taken: it leaves the queue and the block is busy (R144). -/
theorem takeFrame_offered {b : Block} {c : Instr} {s : State} (n : Nat) (h : Offered b c s) : takeFrame b c n s =
    some (s.setLink (setBusy { s.link with rxQueue := s.link.rxQueue.drop 1 } b (some n))) := by
  unfold takeFrame
  rw [if_pos ⟨h.operating, h.free⟩]
  rcases h.head with e | ⟨f, fs, e, d⟩
  · have : { s.link with rxQueue := s.link.rxQueue.drop 1 } = s.link := by
      have : s.link.rxQueue.drop 1 = s.link.rxQueue := by rw [e]; rfl
      rw [this]
    rw [this, e]
  · rw [e]; simp only [d, if_true]; rfl

/-- A frame not offered to its block is not taken (R144). -/
theorem takeFrame_refused {b : Block} {c : Instr} {s : State} (n : Nat) (h : ¬Offered b c s) : takeFrame b c n s = none := by
  unfold takeFrame
  split
  · rename_i g
    split
    · rename_i e; exact absurd ⟨g.1, g.2, .inl e⟩ h
    · rename_i f fs e
      rw [if_neg]
      intro d; exact h ⟨g.1, g.2, .inr ⟨f, fs, e, d⟩⟩
  · rfl

/-! ### Correlation Unit -/

theorem buildCall_keeps (n : Nat) (a : Indication) (b : Option Indication) (u e : Bool) (s : State) :
    Keeps [.corr, .link] s (buildCall n a b u e s) := by
  unfold buildCall
  dsimp only
  split
  · exact ((keeps_setCorr _ _).trans (keeps_setCorr _ _)).mono (by decide)
  · exact ((keeps_setCorr _ _).mono (by decide)).trans ((queueCall_keeps _ _).mono (by decide))

theorem leaveEffect_keeps (early : Bool) (s : State) (e : Entry) : Keeps [.corr, .link] s (leaveEffect early s e) := by
  unfold leaveEffect
  split
  · split
    · exact buildCall_keeps _ _ _ _ _ _
    · exact (keeps_setCorr _ _).mono (by decide)
  · exact Keeps.refl _ _

theorem frontierIncrease_keeps (front : Int) (s : State) : Keeps [.corr, .link] s (frontierIncrease front s) :=
  (((keeps_setCorr _ _).mono (by decide)).trans (Keeps.foldl (leaveEffect_keeps false) _ _)).trans
    ((keeps_setCorr _ _).mono (by decide))

theorem forceOut_keeps (s : State) : Keeps [.corr, .link] s (forceOut s) := by
  unfold forceOut
  split
  · exact Keeps.refl _ _
  · exact ((keeps_setCorr _ _).mono (by decide)).trans (leaveEffect_keeps _ _ _)

theorem insertPaired_keeps (n : Indication) (s : State) : Keeps [.corr, .link] s (insertPaired n s) := by
  unfold insertPaired
  dsimp only
  split
  · exact (keeps_setCorr _ _).mono (by decide)
  · split
    · exact ((keeps_setCorr _ _).mono (by decide)).trans (buildCall_keeps _ _ _ _ _ _)
    · exact (keeps_setCorr _ _).mono (by decide)

theorem insertRecord_keeps (n : Indication) (s : State) : Keeps [.corr, .link] s (insertRecord n s) := by
  unfold insertRecord
  split
  · exact (forceOut_keeps s).trans (insertPaired_keeps n _)
  · exact insertPaired_keeps n s

theorem correlationDrainEnd_keeps (s : State) : Keeps [.corr, .link] s (correlationDrainEnd s) :=
  (((keeps_setCorr _ _).mono (by decide)).trans (Keeps.foldl (leaveEffect_keeps false) _ _)).trans
    ((keeps_setCorr _ _).mono (by decide))

theorem peerRecord_keeps (b : Byte) (r : Indication) (s : State) : Keeps [.rc, .corr, .link] s (peerRecord b r s) := by
  unfold peerRecord
  split
  · exact (reportConflict_keeps _ s).mono (by decide)
  · split
    · exact Keeps.refl _ _
    · have h : Keeps [.rc, .corr, .link] s (peerCheck r.origin r.seq s).2 := (keeps_setCorr _ _).mono (by decide)
      dsimp only
      split
      · exact h
      · split
        · exact h
        · exact h.trans ((insertRecord_keeps _ _).mono (by decide))

theorem indicationTaken_keeps (run : Byte) (p : IndicationPayload) (s : State) :
    Keeps [.rc, .corr, .link] s (indicationTaken run p s) := by
  unfold indicationTaken
  split
  · exact Keeps.refl _ _
  · split
    · exact Keeps.refl _ _
    · split
      · exact (keeps_setCorr _ _).mono (by decide)
      · exact peerRecord_keeps _ _ _

theorem suppressTaken_keeps (run : Byte) (p : SuppressPayload) (s : State) : Keeps [.corr] s (suppressTaken run p s) := by
  unfold suppressTaken
  dsimp only
  repeat' split
  all_goals first | exact Keeps.refl _ _ | exact keeps_setCorr _ _

/-! ### Indication Tracker -/

theorem evaluateClosed_keeps (c : Chan) (s : State) (x : Slot × CloseMark) :
    Keeps [.trk, .corr, .link] s (evaluateClosed c s x) := by
  unfold evaluateClosed
  dsimp only
  split
  · exact (((keeps_setTrk _ _).mono (by decide)).trans ((insertRecord_keeps _ _).mono (by decide))).trans
      ((queueIndication_keeps _ _).mono (by decide))
  · exact (keeps_setTrk _ _).mono (by decide)

theorem settleSlots_keeps (c : Chan) (sl : ChanSlots) (xs : List (Slot × CloseMark)) (s : State) :
    Keeps [.trk, .corr, .link] s (settleSlots c sl xs s) :=
  ((keeps_setTrk _ _).mono (by decide)).trans (Keeps.foldl (evaluateClosed_keeps c) _ _)

theorem hitRecord_keeps (h : HitRecord) (s : State) : Keeps [.trk, .corr, .link] s (hitRecord h s) :=
  ((keeps_setTrk _ _).mono (by decide)).trans (settleSlots_keeps _ _ _ _)

theorem firingNoHit_keeps (c : Chan) (s : State) : Keeps [.trk, .corr, .link] s (firingNoHit c s) :=
  settleSlots_keeps _ _ _ _

theorem coverageMark_keeps (c : Chan) (s : State) : Keeps [.trk] s (coverageMark c s) := keeps_setTrk _ _

theorem closureRequest_keeps (c : Chan) (s : State) : Keeps [.trk, .corr, .link] s (closureRequest c s) :=
  settleSlots_keeps _ _ _ _

theorem closureRequests_keeps (cs : List Chan) (s : State) : Keeps [.trk, .corr, .link] s (closureRequests cs s) :=
  Keeps.foldl (fun t c => closureRequest_keeps c t) _ _

theorem closeAllSlots_keeps (s : State) : Keeps [.trk, .corr, .link] s (closeAllSlots s) := closureRequests_keeps _ _

/-! ### Coverage Tracker -/

theorem setCoverage_keeps (c : Chan) (v : ChanCoverage) (s : State) : Keeps [.cov] s (setCoverage c v s) :=
  keeps_setCov _ _

theorem closeGap_keeps (c : Chan) (g : OpenGap) (how : Closure) (s : State) :
    Keeps [.cov, .link] s (closeGap c g how s) :=
  ((keeps_setCov _ _).mono (by decide)).trans ((queueGap_keeps _ _).mono (by decide))

theorem openGap_keeps (c : Chan) (r : Reason) (x : Int) (s : State) : Keeps [.cov, .link] s (openGap c r x s) :=
  (setCoverage_keeps _ _ _).mono (by decide)

theorem extendGap_keeps (c : Chan) (g : OpenGap) (x : Int) (s : State) : Keeps [.cov, .link] s (extendGap c g x s) := by
  unfold extendGap
  dsimp only
  split
  · exact ((setCoverage_keeps _ _ _).mono (by decide)).trans (closeGap_keeps _ _ _ _)
  · exact (setCoverage_keeps _ _ _).mono (by decide)

theorem takeOutcome_keeps (c : Chan) (o : ChanOutcome) (basis : Int) (s : State) :
    Keeps [.cov, .link] s (takeOutcome c o basis s) := by
  unfold takeOutcome
  dsimp only
  split
  · exact (setCoverage_keeps _ _ _).mono (by decide)
  · exact ((setCoverage_keeps _ _ _).mono (by decide)).trans (closeGap_keeps _ _ _ _)
  · exact openGap_keeps _ _ _ _
  · split
    · exact extendGap_keeps _ _ _ _
    · exact (closeGap_keeps _ _ _ _).trans (openGap_keeps _ _ _ _)

theorem channelOutcome_keeps (c : Chan) (o : ChanOutcome) (basis : Int) (s : State) :
    Keeps [.cov, .trk, .link] s (channelOutcome c o basis s) := by
  unfold channelOutcome
  split
  · exact ((takeOutcome_keeps _ _ _ _).mono (by decide)).trans ((coverageMark_keeps _ _).mono (by decide))
  · exact (takeOutcome_keeps _ _ _ _).mono (by decide)

theorem stopGap_keeps (s : State) (c : Chan) : Keeps [.cov, .link] s (stopGap s c) := by
  unfold stopGap
  split
  · exact Keeps.refl _ _
  · exact closeGap_keeps _ _ _ _

theorem closeAllGaps_keeps (s : State) : Keeps [.cov, .link] s (closeAllGaps s) := Keeps.foldl stopGap_keeps _ _

/-! ### Coupling Monitor and Gate Evaluator -/

theorem mResult_keeps (c : Chan) (b : Bool) (s : State) : Keeps [.coup, .trk, .corr, .link] s (mResult c b s) := by
  unfold mResult
  dsimp only
  split
  · exact ((keeps_setCoup _ _).mono (by decide)).trans ((closureRequests_keeps _ _).mono (by decide))
  · exact (keeps_setCoup _ _).mono (by decide)

theorem handM_keeps (s : State) (r : EvalRecord) : Keeps [.coup, .trk, .corr, .link] s (handM s r) := by
  unfold handM
  split
  · exact mResult_keeps _ _ _
  · exact Keeps.refl _ _

theorem judgeHit_keeps (pv : Int) (s : State) (r : EvalRecord) : Keeps [.trk, .corr, .link] s (judgeHit pv s r) := by
  unfold judgeHit
  split
  · exact Keeps.refl _ _
  · exact hitRecord_keeps _ _
  · exact hitRecord_keeps _ _
  · exact firingNoHit_keeps _ _
  · exact firingNoHit_keeps _ _

theorem handF_keeps (pv : Int) (s : State) (r : EvalRecord) : Keeps [.trk, .corr, .link] s (handF pv s r) := by
  unfold handF
  dsimp only
  split
  · exact (judgeHit_keeps _ _ _).trans (closureRequest_keeps _ _)
  · exact judgeHit_keeps _ _ _

theorem handOutcome_keeps (v : Volley) (s : State) (c : Chan) : Keeps [.cov, .trk, .link] s (handOutcome v s c) :=
  channelOutcome_keeps _ _ _ _

theorem completeVolley_keeps (v : Volley) (e : PlanEntry) (x : PortEchoes) (s : State) :
    Keeps [.coup, .cov, .trk, .corr, .link] s (completeVolley v e x s) :=
  ((Keeps.foldl (fun s r => (handM_keeps s r).mono (by decide)) _ _).trans
    (Keeps.foldl (fun s r => (handF_keeps v.pv s r).mono (by decide)) _ _)).trans
    (Keeps.foldl (fun s c => (handOutcome_keeps v s c).mono (by decide)) _ _)

/-! ### Volley Sequencer -/

theorem handUnfired_keeps (r : Reason) (basis : Int) (s : State) (e : PlanEntry) :
    Keeps [.cov, .trk, .link] s (handUnfired r basis s e) :=
  Keeps.foldl (fun _ _ => channelOutcome_keeps _ _ _ _) _ _

theorem giveUp_keeps (r : Reason) (i : Nat) (basis : Int) (es : List PlanEntry) (s : State) :
    Keeps [.cov, .trk, .link] s (giveUp r i basis es s) :=
  Keeps.foldl (handUnfired_keeps r basis) _ _

theorem fireVolley_keeps (i : Nat) (e : PlanEntry) (s : State) : Keeps [.seq, .acq] s (fireVolley i e s) :=
  ((keeps_setSeq _ _).mono (by decide)).trans ((keeps_setAcq _ _).mono (by decide))

theorem makeRequest_keeps (i : Nat) (e : PlanEntry) (s : State) : Keeps [.seq, .zone, .acq] s (makeRequest i e s) := by
  unfold makeRequest
  dsimp only
  split
  · exact ((keeps_setSeq _ _).mono (by decide)).trans ((keeps_setZone _ _).mono (by decide))
  · exact ((keeps_setSeq _ _).mono (by decide)).trans ((fireVolley_keeps _ _ _).mono (by decide))

theorem walk_keeps (c : StepRef) (i : Nat) (es : List PlanEntry) (s : State) :
    Keeps [.cov, .trk, .link] s (walk c i es s).1 := by
  induction es generalizing i s with
  | nil => exact Keeps.refl _ _
  | cons e es ih =>
    unfold walk
    split
    · split
      · exact (handUnfired_keeps _ _ _ _).trans (ih _ _)
      · exact Keeps.refl _ _
    · exact ih _ _

theorem finishCycle_keeps (s : State) : Keeps [.seq] s (finishCycle s) := keeps_setSeq _ _

theorem walkOn_keeps (c : StepRef) (i : Nat) (s : State) :
    Keeps [.seq, .zone, .acq, .cov, .trk, .link] s (walkOn c i s) := by
  unfold walkOn
  dsimp only
  have h := (walk_keeps c i (s.cfg.plan.drop i) s).mono (m := [.seq, .zone, .acq, .cov, .trk, .link]) (by decide)
  split
  · exact h.trans ((finishCycle_keeps _).mono (by decide))
  · exact h.trans ((makeRequest_keeps _ _ _).mono (by decide))

theorem startCycle_keeps (c : StepRef) (s : State) :
    Keeps [.seq, .zone, .acq, .cov, .trk, .link] s (startCycle c s) :=
  ((keeps_setSeq _ _).mono (by decide)).trans (walkOn_keeps _ _ _)

theorem takeOver_keeps (c : StepRef) (s : State) : Keeps [.seq, .zone, .acq, .cov, .trk, .link] s (takeOver c s) := by
  unfold takeOver
  dsimp only
  have h := ((keeps_setSeq s { s.seq with cycle := some c }).mono
    (m := [.seq, .zone, .acq, .cov, .trk, .link]) (by decide)).trans
    ((walk_keeps c 0 s.cfg.plan _).mono (by decide))
  split
  · exact (h.trans ((keeps_setZone _ _).mono (by decide))).trans ((finishCycle_keeps _).mono (by decide))
  · exact h.trans ((keeps_setSeq _ _).mono (by decide))

theorem skippedSteps_keeps (k : List StepRef) (s : State) : Keeps [.cov, .trk, .link] s (skippedSteps k s) :=
  Keeps.foldl (fun _ _ => giveUp_keeps _ _ _ _ _) _ _

theorem giveUpInHold_keeps (s : State) : Keeps [.cov, .trk, .link] s (giveUpInHold s) := by
  unfold giveUpInHold
  repeat' split
  all_goals first | exact giveUp_keeps _ _ _ _ _ | exact Keeps.refl _ _

theorem giveUpInPending_keeps (s : State) : Keeps [.cov, .trk, .link] s (giveUpInPending s) := by
  unfold giveUpInPending
  split
  · exact giveUp_keeps _ _ _ _ _
  · exact Keeps.refl _ _

theorem takeStep_keeps (k : StepRef) (ks : List StepRef) (s : State) :
    Keeps [.seq, .zone, .acq, .cov, .trk, .link] s (takeStep k ks s) := by
  unfold takeStep
  dsimp only
  split
  · exact Keeps.refl _ _
  · exact ((skippedSteps_keeps _ _).mono (by decide)).trans (startCycle_keeps _ _)
  · exact (((giveUpInPending_keeps _).mono (by decide)).trans ((skippedSteps_keeps _ _).mono (by decide))).trans
      (takeOver_keeps _ _)
  · exact (((giveUpInHold_keeps _).mono (by decide)).trans ((skippedSteps_keeps _ _).mono (by decide))).trans
      ((keeps_setSeq _ _).mono (by decide))

theorem takeGrant_keeps (s : State) : Keeps [.seq, .zone, .acq, .cov, .trk, .link] s (takeGrant s) := by
  unfold takeGrant
  dsimp only
  repeat' split
  · exact (((handUnfired_keeps _ _ _ _).mono (by decide)).trans ((keeps_setZone _ _).mono (by decide))).trans
      (walkOn_keeps _ _ _)
  · exact ((fireVolley_keeps _ _ _).mono (by decide)).trans ((keeps_setZone _ _).mono (by decide))
  all_goals exact (keeps_setZone _ _).mono (by decide)

theorem claimEnded_keeps (s : State) : Keeps [.seq, .zone, .acq, .cov, .trk, .link] s (claimEnded s) := by
  unfold claimEnded
  dsimp only
  repeat' split
  · exact (((keeps_setZone _ _).trans (keeps_setZone _ _)).trans (keeps_setZone _ _)).mono (by decide)
  · exact (((keeps_setZone _ _).trans (keeps_setZone _ _)).mono (by decide)).trans (takeGrant_keeps _)
  · exact (keeps_setZone _ _).mono (by decide)

theorem applyMask_keeps (p : MaskPayload) (s : State) : Keeps [.seq, .trk, .corr, .link] s (applyMask p s) :=
  ((keeps_setSeq _ _).mono (by decide)).trans ((closureRequests_keeps _ _).mono (by decide))

/-! ### Position Unit -/

theorem countDiscarded_keeps (u : Bool) (s : State) : Keeps [.pos, .link] s (countDiscarded u s) := by
  unfold countDiscarded
  split
  · exact Keeps.refl _ _
  · exact ((keeps_setPos _ _).mono (by decide)).trans ((queueEvent_keeps _ _).mono (by decide))

theorem raiseFrontier_keeps (s : State) : Keeps [.pos, .corr, .link] s (raiseFrontier s) := by
  unfold raiseFrontier
  split
  · exact ((keeps_setPos _ _).mono (by decide)).trans ((frontierIncrease_keeps _ _).mono (by decide))
  · exact Keeps.refl _ _

theorem issueStep_keeps (s : State) : Keeps [.pos, .seq, .zone, .acq, .cov, .trk, .link] s (issueStep s) := by
  unfold issueStep
  split
  · exact ((keeps_setPos _ _).mono (by decide)).trans ((takeStep_keeps _ _ _).mono (by decide))
  · exact Keeps.refl _ _

theorem applyDecoded_keeps (d : Decoded) (s : State) :
    Keeps [.pos, .seq, .zone, .acq, .cov, .trk, .corr, .link] s (applyDecoded d s) := by
  unfold applyDecoded
  split
  · split
    · exact Keeps.refl _ _
    · unfold forwardCount
      dsimp only
      split
      · exact (countDiscarded_keeps _ _).mono (by decide)
      · exact (((keeps_setPos _ _).mono (by decide)).trans ((raiseFrontier_keeps _).mono (by decide))).trans
          ((issueStep_keeps _).mono (by decide))
    · unfold reverseCount
      dsimp only
      split
      · exact (countDiscarded_keeps _ _).mono (by decide)
      · exact (keeps_setPos _ _).mono (by decide)
    · exact (keeps_setPos _ _).mono (by decide)
  · exact Keeps.refl _ _

theorem sampleInstant_keeps (a b : Bool) (s : State) :
    Keeps [.pos, .seq, .zone, .acq, .cov, .trk, .corr, .link] s (sampleInstant a b s) := by
  unfold sampleInstant
  dsimp only
  split
  · exact (keeps_setPos _ _).mono (by decide)
  · exact ((keeps_setPos _ _).mono (by decide)).trans (applyDecoded_keeps _ _)

/-! ### Zone line and Run Controller -/

theorem quietReached_keeps (s : State) : Keeps [.zone, .link] s (quietReached s) := by
  have h : ∀ s : State, Keeps [.zone, .link] s (clearStuck s) := by
    intro s
    unfold clearStuck
    split
    · exact ((keeps_setZone _ _).mono (by decide)).trans ((queueEvent_keeps _ _).mono (by decide))
    · exact Keeps.refl _ _
  unfold quietReached
  dsimp only
  have k := ((keeps_setZone s { s.zone with
    quiet := true, line := .recessive, recessiveTime := quietTicks, stuckTimer := 0 }).mono
    (m := [.zone, .link]) (by decide)).trans (h _)
  split
  · exact k.trans ((keeps_setZone _ _).mono (by decide))
  · exact k

theorem edgeDominant_keeps (s : State) : Keeps [.zone, .link] s (edgeDominant s) := by
  unfold edgeDominant
  dsimp only
  split
  · exact (quietReached_keeps s).trans ((keeps_setZone _ _).mono (by decide))
  · exact (keeps_setZone _ _).mono (by decide)

theorem stuckReached_keeps (s : State) : Keeps [.zone, .link] s (stuckReached s) :=
  ((keeps_setZone _ _).mono (by decide)).trans ((queueEvent_keeps _ _).mono (by decide))

theorem stoppingClose_keeps (s : State) : Keeps [.rc, .cov, .trk, .corr, .link] s (stoppingClose s) :=
  (((closeAllSlots_keeps s).mono (by decide)).trans ((closeAllGaps_keeps _).mono (by decide))).trans
    ((keeps_setRc _ _).mono (by decide))

theorem enterStopping_keeps (s : State) : Keeps [.rc, .seq, .zone, .cov, .trk, .corr, .link] s (enterStopping s) := by
  unfold enterStopping
  dsimp only
  have h := (((keeps_setRc s { s.rc with runState := .stopping }).mono
    (m := [.rc, .seq, .zone, .cov, .trk, .corr, .link]) (by decide)).trans
    ((keeps_setSeq _ (seqStop s.seq)).mono (by decide))).trans ((keeps_setZone _ (zoneStop s.zone)).mono (by decide))
  split
  · exact h.trans ((stoppingClose_keeps _).mono (by decide))
  · exact h

theorem startRun_keeps (r : Byte) (s : State) :
    Keeps [.rc, .pos, .seq, .zone, .coup, .cov, .trk, .corr, .link] s (startRun r s) := by
  constructor <;> simp [startRun]

theorem volleyCleared_keeps (s : State) : Keeps [.seq, .zone, .acq] s (volleyCleared s) := by
  unfold volleyCleared
  dsimp only
  have h := ((keeps_setAcq s []).mono (m := [.seq, .zone, .acq]) (by decide)).trans
    ((keeps_setSeq _ { s.seq with volley := none, holdTimer := 0, held := 0 }).mono (by decide))
  split
  · exact h.trans ((keeps_setZone _ _).mono (by decide))
  · exact h

theorem afterCompletion_keeps (v : Volley) (s : State) :
    Keeps [.rc, .seq, .zone, .acq, .cov, .trk, .corr, .link] s (afterCompletion v s) := by
  unfold afterCompletion
  repeat' split
  · exact (startCycle_keeps _ _).mono (by decide)
  · exact (walkOn_keeps _ _ _).mono (by decide)
  · exact (finishCycle_keeps _).mono (by decide)
  · exact ((keeps_setSeq _ _).mono (by decide)).trans ((stoppingClose_keeps _).mono (by decide))

theorem volleyCompleted_keeps (x : PortEchoes) (v : Volley) (e : PlanEntry) (s : State) :
    Keeps [.rc, .seq, .zone, .acq, .coup, .cov, .trk, .corr, .link] s (volleyCompleted x v e s) :=
  (((completeVolley_keeps v e x s).mono (by decide)).trans ((volleyCleared_keeps _).mono (by decide))).trans
    ((afterCompletion_keeps v _).mono (by decide))

theorem queueSummary_keeps (s : State) : Keeps [.link] s (queueSummary s) :=
  (queueEvent_keeps _ _).trans (queueEvent_keeps _ _)

/-! ### Link Controller -/

theorem enterReceiveQueue_keeps (f : Frame) (s : State) : Keeps [.corr, .link] s (enterReceiveQueue f s) := by
  unfold enterReceiveQueue
  split
  · exact (keeps_setLink _ _).mono (by decide)
  · exact ((keeps_setLink _ _).mono (by decide)).trans ((keeps_setCorr _ _).mono (by decide))

/-- A frame enters last where there is room for it (R143). -/
theorem enterReceiveQueue_room (f : Frame) {s : State} (h : s.link.rxQueue.length < rxCap) :
    enterReceiveQueue f s = s.setLink { s.link with rxQueue := s.link.rxQueue ++ [f] } := if_pos h

/-- With no room a frame is lost, counted, and the epoch rises (R143). -/
theorem enterReceiveQueue_full (f : Frame) {s : State} (h : ¬ s.link.rxQueue.length < rxCap) :
    enterReceiveQueue f s = overflowReport (s.setLink { s.link with
      rxQueue := if s.cfg.dropOldest then s.link.rxQueue.drop 1 ++ [f] else s.link.rxQueue
      receiveOverflow := satAdd s.link.receiveOverflow 1 }) := if_neg h

/-- Nothing is discarded where the frame at the head is for a block (R144). -/
theorem discardHeads_hand {own : Nat} {q : List Frame} (h : ∀ g ∈ q, ∃ b c, disposal own g = .hand b c) :
    discardHeads own q = (q, 0) := by
  cases q with
  | nil => rfl
  | cons f fs => obtain ⟨b, c, hd⟩ := h f (List.mem_cons_self ..); unfold discardHeads; rw [hd]

/-- A MASK, SUPPRESS or INDICATION frame of its kind's length, as it is handed over (R144, R157). -/
theorem disposal_mask (own : Nat) (source : BitVec 5) (run : Byte) {p : List Byte} (h : p.length = 3) :
    disposal own ⟨source, 0x03#8, run, p⟩ =
      if (maskOfBytes p).target.toNat = own then .hand .volleySequencer (.mask (maskOfBytes p)) else .discard := by
  simp [disposal, h, kindRunstart, kindRunstop, kindMask]

theorem disposal_suppress (own : Nat) (source : BitVec 5) (run : Byte) {p : List Byte} (h : p.length = 9) :
    disposal own ⟨source, 0x04#8, run, p⟩ = .hand .correlationUnit (.suppress run (suppressOfBytes p)) := by
  simp [disposal, h, kindRunstart, kindRunstop, kindMask, kindSuppress]

theorem disposal_indication (own : Nat) (source : BitVec 5) (run : Byte) {p : List Byte} (h : p.length = 23) :
    disposal own ⟨source, 0x10#8, run, p⟩ = .hand .correlationUnit (.indication run (indicationOfBytes p)) := by
  simp [disposal, h, kindRunstart, kindRunstop, kindMask, kindSuppress, kindIndication]

/-- A good frame of another source, with the station operating and no frame of its own in flight, enters the queue before the
dispatcher's discards (R142 to R144). -/
theorem frameEnds_enters {chars : List Byte} {f : Frame} {s : State} (h : parseFrame chars = some f)
    (op : s.operating = true) (tx : s.link.tx ≠ .send) (other : f.source.toNat ≠ s.own) :
    frameEnds chars s = dispatchDiscards (enterReceiveQueue f
      (s.setLink { receiverSkips s.link with recessiveTime := 0 })) := by
  unfold frameEnds
  rw [h]
  simp only
  rw [if_neg (by rintro (h | h); exacts [absurd op (by rw [h]; decide), tx h])]
  exact if_neg other

theorem acceptFrame_keeps (f : Frame) (s : State) : Keeps [.rc, .corr, .link] s (acceptFrame f s) := by
  unfold acceptFrame
  dsimp only
  split
  · exact (reportConflict_keeps _ _).mono (by decide)
  · exact ((enterReceiveQueue_keeps f s).mono (by decide)).trans ((keeps_setLink _ _).mono (by decide))

theorem frameEnds_keeps (x : List Byte) (s : State) : Keeps [.rc, .corr, .link] s (frameEnds x s) := by
  unfold frameEnds
  dsimp only
  split
  · exact (keeps_setLink _ _).mono (by decide)
  · split
    · exact (keeps_setLink _ _).mono (by decide)
    · exact ((keeps_setLink _ _).mono (by decide)).trans (acceptFrame_keeps _ _)

theorem linkLevelGiven_keeps (level : LineLevel) (s : State) : Keeps [.link] s (linkLevelGiven level s) := by
  unfold linkLevelGiven linkEdge
  cases level <;> dsimp only <;> split <;> exact keeps_setLink _ _

end Sys2Proof.Machine
end

