-- ==== Sys2Proof/Laws/Ops.lean ====
section
/-! SUPPORT. The shared operations of the link: what handing a record to a queue leaves, field by field, and what it does to its
queue. -/

namespace Sys2Proof.Machine

/-! ### Handing a record leaves every block but the link -/

@[simp] theorem queueEvent_rc (r : StationEvent) (s : State) : (queueEvent r s).rc = s.rc := rfl
@[simp] theorem queueEvent_cfg (r : StationEvent) (s : State) : (queueEvent r s).cfg = s.cfg := rfl
@[simp] theorem queueEvent_pos (r : StationEvent) (s : State) : (queueEvent r s).pos = s.pos := rfl
@[simp] theorem queueEvent_seq (r : StationEvent) (s : State) : (queueEvent r s).seq = s.seq := rfl
@[simp] theorem queueEvent_zone (r : StationEvent) (s : State) : (queueEvent r s).zone = s.zone := rfl
@[simp] theorem queueEvent_acq (r : StationEvent) (s : State) : (queueEvent r s).acq = s.acq := rfl
@[simp] theorem queueEvent_coup (r : StationEvent) (s : State) : (queueEvent r s).coup = s.coup := rfl
@[simp] theorem queueEvent_cov (r : StationEvent) (s : State) : (queueEvent r s).cov = s.cov := rfl
@[simp] theorem queueEvent_trk (r : StationEvent) (s : State) : (queueEvent r s).trk = s.trk := rfl
@[simp] theorem queueEvent_corr (r : StationEvent) (s : State) : (queueEvent r s).corr = s.corr := rfl
@[simp] theorem queueEvent_pending (r : StationEvent) (s : State) : (queueEvent r s).pending = s.pending := rfl

@[simp] theorem queueCall_rc (r : Call) (s : State) : (queueCall r s).rc = s.rc := rfl
@[simp] theorem queueCall_cfg (r : Call) (s : State) : (queueCall r s).cfg = s.cfg := rfl
@[simp] theorem queueCall_pos (r : Call) (s : State) : (queueCall r s).pos = s.pos := rfl
@[simp] theorem queueCall_seq (r : Call) (s : State) : (queueCall r s).seq = s.seq := rfl
@[simp] theorem queueCall_zone (r : Call) (s : State) : (queueCall r s).zone = s.zone := rfl
@[simp] theorem queueCall_acq (r : Call) (s : State) : (queueCall r s).acq = s.acq := rfl
@[simp] theorem queueCall_coup (r : Call) (s : State) : (queueCall r s).coup = s.coup := rfl
@[simp] theorem queueCall_cov (r : Call) (s : State) : (queueCall r s).cov = s.cov := rfl
@[simp] theorem queueCall_trk (r : Call) (s : State) : (queueCall r s).trk = s.trk := rfl
@[simp] theorem queueCall_corr (r : Call) (s : State) : (queueCall r s).corr = s.corr := rfl
@[simp] theorem queueCall_pending (r : Call) (s : State) : (queueCall r s).pending = s.pending := rfl

@[simp] theorem queueIndication_rc (r : Indication) (s : State) : (queueIndication r s).rc = s.rc := rfl
@[simp] theorem queueIndication_cfg (r : Indication) (s : State) : (queueIndication r s).cfg = s.cfg := rfl
@[simp] theorem queueIndication_pos (r : Indication) (s : State) : (queueIndication r s).pos = s.pos := rfl
@[simp] theorem queueIndication_seq (r : Indication) (s : State) : (queueIndication r s).seq = s.seq := rfl
@[simp] theorem queueIndication_zone (r : Indication) (s : State) : (queueIndication r s).zone = s.zone := rfl
@[simp] theorem queueIndication_acq (r : Indication) (s : State) : (queueIndication r s).acq = s.acq := rfl
@[simp] theorem queueIndication_coup (r : Indication) (s : State) : (queueIndication r s).coup = s.coup := rfl
@[simp] theorem queueIndication_cov (r : Indication) (s : State) : (queueIndication r s).cov = s.cov := rfl
@[simp] theorem queueIndication_trk (r : Indication) (s : State) : (queueIndication r s).trk = s.trk := rfl
@[simp] theorem queueIndication_corr (r : Indication) (s : State) : (queueIndication r s).corr = s.corr := rfl
@[simp] theorem queueIndication_pending (r : Indication) (s : State) : (queueIndication r s).pending = s.pending := rfl

@[simp] theorem queueGap_rc (r : GapRecord) (s : State) : (queueGap r s).rc = s.rc := rfl
@[simp] theorem queueGap_cfg (r : GapRecord) (s : State) : (queueGap r s).cfg = s.cfg := rfl
@[simp] theorem queueGap_pos (r : GapRecord) (s : State) : (queueGap r s).pos = s.pos := rfl
@[simp] theorem queueGap_seq (r : GapRecord) (s : State) : (queueGap r s).seq = s.seq := rfl
@[simp] theorem queueGap_zone (r : GapRecord) (s : State) : (queueGap r s).zone = s.zone := rfl
@[simp] theorem queueGap_acq (r : GapRecord) (s : State) : (queueGap r s).acq = s.acq := rfl
@[simp] theorem queueGap_coup (r : GapRecord) (s : State) : (queueGap r s).coup = s.coup := rfl
@[simp] theorem queueGap_cov (r : GapRecord) (s : State) : (queueGap r s).cov = s.cov := rfl
@[simp] theorem queueGap_trk (r : GapRecord) (s : State) : (queueGap r s).trk = s.trk := rfl
@[simp] theorem queueGap_corr (r : GapRecord) (s : State) : (queueGap r s).corr = s.corr := rfl
@[simp] theorem queueGap_pending (r : GapRecord) (s : State) : (queueGap r s).pending = s.pending := rfl

theorem queueEvent_link (r : StationEvent) (s : State) :
    (queueEvent r s).link = offer0 s.own ⟨eventRun s r, r⟩ s.link := rfl
theorem queueCall_link (r : Call) (s : State) : (queueCall r s).link = offer1 s.own ⟨s.rc.run, r⟩ s.link := rfl
theorem queueIndication_link (r : Indication) (s : State) :
    (queueIndication r s).link = offer2 s.own ⟨s.rc.run, r⟩ s.link := rfl
theorem queueGap_link (r : GapRecord) (s : State) : (queueGap r s).link = offer3 s.own ⟨s.rc.run, r⟩ s.link := rfl

/-! ### Ranks -/

theorem takeRank_cases (own : Nat) (l : Link) :
    takeRank own l = { l with tx := .idle, rank := none, beginIn := 0 } ∨
    ∃ c, takeRank own l = { l with tx := .defer, rank := some (rankOf own c), beginIn := rankOf own c * microsecond - l.sinceIdle } := by
  unfold takeRank
  split
  · exact .inl rfl
  · exact .inr ⟨_, rfl⟩

theorem recordArrived_cases (own : Nat) (l : Link) : recordArrived own l = l ∨
    (l.tx = .idle ∧ l.idle = true ∧ l.rank = none ∧ recordArrived own l = takeRank own l) := by
  unfold recordArrived
  split
  · rename_i h; exact .inr ⟨h.1, h.2.1, h.2.2, rfl⟩
  · exact .inl rfl

/-- A rank taken changes the transmitter's state, rank and begin time only. -/
theorem takeRank_eq (own : Nat) (l : Link) : takeRank own l =
    { l with tx := (takeRank own l).tx, rank := (takeRank own l).rank, beginIn := (takeRank own l).beginIn } := by
  rcases takeRank_cases own l with h | ⟨c, h⟩ <;> rw [h]

theorem recordArrived_eq (own : Nat) (l : Link) : recordArrived own l =
    { l with
      tx := (recordArrived own l).tx, rank := (recordArrived own l).rank, beginIn := (recordArrived own l).beginIn } := by
  rcases recordArrived_cases own l with h | ⟨_, _, _, h⟩
  · rw [h]
  · rw [h]; exact takeRank_eq own l

theorem recordArrived_busy (own : Nat) {l : Link} (h : l.idle = false) : recordArrived own l = l := by
  simp [recordArrived, h]

@[simp] theorem takeRank_level (own : Nat) (l : Link) : (takeRank own l).level = l.level := by rw [takeRank_eq]
@[simp] theorem takeRank_idle (own : Nat) (l : Link) : (takeRank own l).idle = l.idle := by rw [takeRank_eq]
@[simp] theorem takeRank_recessiveTime (own : Nat) (l : Link) : (takeRank own l).recessiveTime = l.recessiveTime := by rw [takeRank_eq]
@[simp] theorem takeRank_sinceIdle (own : Nat) (l : Link) : (takeRank own l).sinceIdle = l.sinceIdle := by rw [takeRank_eq]
@[simp] theorem takeRank_q0 (own : Nat) (l : Link) : (takeRank own l).q0 = l.q0 := by rw [takeRank_eq]
@[simp] theorem takeRank_q1 (own : Nat) (l : Link) : (takeRank own l).q1 = l.q1 := by rw [takeRank_eq]
@[simp] theorem takeRank_q2 (own : Nat) (l : Link) : (takeRank own l).q2 = l.q2 := by rw [takeRank_eq]
@[simp] theorem takeRank_q3 (own : Nat) (l : Link) : (takeRank own l).q3 = l.q3 := by rw [takeRank_eq]
@[simp] theorem takeRank_inFlight (own : Nat) (l : Link) : (takeRank own l).inFlight = l.inFlight := by rw [takeRank_eq]
@[simp] theorem takeRank_sendLeft (own : Nat) (l : Link) : (takeRank own l).sendLeft = l.sendLeft := by rw [takeRank_eq]
@[simp] theorem takeRank_rx (own : Nat) (l : Link) : (takeRank own l).rx = l.rx := by rw [takeRank_eq]
@[simp] theorem takeRank_gather (own : Nat) (l : Link) : (takeRank own l).gather = l.gather := by rw [takeRank_eq]

@[simp] theorem takeRank_rxQueue (own : Nat) (l : Link) : (takeRank own l).rxQueue = l.rxQueue := by rw [takeRank_eq]
@[simp] theorem takeRank_busyRun (own : Nat) (l : Link) : (takeRank own l).busyRun = l.busyRun := by rw [takeRank_eq]
@[simp] theorem takeRank_busySeq (own : Nat) (l : Link) : (takeRank own l).busySeq = l.busySeq := by rw [takeRank_eq]
@[simp] theorem takeRank_busyCorr (own : Nat) (l : Link) : (takeRank own l).busyCorr = l.busyCorr := by rw [takeRank_eq]
@[simp] theorem takeRank_drop0 (own : Nat) (l : Link) : (takeRank own l).drop0 = l.drop0 := by rw [takeRank_eq]
@[simp] theorem takeRank_drop1 (own : Nat) (l : Link) : (takeRank own l).drop1 = l.drop1 := by rw [takeRank_eq]
@[simp] theorem takeRank_drop2 (own : Nat) (l : Link) : (takeRank own l).drop2 = l.drop2 := by rw [takeRank_eq]
@[simp] theorem takeRank_drop3 (own : Nat) (l : Link) : (takeRank own l).drop3 = l.drop3 := by rw [takeRank_eq]
@[simp] theorem takeRank_collision (own : Nat) (l : Link) : (takeRank own l).collision = l.collision := by rw [takeRank_eq]
@[simp] theorem takeRank_receiveError (own : Nat) (l : Link) : (takeRank own l).receiveError = l.receiveError := by rw [takeRank_eq]
@[simp] theorem takeRank_receiveOverflow (own : Nat) (l : Link) : (takeRank own l).receiveOverflow = l.receiveOverflow := by rw [takeRank_eq]

@[simp] theorem recordArrived_level (own : Nat) (l : Link) : (recordArrived own l).level = l.level := by rw [recordArrived_eq]
@[simp] theorem recordArrived_idle (own : Nat) (l : Link) : (recordArrived own l).idle = l.idle := by rw [recordArrived_eq]
@[simp] theorem recordArrived_recessiveTime (own : Nat) (l : Link) : (recordArrived own l).recessiveTime = l.recessiveTime := by rw [recordArrived_eq]
@[simp] theorem recordArrived_sinceIdle (own : Nat) (l : Link) : (recordArrived own l).sinceIdle = l.sinceIdle := by rw [recordArrived_eq]
@[simp] theorem recordArrived_q0 (own : Nat) (l : Link) : (recordArrived own l).q0 = l.q0 := by rw [recordArrived_eq]
@[simp] theorem recordArrived_q1 (own : Nat) (l : Link) : (recordArrived own l).q1 = l.q1 := by rw [recordArrived_eq]
@[simp] theorem recordArrived_q2 (own : Nat) (l : Link) : (recordArrived own l).q2 = l.q2 := by rw [recordArrived_eq]
@[simp] theorem recordArrived_q3 (own : Nat) (l : Link) : (recordArrived own l).q3 = l.q3 := by rw [recordArrived_eq]
@[simp] theorem recordArrived_inFlight (own : Nat) (l : Link) : (recordArrived own l).inFlight = l.inFlight := by rw [recordArrived_eq]
@[simp] theorem recordArrived_sendLeft (own : Nat) (l : Link) : (recordArrived own l).sendLeft = l.sendLeft := by rw [recordArrived_eq]
@[simp] theorem recordArrived_rx (own : Nat) (l : Link) : (recordArrived own l).rx = l.rx := by rw [recordArrived_eq]
@[simp] theorem recordArrived_gather (own : Nat) (l : Link) : (recordArrived own l).gather = l.gather := by rw [recordArrived_eq]

@[simp] theorem recordArrived_rxQueue (own : Nat) (l : Link) : (recordArrived own l).rxQueue = l.rxQueue := by rw [recordArrived_eq]
@[simp] theorem recordArrived_busyRun (own : Nat) (l : Link) : (recordArrived own l).busyRun = l.busyRun := by rw [recordArrived_eq]
@[simp] theorem recordArrived_busySeq (own : Nat) (l : Link) : (recordArrived own l).busySeq = l.busySeq := by rw [recordArrived_eq]
@[simp] theorem recordArrived_busyCorr (own : Nat) (l : Link) : (recordArrived own l).busyCorr = l.busyCorr := by rw [recordArrived_eq]
@[simp] theorem recordArrived_drop0 (own : Nat) (l : Link) : (recordArrived own l).drop0 = l.drop0 := by rw [recordArrived_eq]
@[simp] theorem recordArrived_drop1 (own : Nat) (l : Link) : (recordArrived own l).drop1 = l.drop1 := by rw [recordArrived_eq]
@[simp] theorem recordArrived_drop2 (own : Nat) (l : Link) : (recordArrived own l).drop2 = l.drop2 := by rw [recordArrived_eq]
@[simp] theorem recordArrived_drop3 (own : Nat) (l : Link) : (recordArrived own l).drop3 = l.drop3 := by rw [recordArrived_eq]
@[simp] theorem recordArrived_collision (own : Nat) (l : Link) : (recordArrived own l).collision = l.collision := by rw [recordArrived_eq]
@[simp] theorem recordArrived_receiveError (own : Nat) (l : Link) : (recordArrived own l).receiveError = l.receiveError := by rw [recordArrived_eq]
@[simp] theorem recordArrived_receiveOverflow (own : Nat) (l : Link) : (recordArrived own l).receiveOverflow = l.receiveOverflow := by rw [recordArrived_eq]

/-! ### A record offered to a queue -/

theorem offer0_room (own : Nat) (r : Queued StationEvent) {l : Link} (h : l.q0.length < cap0) :
    offer0 own r l = recordArrived own { l with q0 := l.q0 ++ [r] } := if_pos h

theorem offer0_full (own : Nat) (r : Queued StationEvent) {l : Link} (h : ¬ l.q0.length < cap0) :
    offer0 own r l = { l with drop0 := satAdd l.drop0 1 } := if_neg h

@[simp] theorem offer0_level (own : Nat) (r : Queued StationEvent) (l : Link) : (offer0 own r l).level = l.level := by
  unfold offer0; split <;> simp
@[simp] theorem offer0_idle (own : Nat) (r : Queued StationEvent) (l : Link) : (offer0 own r l).idle = l.idle := by
  unfold offer0; split <;> simp
@[simp] theorem offer0_recessiveTime (own : Nat) (r : Queued StationEvent) (l : Link) : (offer0 own r l).recessiveTime = l.recessiveTime := by
  unfold offer0; split <;> simp
@[simp] theorem offer0_sinceIdle (own : Nat) (r : Queued StationEvent) (l : Link) : (offer0 own r l).sinceIdle = l.sinceIdle := by
  unfold offer0; split <;> simp
@[simp] theorem offer0_q1 (own : Nat) (r : Queued StationEvent) (l : Link) : (offer0 own r l).q1 = l.q1 := by
  unfold offer0; split <;> simp
@[simp] theorem offer0_q2 (own : Nat) (r : Queued StationEvent) (l : Link) : (offer0 own r l).q2 = l.q2 := by
  unfold offer0; split <;> simp
@[simp] theorem offer0_q3 (own : Nat) (r : Queued StationEvent) (l : Link) : (offer0 own r l).q3 = l.q3 := by
  unfold offer0; split <;> simp
@[simp] theorem offer0_inFlight (own : Nat) (r : Queued StationEvent) (l : Link) : (offer0 own r l).inFlight = l.inFlight := by
  unfold offer0; split <;> simp
@[simp] theorem offer0_sendLeft (own : Nat) (r : Queued StationEvent) (l : Link) : (offer0 own r l).sendLeft = l.sendLeft := by
  unfold offer0; split <;> simp
@[simp] theorem offer0_rx (own : Nat) (r : Queued StationEvent) (l : Link) : (offer0 own r l).rx = l.rx := by
  unfold offer0; split <;> simp
@[simp] theorem offer0_gather (own : Nat) (r : Queued StationEvent) (l : Link) : (offer0 own r l).gather = l.gather := by
  unfold offer0; split <;> simp

@[simp] theorem offer0_rxQueue (own : Nat) (r : Queued StationEvent) (l : Link) : (offer0 own r l).rxQueue = l.rxQueue := by
  unfold offer0; split <;> simp
@[simp] theorem offer0_busyRun (own : Nat) (r : Queued StationEvent) (l : Link) : (offer0 own r l).busyRun = l.busyRun := by
  unfold offer0; split <;> simp
@[simp] theorem offer0_busySeq (own : Nat) (r : Queued StationEvent) (l : Link) : (offer0 own r l).busySeq = l.busySeq := by
  unfold offer0; split <;> simp
@[simp] theorem offer0_busyCorr (own : Nat) (r : Queued StationEvent) (l : Link) : (offer0 own r l).busyCorr = l.busyCorr := by
  unfold offer0; split <;> simp
@[simp] theorem offer0_drop1 (own : Nat) (r : Queued StationEvent) (l : Link) : (offer0 own r l).drop1 = l.drop1 := by
  unfold offer0; split <;> simp
@[simp] theorem offer0_drop2 (own : Nat) (r : Queued StationEvent) (l : Link) : (offer0 own r l).drop2 = l.drop2 := by
  unfold offer0; split <;> simp
@[simp] theorem offer0_drop3 (own : Nat) (r : Queued StationEvent) (l : Link) : (offer0 own r l).drop3 = l.drop3 := by
  unfold offer0; split <;> simp
@[simp] theorem offer0_collision (own : Nat) (r : Queued StationEvent) (l : Link) : (offer0 own r l).collision = l.collision := by
  unfold offer0; split <;> simp
@[simp] theorem offer0_receiveError (own : Nat) (r : Queued StationEvent) (l : Link) : (offer0 own r l).receiveError = l.receiveError := by
  unfold offer0; split <;> simp
@[simp] theorem offer0_receiveOverflow (own : Nat) (r : Queued StationEvent) (l : Link) : (offer0 own r l).receiveOverflow = l.receiveOverflow := by
  unfold offer0; split <;> simp

theorem offer1_room (own : Nat) (r : Queued Call) {l : Link} (h : l.q1.length < cap1) :
    offer1 own r l = recordArrived own { l with q1 := l.q1 ++ [r] } := if_pos h

theorem offer1_full (own : Nat) (r : Queued Call) {l : Link} (h : ¬ l.q1.length < cap1) :
    offer1 own r l = { l with drop1 := satAdd l.drop1 1 } := if_neg h

@[simp] theorem offer1_level (own : Nat) (r : Queued Call) (l : Link) : (offer1 own r l).level = l.level := by
  unfold offer1; split <;> simp
@[simp] theorem offer1_idle (own : Nat) (r : Queued Call) (l : Link) : (offer1 own r l).idle = l.idle := by
  unfold offer1; split <;> simp
@[simp] theorem offer1_recessiveTime (own : Nat) (r : Queued Call) (l : Link) : (offer1 own r l).recessiveTime = l.recessiveTime := by
  unfold offer1; split <;> simp
@[simp] theorem offer1_sinceIdle (own : Nat) (r : Queued Call) (l : Link) : (offer1 own r l).sinceIdle = l.sinceIdle := by
  unfold offer1; split <;> simp
@[simp] theorem offer1_q0 (own : Nat) (r : Queued Call) (l : Link) : (offer1 own r l).q0 = l.q0 := by
  unfold offer1; split <;> simp
@[simp] theorem offer1_q2 (own : Nat) (r : Queued Call) (l : Link) : (offer1 own r l).q2 = l.q2 := by
  unfold offer1; split <;> simp
@[simp] theorem offer1_q3 (own : Nat) (r : Queued Call) (l : Link) : (offer1 own r l).q3 = l.q3 := by
  unfold offer1; split <;> simp
@[simp] theorem offer1_inFlight (own : Nat) (r : Queued Call) (l : Link) : (offer1 own r l).inFlight = l.inFlight := by
  unfold offer1; split <;> simp
@[simp] theorem offer1_sendLeft (own : Nat) (r : Queued Call) (l : Link) : (offer1 own r l).sendLeft = l.sendLeft := by
  unfold offer1; split <;> simp
@[simp] theorem offer1_rx (own : Nat) (r : Queued Call) (l : Link) : (offer1 own r l).rx = l.rx := by
  unfold offer1; split <;> simp
@[simp] theorem offer1_gather (own : Nat) (r : Queued Call) (l : Link) : (offer1 own r l).gather = l.gather := by
  unfold offer1; split <;> simp

@[simp] theorem offer1_rxQueue (own : Nat) (r : Queued Call) (l : Link) : (offer1 own r l).rxQueue = l.rxQueue := by
  unfold offer1; split <;> simp
@[simp] theorem offer1_busyRun (own : Nat) (r : Queued Call) (l : Link) : (offer1 own r l).busyRun = l.busyRun := by
  unfold offer1; split <;> simp
@[simp] theorem offer1_busySeq (own : Nat) (r : Queued Call) (l : Link) : (offer1 own r l).busySeq = l.busySeq := by
  unfold offer1; split <;> simp
@[simp] theorem offer1_busyCorr (own : Nat) (r : Queued Call) (l : Link) : (offer1 own r l).busyCorr = l.busyCorr := by
  unfold offer1; split <;> simp
@[simp] theorem offer1_drop0 (own : Nat) (r : Queued Call) (l : Link) : (offer1 own r l).drop0 = l.drop0 := by
  unfold offer1; split <;> simp
@[simp] theorem offer1_drop2 (own : Nat) (r : Queued Call) (l : Link) : (offer1 own r l).drop2 = l.drop2 := by
  unfold offer1; split <;> simp
@[simp] theorem offer1_drop3 (own : Nat) (r : Queued Call) (l : Link) : (offer1 own r l).drop3 = l.drop3 := by
  unfold offer1; split <;> simp
@[simp] theorem offer1_collision (own : Nat) (r : Queued Call) (l : Link) : (offer1 own r l).collision = l.collision := by
  unfold offer1; split <;> simp
@[simp] theorem offer1_receiveError (own : Nat) (r : Queued Call) (l : Link) : (offer1 own r l).receiveError = l.receiveError := by
  unfold offer1; split <;> simp
@[simp] theorem offer1_receiveOverflow (own : Nat) (r : Queued Call) (l : Link) : (offer1 own r l).receiveOverflow = l.receiveOverflow := by
  unfold offer1; split <;> simp

theorem offer2_room (own : Nat) (r : Queued Indication) {l : Link} (h : l.q2.length < cap2) :
    offer2 own r l = recordArrived own { l with q2 := l.q2 ++ [r] } := if_pos h

theorem offer2_full (own : Nat) (r : Queued Indication) {l : Link} (h : ¬ l.q2.length < cap2) :
    offer2 own r l = { l with drop2 := satAdd l.drop2 1 } := if_neg h

@[simp] theorem offer2_level (own : Nat) (r : Queued Indication) (l : Link) : (offer2 own r l).level = l.level := by
  unfold offer2; split <;> simp
@[simp] theorem offer2_idle (own : Nat) (r : Queued Indication) (l : Link) : (offer2 own r l).idle = l.idle := by
  unfold offer2; split <;> simp
@[simp] theorem offer2_recessiveTime (own : Nat) (r : Queued Indication) (l : Link) : (offer2 own r l).recessiveTime = l.recessiveTime := by
  unfold offer2; split <;> simp
@[simp] theorem offer2_sinceIdle (own : Nat) (r : Queued Indication) (l : Link) : (offer2 own r l).sinceIdle = l.sinceIdle := by
  unfold offer2; split <;> simp
@[simp] theorem offer2_q0 (own : Nat) (r : Queued Indication) (l : Link) : (offer2 own r l).q0 = l.q0 := by
  unfold offer2; split <;> simp
@[simp] theorem offer2_q1 (own : Nat) (r : Queued Indication) (l : Link) : (offer2 own r l).q1 = l.q1 := by
  unfold offer2; split <;> simp
@[simp] theorem offer2_q3 (own : Nat) (r : Queued Indication) (l : Link) : (offer2 own r l).q3 = l.q3 := by
  unfold offer2; split <;> simp
@[simp] theorem offer2_inFlight (own : Nat) (r : Queued Indication) (l : Link) : (offer2 own r l).inFlight = l.inFlight := by
  unfold offer2; split <;> simp
@[simp] theorem offer2_sendLeft (own : Nat) (r : Queued Indication) (l : Link) : (offer2 own r l).sendLeft = l.sendLeft := by
  unfold offer2; split <;> simp
@[simp] theorem offer2_rx (own : Nat) (r : Queued Indication) (l : Link) : (offer2 own r l).rx = l.rx := by
  unfold offer2; split <;> simp
@[simp] theorem offer2_gather (own : Nat) (r : Queued Indication) (l : Link) : (offer2 own r l).gather = l.gather := by
  unfold offer2; split <;> simp

@[simp] theorem offer2_rxQueue (own : Nat) (r : Queued Indication) (l : Link) : (offer2 own r l).rxQueue = l.rxQueue := by
  unfold offer2; split <;> simp
@[simp] theorem offer2_busyRun (own : Nat) (r : Queued Indication) (l : Link) : (offer2 own r l).busyRun = l.busyRun := by
  unfold offer2; split <;> simp
@[simp] theorem offer2_busySeq (own : Nat) (r : Queued Indication) (l : Link) : (offer2 own r l).busySeq = l.busySeq := by
  unfold offer2; split <;> simp
@[simp] theorem offer2_busyCorr (own : Nat) (r : Queued Indication) (l : Link) : (offer2 own r l).busyCorr = l.busyCorr := by
  unfold offer2; split <;> simp
@[simp] theorem offer2_drop0 (own : Nat) (r : Queued Indication) (l : Link) : (offer2 own r l).drop0 = l.drop0 := by
  unfold offer2; split <;> simp
@[simp] theorem offer2_drop1 (own : Nat) (r : Queued Indication) (l : Link) : (offer2 own r l).drop1 = l.drop1 := by
  unfold offer2; split <;> simp
@[simp] theorem offer2_drop3 (own : Nat) (r : Queued Indication) (l : Link) : (offer2 own r l).drop3 = l.drop3 := by
  unfold offer2; split <;> simp
@[simp] theorem offer2_collision (own : Nat) (r : Queued Indication) (l : Link) : (offer2 own r l).collision = l.collision := by
  unfold offer2; split <;> simp
@[simp] theorem offer2_receiveError (own : Nat) (r : Queued Indication) (l : Link) : (offer2 own r l).receiveError = l.receiveError := by
  unfold offer2; split <;> simp
@[simp] theorem offer2_receiveOverflow (own : Nat) (r : Queued Indication) (l : Link) : (offer2 own r l).receiveOverflow = l.receiveOverflow := by
  unfold offer2; split <;> simp

theorem offer3_room (own : Nat) (r : Queued GapRecord) {l : Link} (h : l.q3.length < cap3) :
    offer3 own r l = recordArrived own { l with q3 := l.q3 ++ [r] } := if_pos h

theorem offer3_full (own : Nat) (r : Queued GapRecord) {l : Link} (h : ¬ l.q3.length < cap3) :
    offer3 own r l = { l with drop3 := satAdd l.drop3 1 } := if_neg h

@[simp] theorem offer3_level (own : Nat) (r : Queued GapRecord) (l : Link) : (offer3 own r l).level = l.level := by
  unfold offer3; split <;> simp
@[simp] theorem offer3_idle (own : Nat) (r : Queued GapRecord) (l : Link) : (offer3 own r l).idle = l.idle := by
  unfold offer3; split <;> simp
@[simp] theorem offer3_recessiveTime (own : Nat) (r : Queued GapRecord) (l : Link) : (offer3 own r l).recessiveTime = l.recessiveTime := by
  unfold offer3; split <;> simp
@[simp] theorem offer3_sinceIdle (own : Nat) (r : Queued GapRecord) (l : Link) : (offer3 own r l).sinceIdle = l.sinceIdle := by
  unfold offer3; split <;> simp
@[simp] theorem offer3_q0 (own : Nat) (r : Queued GapRecord) (l : Link) : (offer3 own r l).q0 = l.q0 := by
  unfold offer3; split <;> simp
@[simp] theorem offer3_q1 (own : Nat) (r : Queued GapRecord) (l : Link) : (offer3 own r l).q1 = l.q1 := by
  unfold offer3; split <;> simp
@[simp] theorem offer3_q2 (own : Nat) (r : Queued GapRecord) (l : Link) : (offer3 own r l).q2 = l.q2 := by
  unfold offer3; split <;> simp
@[simp] theorem offer3_inFlight (own : Nat) (r : Queued GapRecord) (l : Link) : (offer3 own r l).inFlight = l.inFlight := by
  unfold offer3; split <;> simp
@[simp] theorem offer3_sendLeft (own : Nat) (r : Queued GapRecord) (l : Link) : (offer3 own r l).sendLeft = l.sendLeft := by
  unfold offer3; split <;> simp
@[simp] theorem offer3_rx (own : Nat) (r : Queued GapRecord) (l : Link) : (offer3 own r l).rx = l.rx := by
  unfold offer3; split <;> simp
@[simp] theorem offer3_gather (own : Nat) (r : Queued GapRecord) (l : Link) : (offer3 own r l).gather = l.gather := by
  unfold offer3; split <;> simp

@[simp] theorem offer3_rxQueue (own : Nat) (r : Queued GapRecord) (l : Link) : (offer3 own r l).rxQueue = l.rxQueue := by
  unfold offer3; split <;> simp
@[simp] theorem offer3_busyRun (own : Nat) (r : Queued GapRecord) (l : Link) : (offer3 own r l).busyRun = l.busyRun := by
  unfold offer3; split <;> simp
@[simp] theorem offer3_busySeq (own : Nat) (r : Queued GapRecord) (l : Link) : (offer3 own r l).busySeq = l.busySeq := by
  unfold offer3; split <;> simp
@[simp] theorem offer3_busyCorr (own : Nat) (r : Queued GapRecord) (l : Link) : (offer3 own r l).busyCorr = l.busyCorr := by
  unfold offer3; split <;> simp
@[simp] theorem offer3_drop0 (own : Nat) (r : Queued GapRecord) (l : Link) : (offer3 own r l).drop0 = l.drop0 := by
  unfold offer3; split <;> simp
@[simp] theorem offer3_drop1 (own : Nat) (r : Queued GapRecord) (l : Link) : (offer3 own r l).drop1 = l.drop1 := by
  unfold offer3; split <;> simp
@[simp] theorem offer3_drop2 (own : Nat) (r : Queued GapRecord) (l : Link) : (offer3 own r l).drop2 = l.drop2 := by
  unfold offer3; split <;> simp
@[simp] theorem offer3_collision (own : Nat) (r : Queued GapRecord) (l : Link) : (offer3 own r l).collision = l.collision := by
  unfold offer3; split <;> simp
@[simp] theorem offer3_receiveError (own : Nat) (r : Queued GapRecord) (l : Link) : (offer3 own r l).receiveError = l.receiveError := by
  unfold offer3; split <;> simp
@[simp] theorem offer3_receiveOverflow (own : Nat) (r : Queued GapRecord) (l : Link) : (offer3 own r l).receiveOverflow = l.receiveOverflow := by
  unfold offer3; split <;> simp

end Sys2Proof.Machine
end

