-- ==== Sys2Proof/Laws/Words.lean ====
section
/-! SUPPORT. Lemmas of the plain words: the eight-place record, channels and their numbers, the bytes of numbers and of flags. -/

namespace Sys2Proof

@[simp] theorem PerChan.get_set {α : Type} (v : PerChan α) (c d : Chan) (x : α) :
    (v.set c x).get d = if d = c then x else v.get d := by
  cases c <;> cases d <;> rfl

theorem PerChan.get_set_self {α : Type} (v : PerChan α) (c : Chan) (x : α) : (v.set c x).get c = x := by simp

theorem PerChan.get_set_of_ne {α : Type} (v : PerChan α) {c d : Chan} (x : α) (h : d ≠ c) :
    (v.set c x).get d = v.get d := by simp [h]

@[simp] theorem PerChan.get_ofFn {α : Type} (g : Chan → α) (c : Chan) : (PerChan.ofFn g).get c = g c := by
  cases c <;> rfl

theorem PerChan.ext_get {α : Type} {v w : PerChan α} (h : ∀ c, v.get c = w.get c) : v = w := by
  obtain ⟨a0, a1, a2, a3, a4, a5, a6, a7⟩ := v
  obtain ⟨b0, b1, b2, b3, b4, b5, b6, b7⟩ := w
  have h0 : a0 = b0 := h .ch0
  have h1 : a1 = b1 := h .ch1
  have h2 : a2 = b2 := h .ch2
  have h3 : a3 = b3 := h .ch3
  have h4 : a4 = b4 := h .ch4
  have h5 : a5 = b5 := h .ch5
  have h6 : a6 = b6 := h .ch6
  have h7 : a7 = b7 := h .ch7
  subst h0 h1 h2 h3 h4 h5 h6 h7; rfl

theorem Chan.mem_all (c : Chan) : c ∈ Chan.all := by cases c <;> decide

theorem Chan.all_nodup : Chan.all.Nodup := by decide

@[simp] theorem Chan.ofNum_num (c : Chan) : Chan.ofNum c.num = c := by cases c <;> rfl

theorem Chan.num_lt (c : Chan) : c.num < 8 := by cases c <;> decide

namespace Machine

@[simp] theorem mem_chansOf (m : ChanSet) (c : Chan) : c ∈ chansOf m ↔ inSet m c = true := by
  simp [chansOf, Chan.mem_all]

theorem inSet_addToSet (m : ChanSet) (c d : Chan) :
    inSet (addToSet m c) d = (decide (d = c) || inSet m d) := by
  have h : (1#8 <<< c.num).getLsbD d.num = decide (d = c) := by cases c <;> cases d <;> decide
  rw [inSet, addToSet, BitVec.getLsbD_or, h, Bool.or_comm, inSet]

theorem inSet_foldl_addToSet (cs : List Chan) (m : ChanSet) (d : Chan) :
    inSet (cs.foldl addToSet m) d = (decide (d ∈ cs) || inSet m d) := by
  induction cs generalizing m with
  | nil => simp
  | cons c cs ih => simp [ih, inSet_addToSet, Bool.or_left_comm, Bool.or_assoc]

@[simp] theorem inSet_setOf (t : Chan → Bool) (c : Chan) : inSet (setOf t) c = t c := by
  rw [setOf, inSet_foldl_addToSet]
  have h0 : inSet (0#8) c = false := by cases c <;> decide
  have h1 : inSet 0 c = false := h0
  simp only [h1, Bool.or_false, List.mem_filter, Chan.mem_all, true_and, Bool.decide_eq_true]

/-- Bit i of a set of flags is flag i. -/
theorem packBits_testBit (bs : List Bool) (i : Nat) : (packBits bs).testBit i = bs.getD i false := by
  induction bs generalizing i with
  | nil => simp [packBits]
  | cons b bs ih =>
    unfold packBits
    cases i with
    | zero => cases b <;> simp [Nat.testBit_zero]
    | succ i =>
      rw [Nat.testBit_succ, List.getD_cons_succ, ← ih]
      congr 1
      split <;> omega

/-- A byte made of flags holds flag i in its bit i. -/
theorem byte_packBits (bs : List Bool) (i : Nat) (h : i < 8) :
    (BitVec.ofNat 8 (packBits bs)).getLsbD i = bs.getD i false := by
  rw [BitVec.getLsbD_ofNat, packBits_testBit]; simp [h]

theorem packBits_lt (bs : List Bool) : packBits bs < 2 ^ bs.length := by
  induction bs with
  | nil => simp [packBits]
  | cons b bs ih => simp only [packBits, List.length_cons, Nat.pow_succ]; split <;> omega

/-! ### Fields of bytes -/

theorem byteAt_lt (bytes : List Byte) (off : Nat) : byteAt bytes off < 256 := BitVec.isLt _

theorem wordAt_lt (bytes : List Byte) (off : Nat) : wordAt bytes off < 65536 := by
  have h0 := byteAt_lt bytes off
  have h1 := byteAt_lt bytes (off + 1)
  simp only [wordAt]; omega

theorem byte_toNat {n : Nat} (h : n ≤ 255) : (BitVec.ofNat 8 n).toNat = n := by simp; omega

/-- The two bytes of a number, low byte first, make the number. -/
theorem bytes2_value {n : Nat} (h : n ≤ 65535) :
    (BitVec.ofNat 8 n).toNat + 256 * (BitVec.ofNat 8 (n / 256)).toNat = n := by simp; omega

/-- The four bytes of a number below 2^32, low byte first, make the number. -/
theorem bytes4_value {n : Nat} (h : n < 4294967296) :
    (BitVec.ofNat 8 n).toNat + 256 * (BitVec.ofNat 8 (n / 256)).toNat +
      65536 * ((BitVec.ofNat 8 (n / 65536)).toNat + 256 * (BitVec.ofNat 8 (n / 16777216)).toNat) = n := by
  simp only [BitVec.toNat_ofNat]; omega

/-- A signed 32-bit number is its two's complement word read back. -/
theorem ofInt32_toNat {x : Int} (h : -2147483648 ≤ x) (h' : x < 2147483648) :
    (BitVec.ofInt 32 x).toNat < 4294967296 ∧
    (if (BitVec.ofInt 32 x).toNat < 2147483648 then ((BitVec.ofInt 32 x).toNat : Int)
      else (BitVec.ofInt 32 x).toNat - 4294967296) = x := by
  have e : ((BitVec.ofInt 32 x).toNat : Int) = x % 4294967296 := by rw [BitVec.toNat_ofInt]; omega
  have hlt : (BitVec.ofInt 32 x).toNat < 4294967296 := BitVec.isLt _
  refine ⟨hlt, ?_⟩
  split <;> omega

/-- The signed value of a four-byte field. -/
theorem longAt_toInt (bytes : List Byte) (off : Nat) :
    (longAt bytes off).toInt =
      let n := wordAt bytes off + 65536 * wordAt bytes (off + 2)
      if n < 2147483648 then (n : Int) else n - 4294967296 := by
  have h0 := wordAt_lt bytes off
  have h1 := wordAt_lt bytes (off + 2)
  have e : (longAt bytes off).toNat = wordAt bytes off + 65536 * wordAt bytes (off + 2) := by
    simp only [longAt, BitVec.toNat_ofNat]; omega
  rw [BitVec.toInt_eq_toNat_cond, e]
  simp only
  split_ifs <;> omega

/-- The signed value of a two-byte field. -/
theorem signed16_eq {n : Nat} (h : n < 65536) : signed16 n = if n < 32768 then (n : Int) else n - 65536 := by
  rw [signed16, BitVec.toInt_eq_toNat_cond]
  simp only [BitVec.toNat_ofNat]
  split_ifs <;> omega

/-- A byte made of at most eight flags holds flag i in its bit i, and 0 beyond them. -/
theorem packBits_byte {bs : List Bool} (h : bs.length ≤ 8) (i : Nat) :
    (BitVec.ofNat 8 (packBits bs)).toNat.testBit i = bs.getD i false := by
  have h1 := packBits_lt bs
  have h2 : 2 ^ bs.length ≤ 2 ^ 8 := Nat.pow_le_pow_right (by decide) h
  rw [byte_toNat (by omega), packBits_testBit]

/-- Two bytes made of at most sixteen flags hold flag i in bit i, and 0 beyond them. -/
theorem packBits_word {bs : List Bool} (h : bs.length ≤ 16) (i : Nat) :
    ((BitVec.ofNat 8 (packBits bs)).toNat + 256 * (BitVec.ofNat 8 (packBits bs / 256)).toNat).testBit i =
      bs.getD i false := by
  have h1 := packBits_lt bs
  have h2 : 2 ^ bs.length ≤ 2 ^ 16 := Nat.pow_le_pow_right (by decide) h
  rw [bytes2_value (by omega), packBits_testBit]

end Machine
end Sys2Proof
end

