-- ==== Sys2Proof/Laws/Clock.lean ====
section
/-! SUPPORT. Time: when each command of the station's own timers is due, in the numbers of the chapters, and what one tick leaves of
the zone line and the link. -/

namespace Sys2Proof.Machine

/-! ### What is due -/

theorem stuckRuns_iff (z : Zone) : stuckRuns z = true ↔
    (z.ctl = .idle ∨ z.ctl = .wait) ∧ z.line = .dominant ∧ z.stuck = false := by
  unfold stuckRuns; exact decide_eq_true_iff

theorem dueClaimEnd_iff (s : State) : dueClaimEnd s = true ↔
    s.observing = true ∧ ∃ n, s.zone.claimPeriod = some n ∧ 150 ≤ n := by
  unfold dueClaimEnd claimTicks microsecond
  cases s.zone.claimPeriod <;> simp

theorem quietDue_iff (s : State) : quietDue s = true ↔ s.observing = true ∧ s.zone.claimPeriod = none ∧
    s.zone.ctl ≠ .claim ∧ s.zone.ctl ≠ .hold ∧ s.zone.quiet = false ∧ s.zone.line = .recessive ∧
    75 ≤ s.zone.recessiveTime := by
  unfold quietDue canBecomeQuiet quietTicks microsecond
  rw [Bool.and_eq_true, Bool.and_eq_true, decide_eq_true_iff, decide_eq_true_iff]
  simp only [and_assoc]

theorem dueStuck_iff (s : State) : dueStuck s = true ↔
    ((s.zone.ctl = .idle ∨ s.zone.ctl = .wait) ∧ s.zone.line = .dominant ∧ s.zone.stuck = false) ∧
    s.cfg.tw * 25000 ≤ s.zone.stuckTimer := by
  unfold dueStuck
  rw [Bool.and_eq_true, stuckRuns_iff, decide_eq_true_iff]; rfl

theorem dueFrameComplete_iff (s : State) : dueFrameComplete s = true ↔ s.link.tx = .send ∧ s.link.sendLeft = 0 :=
  decide_eq_true_iff

theorem dueBegin_iff (s : State) : dueBegin s = true ↔ s.link.tx = .defer ∧ s.link.beginIn = 0 := decide_eq_true_iff

theorem dueLinkIdle_iff (s : State) : dueLinkIdle s = true ↔ s.linkOn = true ∧ s.link.tx ≠ .send ∧
    s.link.idle = false ∧ s.link.level = .recessive ∧ 150 ≤ s.link.recessiveTime := by
  unfold dueLinkIdle
  rw [Bool.and_eq_true, decide_eq_true_iff]; rfl

theorem dueDrainEnd_iff (s : State) : dueDrainEnd s = true ↔
    s.rc.runState = .stopping ∧ s.rc.draining = true ∧ s.rc.drainTimer = 0 := decide_eq_true_iff

theorem takeable_iff (s : State) (c : Instr) : takeable s = some c ↔ s.operating = true ∧ ∃ f fs b,
    s.link.rxQueue = f :: fs ∧ disposal s.own f = .hand b c ∧ busyOf s.link b = none := by
  unfold takeable
  cases s.operating with
  | false => simp
  | true =>
    cases s.link.rxQueue with
    | nil => simp
    | cons f fs =>
      simp only [if_true, true_and, List.cons.injEq]
      constructor
      · intro h
        cases hd : disposal s.own f with
        | hand b c' =>
          rw [hd] at h
          by_cases hb : busyOf s.link b = none
          · simp only [hb, if_true] at h
            cases h; exact ⟨f, fs, b, ⟨rfl, rfl⟩, hd, hb⟩
          · simp only [hb, if_false] at h; cases h
        | discard => rw [hd] at h; cases h
        | badLength => rw [hd] at h; cases h
      · rintro ⟨f', fs', b, ⟨rfl, rfl⟩, h1, h2⟩
        rw [h1]; simp only [h2, if_true]

theorem awaitsOutside_iff (s : State) : awaitsOutside s = true ↔
    (s.operating = true ∧ s.pos.sampleClock = 0) ∨ (s.seq.sq = .hold ∧ s.seq.holdTimer = 0) ∨
    (s.zone.ctl = .claim ∧ s.zone.slotRead < 5 ∧ 25 * (s.zone.slotRead + 1) + 12 ≤ s.zone.claimPeriod.getD 0) := by
  unfold awaitsOutside slotMiddle microsecond
  rw [Bool.or_eq_true, Bool.or_eq_true, Bool.and_eq_true, decide_eq_true_iff, decide_eq_true_iff, decide_eq_true_iff,
    or_assoc, Nat.mul_comm 25]

/-- The step on an empty queue with a command due. -/
theorem step_due {s : State} {c : Instr} (h : s.pending = []) (d : due s = some c) : step s = exec c s := by
  rw [step_nil h]; unfold idleStep; rw [d]

/-- The step on an empty queue with nothing due. -/
theorem step_time {s : State} (h : s.pending = []) (d : due s = none) :
    step s = .next (if awaitsOutside s then s else tick s) := by
  rw [step_nil h]; unfold idleStep; rw [d]

/-! ### One tick -/

theorem countUp_lt {top n : Nat} (h : n < top) : countUp top n = n + 1 := if_pos h

theorem countUp_ge {top n : Nat} (h : top ≤ n) : countUp top n = n := if_neg (Nat.not_lt.mpr h)

/-- A station that is not sending drives nothing (R133). -/
theorem driven_rest {l : Link} (h : l.tx ≠ .send) : driven l = .recessive := by
  unfold driven
  split
  · exact absurd (by assumption) h
  · rfl

/-- A character takes 125 ticks: ten bits of 12.5 (R133). -/
theorem sendTicks_eq (chars : List Byte) : sendTicks chars = 125 * chars.length := by
  have h : (chars.map (fun b => (charLevels b).length)).sum = 10 * chars.length := by
    induction chars with
    | nil => rfl
    | cons c cs ih =>
      rw [List.map_cons, List.sum_cons, ih, List.length_cons]
      show 10 + _ = _
      omega
  unfold sendTicks
  rw [h]
  omega

/-- A sending station drives the bit that the time since its start lies in (R133). -/
theorem driven_send {l : Link} {fl : InFlight} (h : l.tx = .send) (hf : l.inFlight = some fl) : driven l =
    (fl.chars.flatMap charLevels).getD ((125 * fl.chars.length - l.sendLeft) * 2 / 25) .recessive := by
  unfold driven; rw [h, hf, ← sendTicks_eq]; rfl

/-! ### The link's level (R134, R141) -/

/-- What a dominant level leaves: the link busy, and the receiver at the start of a character where it looks for one. -/
theorem linkDominant_eq (l : Link) : linkDominant l = { l with
    level := .dominant, idle := false, recessiveTime := 0, rx := if l.rx = .hunt then .frame else l.rx
    gather := if l.rx = .hunt then ⟨some 0, [], []⟩
      else if l.rx = .frame ∧ l.level = .recessive ∧ l.gather.since = none then ⟨some 0, [], l.gather.chars⟩
      else l.gather } := by
  unfold linkDominant
  cases h : l.rx <;> dsimp only
  · simp
  · simp [startEdge, Gathering.empty]
  · split <;> simp_all [startEdge]
  · simp

/-- An edge on a link whose idle instant has come is that idle instant and then the edge (R134). -/
theorem linkEdge_due {s : State} (h : dueLinkIdle s = true) :
    linkEdge s = s.setLink (linkDominant (idleInstant s.own s.link)) := by unfold linkEdge; rw [if_pos h]

theorem linkEdge_else {s : State} (h : ¬dueLinkIdle s = true) : linkEdge s = s.setLink (linkDominant s.link) := by
  unfold linkEdge; rw [if_neg h]

/-- What following the drive can change: the level, the idle mark, the recessive time and the receiver's start of a
character. -/
theorem followDrive_eq (b : LineLevel) (l : Link) : followDrive b l = { l with
    level := (followDrive b l).level, idle := (followDrive b l).idle, recessiveTime := (followDrive b l).recessiveTime
    rx := (followDrive b l).rx, gather := (followDrive b l).gather } := by
  unfold followDrive
  split
  · rfl
  · split
    · rw [linkDominant_eq]
    · rfl

theorem followDrive_same {l : Link} {b : LineLevel} (h : driven l = b) : followDrive b l = l := if_pos h

theorem followDrive_dominant {l : Link} {b : LineLevel} (h : driven l ≠ b) (d : driven l = .dominant) :
    followDrive b l = linkDominant l := by unfold followDrive; rw [if_neg h, d]

theorem followDrive_recessive {l : Link} {b : LineLevel} (h : driven l ≠ b) (d : driven l = .recessive) :
    followDrive b l = { l with level := .recessive, recessiveTime := 0 } := by unfold followDrive; rw [if_neg h, d]

/-! ### The receiver's tick (R133) -/

/-- A tick of the receiver touches what it gathers, and the recessive time at the end of a character. -/
theorem tickReceiver_eq (l : Link) : tickReceiver l = { l with
    gather := (tickReceiver l).gather
    recessiveTime := if l.rx = .frame ∧ 124 ≤ l.gather.since.getD 0 then 0 else l.recessiveTime } := by
  unfold tickReceiver
  split
  · rename_i m hr hs
    split <;> rename_i h <;> unfold charTicks microsecond at h
    · rw [if_neg (by rw [hs, Option.getD_some]; omega)]
    · rw [if_pos (by rw [hs, Option.getD_some]; exact ⟨hr, by omega⟩)]
  · rename_i hn
    rw [if_neg]
    rintro ⟨hr, h⟩
    cases hs : l.gather.since with
    | none => rw [hs] at h; simp at h
    | some m => exact hn m hr hs

theorem charByte_getLsbD (a b c d e f g h i : LineLevel) (rest : List LineLevel) : ∀ k < 8,
    (charByte (a :: b :: c :: d :: e :: f :: g :: h :: i :: rest)).getLsbD k =
      decide ((a :: b :: c :: d :: e :: f :: g :: h :: i :: rest).getD (k + 1) .dominant = .recessive) := by
  unfold charByte
  intro k hk
  rw [byte_packBits _ _ hk]
  interval_cases k <;> rfl

/-- What a tick does to the frame in the gathering, in the numbers of the chapter. -/
theorem tickReceiver_gathers (l : Link) : Gathers l (tickReceiver l).gather := by
  unfold tickReceiver
  constructor
  · intro h
    split
    · rename_i m hr hs
      rcases h with h | h
      · exact absurd hr h
      · rw [hs] at h; cases h
    · rfl
  · intro m hr hs hm
    rw [hr, hs]
    simp only [show m + 1 < charTicks by unfold charTicks microsecond; omega, if_true]
    unfold readBit bitMiddle
    split <;> rename_i h
    · exact ⟨rfl, rfl, fun _ => rfl, fun n => absurd h n⟩
    · exact ⟨rfl, rfl, fun n => absurd n h, fun _ => rfl⟩
  · intro m hr hs hm
    rw [hr, hs]
    simp only [show ¬ m + 1 < charTicks by unfold charTicks microsecond; omega, if_false]
    refine ⟨rfl, rfl, _, rfl, fun h => ?_⟩
    match hb : l.gather.bits, h with
    | a :: b :: c :: d :: e :: f :: g :: h :: i :: rest, _ => exact charByte_getLsbD a b c d e f g h i rest

/-- A frame with its sync byte and all the characters its length gives parses exactly when its CRC is right. -/
theorem parseFrame_isSome {chars : List Byte} (h1 : chars = [] ∨ chars.getD 0 0 = 0x5A#8)
    (h2 : ¬32 < (chars.getD 4 0).toNat) (h3 : ¬chars.length < 7 + (chars.getD 4 0).toNat) :
    (parseFrame chars).isSome = true ↔ chars.drop (5 + (chars.getD 4 0).toNat) =
      crcBytes (crc16 ((chars.take (5 + (chars.getD 4 0).toNat)).drop 1)) := by
  match chars with
  | [] => simp at h3
  | [_] => simp at h3
  | [_, _] => simp at h3
  | [_, _, _] => simp at h3
  | [_, _, _, _] => simp at h3
  | sync :: src :: kind :: run :: len :: rest =>
    have e : (sync :: src :: kind :: run :: len :: rest).getD 4 0 = len := rfl
    rw [e] at h2 h3 ⊢
    have h0 : sync = 0x5A#8 := by rcases h1 with h | h; exact absurd h (by simp); exact h
    have d : (sync :: src :: kind :: run :: len :: rest).drop (5 + len.toNat) = rest.drop len.toNat := by
      rw [Nat.add_comm]; rfl
    have t : ((sync :: src :: kind :: run :: len :: rest).take (5 + len.toNat)).drop 1 =
        src :: kind :: run :: len :: rest.take len.toNat := by rw [Nat.add_comm]; rfl
    rw [d, t]
    unfold parseFrame
    dsimp only
    constructor
    · split
      · rename_i h; exact fun _ => h.2.2.2
      · intro h; cases h
    · intro h
      have hl := congrArg List.length h
      rw [List.length_drop] at hl
      simp only [List.length_cons] at h3
      have : (crcBytes (crc16 (src :: kind :: run :: len :: rest.take len.toNat))).length = 2 := rfl
      rw [if_pos ⟨h0, by omega, by omega, h⟩]; rfl

/-- What the checks say of the frame gathered so far, in the numbers of the chapters. -/
theorem receptionVerdict_iff (g : Gathering) (c : Instr) : receptionVerdict g = some c ↔ Judged g c := by
  have some_iff : ∀ d : Instr, some d = some c ↔ c = d := by
    intro d
    constructor <;> intro h
    · exact (Option.some.inj h).symm
    · rw [h]
  have none_iff : (none : Option Instr) = some c ↔ False := ⟨nofun, False.elim⟩
  have hs : g.chars.headD 0x5A#8 ≠ 0x5A#8 ↔ ¬(g.chars = [] ∨ g.chars.getD 0 0 = 0x5A#8) := by cases g.chars <;> simp
  have hl : ∀ x : LineLevel, x = .dominant ↔ ¬x = .recessive := by intro x; cases x <;> simp
  have hp : (g.chars = [] ∨ g.chars.getD 0 0 = 0x5A#8) → ¬32 < (g.chars.getD 4 0).toNat →
      ¬g.chars.length < 7 + (g.chars.getD 4 0).toNat → ((parseFrame g.chars).isSome = true ↔
      g.chars.drop (5 + (g.chars.getD 4 0).toNat) =
        crcBytes (crc16 ((g.chars.take (5 + (g.chars.getD 4 0).toNat)).drop 1))) := parseFrame_isSome
  unfold receptionVerdict Judged
  dsimp only
  simp only [hs, hl]
  rw [← Nat.not_lt (a := 32), ← Nat.not_lt (b := 7 + (g.chars.getD 4 0).toNat)]
  by_cases f : g.bits.getD 9 .recessive = .recessive
  · by_cases s : g.chars = [] ∨ g.chars.getD 0 0 = 0x5A#8
    · by_cases l : 32 < (g.chars.getD 4 0).toNat
      · simp only [f, s, l, not_true, if_true, if_false, true_and, false_and, or_false, false_or, some_iff]
      · by_cases w : g.chars.length < 7 + (g.chars.getD 4 0).toNat
        · simp only [f, s, l, w, not_true, not_false_iff, if_true, if_false, true_and, false_and, or_false, none_iff]
        · simp only [f, s, l, w, hp s l w, not_true, not_false_iff, if_false, true_and, false_and, false_or]
          split <;> rename_i x <;> simp only [x, not_true, not_false_iff, true_and, false_and, or_false, false_or, some_iff]
    · simp only [f, s, not_true, not_false_iff, if_true, if_false, true_and, false_and, or_false, false_or, some_iff]
  · simp only [f, not_false_iff, if_true, true_and, false_and, or_false, some_iff]

theorem dueReception_iff (s : State) (c : Instr) :
    dueReception s = some c ↔ s.link.rx = .frame ∧ Judged s.link.gather c := by
  unfold dueReception
  rw [← receptionVerdict_iff]
  split <;> rename_i h
  · simp [h]
  · simp [h]

theorem dueMismatch_iff (s : State) : dueMismatch s = true ↔ s.link.tx = .send ∧ ∃ fl, s.link.inFlight = some fl ∧
    let at_ := 125 * fl.chars.length - s.link.sendLeft
    at_ = (50 * (at_ * 2 / 25) + 28) / 4 ∧
    s.link.level ≠ (fl.chars.flatMap charLevels).getD (at_ * 2 / 25) .recessive := by
  unfold dueMismatch bitMiddle
  split
  · rename_i fl h1 h2
    rw [decide_eq_true_iff, driven_send h1 h2, sendTicks_eq]
    constructor
    · exact fun h => ⟨h1, fl, h2, h⟩
    · rintro ⟨_, fl', h3, h⟩
      rw [h2] at h3; cases h3; exact h
  · rename_i hn
    simp only [Bool.false_eq_true, false_iff]
    rintro ⟨h1, fl, h2, _⟩
    exact hn fl h1 h2

/-- A tick of a link this station is not sending on is its timers and the receiver's. -/
theorem tickLink_rest {on : Bool} {l : Link} (h : l.tx ≠ .send) :
    tickLink on l = tickReceiver (tickLinkTimers on l) := by
  unfold tickLink
  apply followDrive_same
  rw [driven_rest h, driven_rest (by rw [tickReceiver_eq]; exact h)]

/-- A station that neither claims nor holds drives nothing (3.2). -/
theorem zoneDriven_rest {z : Zone} (c : z.ctl ≠ .claim) (h : z.ctl ≠ .hold) : zoneDriven z = .recessive := by
  unfold zoneDriven
  split
  · exact absurd (by assumption) h
  · exact absurd (by assumption) c
  all_goals rfl

theorem zoneDriven_hold {z : Zone} (h : z.ctl = .hold) : zoneDriven z = .dominant := by unfold zoneDriven; rw [h]

/-- A claimant drives its start slot dominant, and a code slot where its bit is 0 (3.1.1, R44). -/
theorem zoneDriven_claim {z : Zone} (h : z.ctl = .claim) : zoneDriven z =
    if z.claimPeriod.getD 0 / 25 = 0 ∨ z.claimCode.getLsbD (5 - min 5 (z.claimPeriod.getD 0 / 25)) = false
    then .dominant else .recessive := by
  unfold zoneDriven microsecond
  rw [h]
  dsimp only
  generalize z.claimPeriod.getD 0 / 25 = slot
  cases hb : z.claimCode.getLsbD (5 - min 5 slot)
  · simp
  · by_cases hs : slot = 0
    · simp [hs]
    · rw [if_pos ⟨by omega, rfl⟩, if_neg (by simp [hs])]

/-- The line that a claim leaves at its end: recessive where it drove slot 5 dominant, else as it stands (R48). -/
theorem levelUndriven_claim {z : Zone} (h : z.ctl = .claim) : levelUndriven (zoneDriven z) z.line =
    if z.claimPeriod.getD 0 / 25 = 0 ∨ z.claimCode.getLsbD (5 - min 5 (z.claimPeriod.getD 0 / 25)) = false
    then .recessive else z.line := by
  rw [zoneDriven_claim h]; split <;> rfl

/-- The start slot of a claim is driven dominant (3.1.1). -/
theorem zoneDriven_start {z : Zone} (h : z.ctl = .claim) (n : z.claimPeriod.getD 0 < 25) : zoneDriven z = .dominant := by
  unfold zoneDriven
  rw [h]
  simp only
  rw [if_neg]
  rintro ⟨g, _⟩
  have : z.claimPeriod.getD 0 / microsecond = 0 := Nat.div_eq_of_lt n
  omega

/-- In a code slot the station drives the slot's bit (R44). -/
theorem zoneDriven_slot {z : Zone} (k : CodeSlot) (h : z.ctl = .claim) (lo : 25 * k.num ≤ z.claimPeriod.getD 0)
    (hi : z.claimPeriod.getD 0 < 25 * (k.num + 1)) : zoneDriven z = slotDrive z.claimCode k := by
  have e : z.claimPeriod.getD 0 / microsecond = k.num := by
    unfold microsecond; exact Nat.div_eq_of_lt_le (by omega) (by omega)
  have r : 1 ≤ k.num ∧ k.num ≤ 5 := by cases k <;> decide
  unfold zoneDriven slotDrive
  rw [h, e, Nat.min_eq_right r.2]
  simp only [r.1, true_and]

/-- What following the drive can change: the level and the recessive time. -/
theorem followZoneDrive_eq (b : LineLevel) (z : Zone) : followZoneDrive b z = { z with
    line := (followZoneDrive b z).line, recessiveTime := (followZoneDrive b z).recessiveTime } := by
  unfold followZoneDrive
  split
  · rfl
  · split <;> rfl

theorem followZoneDrive_same {z : Zone} {b : LineLevel} (h : zoneDriven z = b) : followZoneDrive b z = z := if_pos h

theorem followZoneDrive_change {z : Zone} {b : LineLevel} (h : zoneDriven z ≠ b) :
    (followZoneDrive b z).line = zoneDriven z ∧
    (zoneDriven z = .dominant → (followZoneDrive b z).recessiveTime = 0) ∧
    (zoneDriven z = .recessive → (followZoneDrive b z).recessiveTime = z.recessiveTime) := by
  unfold followZoneDrive
  rw [if_neg h]
  split
  · rename_i e; exact ⟨e.symm, fun _ => rfl, fun x => by rw [e] at x; cases x⟩
  · rename_i e; exact ⟨e.symm, fun x => by (rw [e] at x; cases x), fun _ => rfl⟩

/-- A tick of an observed line this station does not claim is its timers alone. -/
theorem tickZone_rest {tw : Nat} {z : Zone} (c : z.ctl ≠ .claim) : tickZone true tw z = tickZoneTimers tw z := by
  unfold tickZone
  rw [if_pos rfl]
  apply followZoneDrive_same
  by_cases h : z.ctl = .hold
  · rw [zoneDriven_hold h, zoneDriven_hold (z := tickZoneTimers tw z) (by exact h)]
  · rw [zoneDriven_rest c h, zoneDriven_rest (z := tickZoneTimers tw z) (by exact c) (by exact h)]

theorem tick_keeps (s : State) : Keeps [.rc, .pos, .seq, .zone, .link] s (tick s) := by
  constructor <;> intro h <;> first | exact absurd (by decide) h | rfl

/-! ### Quiet (R40, R43, R51) -/

/-- What a line that becomes quiet leaves: STUCK cleared with its event, and a waiting request in its claim (R40, R43, R51). -/
theorem quietReached_spec (s : State) :
    (quietReached s).zone = (let z := { s.zone with quiet := true, line := .recessive, recessiveTime := 75, stuckTimer := 0, stuck := false };
       if s.zone.ctl = .wait then enterClaim s.rc.straps.address z else z) ∧
    (quietReached s).rc = s.rc ∧
    (s.zone.stuck = false → (quietReached s).link = s.link) ∧
    (s.zone.stuck = true → s.link.q0.length < 4 → (quietReached s).link.q0 = s.link.q0 ++ [⟨s.rc.run, .zoneClear⟩]) := by
  have cs : ∀ u : State, clearStuck u = if u.zone.stuck then queueEvent .zoneClear (u.setZone { u.zone with stuck := false }) else u := fun _ => rfl
  refine ⟨?_, (quietReached_keeps s).rc (by decide), ?_, ?_⟩
  · unfold quietReached
    cases hs : s.zone.stuck <;> simp only [cs, State.setZone_zone, hs] <;> by_cases hw : s.zone.ctl = .wait <;> simp [hw, queueEvent, quietTicks, microsecond]
  · intro hs
    unfold quietReached
    simp only [cs, State.setZone_zone, hs]
    by_cases hw : s.zone.ctl = .wait <;> simp [hw]
  · intro hs hq
    unfold quietReached
    simp only [cs, State.setZone_zone, hs, if_true]
    have : ∀ u : State, u.link.q0.length < 4 → (queueEvent .zoneClear u).link.q0 = u.link.q0 ++ [⟨u.rc.run, .zoneClear⟩] := by
      intro u h; rw [queueEvent_link, offer0_room _ _ (by exact h)]; simp [eventRun]
    by_cases hw : s.zone.ctl = .wait
    · simp only [queueEvent_zone, State.setZone_zone, hw, if_true, State.setZone_link]
      rw [this _ (by exact hq)]; rfl
    · simp only [queueEvent_zone, State.setZone_zone, hw, if_false]
      rw [this _ (by exact hq)]; rfl

end Sys2Proof.Machine
end

