-- ==== Sys2Proof/Laws/Hands.lean ====
section
/-! SUPPORT. Records handed to the transmit queues: for each shared operation, the classes whose queues it can reach. `Hands classes s t`
says that the link of t is that of s but for those queues and the rank a record's arrival gives (R135, R137). -/

namespace Sys2Proof.Machine

theorem satAdd_eq (a k : Nat) : satAdd a k = min (a + k) 65535 := rfl

/-- Two rises of a statistics counter are one of their sum. -/
theorem satAdd_satAdd (n a b : Nat) : satAdd (satAdd n a) b = satAdd n (a + b) := by unfold satAdd; omega

/-! ### One record -/

theorem HandsTo.refl (own : Nat) (cs : List TxClass) (l : Link) : HandsTo own cs l l := by
  refine ⟨rfl, ?_, ?_, ?_, ?_, ⟨List.prefix_rfl, List.prefix_rfl, List.prefix_rfl, List.prefix_rfl⟩, .inl ⟨rfl, rfl, rfl⟩⟩ <;>
    intro _ <;> exact ⟨rfl, rfl⟩

/-- A class that holds a record still holds it where its queue has only grown. -/
theorem headOf_grows {l m : Link} {c : TxClass} (h0 : l.q0 <+: m.q0) (h1 : l.q1 <+: m.q1) (h2 : l.q2 <+: m.q2)
    (h3 : l.q3 <+: m.q3) (h : headOf l c = true) : headOf m c = true := by
  have key : ∀ {α : Type} {x y : List α}, x <+: y → (!x.isEmpty) = true → (!y.isEmpty) = true := by
    intro α x y p e
    cases x with
    | nil => cases e
    | cons a x => obtain ⟨z, rfl⟩ := p; rfl
  cases c
  · exact key h0 h
  · exact key h1 h
  · exact key h2 h
  · exact key h3 h

theorem HandsTo.trans {own : Nat} {cs : List TxClass} {l m n : Link} (h : HandsTo own cs l m) (k : HandsTo own cs m n) :
    HandsTo own cs l n where
  rest := by have := h.rest; rw [k.rest, h.rest]
  c0 x := ⟨(k.c0 x).1.trans (h.c0 x).1, (k.c0 x).2.trans (h.c0 x).2⟩
  c1 x := ⟨(k.c1 x).1.trans (h.c1 x).1, (k.c1 x).2.trans (h.c1 x).2⟩
  c2 x := ⟨(k.c2 x).1.trans (h.c2 x).1, (k.c2 x).2.trans (h.c2 x).2⟩
  c3 x := ⟨(k.c3 x).1.trans (h.c3 x).1, (k.c3 x).2.trans (h.c3 x).2⟩
  queued := ⟨h.queued.1.trans k.queued.1, h.queued.2.1.trans k.queued.2.1, h.queued.2.2.1.trans k.queued.2.2.1,
    h.queued.2.2.2.trans k.queued.2.2.2⟩
  ranked := by
    obtain ⟨q0, q1, q2, q3⟩ := k.queued
    have idle : m.idle = l.idle := by rw [h.rest]
    have since : m.sinceIdle = l.sinceIdle := by rw [h.rest]
    rcases h.ranked with ⟨a, b, c⟩ | ⟨a, b, c, x, hx, d, e, f⟩
    · rcases k.ranked with ⟨a', b', c'⟩ | ⟨a', b', c', x, hx, d, e, f⟩
      · exact .inl ⟨a'.trans a, b'.trans b, c'.trans c⟩
      · exact .inr ⟨a ▸ a', idle ▸ b', b ▸ c', x, hx, d, e, since ▸ f⟩
    · rcases k.ranked with ⟨a', b', c'⟩ | ⟨a', _⟩
      · exact .inr ⟨a, b, c, x, headOf_grows q0 q1 q2 q3 hx, a'.trans d, b'.trans e, c'.trans f⟩
      · rw [d] at a'; cases a'

theorem HandsTo.mono {own : Nat} {cs ds : List TxClass} {l m : Link} (h : HandsTo own cs l m) (sub : ∀ c ∈ cs, c ∈ ds) :
    HandsTo own ds l m where
  rest := h.rest
  c0 x := h.c0 (fun y => x (sub _ y))
  c1 x := h.c1 (fun y => x (sub _ y))
  c2 x := h.c2 (fun y => x (sub _ y))
  c3 x := h.c3 (fun y => x (sub _ y))
  queued := h.queued
  ranked := h.ranked

/-- The rank a record takes on its arrival: that of the lowest class that holds one (R137). -/
theorem recordArrived_ranked (own : Nat) {l : Link} {c : TxClass} (h : headOf l c = true) :
    ((recordArrived own l).tx = l.tx ∧ (recordArrived own l).rank = l.rank ∧ (recordArrived own l).beginIn = l.beginIn) ∨
    (l.tx = .idle ∧ l.idle = true ∧ l.rank = none ∧ ∃ c, headOf l c = true ∧ (recordArrived own l).tx = .defer ∧
      (recordArrived own l).rank = some (16 * c.num + own) ∧
      (recordArrived own l).beginIn = 25 * (16 * c.num + own) - l.sinceIdle) := by
  rcases recordArrived_cases own l with e | ⟨h1, h2, h3, e⟩
  · rw [e]; exact .inl ⟨rfl, rfl, rfl⟩
  · rw [e]
    refine .inr ⟨h1, h2, h3, ?_⟩
    have some_of : ∃ d, lowestClass l = some d ∧ headOf l d = true := by
      unfold lowestClass
      cases h0 : l.q0 with
      | cons => exact ⟨.c0, by simp, by simp [headOf, h0]⟩
      | nil =>
        cases h1 : l.q1 with
        | cons => exact ⟨.c1, by simp, by simp [headOf, h1]⟩
        | nil =>
          cases h2 : l.q2 with
          | cons => exact ⟨.c2, by simp, by simp [headOf, h2]⟩
          | nil =>
            cases h3 : l.q3 with
            | cons => exact ⟨.c3, by simp, by simp [headOf, h3]⟩
            | nil => cases c <;> simp [headOf, h0, h1, h2, h3] at h
    obtain ⟨d, hd, hh⟩ := some_of
    refine ⟨d, hh, ?_⟩
    unfold takeRank
    rw [hd]
    exact ⟨rfl, by simp only [rankOf]; rw [Nat.mul_comm], by simp only [rankOf, microsecond]; rw [Nat.mul_comm, Nat.mul_comm d.num]⟩

theorem offer0_hands (own : Nat) (r : Queued StationEvent) (l : Link) : HandsTo own [.c0] l (offer0 own r l) := by
  by_cases h : l.q0.length < cap0
  · have k := recordArrived_ranked own (l := { l with q0 := l.q0 ++ [r] }) (c := .c0) (by simp [headOf])
    have e := recordArrived_eq own { l with q0 := l.q0 ++ [r] }
    rw [offer0_room _ _ h, e]
    exact ⟨rfl, fun x => absurd (by decide) x, fun _ => ⟨rfl, rfl⟩, fun _ => ⟨rfl, rfl⟩, fun _ => ⟨rfl, rfl⟩,
      ⟨List.prefix_append .., List.prefix_rfl, List.prefix_rfl, List.prefix_rfl⟩, k⟩
  · rw [offer0_full _ _ h]
    exact ⟨rfl, fun x => absurd (by decide) x, fun _ => ⟨rfl, rfl⟩, fun _ => ⟨rfl, rfl⟩, fun _ => ⟨rfl, rfl⟩,
      ⟨List.prefix_rfl, List.prefix_rfl, List.prefix_rfl, List.prefix_rfl⟩, .inl ⟨rfl, rfl, rfl⟩⟩

theorem offer1_hands (own : Nat) (r : Queued Call) (l : Link) : HandsTo own [.c1] l (offer1 own r l) := by
  by_cases h : l.q1.length < cap1
  · have k := recordArrived_ranked own (l := { l with q1 := l.q1 ++ [r] }) (c := .c1) (by simp [headOf])
    have e := recordArrived_eq own { l with q1 := l.q1 ++ [r] }
    rw [offer1_room _ _ h, e]
    exact ⟨rfl, fun _ => ⟨rfl, rfl⟩, fun x => absurd (by decide) x, fun _ => ⟨rfl, rfl⟩, fun _ => ⟨rfl, rfl⟩,
      ⟨List.prefix_rfl, List.prefix_append .., List.prefix_rfl, List.prefix_rfl⟩, k⟩
  · rw [offer1_full _ _ h]
    exact ⟨rfl, fun _ => ⟨rfl, rfl⟩, fun x => absurd (by decide) x, fun _ => ⟨rfl, rfl⟩, fun _ => ⟨rfl, rfl⟩,
      ⟨List.prefix_rfl, List.prefix_rfl, List.prefix_rfl, List.prefix_rfl⟩, .inl ⟨rfl, rfl, rfl⟩⟩

theorem offer2_hands (own : Nat) (r : Queued Indication) (l : Link) : HandsTo own [.c2] l (offer2 own r l) := by
  by_cases h : l.q2.length < cap2
  · have k := recordArrived_ranked own (l := { l with q2 := l.q2 ++ [r] }) (c := .c2) (by simp [headOf])
    have e := recordArrived_eq own { l with q2 := l.q2 ++ [r] }
    rw [offer2_room _ _ h, e]
    exact ⟨rfl, fun _ => ⟨rfl, rfl⟩, fun _ => ⟨rfl, rfl⟩, fun x => absurd (by decide) x, fun _ => ⟨rfl, rfl⟩,
      ⟨List.prefix_rfl, List.prefix_rfl, List.prefix_append .., List.prefix_rfl⟩, k⟩
  · rw [offer2_full _ _ h]
    exact ⟨rfl, fun _ => ⟨rfl, rfl⟩, fun _ => ⟨rfl, rfl⟩, fun x => absurd (by decide) x, fun _ => ⟨rfl, rfl⟩,
      ⟨List.prefix_rfl, List.prefix_rfl, List.prefix_rfl, List.prefix_rfl⟩, .inl ⟨rfl, rfl, rfl⟩⟩

theorem offer3_hands (own : Nat) (r : Queued GapRecord) (l : Link) : HandsTo own [.c3] l (offer3 own r l) := by
  by_cases h : l.q3.length < cap3
  · have k := recordArrived_ranked own (l := { l with q3 := l.q3 ++ [r] }) (c := .c3) (by simp [headOf])
    have e := recordArrived_eq own { l with q3 := l.q3 ++ [r] }
    rw [offer3_room _ _ h, e]
    exact ⟨rfl, fun _ => ⟨rfl, rfl⟩, fun _ => ⟨rfl, rfl⟩, fun _ => ⟨rfl, rfl⟩, fun x => absurd (by decide) x,
      ⟨List.prefix_rfl, List.prefix_rfl, List.prefix_rfl, List.prefix_append ..⟩, k⟩
  · rw [offer3_full _ _ h]
    exact ⟨rfl, fun _ => ⟨rfl, rfl⟩, fun _ => ⟨rfl, rfl⟩, fun _ => ⟨rfl, rfl⟩, fun x => absurd (by decide) x,
      ⟨List.prefix_rfl, List.prefix_rfl, List.prefix_rfl, List.prefix_rfl⟩, .inl ⟨rfl, rfl, rfl⟩⟩

/-- An event goes last on class 0, or is counted as dropped there (R135, R154). -/
theorem offer0_handed (own : Nat) (run : Byte) (e : StationEvent) (l : Link) : EventHanded own run e l (offer0 own ⟨run, e⟩ l) where
  room h := by rw [offer0_room _ _ h]; simp
  full h := offer0_full _ _ (by unfold cap0; omega)
  hands := offer0_hands ..

/-! ### States -/

/-- From s to t records go to some classes at most, and the station keeps its address. -/
structure Hands (classes : List TxClass) (s t : State) : Prop where
  own : t.own = s.own
  link : HandsTo s.own classes s.link t.link

theorem Hands.refl (cs : List TxClass) (s : State) : Hands cs s s := ⟨rfl, HandsTo.refl ..⟩

theorem Hands.trans {cs : List TxClass} {s t u : State} (h : Hands cs s t) (k : Hands cs t u) : Hands cs s u :=
  ⟨k.own.trans h.own, h.link.trans (h.own ▸ k.link)⟩

theorem Hands.mono {cs ds : List TxClass} {s t : State} (h : Hands cs s t) (sub : ∀ c ∈ cs, c ∈ ds) : Hands ds s t :=
  ⟨h.own, h.link.mono sub⟩

theorem Hands.foldl {α : Type} {cs : List TxClass} {f : State → α → State} (h : ∀ s a, Hands cs s (f s a)) (xs : List α)
    (s : State) : Hands cs s (xs.foldl f s) := by
  induction xs generalizing s with
  | nil => exact Hands.refl cs s
  | cons x xs ih => exact (h s x).trans (ih (f s x))

/-- A change that leaves the link and the Run Controller hands on nothing. -/
theorem Hands.kept {bs : List Part} {cs : List TxClass} {s t : State} (h : Keeps bs s t)
    (link : Part.link ∉ bs := by decide) (rc : Part.rc ∉ bs := by decide) : Hands cs s t :=
  ⟨by unfold State.own; rw [h.rc rc], by rw [h.link link]; exact HandsTo.refl ..⟩

/-! ### The queues -/

theorem queueEvent_hands (e : StationEvent) (s : State) : Hands [.c0] s (queueEvent e s) := ⟨rfl, offer0_hands ..⟩
theorem queueCall_hands (r : Call) (s : State) : Hands [.c1] s (queueCall r s) := ⟨rfl, offer1_hands ..⟩
theorem queueIndication_hands (r : Indication) (s : State) : Hands [.c2] s (queueIndication r s) := ⟨rfl, offer2_hands ..⟩
theorem queueGap_hands (r : GapRecord) (s : State) : Hands [.c3] s (queueGap r s) := ⟨rfl, offer3_hands ..⟩

/-! ### Correlation Unit -/

theorem buildCall_hands (n : Nat) (a : Indication) (b : Option Indication) (u e : Bool) (s : State) :
    Hands [.c1] s (buildCall n a b u e s) := by
  unfold buildCall
  dsimp only
  split
  · exact (Hands.kept (keeps_setCorr _ _)).trans (.kept (keeps_setCorr _ _))
  · exact (Hands.kept (keeps_setCorr _ _)).trans (queueCall_hands _ _)

theorem leaveEffect_hands (early : Bool) (s : State) (e : Entry) : Hands [.c1] s (leaveEffect early s e) := by
  unfold leaveEffect
  split
  · split
    · exact buildCall_hands ..
    · exact .kept (keeps_setCorr _ _)
  · exact .refl _ _

theorem frontierIncrease_hands (front : Int) (s : State) : Hands [.c1] s (frontierIncrease front s) :=
  ((Hands.kept (keeps_setCorr _ _)).trans (Hands.foldl (leaveEffect_hands false) _ _)).trans (.kept (keeps_setCorr _ _))

theorem forceOut_hands (s : State) : Hands [.c1] s (forceOut s) := by
  unfold forceOut
  split
  · exact .refl _ _
  · exact (Hands.kept (keeps_setCorr _ _)).trans (leaveEffect_hands ..)

theorem insertPaired_hands (n : Indication) (s : State) : Hands [.c1] s (insertPaired n s) := by
  unfold insertPaired
  dsimp only
  split
  · exact .kept (keeps_setCorr _ _)
  · split
    · exact (Hands.kept (keeps_setCorr _ _)).trans (buildCall_hands ..)
    · exact .kept (keeps_setCorr _ _)

theorem insertRecord_hands (n : Indication) (s : State) : Hands [.c1] s (insertRecord n s) := by
  unfold insertRecord
  split
  · exact (forceOut_hands s).trans (insertPaired_hands n _)
  · exact insertPaired_hands n s

theorem correlationDrainEnd_hands (s : State) : Hands [.c1] s (correlationDrainEnd s) :=
  ((Hands.kept (keeps_setCorr _ _)).trans (Hands.foldl (leaveEffect_hands false) _ _)).trans (.kept (keeps_setCorr _ _))

/-! ### Indication Tracker -/

theorem evaluateClosed_hands (c : Chan) (s : State) (x : Slot × CloseMark) : Hands [.c1, .c2] s (evaluateClosed c s x) := by
  unfold evaluateClosed
  dsimp only
  split
  · exact ((Hands.kept (cs := [.c1, .c2]) (keeps_setTrk _ _)).trans ((insertRecord_hands _ _).mono (by decide))).trans
      ((queueIndication_hands _ _).mono (by decide))
  · exact .kept (keeps_setTrk _ _)

theorem settleSlots_hands (c : Chan) (sl : ChanSlots) (xs : List (Slot × CloseMark)) (s : State) :
    Hands [.c1, .c2] s (settleSlots c sl xs s) :=
  (Hands.kept (keeps_setTrk _ _)).trans (Hands.foldl (evaluateClosed_hands c) _ _)

theorem hitRecord_hands (h : HitRecord) (s : State) : Hands [.c1, .c2] s (hitRecord h s) :=
  (Hands.kept (keeps_setTrk _ _)).trans (settleSlots_hands ..)

theorem firingNoHit_hands (c : Chan) (s : State) : Hands [.c1, .c2] s (firingNoHit c s) := settleSlots_hands ..

theorem closureRequest_hands (c : Chan) (s : State) : Hands [.c1, .c2] s (closureRequest c s) := settleSlots_hands ..

theorem closureRequests_hands (cs : List Chan) (s : State) : Hands [.c1, .c2] s (closureRequests cs s) :=
  Hands.foldl (fun t c => closureRequest_hands c t) _ _

/-! ### Coverage Tracker -/

theorem closeGap_hands (c : Chan) (g : OpenGap) (how : Closure) (s : State) : Hands [.c3] s (closeGap c g how s) :=
  (Hands.kept (keeps_setCov _ _)).trans (queueGap_hands ..)

theorem takeOutcome_hands (c : Chan) (o : ChanOutcome) (basis : Int) (s : State) : Hands [.c3] s (takeOutcome c o basis s) := by
  unfold takeOutcome
  dsimp only
  split
  · exact .kept (setCoverage_keeps _ _ _)
  · exact (Hands.kept (setCoverage_keeps _ _ _)).trans (closeGap_hands ..)
  · exact .kept (setCoverage_keeps _ _ _)
  · split
    · unfold extendGap
      dsimp only
      split
      · exact (Hands.kept (setCoverage_keeps _ _ _)).trans (closeGap_hands ..)
      · exact .kept (setCoverage_keeps _ _ _)
    · exact (closeGap_hands ..).trans (.kept (setCoverage_keeps _ _ _))

theorem channelOutcome_hands (c : Chan) (o : ChanOutcome) (basis : Int) (s : State) :
    Hands [.c3] s (channelOutcome c o basis s) := by
  unfold channelOutcome
  split
  · exact (takeOutcome_hands ..).trans (.kept (coverageMark_keeps _ _))
  · exact takeOutcome_hands ..

theorem afterHanded_hands (hs : List Handed) (s : State) : Hands [.c3] s (afterHanded hs s) :=
  Hands.foldl (fun t (h : Handed) => channelOutcome_hands h.chan h.outcome h.basis t) _ _

theorem closeAllGaps_hands (s : State) : Hands [.c3] s (closeAllGaps s) := Hands.foldl (fun s c => by
  unfold stopGap
  split
  · exact .refl _ _
  · exact closeGap_hands ..) _ _

/-! ### Coupling Monitor and Gate Evaluator -/

theorem mResult_hands (c : Chan) (b : Bool) (s : State) : Hands [.c1, .c2] s (mResult c b s) := by
  unfold mResult
  dsimp only
  split
  · exact (Hands.kept (keeps_setCoup _ _)).trans (closureRequests_hands ..)
  · exact .kept (keeps_setCoup _ _)

theorem handM_hands (s : State) (r : EvalRecord) : Hands [.c1, .c2] s (handM s r) := by
  unfold handM
  split
  · exact mResult_hands ..
  · exact .refl _ _

theorem handF_hands (pv : Int) (s : State) (r : EvalRecord) : Hands [.c1, .c2] s (handF pv s r) := by
  have judged : Hands [.c1, .c2] s (judgeHit pv s r) := by
    unfold judgeHit
    split
    · exact .refl _ _
    · exact hitRecord_hands ..
    · exact hitRecord_hands ..
    · exact firingNoHit_hands ..
    · exact firingNoHit_hands ..
  unfold handF
  dsimp only
  split
  · exact judged.trans (closureRequest_hands ..)
  · exact judged

/-- The hand-over of a volley (R67 to R69). -/
theorem completeVolley_hands (v : Volley) (e : PlanEntry) (x : PortEchoes) (s : State) :
    Hands [.c1, .c2, .c3] s (completeVolley v e x s) :=
  ((Hands.foldl (fun s r => (handM_hands s r).mono (by decide)) _ _).trans
    (Hands.foldl (fun s r => (handF_hands v.pv s r).mono (by decide)) _ _)).trans
    (Hands.foldl (fun _ _ => (channelOutcome_hands ..).mono (by decide)) _ _)

/-! ### Volley Sequencer -/

theorem handUnfired_hands (r : Reason) (basis : Int) (s : State) (e : PlanEntry) : Hands [.c3] s (handUnfired r basis s e) :=
  Hands.foldl (fun _ _ => channelOutcome_hands ..) _ _

theorem giveUp_hands (r : Reason) (i : Nat) (basis : Int) (es : List PlanEntry) (s : State) :
    Hands [.c3] s (giveUp r i basis es s) := Hands.foldl (handUnfired_hands r basis) _ _

theorem walk_hands (c : StepRef) (i : Nat) (es : List PlanEntry) (s : State) : Hands [.c3] s (walk c i es s).1 := by
  induction es generalizing i s with
  | nil => exact .refl _ _
  | cons e es ih =>
    unfold walk
    split
    · split
      · exact (handUnfired_hands ..).trans (ih _ _)
      · exact .refl _ _
    · exact ih _ _

/-- A request reaches no queue. -/
theorem makeRequest_hands (i : Nat) (e : PlanEntry) (s : State) : Hands [.c3] s (makeRequest i e s) :=
  .kept (makeRequest_keeps i e s)

theorem walkOn_hands (c : StepRef) (i : Nat) (s : State) : Hands [.c3] s (walkOn c i s) := by
  unfold walkOn
  dsimp only
  split
  · exact (walk_hands ..).trans (.kept (finishCycle_keeps _))
  · exact (walk_hands ..).trans (makeRequest_hands ..)

theorem takeOver_hands (c : StepRef) (s : State) : Hands [.c3] s (takeOver c s) := by
  unfold takeOver
  dsimp only
  have h := (Hands.kept (cs := [.c3]) (keeps_setSeq s { s.seq with cycle := some c })).trans (walk_hands c 0 s.cfg.plan _)
  split
  · exact h.trans (.kept (((keeps_setZone _ _).mono (by decide)).trans ((finishCycle_keeps _).mono (by decide)) : Keeps [.zone, .seq] _ _))
  · exact h.trans (.kept (keeps_setSeq _ _))

/-- A step taken hands on GAP records at most (R28 to R32). -/
theorem takeStep_hands (k : StepRef) (ks : List StepRef) (s : State) : Hands [.c3] s (takeStep k ks s) := by
  have skips : ∀ s, Hands [.c3] s (skippedSteps ks s) := fun s => Hands.foldl (fun _ _ => giveUp_hands ..) _ _
  unfold takeStep
  dsimp only
  split
  · exact .refl _ _
  · exact (skips _).trans ((Hands.kept (keeps_setSeq _ _)).trans (walkOn_hands ..))
  · refine (Hands.trans ?_ (skips _)).trans (takeOver_hands ..)
    unfold giveUpInPending
    split
    · exact giveUp_hands ..
    · exact .refl _ _
  · refine (Hands.trans ?_ (skips _)).trans (.kept (keeps_setSeq _ _))
    unfold giveUpInHold
    repeat' split
    all_goals first | exact giveUp_hands .. | exact .refl _ _

/-- The frontier's rise hands on the calls of the entries that age (R10, R122). -/
theorem raiseFrontier_hands (s : State) : Hands [.c1] s (raiseFrontier s) := by
  unfold raiseFrontier
  split
  · exact (Hands.kept (keeps_setPos _ _)).trans (frontierIncrease_hands ..)
  · exact .refl _ _

/-- A step issued hands on GAP records at most (R12). -/
theorem issueStep_hands (s : State) : Hands [.c3] s (issueStep s) := by
  unfold issueStep
  split
  · exact (Hands.kept (keeps_setPos _ _)).trans (takeStep_hands ..)
  · exact .refl _ _

/-- A claim's end hands on GAP records at most (R25). -/
theorem claimEnded_hands (s : State) : Hands [.c3] s (claimEnded s) := by
  have zone : ∀ (s : State) (z : Zone), Hands [.c3] s (s.setZone z) := fun _ _ => .kept (keeps_setZone _ _)
  have grant : ∀ s, Hands [.c3] s (takeGrant s) := by
    intro s
    unfold takeGrant
    dsimp only
    repeat' split
    · exact ((handUnfired_hands ..).trans (zone _ _)).trans (walkOn_hands ..)
    · exact .kept (((fireVolley_keeps _ _ _).mono (by decide)).trans ((keeps_setZone _ _).mono (by decide)) :
        Keeps [.seq, .acq, .zone] _ _)
    all_goals exact zone _ _
  unfold claimEnded
  dsimp only
  repeat' split
  · exact ((zone _ _).trans (zone _ _)).trans (zone _ _)
  · exact ((zone _ _).trans (zone _ _)).trans (grant _)
  · exact zone _ _

/-! ### Stopping and the volley's completion -/

/-- A change of the Run Controller that leaves the straps hands on nothing. -/
theorem Hands.setRc {cs : List TxClass} {s : State} {x : RunCtl} (h : x.straps = s.rc.straps) : Hands cs s (s.setRc x) :=
  ⟨by unfold State.own; rw [State.setRc_rc, h], HandsTo.refl ..⟩

theorem stoppingClose_hands (s : State) : Hands [.c1, .c2, .c3] s (stoppingClose s) := by
  unfold stoppingClose
  dsimp only
  exact (((closureRequests_hands Chan.all s).mono (by decide)).trans ((closeAllGaps_hands _).mono (by decide))).trans
    (Hands.setRc rfl)

theorem enterStopping_hands (s : State) : Hands [.c1, .c2, .c3] s (enterStopping s) := by
  have h : Hands [.c1, .c2, .c3] s
      (((s.setRc { s.rc with runState := .stopping }).setSeq (seqStop s.seq)).setZone (zoneStop s.zone)) :=
    ⟨rfl, HandsTo.refl ..⟩
  unfold enterStopping
  dsimp only
  split
  · exact h.trans (stoppingClose_hands _)
  · exact h

theorem volleyCompleted_hands (x : PortEchoes) (v : Volley) (e : PlanEntry) (s : State) :
    Hands [.c1, .c2, .c3] s (volleyCompleted x v e s) := by
  refine ((completeVolley_hands v e x s).trans (.kept (volleyCleared_keeps _))).trans ?_
  show Hands _ (volleyCleared (completeVolley v e x s)) (afterCompletion v (volleyCleared (completeVolley v e x s)))
  unfold afterCompletion
  repeat' split
  · exact ((Hands.kept (keeps_setSeq _ _)).trans (walkOn_hands ..)).mono (by decide)
  · exact (walkOn_hands ..).mono (by decide)
  · exact .kept (finishCycle_keeps _)
  · exact (Hands.kept (keeps_setSeq _ _)).trans (stoppingClose_hands _)

theorem applyMask_hands (p : MaskPayload) (s : State) : Hands [.c1, .c2] s (applyMask p s) :=
  (Hands.kept (keeps_setSeq _ _)).trans (closureRequests_hands ..)

/-! ### Frames taken (R144) -/

/-- A block that has taken the frame offered to it, and the discards that follow. -/
theorem linkAfterTaking_eq (b : Block) (n : Nat) (s : State) : linkAfterTaking b n s =
    discardAtDispatch s.own (setBusy { s.link with rxQueue := s.link.rxQueue.drop 1 } b (some n)) := by
  cases b <;> rfl

/-- The frame's effect comes before the discards, and they may be read in either order where it reaches the transmit queues
alone. -/
theorem HandsTo.discard {own : Nat} {cs : List TxClass} {l m : Link} (h : HandsTo own cs l m) :
    HandsTo own cs (discardAtDispatch own l) (discardAtDispatch own m) := by
  have q : m.rxQueue = l.rxQueue := by rw [h.rest]
  have e : m.receiveError = l.receiveError := by rw [h.rest]
  refine ⟨?_, h.c0, h.c1, h.c2, h.c3, h.queued, h.ranked⟩
  unfold discardAtDispatch
  rw [q, e, h.rest]

/-- So for an event that the frame brings. -/
theorem EventHanded.discard {own : Nat} {run : Byte} {e : StationEvent} {l m : Link} (h : EventHanded own run e l m) :
    EventHanded own run e (discardAtDispatch own l) (discardAtDispatch own m) where
  room := h.room
  full x := by rw [h.full x]; rfl
  hands := h.hands.discard

/-- What a taken frame leaves of the link, by its effect on the transmit queues. -/
theorem Hands.taken {b : Block} {n : Nat} {cs : List TxClass} {s t : State}
    (h : Hands cs (s.setLink (setBusy { s.link with rxQueue := s.link.rxQueue.drop 1 } b (some n))) t) :
    HandsTo s.own cs (linkAfterTaking b n s) (dispatchDiscards t).link := by
  rw [linkAfterTaking_eq]
  unfold dispatchDiscards
  rw [State.setLink_link, show t.own = s.own from h.own]
  exact h.link.discard

end Sys2Proof.Machine
end

