-- ==== Sys2Proof/Laws/Correlation.lean ====
section
/-! SUPPORT. The Correlation Unit: what building a call and the entries that leave the table come to. -/

namespace Sys2Proof.Machine

/-! ### Sequence numbers and queues -/

theorem seqAfter_succ (n k : Nat) : seqAfter (nextSeq n) k = seqAfter n (k + 1) := by
  cases k with
  | zero => rfl
  | succ k => show (nextSeq n + (k + 1)) % 65536 = (n + (k + 1 + 1)) % 65536; unfold nextSeq; omega

theorem seqAfter_add (n j k : Nat) : seqAfter (seqAfter n j) k = seqAfter n (j + k) := by
  cases j with
  | zero => rw [Nat.zero_add]; rfl
  | succ j =>
    cases k with
    | zero => rfl
    | succ k =>
      show ((n + (j + 1)) % 65536 + (k + 1)) % 65536 = (n + (j + 1 + k + 1)) % 65536
      omega

/-- Appending to a queue what there is room for, one list after another, is appending their join. -/
theorem append_take {α : Type} (q a b : List α) (cap : Nat) :
    (q ++ a.take (cap - q.length)) ++ b.take (cap - (q ++ a.take (cap - q.length)).length) =
      q ++ (a ++ b).take (cap - q.length) := by
  rw [List.take_append, ← List.append_assoc]
  congr 2
  simp only [List.length_append, List.length_take]
  omega

/-! ### Calls (R125) -/

/-- What a call leaves of the unit: the call sequence, and the suppressed counter where it is held back (R125). -/
theorem buildCall_corr (n : Nat) (a : Indication) (b : Option Indication) (u e : Bool) (s : State) :
    (buildCall n a b u e s).corr = { s.corr with
      callSeq := nextSeq s.corr.callSeq, suppressed := (buildCall n a b u e s).corr.suppressed } := by
  unfold buildCall; dsimp only
  split
  · rfl
  · rw [queueCall_corr]; rfl

/-- With no span, a call goes to class 1 and none is counted as suppressed (R125). -/
theorem buildCall_free {s : State} (n : Nat) (a : Indication) (b : Option Indication) (u e : Bool) (h : s.corr.spans = []) :
    (buildCall n a b u e s).corr.suppressed = s.corr.suppressed ∧
    (buildCall n a b u e s).link = offer1 s.own ⟨s.rc.run, callRecord s.corr.callSeq n s.rail a b u e⟩ s.link := by
  unfold buildCall; dsimp only
  rw [if_neg (by simp [h, withinSpan])]
  exact ⟨rfl, rfl⟩

/-- What a call leaves of the link: class 1 and its drop counter, and the transmitter's rank (R135, R137). -/
theorem buildCall_link (n : Nat) (a : Indication) (b : Option Indication) (u e : Bool) (s : State) :
    (buildCall n a b u e s).link = s.link ∨
    (buildCall n a b u e s).link = offer1 s.own ⟨s.rc.run, callRecord s.corr.callSeq n s.rail a b u e⟩ s.link := by
  unfold buildCall; dsimp only
  split
  · exact .inl rfl
  · exact .inr rfl

/-- A call is built: its number, and where it goes (R125, R135). -/
theorem buildCall_made (n : Nat) (a : Indication) (b : Option Indication) (u e : Bool) (s : State) :
    CallsMade s [callRecord s.corr.callSeq n s.rail a b u e] (buildCall n a b u e s) := by
  have hb : heldBack s.corr.spans (callRecord s.corr.callSeq n s.rail a b u e) =
      withinSpan s.corr.spans (callRecord s.corr.callSeq n s.rail a b u e).xLo
        (callRecord s.corr.callSeq n s.rail a b u e).xHi := rfl
  have hands := (buildCall_hands n a b u e s).link
  unfold buildCall at hands ⊢
  dsimp only at hands ⊢
  rw [← hb] at hands ⊢
  cases h : heldBack s.corr.spans (callRecord s.corr.callSeq n s.rail a b u e) with
  | true =>
    rw [h] at hands
    rw [if_pos rfl] at hands ⊢
    refine ⟨rfl, fun _ => by simp [h, satAdd], by simp [h], fun hd => ?_, hands⟩
    simp only [List.filter_cons, h, Bool.not_true, Bool.false_eq_true, if_false, List.filter_nil, List.length_nil, Nat.zero_sub]
    exact (Nat.min_eq_left hd).symm
  | false =>
    rw [h] at hands
    rw [if_neg (by decide)] at hands ⊢
    refine ⟨by rw [queueCall_corr]; rfl, fun hs => ?_, ?_, fun hd => ?_, hands⟩
    · rw [queueCall_corr]; simp only [List.filter_cons, h, Bool.false_eq_true, if_false, List.filter_nil, List.length_nil]
      exact (Nat.min_eq_left hs).symm
    all_goals
      simp only [List.filter_cons, h, Bool.not_false, if_true, List.filter_nil, List.map_cons, List.map_nil, List.length_singleton]
      rw [queueCall_link, State.setCorr_link, State.setCorr_rc]
      by_cases hq : s.link.q1.length < cap1
      · obtain ⟨k, hk⟩ : ∃ k, 24 - s.link.q1.length = k + 1 := ⟨23 - s.link.q1.length, by unfold cap1 at hq; omega⟩
        rw [offer1_room _ _ hq, hk]; simp [*]
      · have hk : 24 - s.link.q1.length = 0 := by unfold cap1 at hq; omega
        rw [offer1_full _ _ hq, hk]; simp [satAdd]

theorem CallsMade.refl (s : State) : CallsMade s [] s where
  seq := rfl
  suppressed := fun h => (Nat.min_eq_left h).symm
  queued := by simp
  dropped := fun h => by simp [h]
  hands := HandsTo.refl ..

theorem CallsMade.trans {s t u : State} {xs ys : List Call} (h : CallsMade s xs t) (k : CallsMade t ys u)
    (spans : t.corr.spans = s.corr.spans) (run : t.rc = s.rc) : CallsMade s (xs ++ ys) u where
  seq := by rw [k.seq, h.seq, seqAfter_add, List.length_append]
  suppressed := fun hs => by
    have e := h.suppressed hs
    rw [k.suppressed (by omega), e, spans, List.filter_append, List.length_append]
    omega
  queued := by rw [k.queued, h.queued, spans, run, List.filter_append, List.map_append, append_take]
  dropped := fun hd => by
    have e := h.dropped hd
    rw [k.dropped (by omega), e, h.queued, spans, List.filter_append, List.length_append, List.length_append,
      List.length_take, List.length_map]
    omega
  hands := h.hands.trans ((show t.own = s.own by unfold State.own; rw [run]) ▸ k.hands)

theorem nextSeq_add (a n : Nat) : (nextSeq a + n) % 65536 = (a + (n + 1)) % 65536 := by unfold nextSeq; omega

theorem satAdd_add (a n : Nat) : min 65535 (satAdd a 1 + n) = min 65535 (a + (n + 1)) := by unfold satAdd; omega

/-- An entry that leaves counts one call, one unpaired drop, or neither (R123). -/
theorem leaveEffect_corr (early : Bool) (s : State) (e : Entry) :
    (leaveEffect early s e).corr = { s.corr with
      callSeq := if (e.ind.origin = s.own ∧ e.partner = none) ∧ inBeams s.cfg.single e.ind.beam = true
        then nextSeq s.corr.callSeq else s.corr.callSeq
      unpairedDrop := if (e.ind.origin = s.own ∧ e.partner = none) ∧ inBeams s.cfg.single e.ind.beam = false
        then satAdd s.corr.unpairedDrop 1 else s.corr.unpairedDrop
      suppressed := (leaveEffect early s e).corr.suppressed } := by
  unfold leaveEffect isOwn
  by_cases h : e.ind.origin = s.own ∧ e.partner = none
  · obtain ⟨h1, h2⟩ := h
    cases hb : inBeams s.cfg.single e.ind.beam with
    | true =>
      simp only [h1, h2, decide_true, and_self, if_true]
      rw [buildCall_corr]; simp
    | false => simp [h1, h2]
  · rw [if_neg (by simpa using h)]
    simp [h]

/-- Own UNPAIRED entries that leave: those of single-call beams take one call sequence number each, the others are counted as
dropped (R123, R131). -/
theorem leaving_corr (early : Bool) : ∀ (es : List Entry) (s : State), s.corr.callSeq ≤ 65535 → s.corr.unpairedDrop ≤ 65535 →
    (es.foldl (leaveEffect early) s).corr = { s.corr with
      callSeq := (s.corr.callSeq +
        ((ownUnpaired s es).filter (fun e => inBeams s.cfg.single e.ind.beam)).length) % 65536
      unpairedDrop := min 65535 (s.corr.unpairedDrop +
        ((ownUnpaired s es).filter (fun e => !inBeams s.cfg.single e.ind.beam)).length)
      suppressed := (es.foldl (leaveEffect early) s).corr.suppressed } := by
  intro es
  induction es with
  | nil =>
    intro s h1 h2
    simp [ownUnpaired, Nat.mod_eq_of_lt (show s.corr.callSeq < 65536 by omega), Nat.min_eq_right h2]
  | cons e es ih =>
    intro s h1 h2
    have k := leaveEffect_keeps early s e
    have own : (leaveEffect early s e).own = s.own := by unfold State.own; rw [k.rc (by decide)]
    have cfg : (leaveEffect early s e).cfg = s.cfg := k.cfg (by decide)
    have c := leaveEffect_corr early s e
    have c1 : (leaveEffect early s e).corr.callSeq = _ := congrArg Correlation.callSeq c
    have c2 : (leaveEffect early s e).corr.unpairedDrop = _ := congrArg Correlation.unpairedDrop c
    have b1 : (leaveEffect early s e).corr.callSeq ≤ 65535 := by
      rw [c1]; dsimp only; split
      · unfold nextSeq; omega
      · exact h1
    have b2 : (leaveEffect early s e).corr.unpairedDrop ≤ 65535 := by
      rw [c2]; dsimp only; split
      · unfold satAdd; omega
      · exact h2
    have ou : ownUnpaired (leaveEffect early s e) es = ownUnpaired s es := by unfold ownUnpaired; rw [own]
    rw [List.foldl_cons, ih _ b1 b2, ou, cfg]
    generalize hx : (es.foldl (leaveEffect early) (leaveEffect early s e)).corr.suppressed = x
    have oc : ownUnpaired s (e :: es) =
        if e.ind.origin = s.own ∧ e.partner = none then e :: ownUnpaired s es else ownUnpaired s es := by
      unfold ownUnpaired; rw [List.filter_cons]; simp
    rw [oc, c1, c2, c]
    dsimp only
    by_cases h : e.ind.origin = s.own ∧ e.partner = none
    · cases hb : inBeams s.cfg.single e.ind.beam with
      | true =>
        have n : ¬((e.ind.origin = s.own ∧ e.partner = none) ∧ true = false) := fun x => by cases x.2
        rw [if_pos h, if_pos ⟨h, rfl⟩, if_neg n, List.filter_cons_of_pos (by exact hb),
          List.filter_cons_of_neg (by simp [hb]), List.length_cons, nextSeq_add]
      | false =>
        have n : ¬((e.ind.origin = s.own ∧ e.partner = none) ∧ false = true) := fun x => by cases x.2
        rw [if_pos h, if_neg n, if_pos ⟨h, rfl⟩, List.filter_cons_of_neg (by simp [hb]),
          List.filter_cons_of_pos (by simp [hb]), List.length_cons, satAdd_add]
    · rw [if_neg h, if_neg (fun x => h x.1), if_neg (fun x => h x.1)]

theorem singleCall_eq (s : State) (early : Bool) (seq : Nat) (e : Entry) :
    callRecord seq 0 s.rail e.ind none (decide (s.corr.epoch ≠ e.epoch)) early = singleCall s early seq e := rfl

/-- What the calls of leaving entries need of a state. -/
theorem singleCalls_congr {s t : State} (early : Bool) (es : List Entry) (rc : t.rc = s.rc) (cfg : t.cfg = s.cfg)
    (epoch : t.corr.epoch = s.corr.epoch) (seq : t.corr.callSeq = s.corr.callSeq) :
    singleCalls t early es = singleCalls s early es := by
  unfold singleCalls singleCall ownUnpaired State.own State.rail
  rw [rc, cfg, epoch, seq]

theorem EntriesLeft.refl (early : Bool) (s : State) : EntriesLeft early s [] s where
  calls := CallsMade.refl s
  dropped := fun h => by simp [ownUnpaired, h]
  others := ⟨rfl, rfl, rfl, rfl⟩

/-- One entry that leaves (R117, R123). -/
theorem leaveEffect_left (early : Bool) (s : State) (e : Entry) : EntriesLeft early s [e] (leaveEffect early s e) := by
  have le : leaveEffect early s e = if e.ind.origin = s.own ∧ e.partner = none then
      (if inBeams s.cfg.single e.ind.beam then buildCall 0 e.ind none (decide (s.corr.epoch ≠ e.epoch)) early s
       else s.setCorr { s.corr with unpairedDrop := satAdd s.corr.unpairedDrop 1 }) else s := by
    unfold leaveEffect isOwn; simp only [decide_eq_true_eq]
  by_cases h : e.ind.origin = s.own ∧ e.partner = none
  · have ou : ownUnpaired s [e] = [e] := by unfold ownUnpaired; simp [h]
    rw [if_pos h] at le
    cases hb : inBeams s.cfg.single e.ind.beam with
    | true =>
      rw [hb, if_pos rfl] at le
      have sc : singleCalls s early [e] = [callRecord s.corr.callSeq 0 s.rail e.ind none (decide (s.corr.epoch ≠ e.epoch)) early] := by
        rw [singleCall_eq]; unfold singleCalls; rw [ou]; simp [hb, seqAfter]
      rw [le]
      refine ⟨by rw [sc]; exact buildCall_made .., fun hd => ?_, ?_⟩
      · rw [buildCall_corr, ou]; simp [hb, hd]
      · rw [buildCall_corr]; exact ⟨rfl, rfl, rfl, rfl⟩
    | false =>
      rw [hb, if_neg (by decide)] at le
      have sc : singleCalls s early [e] = [] := by unfold singleCalls; rw [ou]; simp [hb]
      rw [le]
      refine ⟨?_, fun _ => ?_, ⟨rfl, rfl, rfl, rfl⟩⟩
      · rw [sc]; exact { CallsMade.refl s with seq := rfl }
      · rw [ou]; simp [hb, satAdd]
  · have ou : ownUnpaired s [e] = [] := by unfold ownUnpaired; simp [h]
    rw [if_neg h] at le
    rw [le]
    refine ⟨?_, fun hd => by rw [ou]; simp [hd], ⟨rfl, rfl, rfl, rfl⟩⟩
    have sc : singleCalls s early [e] = [] := by unfold singleCalls; rw [ou]; rfl
    rw [sc]; exact CallsMade.refl s

/-- Entries that leave in their order (R117, R123). -/
theorem leaving_left (early : Bool) : ∀ (es : List Entry) (s : State), EntriesLeft early s es (es.foldl (leaveEffect early) s)
  | [], s => EntriesLeft.refl early s
  | e :: es, s => by
    have h := leaveEffect_left early s e
    have k := leaving_left early es (leaveEffect early s e)
    have keeps := leaveEffect_keeps early s e
    have rc := keeps.rc (by decide)
    have cfg := keeps.cfg (by decide)
    have spans : (leaveEffect early s e).corr.spans = s.corr.spans := by rw [leaveEffect_corr]
    have own : (leaveEffect early s e).own = s.own := by unfold State.own; rw [rc]
    have ou : ∀ xs, ownUnpaired (leaveEffect early s e) xs = ownUnpaired s xs := fun xs => by unfold ownUnpaired; rw [own]
    have app : ∀ p : Entry → Bool, (ownUnpaired s (e :: es)).filter p =
        (ownUnpaired s [e]).filter p ++ (ownUnpaired s es).filter p := fun p => by
      rw [← List.filter_append]; unfold ownUnpaired; rw [← List.filter_append]; rfl
    have calls : singleCalls s early (e :: es) = singleCalls s early [e] ++ singleCalls (leaveEffect early s e) early es := by
      unfold singleCalls
      rw [app, ou, cfg, List.zipIdx_append, List.map_append]
      refine congrArg (_ ++ ·) ?_
      rw [List.zipIdx_eq_map_add, List.map_map]
      refine List.map_congr_left ?_
      intro x _
      have hs := h.calls.seq
      unfold singleCalls at hs
      rw [List.length_map, List.length_zipIdx] at hs
      simp only [Function.comp, hs, seqAfter_add, Nat.zero_add]
      unfold singleCall State.rail
      rw [rc, h.others.2.1]
    refine ⟨?_, fun hd => ?_, ?_⟩
    · rw [calls]; exact h.calls.trans k.calls spans rc
    · have e1 := h.dropped hd
      rw [List.foldl_cons, k.dropped (by omega), e1, app, List.length_append, ou, cfg]
      omega
    · obtain ⟨h1, h2, h3, h4⟩ := h.others
      obtain ⟨k1, k2, k3, k4⟩ := k.others
      exact ⟨k1.trans h1, k2.trans h2, k3.trans h3, k4.trans h4⟩

/-- Entries leave a table that has been replaced beforehand as they would leave the old one. -/
theorem EntriesLeft.of_same {s s' t : State} {early : Bool} {gone : List Entry} (h : EntriesLeft early s' gone t)
    (rc : s'.rc = s.rc) (cfg : s'.cfg = s.cfg) (link : s'.link = s.link)
    (corr : s'.corr = { s.corr with table := s'.corr.table }) : EntriesLeft early s gone t := by
  have own : s'.own = s.own := by unfold State.own; rw [rc]
  have ou : ownUnpaired s' gone = ownUnpaired s gone := by unfold ownUnpaired; rw [own]
  have sc : singleCalls s' early gone = singleCalls s early gone :=
    singleCalls_congr early gone rc cfg (by rw [corr]) (by rw [corr])
  obtain ⟨⟨h1, h2, h3, h4, h7⟩, h5, h6⟩ := h
  rw [own, link] at h7
  rw [sc, corr] at h1 h2
  rw [sc, corr, link, rc] at h3
  rw [sc, corr, link] at h4
  rw [ou, cfg, corr] at h5
  rw [corr] at h6
  exact ⟨⟨h1, h2, h3, h4, h7⟩, h5, h6⟩

/-! ### Insertion (R113, R119, R120) -/

/-- The search splits the table at its match. -/
theorem pairSearch_split {rules : List PairRule} {n : Indication} : ∀ {es pre : List Entry} {e : Entry} {r : PairRule}
    {post : List Entry}, pairSearch rules n es = some (pre, e, r, post) → es = pre ++ e :: post := by
  intro es
  induction es with
  | nil => intro pre e r post h; cases h
  | cons x es ih =>
    intro pre e r post h
    unfold pairSearch at h
    split at h
    · cases h; rfl
    · split at h
      · cases h
      · rename_i h2; cases h; rw [ih h2]; rfl

/-- An insertion puts the record last and keeps every entry's record and place (R113). -/
theorem insertPaired_inds (n : Indication) (s : State) :
    (insertPaired n s).corr.table.map (·.ind) = s.corr.table.map (·.ind) ++ [n] := by
  unfold insertPaired
  dsimp only
  split
  · simp
  · rename_i pre e r post hs
    rw [pairSearch_split hs]
    split
    · rw [buildCall_corr]; simp
    · simp

/-- An insertion, with or without a call, leaves what the unit holds of peers, spans, epoch and unpaired drops. -/
theorem insertPaired_corr (n : Indication) (s : State) : (insertPaired n s).corr = { s.corr with
    table := (insertPaired n s).corr.table, callSeq := (insertPaired n s).corr.callSeq
    suppressed := (insertPaired n s).corr.suppressed } := by
  unfold insertPaired
  dsimp only
  split
  · rfl
  · split
    · rw [buildCall_corr]; rfl
    · rfl

/-- An insertion changes nothing of the link, or offers one call to class 1. -/
theorem insertPaired_link (n : Indication) (s : State) :
    (insertPaired n s).link = s.link ∨ ∃ c, (insertPaired n s).link = offer1 s.own ⟨s.rc.run, c⟩ s.link := by
  unfold insertPaired
  dsimp only
  split
  · exact .inl rfl
  · split
    · exact (buildCall_link ..).imp (fun h => h) (fun h => ⟨_, h⟩)
    · exact .inl rfl

end Sys2Proof.Machine
end

