-- ==== Sys2Proof/Laws/Touched.lean ====
section
/-! SUPPORT. The blocks each command can touch, and the packaging of an invariant: kept by every command, by a tick and by a
change of the queue, it is kept by every step. -/

namespace Sys2Proof.Machine

/-- The blocks a command can touch. -/
def touched : Instr → List Part
  | .powerOn | .supplyLow | .resetPin => [.rc, .cfg, .pos, .seq, .zone, .acq, .coup, .cov, .trk, .corr, .link]
  | .resetRelease _ => [.rc]
  | .loadEnd _ => [.rc, .cfg, .pos, .zone, .link]
  | .encoderSampleInstant _ _ => [.pos, .seq, .zone, .acq, .cov, .trk, .corr, .link]
  | .codeSlotRead _ _ => [.zone]
  | .zoneLineLevelChange _ | .quiet | .stuckTimerExpiry => [.zone, .link]
  | .claimPeriodEnd => [.seq, .zone, .acq, .cov, .trk, .link]
  | .volleyCompletion _ => [.rc, .seq, .zone, .acq, .coup, .cov, .trk, .corr, .link]
  | .linkIdleInstant | .beginTime | .frameComplete | .readbackMismatch | .receiveError _ | .serviceTimeEnd _
  | .linkLevelChange _ => [.link]
  | .frameReceived _ | .indication _ _ => [.rc, .corr, .link]
  | .runstart _ | .drainEnd => [.rc, .pos, .seq, .zone, .coup, .cov, .trk, .corr, .link]
  | .runstop _ => [.rc, .seq, .zone, .cov, .trk, .corr, .link]
  | .mask _ => [.seq, .trk, .corr, .link]
  | .suppress _ _ => [.corr, .link]

theorem takeFrame_keeps {b : Block} {c : Instr} {n : Nat} {s t : State} (h : takeFrame b c n s = some t) :
    Keeps [.link] s t := (takeFrame_some h).2.2

/-- A taken frame, its block's act and the discards behind it. -/
theorem taken {b : Block} {c : Instr} {n : Nat} {s t u : State} {l : List Part} (h : takeFrame b c n s = some t)
    (hl : Part.link ∈ l) (k : Keeps l t u) : Keeps l s (dispatchDiscards u) := by
  have sub : ∀ x ∈ [Part.link], x ∈ l := by intro x hx; simp at hx; subst hx; exact hl
  exact (((takeFrame_keeps h).mono sub).trans k).trans ((dispatchDiscards_keeps u).mono sub)

theorem takeReset_keeps (cause : ResetCause) (s : State) :
    Keeps [.rc, .cfg, .pos, .seq, .zone, .acq, .coup, .cov, .trk, .corr, .link] s (takeReset cause s) := by
  constructor <;> intro h <;> first | exact absurd (by decide) h | rfl

theorem runstartTaken_keeps (r : Byte) (s : State) :
    Keeps [.rc, .pos, .seq, .zone, .coup, .cov, .trk, .corr, .link] s (runstartTaken r s) := by
  unfold runstartTaken
  split
  · exact Keeps.refl _ _
  · split
    · exact (startRun_keeps _ _).mono (by decide)
    · split
      · exact Keeps.refl _ _
      · exact ((keeps_setRc _ _).mono (by decide)).trans ((enterStopping_keeps _).mono (by decide))
    · split
      · exact Keeps.refl _ _
      · exact (keeps_setRc _ _).mono (by decide)
    · exact Keeps.refl _ _
    · exact Keeps.refl _ _

theorem runstopTaken_keeps (r : Byte) (s : State) :
    Keeps [.rc, .seq, .zone, .cov, .trk, .corr, .link] s (runstopTaken r s) := by
  unfold runstopTaken
  split
  · exact enterStopping_keeps _
  · exact Keeps.refl _ _

theorem drainEnded_keeps (s : State) :
    Keeps [.rc, .pos, .seq, .zone, .coup, .cov, .trk, .corr, .link] s (drainEnded s) := by
  have h : Keeps [.rc, .pos, .seq, .zone, .coup, .cov, .trk, .corr, .link] s
      ((queueSummary (correlationDrainEnd s)).setRc
        { (queueSummary (correlationDrainEnd s)).rc with runState := .standby, draining := false, drainTimer := 0 }) :=
    (((correlationDrainEnd_keeps s).mono (by decide)).trans ((queueSummary_keeps _).mono (by decide))).trans
      ((keeps_setRc _ _).mono (by decide))
  unfold drainEnded
  dsimp only
  split
  · exact h
  · exact h.trans ((startRun_keeps _ _).mono (by decide))

theorem loadEnded_keeps (im : List Byte) (s : State) : Keeps [.rc, .cfg, .pos, .zone, .link] s (loadEnded im s) := by
  unfold loadEnded
  split
  · constructor <;> intro h <;> first | exact absurd (by decide) h | simp [loadRefused]
  · constructor <;> intro h <;> first | exact absurd (by decide) h | simp [loadAccepted]

/-- A command answers a next state, and touches no block outside its list. -/
theorem exec_next (c : Instr) (s : State) : ∃ t, exec c s = .next t ∧ Keeps (touched c) s t := by
  have ite_keeps : ∀ {l : List Part} {p : Prop} [Decidable p] {t : State}, Keeps l s t → Keeps l s (if p then t else s) := by
    intro l p _ t h; split
    · exact h
    · exact Keeps.refl _ _
  cases c with
  | powerOn => exact ⟨_, exec_powerOn s, takeReset_keeps _ _⟩
  | supplyLow => exact ⟨_, exec_supplyLow s, takeReset_keeps _ _⟩
  | resetPin => exact ⟨_, exec_resetPin s, takeReset_keeps _ _⟩
  | resetRelease st => exact ⟨_, exec_resetRelease st s, ite_keeps (keeps_setRc _ _)⟩
  | loadEnd im => exact ⟨_, exec_loadEnd im s, ite_keeps (loadEnded_keeps _ _)⟩
  | encoderSampleInstant a b => exact ⟨_, exec_encoderSampleInstant a b s, ite_keeps (sampleInstant_keeps _ _ _)⟩
  | zoneLineLevelChange l =>
    refine ⟨_, exec_zoneLineLevelChange l s, ?_⟩
    unfold lineLevelChange
    split
    · exact Keeps.refl _ _
    · split
      · split
        · exact edgeDominant_keeps s
        · split
          · exact Keeps.refl _ _
          · exact (keeps_setZone _ _).mono (by simp [touched])
      · exact (keeps_setZone _ _).mono (by simp [touched])
  | quiet => exact ⟨_, exec_quiet s, ite_keeps (quietReached_keeps _)⟩
  | codeSlotRead k l => exact ⟨_, exec_codeSlotRead k l s, ite_keeps (keeps_setZone _ _)⟩
  | claimPeriodEnd => exact ⟨_, exec_claimPeriodEnd s, ite_keeps (claimEnded_keeps _)⟩
  | stuckTimerExpiry => exact ⟨_, exec_stuckTimerExpiry s, ite_keeps (stuckReached_keeps _)⟩
  | volleyCompletion x =>
    refine ⟨_, exec_volleyCompletion x s, ?_⟩
    split
    · exact Keeps.refl _ _
    · exact (volleyCompleted_keeps _ _ _ _).mono (by simp [touched])
  | linkIdleInstant => exact ⟨_, exec_linkIdleInstant s, ite_keeps (keeps_setLink _ _)⟩
  | beginTime => exact ⟨_, exec_beginTime s, ite_keeps (keeps_setLink _ _)⟩
  | frameComplete => exact ⟨_, exec_frameComplete s, ite_keeps (keeps_setLink _ _)⟩
  | readbackMismatch => exact ⟨_, exec_readbackMismatch s, ite_keeps (keeps_setLink _ _)⟩
  | receiveError k => exact ⟨_, exec_receiveError k s, ite_keeps (keeps_setLink _ _)⟩
  | frameReceived x => exact ⟨_, exec_frameReceived x s, ite_keeps (frameEnds_keeps _ _)⟩
  | serviceTimeEnd b => exact ⟨_, exec_serviceTimeEnd b s, ite_keeps ((keeps_setLink _ _).trans (dispatchDiscards_keeps _))⟩
  | runstart r =>
    refine ⟨_, exec_runstart r s, ?_⟩
    split
    · exact Keeps.refl _ _
    · exact taken ‹_› (by simp [touched]) ((runstartTaken_keeps _ _).mono (by simp [touched]))
  | runstop r =>
    refine ⟨_, exec_runstop r s, ?_⟩
    split
    · exact Keeps.refl _ _
    · exact taken ‹_› (by simp [touched]) ((runstopTaken_keeps _ _).mono (by simp [touched]))
  | mask p =>
    refine ⟨_, exec_mask p s, ?_⟩
    split
    · split
      · exact Keeps.refl _ _
      · exact taken ‹_› (by simp [touched]) ((applyMask_keeps _ _).mono (by simp [touched]))
    · exact Keeps.refl _ _
  | suppress r p =>
    refine ⟨_, exec_suppress r p s, ?_⟩
    split
    · exact Keeps.refl _ _
    · exact taken ‹_› (by simp [touched]) ((suppressTaken_keeps _ _ _).mono (by simp [touched]))
  | indication r p =>
    refine ⟨_, exec_indication r p s, ?_⟩
    split
    · exact Keeps.refl _ _
    · exact taken ‹_› (by simp [touched]) ((indicationTaken_keeps _ _ _).mono (by simp [touched]))
  | drainEnd => exact ⟨_, exec_drainEnd s, ite_keeps (drainEnded_keeps _)⟩
  | linkLevelChange l => exact ⟨_, exec_linkLevelChange l s, linkLevelGiven_keeps l s⟩

theorem exec_touches {c : Instr} {s t : State} (h : exec c s = .next t) : Keeps (touched c) s t := by
  obtain ⟨u, hu, k⟩ := exec_next c s
  rw [hu] at h; injection h with h; subst h; exact k

/-- An invariant kept by every command, by a tick and by a change of the queue is kept by every step. -/
theorem step_keeps_of {inv : State → Prop} (command : ∀ c s t, inv s → exec c s = .next t → inv t)
    (time : ∀ s, inv s → inv (tick s)) (queue : ∀ s q, inv s → inv (s.setPending q)) :
    ∀ s t, inv s → step s = .next t → inv t := by
  intro s t hs h
  cases hp : s.pending with
  | cons c rest => rw [step_cons hp] at h; exact command _ _ _ (queue _ _ hs) h
  | nil =>
    rw [step_nil hp, idleStep] at h
    split at h
    · exact command _ _ _ hs h
    · injection h with h; subst h
      split
      · exact hs
      · exact time _ hs

end Sys2Proof.Machine
end

