-- ==== Sys2Proof/Laws/Run.lean ====
section
/-! SUPPORT. The Run Controller: what each shared operation does to the run state, the drain and the pending start. -/

namespace Sys2Proof.Machine

theorem reportConflict_rc (r : Reporter) (s : State) : (reportConflict r s).rc = { s.rc with conflict := true } := by
  unfold reportConflict
  split
  · rename_i h; rw [← h]
  · rfl

theorem stoppingClose_rc (s : State) :
    (stoppingClose s).rc = { s.rc with draining := true, drainTimer := drainTicks s.cfg.drain } := by
  have h1 : (closeAllGaps (closeAllSlots s)).rc = s.rc := by
    rw [(closeAllGaps_keeps _).rc (by decide), (closeAllSlots_keeps _).rc (by decide)]
  have h2 : (closeAllGaps (closeAllSlots s)).cfg = s.cfg := by
    rw [(closeAllGaps_keeps _).cfg (by decide), (closeAllSlots_keeps _).cfg (by decide)]
  simp [stoppingClose, h1, h2]

/-- The sequencer at STOPPING entry is off, or still in hold (R37). -/
theorem seqStop_sq (q : Seq) : (seqStop q).sq = if q.sq = .hold then .hold else .off := by
  unfold seqStop; cases q.sq <;> simp

theorem seqStop_eq (q : Seq) : seqStop q =
    { q with sq := if q.sq = .hold then .hold else .off, cycle := none, pointer := none, waiting := none } := by
  rw [← seqStop_sq]; rfl

/-- STOPPING entry, with a volley in hold: the slots, the gaps and the drain wait (R152, R37). -/
theorem enterStopping_hold {s : State} (h : s.seq.sq = .hold) : enterStopping s =
    ((s.setRc { s.rc with runState := .stopping }).setSeq (seqStop s.seq)).setZone (zoneStop s.zone) := by
  unfold enterStopping
  dsimp only
  rw [if_neg]
  simp [seqStop_sq, h]

/-- STOPPING entry with no volley in hold: the slots and gaps close and the drain starts (R152, R37). -/
theorem enterStopping_rest {s : State} (h : s.seq.sq ≠ .hold) : enterStopping s = stoppingClose
    (((s.setRc { s.rc with runState := .stopping }).setSeq (seqStop s.seq)).setZone (zoneStop s.zone)) := by
  unfold enterStopping
  dsimp only
  rw [if_pos]
  simp [seqStop_sq, h]

theorem enterStopping_rc (s : State) : (enterStopping s).rc =
    if s.seq.sq = .hold then { s.rc with runState := .stopping }
    else { s.rc with runState := .stopping, draining := true, drainTimer := drainTicks s.cfg.drain } := by
  split
  · rename_i h; rw [enterStopping_hold h]; rfl
  · rename_i h; rw [enterStopping_rest h, stoppingClose_rc]; rfl

theorem enterStopping_seq (s : State) : (enterStopping s).seq = seqStop s.seq := by
  by_cases h : s.seq.sq = .hold
  · rw [enterStopping_hold h]; rfl
  · rw [enterStopping_rest h, (stoppingClose_keeps _).seq (by decide)]; rfl

theorem enterStopping_zone (s : State) : (enterStopping s).zone = zoneStop s.zone := by
  by_cases h : s.seq.sq = .hold
  · rw [enterStopping_hold h]; rfl
  · rw [enterStopping_rest h, (stoppingClose_keeps _).zone (by decide)]; rfl

theorem afterCompletion_rc (v : Volley) (s : State) : (afterCompletion v s).rc =
    if s.rc.runState = .running then s.rc
    else { s.rc with draining := true, drainTimer := drainTicks s.cfg.drain } := by
  unfold afterCompletion
  split
  · split
    · exact (startCycle_keeps _ _).rc (by decide)
    · exact (walkOn_keeps _ _ _).rc (by decide)
    · exact (finishCycle_keeps _).rc (by decide)
  · rw [stoppingClose_rc]; rfl

theorem volleyCompleted_rc (x : PortEchoes) (v : Volley) (e : PlanEntry) (s : State) :
    (volleyCompleted x v e s).rc =
      if s.rc.runState = .running then s.rc
      else { s.rc with draining := true, drainTimer := drainTicks s.cfg.drain } := by
  unfold volleyCompleted
  rw [afterCompletion_rc]
  simp only [(volleyCleared_keeps _).rc (by decide), (completeVolley_keeps _ _ _ _).rc (by decide),
    (volleyCleared_keeps _).cfg (by decide), (completeVolley_keeps _ _ _ _).cfg (by decide)]

/-- The drain's end before any pending start (R153). -/
theorem drainEnded_rc_none {s : State} (h : s.rc.pendingStart = none) :
    (drainEnded s).rc = { s.rc with runState := .standby, draining := false, drainTimer := 0 } := by
  have k : (queueSummary (correlationDrainEnd s)).rc = s.rc := by
    rw [(queueSummary_keeps _).rc (by decide), (correlationDrainEnd_keeps _).rc (by decide)]
  unfold drainEnded
  dsimp only
  simp only [State.setRc_rc, k, h]

theorem drainEnded_rc_some {s : State} {r : Byte} (h : s.rc.pendingStart = some r) :
    (drainEnded s).rc = { s.rc with
      runState := .running, run := r, pendingStart := none, conflict := false, draining := false, drainTimer := 0 } := by
  have k : (queueSummary (correlationDrainEnd s)).rc = s.rc := by
    rw [(queueSummary_keeps _).rc (by decide), (correlationDrainEnd_keeps _).rc (by decide)]
  unfold drainEnded
  dsimp only
  simp only [State.setRc_rc, k, h, startRun]

theorem acceptFrame_rc (f : Frame) (s : State) :
    (acceptFrame f s).rc = if f.source.toNat = s.own then { s.rc with conflict := true } else s.rc := by
  unfold acceptFrame
  dsimp only
  split
  · exact reportConflict_rc _ _
  · exact (enterReceiveQueue_keeps f s).rc (by decide)

/-- A reception changes nothing of the Run Controller but the conflict flag (R142). -/
theorem frameEnds_rc (x : List Byte) (s : State) : ∃ b, (frameEnds x s).rc = { s.rc with conflict := b } := by
  unfold frameEnds
  dsimp only
  split
  · exact ⟨s.rc.conflict, rfl⟩
  · split
    · exact ⟨s.rc.conflict, rfl⟩
    · rw [acceptFrame_rc]
      split
      · exact ⟨true, rfl⟩
      · exact ⟨s.rc.conflict, rfl⟩

theorem peerRecord_rc (b : Byte) (r : Indication) (s : State) : ∃ x, (peerRecord b r s).rc = { s.rc with conflict := x } := by
  unfold peerRecord
  dsimp only
  repeat' split
  · exact ⟨true, reportConflict_rc _ _⟩
  · exact ⟨s.rc.conflict, rfl⟩
  · exact ⟨s.rc.conflict, rfl⟩
  · exact ⟨s.rc.conflict, rfl⟩
  · exact ⟨s.rc.conflict, (insertRecord_keeps _ _).rc (by decide)⟩

theorem indicationTaken_rc (run : Byte) (p : IndicationPayload) (s : State) :
    ∃ x, (indicationTaken run p s).rc = { s.rc with conflict := x } := by
  unfold indicationTaken
  repeat' split
  · exact ⟨s.rc.conflict, rfl⟩
  · exact ⟨s.rc.conflict, rfl⟩
  · exact ⟨s.rc.conflict, rfl⟩
  · exact peerRecord_rc _ _ _

/-- The run state of every command but a reset, LOAD_END, RUNSTART, RUNSTOP and DRAIN_END stays (10.3). -/
theorem exec_runState {c : Instr} {s t : State} (h : exec c s = .next t) :
    c = .powerOn ∨ c = .supplyLow ∨ c = .resetPin ∨ (∃ im, c = .loadEnd im) ∨ (∃ r, c = .runstart r) ∨
    (∃ r, c = .runstop r) ∨ c = .drainEnd ∨ (t.rc.runState = s.rc.runState ∧ t.cfg = s.cfg) := by
  have k := exec_touches h
  cases c with
  | powerOn => exact .inl rfl
  | supplyLow => exact .inr (.inl rfl)
  | resetPin => exact .inr (.inr (.inl rfl))
  | loadEnd im => exact .inr (.inr (.inr (.inl ⟨_, rfl⟩)))
  | runstart r => exact .inr (.inr (.inr (.inr (.inl ⟨_, rfl⟩))))
  | runstop r => exact .inr (.inr (.inr (.inr (.inr (.inl ⟨_, rfl⟩)))))
  | drainEnd => exact .inr (.inr (.inr (.inr (.inr (.inr (.inl rfl))))))
  | resetRelease st =>
    refine .inr (.inr (.inr (.inr (.inr (.inr (.inr ⟨?_, k.cfg (by simp [touched])⟩))))))
    rw [exec_resetRelease] at h; injection h with h; subst h
    split <;> rfl
  | volleyCompletion x =>
    refine .inr (.inr (.inr (.inr (.inr (.inr (.inr ⟨?_, k.cfg (by simp [touched])⟩))))))
    rw [exec_volleyCompletion] at h; injection h with h; subst h
    split
    · rfl
    · rw [volleyCompleted_rc]; split <;> rfl
  | frameReceived x =>
    refine .inr (.inr (.inr (.inr (.inr (.inr (.inr ⟨?_, k.cfg (by simp [touched])⟩))))))
    rw [exec_frameReceived] at h; injection h with h; subst h
    split
    · obtain ⟨b, hb⟩ := frameEnds_rc x s; rw [hb]
    · rfl
  | indication r p =>
    refine .inr (.inr (.inr (.inr (.inr (.inr (.inr ⟨?_, k.cfg (by simp [touched])⟩))))))
    rw [exec_indication] at h; injection h with h; subst h
    split
    · rfl
    · rename_i hf
      obtain ⟨b, hb⟩ := indicationTaken_rc r p _; rw [(dispatchDiscards_keeps _).rc (by decide), hb, (takeFrame_keeps hf).rc (by decide)]
  | _ =>
    exact .inr (.inr (.inr (.inr (.inr (.inr (.inr ⟨by rw [k.rc (by simp [touched])], k.cfg (by simp [touched])⟩))))))

/-! ### Run start (R151) -/

/-- The Link Controller at a run start: what each class keeps and counts (R136). -/
theorem linkRunStart_eq (l : Link) : linkRunStart l =
    let flies := fun (c : TxClass) => if l.inFlight.map (·.cls) = some c then 1 else 0
    { l with
      q1 := l.q1.take (flies .c1), q2 := l.q2.take (flies .c2), q3 := l.q3.take (flies .c3)
      drop0 := 0, drop1 := min (l.q1.length - flies .c1) 65535
      drop2 := min (l.q2.length - flies .c2) 65535, drop3 := min (l.q3.length - flies .c3) 65535
      inFlight := l.inFlight.map (fun fl => { fl with flushed := fl.flushed || decide (fl.cls ≠ .c0) })
      collision := 0, receiveError := 0, receiveOverflow := 0 } := by
  have flies : ∀ c, flying l c = decide (l.inFlight.map (·.cls) = some c) := by
    intro c
    unfold flying
    cases l.inFlight <;> simp
  have flush : ∀ {α : Type} (c : TxClass) (q : List α), flushQueue (flying l c) q =
      (q.take (if l.inFlight.map (·.cls) = some c then 1 else 0),
        q.length - (if l.inFlight.map (·.cls) = some c then 1 else 0)) := by
    intro α c q
    rw [flies]
    unfold flushQueue
    by_cases h : l.inFlight.map (·.cls) = some c <;> simp [h]
  unfold linkRunStart
  simp only [flush, satAdd, Nat.zero_add]
  rfl

/-- A run starts in every block (R151). -/
theorem startRun_started (r : Byte) (s : State) : RunStarted r s (startRun r s) where
  rc := rfl
  pos := rfl
  seq := rfl
  zone := rfl
  coup c := PerChan.get_ofFn _ c
  cov := ⟨fun c => PerChan.get_ofFn _ c, rfl⟩
  trk := ⟨fun c => PerChan.get_ofFn _ c, rfl, rfl, rfl, rfl⟩
  corr := rfl
  link := linkRunStart_eq s.link
  keeps := ⟨rfl, rfl, rfl⟩

end Sys2Proof.Machine
end

