-- ==== Sys2Proof/Laws/Stable.lean ====
section
/-! SUPPORT. One induction for the invariants of the reporting blocks (coverage, tracking, correlation, link): an invariant that the
shared operations keep is kept by every step. The invariant may read any block but the position, the sequencer, the zone line, the
evaluation records and the coupling machines. `Serving` is the part of it that steps, grants and completions use: an invariant that
holds only while the station operates can be shown to be serving, and kept by a completion in RUNNING. -/

namespace Sys2Proof.Machine

/-- What an invariant must be kept by for the sequencer's walks, the channel mask and a completion to keep it. -/
structure Serving (inv : State → Prop) : Prop where
  frame : ∀ s t, Keeps [.pos, .seq, .zone, .acq, .coup, .pending] s t → inv s → inv t
  outcome : ∀ c o b s, inv s → inv (takeOutcome c o b s)
  mark : ∀ c s, inv s → inv (coverageMark c s)
  cut : ∀ c s, inv s → inv (closureRequest c s)

/-- What an invariant must be kept by, operation by operation. -/
structure Stable (inv : State → Prop) : Prop extends Serving inv where
  gap : ∀ s c, inv s → inv (stopGap s c)
  frontier : ∀ f s, inv s → inv (frontierIncrease f s)
  event : ∀ e s, inv s → inv (queueEvent e s)
  runCtl : ∀ s x, inv s → (x.runState = s.rc.runState ∧ x.straps = s.rc.straps ∨ s.operating = true ∧ (s.setRc x).operating = true) →
    inv (s.setRc x)
  release : ∀ st s, inv s → inv (releaseReset st s)
  taken : ∀ b c n s t, takeFrame b c n s = some t → inv s → inv t
  discards : ∀ s, inv s → inv (dispatchDiscards s)
  received : ∀ x s, s.link.rx = .frame → inv s → inv (frameEnds x s)
  peer : ∀ r p s, inv s → inv (indicationTaken r p s)
  span : ∀ r p s, inv s → inv (suppressTaken r p s)
  drained : ∀ s, inv s → inv (correlationDrainEnd s)
  start : ∀ r s, inv s → s.operating = true → inv (startRun r s)
  load : ∀ im s, inv s → s.rc.inReset = false → s.rc.runState = .loading → inv (loadEnded im s)
  reset : ∀ c s, inv (takeReset c s)
  link : ∀ c s t, touched c = [.link] → exec c s = .next t → inv s → inv t
  time : ∀ s, inv s → inv (tick s)

namespace Serving

variable {inv : State → Prop}

theorem fold {α : Type} {f : State → α → State} (h : ∀ s a, inv s → inv (f s a)) :
    ∀ (xs : List α) (s : State), inv s → inv (xs.foldl f s)
  | [], _, hs => hs
  | x :: xs, s, hs => fold h xs (f s x) (h s x hs)

variable (k : Serving inv)
include k

theorem setSeq (x : Seq) {s : State} (h : inv s) : inv (s.setSeq x) := k.frame _ _ ((keeps_setSeq s x).mono (by decide)) h
theorem setZone (x : Zone) {s : State} (h : inv s) : inv (s.setZone x) := k.frame _ _ ((keeps_setZone s x).mono (by decide)) h
theorem setPos (x : Pos) {s : State} (h : inv s) : inv (s.setPos x) := k.frame _ _ ((keeps_setPos s x).mono (by decide)) h
theorem setAcq (x : List EvalRecord) {s : State} (h : inv s) : inv (s.setAcq x) :=
  k.frame _ _ ((keeps_setAcq s x).mono (by decide)) h
theorem setCoup (x : PerChan Coupling) {s : State} (h : inv s) : inv (s.setCoup x) :=
  k.frame _ _ ((keeps_setCoup s x).mono (by decide)) h

theorem channelOutcome (c : Chan) (o : ChanOutcome) (b : Int) {s : State} (h : inv s) : inv (channelOutcome c o b s) := by
  unfold Machine.channelOutcome
  split
  · exact k.mark _ _ (k.outcome _ _ _ _ h)
  · exact k.outcome _ _ _ _ h

theorem handUnfired (r : Reason) (b : Int) (e : PlanEntry) {s : State} (h : inv s) : inv (handUnfired r b s e) := by
  unfold Machine.handUnfired
  exact fold (fun _ _ g => k.channelOutcome _ _ _ g) _ _ h

theorem giveUp (r : Reason) (i : Nat) (b : Int) (es : List PlanEntry) {s : State} (h : inv s) : inv (giveUp r i b es s) := by
  unfold Machine.giveUp
  exact fold (fun _ _ g => k.handUnfired _ _ _ g) _ _ h

theorem fireVolley (i : Nat) (e : PlanEntry) {s : State} (h : inv s) : inv (fireVolley i e s) :=
  k.frame _ _ ((fireVolley_keeps i e s).mono (by decide)) h

theorem makeRequest (i : Nat) (e : PlanEntry) {s : State} (h : inv s) : inv (makeRequest i e s) :=
  k.frame _ _ ((makeRequest_keeps i e s).mono (by decide)) h

theorem walk (c : StepRef) : ∀ (es : List PlanEntry) (i : Nat) (s : State), inv s → inv (walk c i es s).1
  | [], _, _, h => h
  | e :: es, i, s, h => by
    unfold Machine.walk
    split
    · split
      · exact walk c es _ _ (k.handUnfired _ _ _ h)
      · exact h
    · exact walk c es _ _ h

theorem finishCycle {s : State} (h : inv s) : inv (finishCycle s) := k.setSeq _ h

theorem walkOn (c : StepRef) (i : Nat) {s : State} (h : inv s) : inv (walkOn c i s) := by
  unfold Machine.walkOn
  dsimp only
  split
  · exact k.finishCycle (k.walk _ _ _ _ h)
  · exact k.makeRequest _ _ (k.walk _ _ _ _ h)

theorem startCycle (c : StepRef) {s : State} (h : inv s) : inv (startCycle c s) := k.walkOn _ _ (k.setSeq _ h)

theorem takeOver (c : StepRef) {s : State} (h : inv s) : inv (takeOver c s) := by
  unfold Machine.takeOver
  dsimp only
  split
  · exact k.finishCycle (k.setZone _ (k.walk _ _ _ _ (k.setSeq _ h)))
  · exact k.setSeq _ (k.walk _ _ _ _ (k.setSeq _ h))

theorem skippedSteps (xs : List StepRef) {s : State} (h : inv s) : inv (skippedSteps xs s) := by
  unfold Machine.skippedSteps
  exact fold (fun _ _ g => k.giveUp _ _ _ _ g) _ _ h

theorem takeStep (x : StepRef) (xs : List StepRef) {s : State} (h : inv s) : inv (takeStep x xs s) := by
  unfold Machine.takeStep
  split
  · exact h
  · exact k.startCycle _ (k.skippedSteps _ h)
  · refine k.takeOver _ (k.skippedSteps _ ?_)
    unfold giveUpInPending
    split
    · exact k.giveUp _ _ _ _ h
    · exact h
  · refine k.setSeq _ (k.skippedSteps _ ?_)
    unfold giveUpInHold
    split
    · exact k.giveUp _ _ _ _ h
    · split
      · exact k.giveUp _ _ _ _ h
      · exact h

theorem takeGrant {s : State} (h : inv s) : inv (takeGrant s) := by
  unfold Machine.takeGrant
  split
  · split
    · split
      · exact k.walkOn _ _ (k.setZone _ (k.handUnfired _ _ _ h))
      · exact k.setZone _ (k.fireVolley _ _ h)
    · exact k.setZone _ h
  · exact k.setZone _ h

theorem claimEnded {s : State} (h : inv s) : inv (claimEnded s) := by
  unfold Machine.claimEnded
  dsimp only
  split
  · split
    · exact k.setZone _ (k.setZone _ (k.setZone _ h))
    · exact k.takeGrant (k.setZone _ (k.setZone _ h))
  · exact k.setZone _ h

theorem closureRequests (cs : List Chan) {s : State} (h : inv s) : inv (closureRequests cs s) := by
  unfold Machine.closureRequests
  exact fold (fun _ _ g => k.cut _ _ g) _ _ h

theorem applyMask (p : MaskPayload) {s : State} (h : inv s) : inv (applyMask p s) := k.closureRequests _ (k.setSeq _ h)

theorem mResult (c : Chan) (b : Bool) {s : State} (h : inv s) : inv (mResult c b s) := by
  unfold Machine.mResult
  dsimp only
  split
  · exact k.closureRequests _ (k.setCoup _ h)
  · exact k.setCoup _ h

theorem handM (r : EvalRecord) {s : State} (h : inv s) : inv (handM s r) := by
  unfold Machine.handM
  split
  · exact k.mResult _ _ h
  · exact h

omit k in
/-- A hit or an empty firing keeps what the tracker keeps of both. -/
theorem judgeHit (hit : ∀ h s, inv s → inv (hitRecord h s)) (miss : ∀ c s, inv s → inv (firingNoHit c s)) (pv : Int)
    (r : EvalRecord) {s : State} (h : inv s) : inv (judgeHit pv s r) := by
  unfold Machine.judgeHit
  split
  · exact h
  · exact hit _ _ h
  · exact hit _ _ h
  · exact miss _ _ h
  · exact miss _ _ h

theorem handF (hit : ∀ h s, inv s → inv (hitRecord h s)) (miss : ∀ c s, inv s → inv (firingNoHit c s)) (pv : Int)
    (r : EvalRecord) {s : State} (h : inv s) : inv (handF pv s r) := by
  unfold Machine.handF
  dsimp only
  split
  · exact k.cut _ _ (judgeHit hit miss _ _ h)
  · exact judgeHit hit miss _ _ h

theorem completeVolley (hit : ∀ h s, inv s → inv (hitRecord h s)) (miss : ∀ c s, inv s → inv (firingNoHit c s)) (v : Volley)
    (e : PlanEntry) (x : PortEchoes) {s : State} (h : inv s) :
    inv (completeVolley v e x s) := by
  unfold Machine.completeVolley
  refine fold (fun t c g => ?_) _ _ (fold (fun _ _ g => k.handF hit miss _ _ g) _ _ (fold (fun _ _ g => k.handM _ g) _ _ h))
  exact k.channelOutcome _ _ _ g

/-- A volley that completes in RUNNING, where hits and empty firings keep the invariant. -/
theorem volleyCompleted (hit : ∀ h s, inv s → inv (hitRecord h s)) (miss : ∀ c s, inv s → inv (firingNoHit c s))
    (x : PortEchoes) (v : Volley) (e : PlanEntry) {s : State} (h : inv s) (hr : s.rc.runState = .running) :
    inv (volleyCompleted x v e s) := by
  have h1 : inv (volleyCleared (Machine.completeVolley v e x s)) :=
    k.frame _ _ ((volleyCleared_keeps _).mono (by decide)) (k.completeVolley hit miss _ _ _ h)
  have hr1 : (volleyCleared (Machine.completeVolley v e x s)).rc.runState = .running := by
    rw [(volleyCleared_keeps _).rc (by decide), (completeVolley_keeps _ _ _ _).rc (by decide), hr]
  unfold Machine.volleyCompleted afterCompletion
  rw [if_pos hr1]
  split
  · exact k.startCycle _ h1
  · exact k.walkOn _ _ h1
  · exact k.finishCycle h1

end Serving

namespace Stable

variable {inv : State → Prop} (k : Stable inv)
include k

theorem countDiscarded (u : Bool) {s : State} (h : inv s) : inv (countDiscarded u s) := by
  unfold Machine.countDiscarded
  split
  · exact h
  · exact k.event _ _ (k.setPos _ h)

theorem sampleInstant (a b : Bool) {s : State} (h : inv s) : inv (sampleInstant a b s) := by
  unfold Machine.sampleInstant
  split
  · exact k.setPos _ h
  · unfold applyDecoded
    dsimp only
    split
    · split
      · exact k.setPos _ h
      · unfold forwardCount
        dsimp only
        split
        · exact k.countDiscarded _ (k.setPos _ h)
        · have h1 : inv (raiseFrontier ((s.setPos (sampled s.cfg.p s.cfg.n a b s.pos)).setPos
              (withValue (sampled s.cfg.p s.cfg.n a b s.pos) (posValue (sampled s.cfg.p s.cfg.n a b s.pos) + s.cfg.s)))) := by
            unfold raiseFrontier
            split
            · exact k.frontier _ _ (k.setPos _ (k.setPos _ (k.setPos _ h)))
            · exact k.setPos _ (k.setPos _ h)
          unfold issueStep
          split
          · exact k.takeStep _ _ (k.setPos _ h1)
          · exact h1
      · unfold reverseCount
        dsimp only
        split
        · exact k.countDiscarded _ (k.setPos _ h)
        · exact k.setPos _ (k.setPos _ h)
      · exact k.setPos _ (k.setPos _ h)
    · exact k.setPos _ h

theorem quietReached {s : State} (h : inv s) : inv (quietReached s) := by
  have h1 : ∀ z : State, inv z → inv (clearStuck z) := by
    intro z hz
    unfold clearStuck
    split
    · exact k.event _ _ (k.setZone _ hz)
    · exact hz
  unfold Machine.quietReached
  dsimp only
  split
  · exact k.setZone _ (h1 _ (k.setZone _ h))
  · exact h1 _ (k.setZone _ h)

theorem edgeDominant {s : State} (h : inv s) : inv (edgeDominant s) := by
  unfold Machine.edgeDominant
  dsimp only
  split
  · exact k.setZone _ (k.quietReached h)
  · exact k.setZone _ h

theorem stoppingClose {s : State} (h : inv s) : inv (stoppingClose s) := by
  have h1 : inv (closeAllGaps (closeAllSlots s)) := Serving.fold k.gap _ _ (k.closureRequests _ h)
  refine k.runCtl _ _ h1 (.inl ⟨rfl, rfl⟩)

theorem enterStopping {s : State} (h : inv s) (op : s.operating = true) : inv (enterStopping s) := by
  have h1 : inv (((s.setRc { s.rc with runState := .stopping }).setSeq (seqStop s.seq)).setZone (zoneStop s.zone)) :=
    k.setZone _ (k.setSeq _ (k.runCtl _ _ h (.inr ⟨op, rfl⟩)))
  by_cases hq : s.seq.sq = .hold
  · rw [enterStopping_hold hq]; exact h1
  · rw [enterStopping_rest hq]; exact k.stoppingClose h1

/-- The completion of a volley, where hits and empty firings keep the invariant. -/
theorem volleyCompleted (hit : ∀ h s, inv s → inv (hitRecord h s)) (miss : ∀ c s, inv s → inv (firingNoHit c s))
    (x : PortEchoes) (v : Volley) (e : PlanEntry) {s : State} (h : inv s) :
    inv (volleyCompleted x v e s) := by
  by_cases hr : s.rc.runState = .running
  · exact k.toServing.volleyCompleted hit miss x v e h hr
  · have h1 : inv (volleyCleared (Machine.completeVolley v e x s)) :=
      k.frame _ _ ((volleyCleared_keeps _).mono (by decide)) (k.completeVolley hit miss _ _ _ h)
    have hr1 : ¬(volleyCleared (Machine.completeVolley v e x s)).rc.runState = .running := by
      rwa [(volleyCleared_keeps _).rc (by decide), (completeVolley_keeps _ _ _ _).rc (by decide)]
    unfold Machine.volleyCompleted afterCompletion
    rw [if_neg hr1]
    exact k.stoppingClose (k.setSeq _ h1)

theorem runstartTaken (r : Byte) {s : State} (h : inv s) : inv (runstartTaken r s) := by
  unfold Machine.runstartTaken
  split
  · exact h
  · split
    · rename_i hs; exact k.start _ _ h (by simp [State.operating, hs])
    · rename_i hs
      split
      · exact h
      · exact k.enterStopping (k.runCtl _ _ h (.inl ⟨rfl, rfl⟩)) (by simp [State.operating, hs])
    · split
      · exact h
      · exact k.runCtl _ _ h (.inl ⟨rfl, rfl⟩)
    · exact h
    · exact h

theorem drainEnded {s : State} (h : inv s) (hs : s.rc.runState = .stopping) : inv (drainEnded s) := by
  have e : (queueSummary (correlationDrainEnd s)).rc = s.rc := by
    rw [(queueSummary_keeps _).rc (by decide), (correlationDrainEnd_keeps _).rc (by decide)]
  have h1 : inv ((queueSummary (correlationDrainEnd s)).setRc { (queueSummary (correlationDrainEnd s)).rc with
      runState := .standby, draining := false, drainTimer := 0 }) :=
    k.runCtl _ _ (k.event _ _ (k.event _ _ (k.drained _ h))) (.inr ⟨by simp [State.operating, e, hs], rfl⟩)
  unfold Machine.drainEnded
  dsimp only
  split
  · exact h1
  · exact k.start _ _ h1 rfl

/-- A stable invariant is kept by every command. -/
theorem exec_keeps (completion : ∀ x v e s, inv s → inv (Machine.volleyCompleted x v e s)) (c : Instr) (s t : State)
    (h : inv s) (hx : exec c s = .next t) : inv t := by
  by_cases hl : touched c = [.link]
  · exact k.link _ _ _ hl hx h
  cases c with
  | powerOn => rw [exec_powerOn] at hx; injection hx with hx; subst hx; exact k.reset _ _
  | supplyLow => rw [exec_supplyLow] at hx; injection hx with hx; subst hx; exact k.reset _ _
  | resetPin => rw [exec_resetPin] at hx; injection hx with hx; subst hx; exact k.reset _ _
  | resetRelease st =>
    rw [exec_resetRelease] at hx; injection hx with hx; subst hx
    split
    · exact k.release _ _ h
    · exact h
  | loadEnd im =>
    rw [exec_loadEnd] at hx; injection hx with hx; subst hx
    split
    · rename_i g; exact k.load _ _ h g.1 g.2
    · exact h
  | encoderSampleInstant a b =>
    rw [exec_encoderSampleInstant] at hx; injection hx with hx; subst hx
    split
    · exact k.sampleInstant _ _ h
    · exact h
  | zoneLineLevelChange l =>
    rw [exec_zoneLineLevelChange] at hx; injection hx with hx; subst hx
    unfold lineLevelChange
    split
    · exact h
    · split
      · split
        · exact k.edgeDominant h
        · split
          · exact h
          · exact k.setZone _ h
      · exact k.setZone _ h
  | codeSlotRead n l => exact k.frame _ _ ((exec_touches hx).mono (by simp [touched])) h
  | quiet =>
    rw [exec_quiet] at hx; injection hx with hx; subst hx
    split
    · exact k.quietReached h
    · exact h
  | claimPeriodEnd =>
    rw [exec_claimPeriodEnd] at hx; injection hx with hx; subst hx
    split
    · exact k.claimEnded h
    · exact h
  | stuckTimerExpiry =>
    rw [exec_stuckTimerExpiry] at hx; injection hx with hx; subst hx
    split
    · exact k.event _ _ (k.setZone _ h)
    · exact h
  | volleyCompletion x =>
    rw [exec_volleyCompletion] at hx; injection hx with hx; subst hx
    split
    · exact h
    · exact completion _ _ _ _ h
  | frameReceived x =>
    rw [exec_frameReceived] at hx; injection hx with hx; subst hx
    split
    · rename_i g; exact k.received _ _ g h
    · exact h
  | runstart r =>
    rw [exec_runstart] at hx; injection hx with hx; subst hx
    split
    · exact h
    · exact k.discards _ (k.runstartTaken _ (k.taken _ _ _ _ _ ‹_› h))
  | runstop r =>
    rw [exec_runstop] at hx; injection hx with hx; subst hx
    split
    · exact h
    · have h1 := k.taken _ _ _ _ _ ‹_› h
      refine k.discards _ ?_
      unfold runstopTaken
      split
      · rename_i g; exact k.enterStopping h1 (by simp [State.operating, g.1])
      · exact h1
  | mask p =>
    rw [exec_mask] at hx; injection hx with hx; subst hx
    split
    · split
      · exact h
      · exact k.discards _ (k.applyMask _ (k.taken _ _ _ _ _ ‹_› h))
    · exact h
  | suppress r p =>
    rw [exec_suppress] at hx; injection hx with hx; subst hx
    split
    · exact h
    · exact k.discards _ (k.span _ _ _ (k.taken _ _ _ _ _ ‹_› h))
  | indication r p =>
    rw [exec_indication] at hx; injection hx with hx; subst hx
    split
    · exact h
    · exact k.discards _ (k.peer _ _ _ (k.taken _ _ _ _ _ ‹_› h))
  | drainEnd =>
    rw [exec_drainEnd] at hx; injection hx with hx; subst hx
    split
    · rename_i g; exact k.drainEnded h g.1
    · exact h
  | linkIdleInstant | beginTime | frameComplete | readbackMismatch | receiveError _ | serviceTimeEnd _ | linkLevelChange _ =>
    exact absurd rfl hl

/-- A stable invariant is kept by every step. -/
theorem step_keeps (completion : ∀ x v e s, inv s → inv (Machine.volleyCompleted x v e s)) :
    ∀ s t, inv s → step s = .next t → inv t :=
  step_keeps_of (k.exec_keeps completion) k.time (fun s q h => k.frame s _ (by constructor <;> simp [State.setPending]) h)

end Stable

end Sys2Proof.Machine
end

