-- ==== Sys2Proof/Laws/Coverage.lean ====
section
/-! SUPPORT. The Coverage Tracker: what an outcome and a close leave of the coverage, case by case, and that both keep a channel's
coverage law. -/

namespace Sys2Proof.Machine

theorem setCoverage_cov (c : Chan) (v : ChanCoverage) (s : State) :
    (setCoverage c v s).cov = { s.cov with chan := s.cov.chan.set c v } := rfl

/-- A close takes the gap and moves the last gap end; the sequence advances (R80). -/
theorem closeGap_cov (c : Chan) (g : OpenGap) (how : Closure) (s : State) : (closeGap c g how s).cov =
    { chan := s.cov.chan.set c { s.cov.chan.get c with gap := none, lastEnd := some g.xEnd }, gapSeq := nextSeq s.cov.gapSeq } :=
  rfl

theorem closeGap_link (c : Chan) (g : OpenGap) (how : Closure) (s : State) : (closeGap c g how s).link =
    offer3 s.own ⟨s.rc.run, gapRecord s c g how⟩ s.link := rfl

theorem openGap_cov (c : Chan) (r : Reason) (x : Int) (s : State) : (openGap c r x s).cov =
    { s.cov with chan := s.cov.chan.set c { s.cov.chan.get c with
        gap := some ⟨r, raisedPast (s.cov.chan.get c).lastEnd x, raisedPast (s.cov.chan.get c).lastEnd x, 1⟩
        reach := some (raisedPast (s.cov.chan.get c).lastEnd x) } } := rfl

/-- An outcome's coverage of its own channel, by its kind and the gap it finds (R77 to R80). -/
theorem takeOutcome_get (c : Chan) (o : ChanOutcome) (basis : Int) (s : State) :
    (takeOutcome c o basis s).cov.chan.get c =
      (let v := s.cov.chan.get c
       let x := heldToReach v.reach (basis + (s.cfg.chan.get c).offset)
       match o, v.gap with
       | .good, none => { v with reach := some x }
       | .good, some g => { gap := none, reach := some x, lastEnd := some g.xEnd }
       | .bad r, none => { v with gap := some ⟨r, raisedPast v.lastEnd x, raisedPast v.lastEnd x, 1⟩, reach := some (raisedPast v.lastEnd x) }
       | .bad r, some g =>
         if g.reason = r then
           if 65535 ≤ g.firings + 1 then { gap := none, reach := some x, lastEnd := some x }
           else { v with gap := some ⟨g.reason, g.xStart, x, g.firings + 1⟩, reach := some x }
         else { gap := some ⟨r, raisedPast (some g.xEnd) x, raisedPast (some g.xEnd) x, 1⟩,
                reach := some (raisedPast (some g.xEnd) x), lastEnd := some g.xEnd }) := by
  unfold takeOutcome
  rcases hg : (s.cov.chan.get c).gap with _ | g <;> rcases o with _ | r <;> simp only [hg]
  · simp [setCoverage_cov]
  · simp [openGap_cov]
  · simp [closeGap_cov, setCoverage_cov]
  · by_cases hr : g.reason = r
    · simp only [hr, if_true, extendGap, firingsCap]
      by_cases hf : 65535 ≤ g.firings + 1
      · simp [hf, closeGap_cov, setCoverage_cov]
      · simp [hf, setCoverage_cov]
    · simp [hr, openGap_cov, closeGap_cov]

/-- An outcome leaves every other channel's coverage. -/
theorem takeOutcome_get_of_ne {c d : Chan} (o : ChanOutcome) (basis : Int) (s : State) (h : d ≠ c) :
    (takeOutcome c o basis s).cov.chan.get d = s.cov.chan.get d := by
  unfold takeOutcome
  dsimp only
  split
  · simp [setCoverage_cov, PerChan.get_set_of_ne _ _ h]
  · simp [closeGap_cov, setCoverage_cov, PerChan.get_set_of_ne _ _ h]
  · simp [openGap_cov, PerChan.get_set_of_ne _ _ h]
  · split
    · unfold extendGap
      dsimp only
      split
      · simp [closeGap_cov, setCoverage_cov, PerChan.get_set_of_ne _ _ h]
      · simp [setCoverage_cov, PerChan.get_set_of_ne _ _ h]
    · simp [openGap_cov, closeGap_cov, PerChan.get_set_of_ne _ _ h]

theorem le_heldToReach {r x : Int} : r ≤ heldToReach (some r) x := le_max_right _ _

theorem raisedPast_gt {e x : Int} : e < raisedPast (some e) x := by
  unfold raisedPast; dsimp only; split <;> omega

theorem le_raisedPast (o : Option Int) (x : Int) : x ≤ raisedPast o x := by
  unfold raisedPast; split
  · exact le_refl _
  · split <;> omega

/-- An outcome keeps its channel's law (law 8). -/
theorem takeOutcome_law {c : Chan} (o : ChanOutcome) (basis : Int) {s : State} (h : ChanCoverageLaw (s.cov.chan.get c)) :
    ChanCoverageLaw ((takeOutcome c o basis s).cov.chan.get c) := by
  rw [takeOutcome_get]
  generalize s.cov.chan.get c = v at h
  generalize basis + (s.cfg.chan.get c).offset = nominal
  obtain ⟨gap, reach, last⟩ := v
  obtain ⟨h1, h2, h3, h4⟩ := h
  dsimp only at *
  have raise : ∀ r x, ChanCoverageLaw ⟨some ⟨r, raisedPast last x, raisedPast last x, 1⟩, some (raisedPast last x), last⟩ := by
    intro r x
    refine ⟨?_, ?_, ?_, ?_⟩
    · intro g hg; cases hg; exact ⟨le_refl _, rfl⟩
    · intro g hg; cases hg; exact ⟨le_refl 1, (by decide : (1 : Nat) < 65535)⟩
    · intro g e hg he; cases hg; subst he; exact raisedPast_gt
    · intro e he; subst he; exact ⟨_, rfl, le_of_lt raisedPast_gt⟩
  split
  · refine ⟨by simp, by simp, by simp, ?_⟩
    intro e he
    obtain ⟨r, hr, hle⟩ := h4 e he
    subst hr
    exact ⟨_, rfl, hle.trans le_heldToReach⟩
  · rename_i g
    obtain ⟨_, hr⟩ := h1 g rfl
    subst hr
    refine ⟨by simp, by simp, by simp, ?_⟩
    intro e he; cases he; exact ⟨_, rfl, le_heldToReach⟩
  · exact raise _ _
  · rename_i r g
    obtain ⟨hx, hr⟩ := h1 g rfl
    obtain ⟨hf1, hf2⟩ := h2 g rfl
    subst hr
    split
    · split
      · refine ⟨by simp, by simp, by simp, ?_⟩
        intro e he; cases he; exact ⟨_, rfl, le_refl _⟩
      · refine ⟨?_, ?_, ?_, ?_⟩
        · intro g' hg; cases hg; exact ⟨hx.trans le_heldToReach, rfl⟩
        · intro g' hg; cases hg; dsimp only; omega
        · intro g' e hg he; cases hg; exact h3 g e rfl he
        · intro e he
          obtain ⟨r, hr, hle⟩ := h4 e he
          cases hr; exact ⟨_, rfl, hle.trans le_heldToReach⟩
    · refine ⟨?_, ?_, ?_, ?_⟩
      · intro g hg; cases hg; exact ⟨le_refl _, rfl⟩
      · intro g hg; cases hg; exact ⟨le_refl 1, (by decide : (1 : Nat) < 65535)⟩
      · intro g e hg he; cases hg; cases he; exact raisedPast_gt
      · intro e he; cases he; exact ⟨_, rfl, le_of_lt raisedPast_gt⟩

/-- A close keeps its channel's law. -/
theorem closeGap_law {c : Chan} {g : OpenGap} {how : Closure} {s : State} (h : ChanCoverageLaw (s.cov.chan.get c))
    (hg : (s.cov.chan.get c).gap = some g) : ChanCoverageLaw ((closeGap c g how s).cov.chan.get c) := by
  rw [closeGap_cov]
  simp only [PerChan.get_set_self]
  obtain ⟨_, hr⟩ := h.span g hg
  refine ⟨by simp, by simp, by simp, ?_⟩
  intro e he; cases he; exact ⟨_, hr, le_refl _⟩

theorem stopGap_get_of_ne {c d : Chan} (s : State) (h : d ≠ c) : (stopGap s c).cov.chan.get d = s.cov.chan.get d := by
  unfold stopGap
  split
  · rfl
  · simp [closeGap_cov, PerChan.get_set_of_ne _ _ h]

theorem stopGap_gap (s : State) (c : Chan) : ((stopGap s c).cov.chan.get c).gap = none := by
  unfold stopGap
  split
  · assumption
  · simp [closeGap_cov]

/-- After the close of all gaps no channel has an open gap (R81). -/
theorem closeAllGaps_gap (s : State) (c : Chan) : ((closeAllGaps s).cov.chan.get c).gap = none := by
  have keep : ∀ (cs : List Chan) (s : State), (s.cov.chan.get c).gap = none → ((cs.foldl stopGap s).cov.chan.get c).gap = none := by
    intro cs
    induction cs with
    | nil => intro s h; exact h
    | cons d ds ih =>
      intro s h
      apply ih
      by_cases hd : c = d
      · subst hd; exact stopGap_gap _ _
      · rw [stopGap_get_of_ne _ hd]; exact h
  have closes : ∀ (cs : List Chan) (s : State), c ∈ cs → ((cs.foldl stopGap s).cov.chan.get c).gap = none := by
    intro cs
    induction cs with
    | nil => intro s h; cases h
    | cons d ds ih =>
      intro s h
      rcases List.mem_cons.1 h with rfl | h
      · exact keep ds _ (stopGap_gap s c)
      · exact ih _ h
  exact closes _ _ (Chan.mem_all c)

end Sys2Proof.Machine
end

