-- ==== Sys2Proof/Laws/Tracking.lean ====
section
/-! SUPPORT. The Indication Tracker: what each of its events leaves of the slots, and that each keeps a slot within its bounds. -/

namespace Sys2Proof.Machine

/-! ### Settling -/

/-- The evaluation of a closed slot leaves the slots, the open order and the overflow counter (R106). -/
theorem evaluateClosed_trk (c : Chan) (s : State) (x : Slot × CloseMark) : (evaluateClosed c s x).trk =
    if (s.cfg.chan.get c).nmin ≤ x.1.hits then { s.trk with seq := nextSeq s.trk.seq }
    else { s.trk with sparse := satAdd s.trk.sparse 1 } := by
  unfold evaluateClosed
  dsimp only
  split
  · rw [queueIndication_trk, (insertRecord_keeps _ _).trk (by decide)]; rfl
  · rfl

theorem foldl_evaluateClosed_trk (c : Chan) : ∀ (xs : List (Slot × CloseMark)) (s : State),
    (xs.foldl (evaluateClosed c) s).trk.chan = s.trk.chan ∧ (xs.foldl (evaluateClosed c) s).trk.openOrder = s.trk.openOrder ∧
    (xs.foldl (evaluateClosed c) s).trk.overflow = s.trk.overflow
  | [], _ => ⟨rfl, rfl, rfl⟩
  | x :: xs, s => by
    have h := foldl_evaluateClosed_trk c xs (evaluateClosed c s x)
    rw [evaluateClosed_trk] at h
    rw [List.foldl_cons, h.1, h.2.1, h.2.2]
    split <;> exact ⟨rfl, rfl, rfl⟩

/-- A channel's slots become those given, and every other channel's stay. -/
theorem settleSlots_chan (c : Chan) (sl : ChanSlots) (xs : List (Slot × CloseMark)) (s : State) :
    (settleSlots c sl xs s).trk.chan = s.trk.chan.set c sl := (foldl_evaluateClosed_trk c xs _).1

theorem settleSlots_openOrder (c : Chan) (sl : ChanSlots) (xs : List (Slot × CloseMark)) (s : State) :
    (settleSlots c sl xs s).trk.openOrder = s.trk.openOrder := (foldl_evaluateClosed_trk c xs _).2.1

theorem settleSlots_overflow (c : Chan) (sl : ChanSlots) (xs : List (Slot × CloseMark)) (s : State) :
    (settleSlots c sl xs s).trk.overflow = s.trk.overflow := (foldl_evaluateClosed_trk c xs _).2.2

theorem settleSlots_nil (c : Chan) (sl : ChanSlots) (s : State) :
    settleSlots c sl [] s = s.setTrk { s.trk with chan := s.trk.chan.set c sl } := rfl

/-! ### The events -/

theorem hitRecord_chan (h : HitRecord) (s : State) : (hitRecord h s).trk.chan = s.trk.chan.set h.chan
    (slotsAfterHit (hitEffect (s.cfg.chan.get h.chan) s.cfg.lmax h (s.trk.chan.get h.chan)) s.trk.openOrder h) := by
  unfold hitRecord; dsimp only; rw [settleSlots_chan]; rfl

theorem firingNoHit_chan (c : Chan) (s : State) : (firingNoHit c s).trk.chan = s.trk.chan.set c
    ⟨remaining ((s.trk.chan.get c).slot0.map (missSlot (s.cfg.chan.get c).g)),
     remaining ((s.trk.chan.get c).slot1.map (missSlot (s.cfg.chan.get c).g))⟩ := settleSlots_chan _ _ _ _

theorem coverageMark_chan (c : Chan) (s : State) : (coverageMark c s).trk.chan = s.trk.chan.set c
    ⟨(s.trk.chan.get c).slot0.map (fun x => { x with gapped := true }),
     (s.trk.chan.get c).slot1.map (fun x => { x with gapped := true })⟩ := rfl

theorem closureRequest_chan (c : Chan) (s : State) : (closureRequest c s).trk.chan = s.trk.chan.set c ⟨none, none⟩ :=
  settleSlots_chan _ _ _ _

/-- Closure requests free the slots of the channels named, and leave the others. -/
theorem closureRequests_get (cs : List Chan) (s : State) (c : Chan) :
    (closureRequests cs s).trk.chan.get c = if c ∈ cs then ⟨none, none⟩ else s.trk.chan.get c := by
  have key : ∀ (cs : List Chan) (s : State), (cs.foldl (fun t c => closureRequest c t) s).trk.chan.get c =
      if c ∈ cs then ⟨none, none⟩ else s.trk.chan.get c := by
    intro cs
    induction cs with
    | nil => intro s; rfl
    | cons d ds ih =>
      intro s
      rw [List.foldl_cons, ih, closureRequest_chan, PerChan.get_set]
      by_cases h1 : c ∈ ds
      · simp [h1]
      · by_cases h2 : c = d
        · simp [h2]
        · simp [h1, h2]
  exact key cs s

theorem closeAllSlots_get (s : State) (c : Chan) : (closeAllSlots s).trk.chan.get c = ⟨none, none⟩ := by
  unfold closeAllSlots; rw [closureRequests_get, if_pos (Chan.mem_all c)]

/-! ### Bounds of a slot (laws 4 and 5) -/

theorem remaining_stays {o : Option SlotFate} {x : Slot} (h : remaining o = some x) : o = some (.stays x) := by
  unfold remaining at h; split at h
  · cases h; rfl
  · cases h
  · cases h

theorem openSlot_law (order lmax : Nat) {g : Nat} (hg : 1 ≤ g) (h : HitRecord) : SlotLaw lmax g (openSlot order h) := by
  constructor <;> simp [openSlot]
  omega

theorem satSucc_le (top n : Nat) : satSucc top n ≤ top := Nat.min_le_right _ _

theorem le_satSucc {top m n : Nat} (h : m ≤ n + 1) (t : m ≤ top) : m ≤ satSucc top n := Nat.le_min.2 ⟨h, t⟩

/-- Two counters that rise together keep their order, the first with the lower top. -/
theorem satSucc_le_satSucc {a b m n : Nat} (h : m ≤ n) (t : a ≤ b) : satSucc a m ≤ satSucc b n :=
  le_satSucc ((Nat.min_le_left _ _).trans (Nat.succ_le_succ h)) ((satSucc_le a m).trans t)

theorem offerHit_law {lmax g : Nat} {h : HitRecord} {x y : Slot} (hx : SlotLaw lmax g x) (hg : 1 ≤ g)
    (hy : offerHit lmax h x = .stays y) : SlotLaw lmax g y := by
  obtain ⟨⟨a1, a2⟩, ⟨b1, b2⟩, ⟨c1, c2⟩, ⟨⟨d1, d2⟩, d3, d4⟩, e⟩ := hx
  unfold offerHit at hy
  split at hy
  · rename_i hl
    cases hy
    exact {
      hits := ⟨le_satSucc (Nat.le_add_left 1 _) (by decide), satSucc_le _ _⟩
      spanned := ⟨satSucc_le_satSucc b1 (by decide), satSucc_le _ _⟩
      extent := ⟨(min_le_right _ _).trans (le_max_right _ _), hl⟩
      last := ⟨⟨min_le_right _ _, le_max_right _ _⟩, min_le_right _ _, le_max_right _ _⟩
      misses := hg }
  · cases hy

theorem missSlot_law {lmax g : Nat} {x y : Slot} (hx : SlotLaw lmax g x) (hy : missSlot g x = .stays y) : SlotLaw lmax g y := by
  unfold missSlot at hy
  dsimp only at hy
  split at hy
  · cases hy
  · rename_i hm
    cases hy
    exact {
      hits := hx.hits
      spanned := ⟨le_satSucc (hx.spanned.1.trans (Nat.le_succ _)) (hx.hits.2.trans (by decide)), satSucc_le _ _⟩
      extent := hx.extent
      last := hx.last
      misses := Nat.lt_of_not_le hm }

end Sys2Proof.Machine
end

