-- ==== Sys2Proof/Laws/Walks.lean ====
section
/-! SUPPORT. The sequencer's work in the words of Safety: fireable sets, outcomes handed in order, and what a walk, a request and a
given-up entry come to. -/

namespace Sys2Proof.Machine

/-! ### Fireable channels (R24) -/

/-- A fireable channel is one of the entry with a port that is not muted (R24). -/
theorem inSet_fireable (s : State) (e : PlanEntry) (c : Chan) : inSet (fireable s e) c = true ↔
    inSet e.chans c = true ∧ (s.cfg.chan.get c).port ≠ none ∧ inSet s.seq.mask c = false := by
  unfold fireable unfireable
  rw [inSet_setOf]
  cases inSet e.chans c <;> cases (s.cfg.chan.get c).port <;> cases inSet s.seq.mask c <;> simp

theorem inSet_zero (c : Chan) : inSet 0 c = false := by cases c <;> decide

theorem set_eq_zero (m : ChanSet) : m = 0 ↔ ∀ c, inSet m c = false := by
  constructor
  · rintro rfl c; exact inSet_zero c
  · intro h
    apply BitVec.eq_of_getLsbD_eq
    intro i hi
    have := h (Chan.ofNum i)
    rw [inSet] at this
    have e : (Chan.ofNum i).num = i := by
      interval_cases i <;> rfl
    rw [e] at this; rw [this]; simp

/-- An entry has nothing to fire exactly where no channel of it can fire (R24). -/
theorem fireable_eq_zero (s : State) (e : PlanEntry) : fireable s e = 0 ↔ ¬CanFire s e := by
  rw [set_eq_zero]
  unfold CanFire
  push Not
  refine forall_congr' fun c => ?_
  have := inSet_fireable s e c
  cases h : inSet (fireable s e) c <;> rw [h] at this <;> simp at this ⊢
  · exact this
  · exact ⟨this.1, this.2.1, this.2.2⟩

/-! ### Outcomes handed in order -/

theorem afterHanded_append (hs ks : List Handed) (s : State) :
    afterHanded (hs ++ ks) s = afterHanded ks (afterHanded hs s) := List.foldl_append ..

@[simp] theorem afterHanded_nil (s : State) : afterHanded [] s = s := rfl

theorem afterHanded_cons (h : Handed) (hs : List Handed) (s : State) :
    afterHanded (h :: hs) s = afterHanded hs (channelOutcome h.chan h.outcome h.basis s) := rfl

theorem afterHanded_keeps (hs : List Handed) (s : State) : Keeps [.cov, .trk, .link] s (afterHanded hs s) :=
  Keeps.foldl (fun t (h : Handed) => channelOutcome_keeps h.chan h.outcome h.basis t) _ _

@[simp] theorem afterHanded_seq (hs : List Handed) (s : State) : (afterHanded hs s).seq = s.seq :=
  (afterHanded_keeps hs s).seq (by decide)
@[simp] theorem afterHanded_zone (hs : List Handed) (s : State) : (afterHanded hs s).zone = s.zone :=
  (afterHanded_keeps hs s).zone (by decide)
@[simp] theorem afterHanded_acq (hs : List Handed) (s : State) : (afterHanded hs s).acq = s.acq :=
  (afterHanded_keeps hs s).acq (by decide)
@[simp] theorem afterHanded_cfg (hs : List Handed) (s : State) : (afterHanded hs s).cfg = s.cfg :=
  (afterHanded_keeps hs s).cfg (by decide)
@[simp] theorem afterHanded_rc (hs : List Handed) (s : State) : (afterHanded hs s).rc = s.rc :=
  (afterHanded_keeps hs s).rc (by decide)
@[simp] theorem afterHanded_coup (hs : List Handed) (s : State) : (afterHanded hs s).coup = s.coup :=
  (afterHanded_keeps hs s).coup (by decide)
@[simp] theorem afterHanded_pos (hs : List Handed) (s : State) : (afterHanded hs s).pos = s.pos :=
  (afterHanded_keeps hs s).pos (by decide)

theorem coverageMark_trk (c : Chan) {s t : State} (h : t.trk = s.trk) : (coverageMark c t).trk = (coverageMark c s).trk := by
  unfold coverageMark; simp [h]

theorem takeOutcome_trk (c : Chan) (o : ChanOutcome) (b : Int) (s : State) : (takeOutcome c o b s).trk = s.trk :=
  (takeOutcome_keeps c o b s).trk (by decide)

/-- A GAP record reaches class 3 by what class 3 and its drop counter hold (R135). -/
theorem offer3_same {l m : Link} {own : Nat} (r : Queued GapRecord) (hq : m.q3 = l.q3) (hd : m.drop3 = l.drop3) :
    (offer3 own r m).q3 = (offer3 own r l).q3 ∧ (offer3 own r m).drop3 = (offer3 own r l).drop3 := by
  by_cases h : l.q3.length < cap3
  · rw [offer3_room _ _ h, offer3_room _ _ (by rw [hq]; exact h)]; simp [hq, hd]
  · rw [offer3_full _ _ h, offer3_full _ _ (by rw [hq]; exact h)]; simp [hq, hd]

/-- Two states that agree in all that an outcome reads and makes of coverage. -/
structure SameGaps (s t : State) : Prop where
  rc : t.rc = s.rc
  cfg : t.cfg = s.cfg
  cov : t.cov = s.cov
  q3 : t.link.q3 = s.link.q3
  drop3 : t.link.drop3 = s.link.drop3

theorem setCov_same {s t : State} (h : SameGaps s t) (x : Coverage) : SameGaps (s.setCov x) (t.setCov x) :=
  ⟨h.rc, h.cfg, rfl, h.q3, h.drop3⟩

theorem closeGap_same {s t : State} (h : SameGaps s t) (c : Chan) (g : OpenGap) (how : Closure) :
    SameGaps (closeGap c g how s) (closeGap c g how t) := by
  have link : (closeGap c g how t).link = offer3 s.own ⟨s.rc.run, gapRecord s c g how⟩ t.link := by
    unfold closeGap
    rw [queueGap_link]
    unfold gapRecord State.own State.rail
    simp only [State.setCov_link, State.setCov_rc, h.rc, h.cfg, h.cov]
  refine ⟨h.rc, h.cfg, ?_, ?_, ?_⟩
  · unfold closeGap; rw [h.cov]; rfl
  · rw [link]; exact (offer3_same _ h.q3 h.drop3).1
  · rw [link]; exact (offer3_same _ h.q3 h.drop3).2

theorem takeOutcome_same {s t : State} (h : SameGaps s t) (c : Chan) (o : ChanOutcome) (b : Int) :
    SameGaps (takeOutcome c o b s) (takeOutcome c o b t) := by
  have set : ∀ (v : ChanCoverage) {s t : State}, SameGaps s t → SameGaps (setCoverage c v s) (setCoverage c v t) :=
    fun v s t h => by unfold setCoverage; rw [h.cov]; exact setCov_same h _
  unfold takeOutcome
  dsimp only
  rw [h.cov, h.cfg]
  split
  · exact set _ h
  · exact closeGap_same (set _ h) ..
  · unfold openGap; rw [h.cov]; exact set _ h
  · rename_i g _
    split
    · unfold extendGap
      dsimp only
      rw [h.cov]
      split
      · exact closeGap_same (set _ h) ..
      · exact set _ h
    · have k := closeGap_same h c g .changed
      unfold openGap; rw [k.cov]; exact set _ k

theorem afterHanded_same : ∀ (hs : List Handed) {s t : State}, SameGaps s t → SameGaps (afterHanded hs s) (afterHanded hs t)
  | [], _, _, h => h
  | a :: hs, s, t, h => by
    rw [afterHanded_cons, afterHanded_cons]
    refine afterHanded_same hs ?_
    have k := takeOutcome_same h a.chan a.outcome a.basis
    unfold channelOutcome
    split
    · have m := coverageMark_keeps a.chan
      have e : ∀ u : State, (coverageMark a.chan u).link = u.link := fun u => (m u).link (by decide)
      exact ⟨by rw [(m _).rc (by decide), (m _).rc (by decide), k.rc], by rw [(m _).cfg (by decide), (m _).cfg (by decide), k.cfg],
        by rw [(m _).cov (by decide), (m _).cov (by decide), k.cov], by rw [e, e, k.q3], by rw [e, e, k.drop3]⟩
    · exact k

/-- Outcomes handed after others (R78). -/
theorem Took.more {before : List Handed} {s t : State} (h : Took before s t) (rc : t.rc = s.rc) (cfg : t.cfg = s.cfg)
    (hs : List Handed) : Took (before ++ hs) s (afterHanded hs t) := by
  have k := afterHanded_same hs (s := afterHanded before s) (t := t) ⟨by rw [(afterHanded_keeps before s).rc (by decide), rc],
    by rw [(afterHanded_keeps before s).cfg (by decide), cfg], h.cov, h.sent, h.dropped⟩
  exact ⟨by rw [afterHanded_append]; exact k.cov, by rw [afterHanded_append]; exact k.q3,
    by rw [afterHanded_append]; exact k.drop3⟩

/-- The slots after outcomes depend on the slots alone. -/
theorem afterHanded_trk_congr (hs : List Handed) {s t : State} (h : t.trk = s.trk) :
    (afterHanded hs t).trk = (afterHanded hs s).trk := by
  induction hs generalizing s t with
  | nil => exact h
  | cons a hs ih =>
    rw [afterHanded_cons, afterHanded_cons]
    refine ih ?_
    unfold channelOutcome; split
    · apply coverageMark_trk; rw [takeOutcome_trk, takeOutcome_trk, h]
    · rw [takeOutcome_trk, takeOutcome_trk, h]

/-- Outcomes that hand no coverage mark leave the slots (R83). -/
theorem afterHanded_trk (hs : List Handed) (s : State) (h : ∀ x ∈ hs, marksCoverage x.outcome = false) :
    (afterHanded hs s).trk = s.trk := by
  induction hs generalizing s with
  | nil => rfl
  | cons a hs ih =>
    rw [afterHanded_cons, ih _ (fun x m => h x (List.mem_cons_of_mem _ m))]
    unfold channelOutcome
    rw [h a (List.mem_cons_self ..)]
    simp [takeOutcome_trk]

/-! ### Entries not fired (R24, R28 to R32) -/

theorem unfiredOutcome_eq (s : State) (r : Reason) (c : Chan) : unfiredOutcome s r c = unfired s r c := by
  unfold unfiredOutcome unfireable unfired
  cases (s.cfg.chan.get c).port <;> simp
  cases inSet s.seq.mask c <;> simp

theorem unfired_congr {s t : State} (hc : t.cfg = s.cfg) (hm : t.seq.mask = s.seq.mask) (r : Reason) (c : Chan) :
    unfired t r c = unfired s r c := by unfold unfired; rw [hc, hm]

theorem unfiredEntry_congr {s t : State} (hc : t.cfg = s.cfg) (hm : t.seq.mask = s.seq.mask) (r : Reason) (b : Int)
    (e : PlanEntry) : unfiredEntry t r b e = unfiredEntry s r b e := by
  unfold unfiredEntry; simp only [unfired_congr hc hm]

theorem unfiredDue_congr {s t : State} (hc : t.cfg = s.cfg) (hm : t.seq.mask = s.seq.mask) (r : Reason) (i : Nat) (b : Int)
    (es : List PlanEntry) : unfiredDue t r i b es = unfiredDue s r i b es := by
  unfold unfiredDue
  have : unfiredEntry t r b = unfiredEntry s r b := funext (unfiredEntry_congr hc hm r b)
  rw [this]

/-- An entry that is not fired hands its outcomes in ascending channel number. -/
theorem handUnfired_eq (r : Reason) (b : Int) (s : State) (e : PlanEntry) :
    handUnfired r b s e = afterHanded (unfiredEntry s r b e) s := by
  unfold handUnfired afterHanded unfiredEntry
  rw [List.foldl_map]
  generalize chansOf e.chans = cs
  suffices ∀ (t : State), t.cfg = s.cfg → t.seq.mask = s.seq.mask →
      cs.foldl (fun t c => channelOutcome c (unfiredOutcome t r c) b t) t =
        cs.foldl (fun t c => channelOutcome c (unfired s r c) b t) t from this s rfl rfl
  induction cs with
  | nil => intro t _ _; rfl
  | cons c cs ih =>
    intro t hc hm
    simp only [List.foldl_cons]
    rw [unfiredOutcome_eq, unfired_congr hc hm]
    refine ih _ ?_ ?_
    · rw [(channelOutcome_keeps _ _ _ t).cfg (by decide), hc]
    · rw [(channelOutcome_keeps _ _ _ t).seq (by decide), hm]

/-- The due entries of a list are given up in plan order. -/
theorem giveUp_eq (r : Reason) (i : Nat) (b : Int) (es : List PlanEntry) (s : State) :
    giveUp r i b es s = afterHanded (unfiredDue s r i b es) s := by
  unfold giveUp unfiredDue dueAt
  generalize es.filter _ = ds
  induction ds generalizing s with
  | nil => rfl
  | cons d ds ih =>
    rw [List.foldl_cons, ih, List.flatMap_cons, afterHanded_append, handUnfired_eq]
    have k := afterHanded_keeps (unfiredEntry s r b d) s
    have : unfiredEntry (afterHanded (unfiredEntry s r b d) s) r b = unfiredEntry s r b :=
      funext (unfiredEntry_congr (k.cfg (by decide)) (by rw [k.seq (by decide)]) r b)
    rw [this]

/-- The skipped steps are given up in ascending index (R32). -/
theorem skippedSteps_eq (ks : List StepRef) (s : State) : skippedSteps ks s =
    afterHanded (ks.flatMap (fun k => unfiredDue s .missed k.index k.pos s.cfg.plan)) s := by
  unfold skippedSteps
  induction ks generalizing s with
  | nil => rfl
  | cons k ks ih =>
    rw [List.foldl_cons, ih, List.flatMap_cons, afterHanded_append, giveUp_eq]
    have h := afterHanded_keeps (unfiredDue s .missed k.index k.pos s.cfg.plan) s
    have hc := h.cfg (by decide)
    have hm : (afterHanded (unfiredDue s .missed k.index k.pos s.cfg.plan) s).seq.mask = s.seq.mask := by
      rw [h.seq (by decide)]
    rw [hc]
    simp only [unfiredDue_congr hc hm]

/-- Where no channel can fire, no outcome hands a coverage mark. -/
theorem unfiredEntry_marks {s : State} {e : PlanEntry} (h : ¬CanFire s e) (r : Reason) (b : Int) :
    ∀ x ∈ unfiredEntry s r b e, marksCoverage x.outcome = false := by
  intro x hx
  simp only [unfiredEntry, List.mem_map, mem_chansOf] at hx
  obtain ⟨c, hc, rfl⟩ := hx
  unfold unfired
  by_cases hp : (s.cfg.chan.get c).port = none
  · simp [hp, marksCoverage]
  · by_cases hm : inSet s.seq.mask c = true
    · simp [hp, hm, marksCoverage]
    · exact absurd ⟨c, hc, hp, by simpa using hm⟩ h

theorem unfiredDue_marks {s : State} {i : Nat} {es : List PlanEntry} (r : Reason) (b : Int)
    (h : ∀ e ∈ es, i % e.divider = e.phase → ¬CanFire s e) :
    ∀ x ∈ unfiredDue s r i b es, marksCoverage x.outcome = false := by
  intro x hx
  simp only [unfiredDue, List.mem_flatMap, List.mem_filter, decide_eq_true_eq] at hx
  obtain ⟨e, ⟨he, hd⟩, hx⟩ := hx
  exact unfiredEntry_marks (h e he hd) r b x hx

theorem CanFire.congr {s t : State} (hc : t.cfg = s.cfg) (hm : t.seq.mask = s.seq.mask) {e : PlanEntry} :
    CanFire t e ↔ CanFire s e := by unfold CanFire; rw [hc, hm]

/-! ### The walk (R23) -/

/-- A walk that finds no due entry with something to fire hands the outcomes of every due entry. -/
theorem walk_none (c : StepRef) : ∀ (es : List PlanEntry) (i : Nat) (s : State),
    (∀ e ∈ es, c.index % e.divider = e.phase → ¬CanFire s e) →
    walk c i es s = (afterHanded (unfiredDue s .missed c.index c.pos es) s, none) := by
  intro es
  induction es with
  | nil => intro i s _; rfl
  | cons e es ih =>
    intro i s h
    unfold walk dueAt
    by_cases hd : c.index % e.divider = e.phase
    · have hz := (fireable_eq_zero s e).mpr (h e (List.mem_cons_self ..) hd)
      simp only [hd, decide_true, if_true, hz]
      rw [handUnfired_eq]
      have k := afterHanded_keeps (unfiredEntry s .missed c.pos e) s
      have hc := k.cfg (by decide)
      have hm : (afterHanded (unfiredEntry s .missed c.pos e) s).seq.mask = s.seq.mask := by rw [k.seq (by decide)]
      rw [ih (i + 1) _ (fun x hx dx => (CanFire.congr hc hm).not.mpr (h x (List.mem_cons_of_mem _ hx) dx)),
        unfiredDue_congr hc hm, ← afterHanded_append]
      simp [unfiredDue, hd]
    · simp only [hd, decide_false]
      rw [if_neg (by simp), ih (i + 1) s (fun x hx dx => h x (List.mem_cons_of_mem _ hx) dx)]
      simp [unfiredDue, hd]

/-- A walk stops at the first due entry with something to fire, after the outcomes of the due ones before it. -/
theorem walk_some (c : StepRef) (e : PlanEntry) (rest : List PlanEntry) : ∀ (pre : List PlanEntry) (i : Nat) (s : State),
    (∀ x ∈ pre, c.index % x.divider = x.phase → ¬CanFire s x) → c.index % e.divider = e.phase → CanFire s e →
    walk c i (pre ++ e :: rest) s = (afterHanded (unfiredDue s .missed c.index c.pos pre) s, some (i + pre.length, e)) := by
  intro pre
  induction pre with
  | nil =>
    intro i s _ hd hf
    have hz : ¬ fireable s e = 0 := fun h => (fireable_eq_zero s e).mp h hf
    simp only [List.nil_append, walk, dueAt, hd, decide_true, if_true, hz, if_false]
    rfl
  | cons x pre ih =>
    intro i s h hd hf
    rw [List.cons_append]
    unfold walk dueAt
    by_cases dx : c.index % x.divider = x.phase
    · have hz := (fireable_eq_zero s x).mpr (h x (List.mem_cons_self ..) dx)
      simp only [dx, decide_true, if_true, hz]
      rw [handUnfired_eq]
      have k := afterHanded_keeps (unfiredEntry s .missed c.pos x) s
      have hc := k.cfg (by decide)
      have hm : (afterHanded (unfiredEntry s .missed c.pos x) s).seq.mask = s.seq.mask := by rw [k.seq (by decide)]
      rw [ih (i + 1) _ (fun y hy dy => (CanFire.congr hc hm).not.mpr (h y (List.mem_cons_of_mem _ hy) dy)) hd
        ((CanFire.congr hc hm).mpr hf), unfiredDue_congr hc hm, ← afterHanded_append]
      simp [unfiredDue, dx]; omega
    · simp only [dx, decide_false]
      rw [if_neg (by simp), ih (i + 1) s (fun y hy dy => h y (List.mem_cons_of_mem _ hy) dy) hd hf]
      simp [unfiredDue, dx]; omega

/-- The walk of the plan from an entry on, where it ends. -/
theorem walk_ends {s t : State} {c : StepRef} {i : Nat} (hc : t.cfg = s.cfg) (hm : t.seq.mask = s.seq.mask)
    (h : WalkEnds s c.index i) : walk c i (s.cfg.plan.drop i) t =
      (afterHanded (unfiredDue s .missed c.index c.pos (s.cfg.plan.drop i)) t, none) := by
  rw [walk_none, unfiredDue_congr hc hm]
  intro e he hd
  obtain ⟨j, hj⟩ := List.mem_iff_getElem?.mp he
  rw [List.getElem?_drop] at hj
  exact (CanFire.congr hc hm).not.mpr (h (i + j) e (by omega) hj hd)

/-- The walk of the plan from an entry on, where it stops. -/
theorem walk_stops {s t : State} {c : StepRef} {i j : Nat} {e : PlanEntry} (hc : t.cfg = s.cfg)
    (hm : t.seq.mask = s.seq.mask) (h : WalkStops s c.index i j e) : walk c i (s.cfg.plan.drop i) t =
      (afterHanded (unfiredDue s .missed c.index c.pos ((s.cfg.plan.take j).drop i)) t, some (j, e)) := by
  obtain ⟨hlt, he⟩ := List.getElem?_eq_some_iff.mp h.entry
  have hr := h.reached
  have split : s.cfg.plan.drop i = (s.cfg.plan.take j).drop i ++ e :: s.cfg.plan.drop (j + 1) := by
    conv_lhs => rw [← List.take_append_drop j s.cfg.plan]
    rw [List.drop_append_of_le_length (by rw [List.length_take]; omega), List.drop_eq_getElem_cons hlt, he]
  have len : ((s.cfg.plan.take j).drop i).length = j - i := by simp; omega
  conv_lhs => rw [split]
  rw [walk_some c e _ _ _ _ _ h.due ((CanFire.congr hc hm).mpr h.fires), unfiredDue_congr hc hm, len]
  · simp; omega
  · intro x hx hd
    obtain ⟨k, hk⟩ := List.mem_iff_getElem?.mp hx
    rw [List.getElem?_drop] at hk
    have hk' : s.cfg.plan[i + k]? = some x ∧ i + k < j := by
      rw [List.getElem?_take] at hk
      split at hk
      · exact ⟨hk, by assumption⟩
      · exact absurd hk (by simp)
    exact (CanFire.congr hc hm).not.mpr (h.passed (i + k) x (by omega) hk'.2 hk'.1 hd)

/-- A walk from an entry on ends, or stops at one entry. -/
theorem walkEnds_or_stops (s : State) (index i : Nat) : WalkEnds s index i ∨ ∃ j e, WalkStops s index i j e := by
  by_cases h : WalkEnds s index i
  · exact .inl h
  · have hex : ∃ j, i ≤ j ∧ ∃ e, s.cfg.plan[j]? = some e ∧ index % e.divider = e.phase ∧ CanFire s e := by
      unfold WalkEnds at h; push Not at h
      obtain ⟨j, e, h1, h2, h3, h4⟩ := h
      exact ⟨j, h1, e, h2, h3, h4⟩
    classical
    obtain ⟨h1, e, h2, h3, h4⟩ := Nat.find_spec hex
    exact .inr ⟨Nat.find hex, e, h1, h2, h3, h4, fun j x a b hx hd hf => Nat.find_min hex b ⟨a, x, hx, hd, hf⟩⟩

/-- The entries a walk passes hand no coverage mark. -/
theorem WalkEnds.marks {s : State} {index i : Nat} (h : WalkEnds s index i) (b : Int) :
    ∀ x ∈ unfiredDue s .missed index b (s.cfg.plan.drop i), marksCoverage x.outcome = false := by
  refine unfiredDue_marks _ _ fun e he hd => ?_
  obtain ⟨j, hj⟩ := List.mem_iff_getElem?.mp he
  rw [List.getElem?_drop] at hj
  exact h (i + j) e (by omega) hj hd

theorem WalkStops.marks {s : State} {index i j : Nat} {e : PlanEntry} (h : WalkStops s index i j e) (b : Int) :
    ∀ x ∈ unfiredDue s .missed index b ((s.cfg.plan.take j).drop i), marksCoverage x.outcome = false := by
  refine unfiredDue_marks _ _ fun x hx hd => ?_
  obtain ⟨k, hk⟩ := List.mem_iff_getElem?.mp hx
  rw [List.getElem?_drop, List.getElem?_take] at hk
  split at hk
  · exact h.passed (i + k) x (by omega) (by assumption) hk hd
  · exact absurd hk (by simp)

/-! ### Requests and walks as Safety states them -/

theorem fireVolley_fires (s : State) (i : Nat) (e : PlanEntry) (t : State) (hc : t.cfg = s.cfg)
    (hm : t.seq.mask = s.seq.mask) : Fires s i e (fireVolley i e t) := by
  refine ⟨fireable t e, fun c => ?_, rfl, ?_, ?_, rfl⟩
  · rw [inSet_fireable, hc, hm]
  · simp [fireVolley, microsecond]; omega
  · simp [fireVolley, portsOf, chansOf, hc]

theorem joinWindow_iff (z : Zone) : (z.quiet || joinWindow z) = true ↔ ClaimableNow z := by
  unfold joinWindow ClaimableNow microsecond
  cases z.quiet <;> cases z.claimPeriod <;> simp

/-- What a request comes to (R42, R49, R52). -/
theorem makeRequest_requested {s t : State} {i : Nat} {e : PlanEntry} {z : Zone} (hz : t.zone = z) (hc : t.cfg = s.cfg)
    (hm : t.seq.mask = s.seq.mask) (hr : t.rc = s.rc) : Requested s z i e (makeRequest i e t) := by
  have he : t.zoneEnabled = s.zoneEnabled := by unfold State.zoneEnabled; rw [hr]
  subst hz
  unfold makeRequest
  rw [he]
  refine ⟨fun h => ?_, fun h hi hq => ?_, fun h hi hq => ?_, fun h hi => ?_, fun h => ?_⟩
  · simp [h]
  · have := (joinWindow_iff _).mpr hq
    simp [h, zoneRequest, hi, this, enterClaim, hr]
  · have : (t.zone.quiet || joinWindow t.zone) = false := by
      cases hb : (t.zone.quiet || joinWindow t.zone) with
      | true => exact absurd ((joinWindow_iff _).mp hb) hq
      | false => rfl
    simp [h, zoneRequest, hi, this]
  · simp [h, zoneRequest, hi]
  · have h2 : (if s.zoneEnabled = true then
        (t.setSeq { t.seq with sq := .pending, pointer := some i }).setZone (zoneRequest t.rc.straps.address t.zone)
      else fireVolley i e (t.setSeq { t.seq with sq := .pending, pointer := some i })) =
        fireVolley i e (t.setSeq { t.seq with sq := .pending, pointer := some i }) := by rw [h]; rfl
    rw [h2]
    exact ⟨rfl, fireVolley_fires s i e _ hc hm⟩

/-- What the walk of a cycle comes to, after outcomes that have been handed already (R23, R24). -/
theorem walkOn_walked {s t : State} {z : Zone} {c : StepRef} {i : Nat} {before : List Handed} (hz : t.zone = z)
    (hc : t.cfg = s.cfg) (hm : t.seq.mask = s.seq.mask) (hr : t.rc = s.rc) (hy : t.seq.cycle = some c)
    (hv : Took before s t) : Walked s z c i before (walkOn c i t) := by
  constructor
  · intro h
    unfold walkOn
    rw [hc, walk_ends hc hm h]
    have took := hv.more hr hc (unfiredDue s .missed c.index c.pos (s.cfg.plan.drop i))
    set u := afterHanded _ t with hu
    have k : Keeps [.cov, .trk, .link] t u := afterHanded_keeps _ _
    refine ⟨⟨took.cov, took.sent, took.dropped⟩, rfl, rfl, rfl, ?_⟩
    · show u.zone = z
      rw [k.zone (by decide), hz]
  · intro j e h
    unfold walkOn
    rw [hc, walk_stops hc hm h]
    have took := hv.more hr hc (unfiredDue s .missed c.index c.pos ((s.cfg.plan.take j).drop i))
    set u := afterHanded _ t with hu
    have k : Keeps [.cov, .trk, .link] t u := afterHanded_keeps _ _
    refine ⟨?_, ?_, ?_⟩
    · show Took _ s (makeRequest j e u)
      have m := makeRequest_keeps j e u
      exact ⟨by rw [m.cov (by decide), took.cov], by rw [m.link (by decide), took.sent],
        by rw [m.link (by decide), took.dropped]⟩
    · show (makeRequest j e u).seq.cycle = _
      have : (makeRequest j e u).seq.cycle = u.seq.cycle := by unfold makeRequest; split <;> rfl
      rw [this, k.seq (by decide), hy]
    · exact makeRequest_requested (by rw [k.zone (by decide), hz]) (by rw [k.cfg (by decide), hc])
        (by rw [k.seq (by decide), hm]) (by rw [k.rc (by decide), hr])

theorem makeRequest_seq (i : Nat) (e : PlanEntry) (s : State) :
    (makeRequest i e s).seq.mask = s.seq.mask ∧ (makeRequest i e s).seq.waiting = s.seq.waiting ∧
    (makeRequest i e s).seq.held = s.seq.held ∧
    ((makeRequest i e s).seq.sq ≠ .hold → (makeRequest i e s).acq = s.acq ∧ (makeRequest i e s).seq.volley = s.seq.volley) ∧
    (makeRequest i e s).trk = s.trk := by
  refine ⟨?_, ?_, ?_, ?_, (makeRequest_keeps i e s).trk (by decide)⟩ <;> unfold makeRequest <;> split <;> first | rfl | skip
  · intro _; exact ⟨rfl, rfl⟩
  · intro h; exact absurd rfl h

/-- What a walk leaves of the slots, the mask and, unless it fires at once, the records. -/
theorem walkOn_rest (c : StepRef) (i : Nat) (s : State) :
    (walkOn c i s).seq.mask = s.seq.mask ∧ (walkOn c i s).seq.waiting = s.seq.waiting ∧
    (walkOn c i s).seq.held = s.seq.held ∧
    ((walkOn c i s).seq.sq ≠ .hold → (walkOn c i s).acq = s.acq ∧ (walkOn c i s).seq.volley = s.seq.volley) ∧
    (walkOn c i s).trk = s.trk := by
  unfold walkOn
  have key : ∃ hs o, walk c i (s.cfg.plan.drop i) s = (afterHanded hs s, o) ∧ ∀ x ∈ hs, marksCoverage x.outcome = false := by
    rcases walkEnds_or_stops s c.index i with h | ⟨j, e, h⟩
    · exact ⟨_, _, walk_ends rfl rfl h, h.marks _⟩
    · exact ⟨_, _, walk_stops rfl rfl h, h.marks _⟩
  obtain ⟨hs, o, e, marks⟩ := key
  rw [e]
  have kt := afterHanded_trk hs s marks
  cases o with
  | none =>
    simp [finishCycle, kt]
  | some p =>
    obtain ⟨m1, m2, m3, m4, m5⟩ := makeRequest_seq p.1 p.2 (afterHanded hs s)
    simp only
    rw [m1, m2, m3, m5, kt]
    exact ⟨by simp, by simp, by simp, fun h => by simpa using m4 h, rfl⟩

end Sys2Proof.Machine
end

