-- ==== Sys2Proof/Laws/Closes.lean ====
section
/-! SUPPORT. What the closes of several slots or gaps by one event leave: the records in their order, with their sequence numbers, and
the counts; and the queues that outcomes and a volley's hand-over leave. -/

namespace Sys2Proof.Machine

/-! ### Slots -/

/-- Some slots have been evaluated in their order (R105 to R107). -/
structure Evaluated (s : State) (xs : List ClosedSlot) (t : State) : Prop where
  keeps : Keeps [.trk, .corr, .link] s t
  counts : t.trk.openOrder = s.trk.openOrder ∧ t.trk.overflow = s.trk.overflow
  closed : SlotsClosed s xs t

/-- What the closes need of a state, besides its tracker, queue and table. -/
theorem closes_of_keeps {s t : State} (h : Keeps [.trk, .corr, .link] s t) (xs : List ClosedSlot) :
    reportable t xs = reportable s xs ∧ ∀ seq x, closedIndication t seq x = closedIndication s seq x := by
  have hc := h.cfg (by decide)
  have hr := h.rc (by decide)
  refine ⟨by unfold reportable; rw [hc], ?_⟩
  intro seq x
  unfold closedIndication State.own State.rail
  rw [hc, hr]

theorem SlotsClosed.refl (s : State) : SlotsClosed s [] s where
  seq := rfl
  sparse := fun h => (Nat.min_eq_left h).symm
  sent := by simp [closedIndications, reportable]
  dropped := fun h => by simp [closedIndications, reportable, h]
  entered := fun h => by simp [closedIndications, reportable, h]
  inserted := ⟨rfl, rfl, rfl⟩

theorem Evaluated.refl (s : State) : Evaluated s [] s := ⟨Keeps.refl _ _, ⟨rfl, rfl⟩, SlotsClosed.refl s⟩

theorem reportable_append (s : State) (xs ys : List ClosedSlot) :
    reportable s (xs ++ ys) = reportable s xs ++ reportable s ys := List.filter_append ..

theorem reportable_length_le (s : State) (xs : List ClosedSlot) : (reportable s xs).length ≤ xs.length :=
  List.length_filter_le _ _

theorem closedIndications_append {s t : State} {xs : List ClosedSlot} (h : Evaluated s xs t) (ys : List ClosedSlot) :
    closedIndications s (xs ++ ys) = closedIndications s xs ++ closedIndications t ys := by
  unfold closedIndications
  obtain ⟨h1, h2⟩ := closes_of_keeps h.keeps ys
  rw [reportable_append, List.zipIdx_append, List.map_append, h1]
  refine congrArg (_ ++ ·) ?_
  rw [List.zipIdx_eq_map_add, List.map_map]
  refine List.map_congr_left ?_
  intro x _
  simp only [Function.comp, h2, h.closed.seq, seqAfter_add, Nat.zero_add]

/-- A bounded queue that has lost its oldest loses further ones as the whole would. -/
theorem drop_append_drop {α : Type} (x b : List α) (cap : Nat) :
    (x.drop (x.length - cap) ++ b).drop ((x.drop (x.length - cap)).length + b.length - cap) =
      (x ++ b).drop ((x ++ b).length - cap) := by
  rw [List.length_drop, List.length_append]
  by_cases h : x.length ≤ cap
  · rw [Nat.sub_eq_zero_of_le h, List.drop_zero, Nat.sub_zero]
  · have e : x.length + b.length - cap = (x.length - cap) + b.length := by omega
    have e2 : x.length - (x.length - cap) + b.length - cap = b.length := by omega
    rw [e, e2, ← List.drop_drop, List.drop_append_of_le_length (Nat.sub_le _ _)]

/-! ### Insertions that see the same table and class 1 -/

/-- Two states that agree in all that an insertion reads and makes. -/
structure SameTable (s t : State) : Prop where
  run : t.rc.run = s.rc.run
  straps : t.rc.straps = s.rc.straps
  cfg : t.cfg = s.cfg
  corr : t.corr = s.corr
  q1 : t.link.q1 = s.link.q1
  drop1 : t.link.drop1 = s.link.drop1

theorem offer1_same {l m : Link} {own : Nat} (r : Queued Call) (hq : m.q1 = l.q1) (hd : m.drop1 = l.drop1) :
    (offer1 own r m).q1 = (offer1 own r l).q1 ∧ (offer1 own r m).drop1 = (offer1 own r l).drop1 := by
  by_cases h : l.q1.length < cap1
  · rw [offer1_room _ _ h, offer1_room _ _ (by rw [hq]; exact h)]; simp [hq, hd]
  · rw [offer1_full _ _ h, offer1_full _ _ (by rw [hq]; exact h)]; simp [hq, hd]

theorem buildCall_same {s t : State} (h : SameTable s t) (n : Nat) (a : Indication) (b : Option Indication) (u e : Bool) :
    SameTable (buildCall n a b u e s) (buildCall n a b u e t) := by
  obtain ⟨h0, h1, h2, h3, h4, h5⟩ := h
  unfold buildCall State.rail
  dsimp only
  rw [h1, h3]
  split
  · exact ⟨h0, h1, h2, rfl, h4, h5⟩
  · refine ⟨h0, h1, h2, rfl, ?_, ?_⟩ <;> rw [queueCall_link, queueCall_link] <;> unfold State.own <;>
      simp only [State.setCorr_rc, State.setCorr_link, h0, h1]
    · exact (offer1_same _ h4 h5).1
    · exact (offer1_same _ h4 h5).2

theorem setCorr_same {s t : State} (h : SameTable s t) (x : Correlation) : SameTable (s.setCorr x) (t.setCorr x) :=
  ⟨h.run, h.straps, h.cfg, rfl, h.q1, h.drop1⟩

theorem leaveEffect_same {s t : State} (h : SameTable s t) (early : Bool) (e : Entry) :
    SameTable (leaveEffect early s e) (leaveEffect early t e) := by
  unfold leaveEffect isOwn State.own
  rw [h.straps, h.cfg, h.corr]
  split
  · split
    · exact buildCall_same h ..
    · exact setCorr_same h _
  · exact h

theorem insertPaired_same {s t : State} (h : SameTable s t) (n : Indication) :
    SameTable (insertPaired n s) (insertPaired n t) := by
  unfold insertPaired isOwn State.own
  dsimp only
  rw [h.straps, h.cfg, h.corr]
  split
  · exact setCorr_same h _
  · split
    · exact buildCall_same (setCorr_same h _) ..
    · exact setCorr_same h _

theorem insertRecord_same {s t : State} (h : SameTable s t) (n : Indication) :
    SameTable (insertRecord n s) (insertRecord n t) := by
  unfold insertRecord
  rw [h.corr]
  apply insertPaired_same
  split
  · unfold forceOut
    rw [h.corr]
    split
    · exact h
    · exact leaveEffect_same (setCorr_same h _) ..
  · exact h

theorem insertRecords_same : ∀ (ns : List Indication) {s t : State}, SameTable s t →
    SameTable (ns.foldl (fun v n => insertRecord n v) s) (ns.foldl (fun v n => insertRecord n v) t)
  | [], _, _, h => h
  | n :: ns, _, _, h => insertRecords_same ns (insertRecord_same h n)

theorem insertRecords_keeps : ∀ (ns : List Indication) (s : State),
    Keeps [.corr, .link] s (ns.foldl (fun v n => insertRecord n v) s)
  | [], _ => Keeps.refl _ _
  | n :: ns, s => (insertRecord_keeps n s).trans (insertRecords_keeps ns _)

theorem Evaluated.trans {s t u : State} {xs ys : List ClosedSlot} (h : Evaluated s xs t) (k : Evaluated t ys u) :
    Evaluated s (xs ++ ys) u where
  keeps := h.keeps.trans k.keeps
  counts := ⟨k.counts.1.trans h.counts.1, k.counts.2.trans h.counts.2⟩
  closed :=
    { seq := by
        rw [k.closed.seq, h.closed.seq, seqAfter_add, (closes_of_keeps h.keeps ys).1, reportable_append, List.length_append]
      sparse := fun hs => by
        have e1 := h.closed.sparse hs
        have e2 := k.closed.sparse (by omega)
        rw [(closes_of_keeps h.keeps ys).1] at e2
        rw [e2, e1, reportable_append, List.length_append, List.length_append]
        have := reportable_length_le s xs
        have := reportable_length_le s ys
        omega
      sent := by
        rw [k.closed.sent, h.closed.sent, closedIndications_append h, List.map_append, h.keeps.rc (by decide), append_take]
      dropped := fun hd => by
        have e1 := h.closed.dropped hd
        rw [k.closed.dropped (by omega), e1, h.closed.sent, closedIndications_append h, List.length_append,
          List.length_append, List.length_take, List.length_map]
        omega
      entered := fun hl => by
        have e1 := h.closed.entered hl
        have hlen := congrArg List.length e1
        simp only [List.length_map, List.length_drop, List.length_append] at hlen
        have e2 := k.closed.entered (by omega)
        have app := drop_append_drop (s.corr.table.map (·.ind) ++ closedIndications s xs) (closedIndications t ys) 48
        rw [e2, e1, closedIndications_append h, ← List.append_assoc]
        simp only [List.length_append, List.length_map, List.length_drop] at app ⊢
        rw [← Nat.add_assoc, ← app]
        congr 2
        omega
      inserted := by
        have same : SameTable ((closedIndications s xs).foldl (fun v n => insertRecord n v) s) t := by
          have kk := insertRecords_keeps (closedIndications s xs) s
          have rc := (h.keeps.rc (by decide)).trans (kk.rc (by decide)).symm
          exact ⟨congrArg RunCtl.run rc, congrArg RunCtl.straps rc, (h.keeps.cfg (by decide)).trans (kk.cfg (by decide)).symm,
            h.closed.inserted.1, h.closed.inserted.2.1, h.closed.inserted.2.2⟩
        have r := insertRecords_same (closedIndications t ys) same
        rw [closedIndications_append h, List.foldl_append]
        exact ⟨k.closed.inserted.1.trans r.corr, k.closed.inserted.2.1.trans r.q1, k.closed.inserted.2.2.trans r.drop1⟩ }

theorem queueIndication_q2 (r : Indication) (s : State) :
    (queueIndication r s).link.q2 = s.link.q2 ++ ([⟨s.rc.run, r⟩] : List (Queued Indication)).take (32 - s.link.q2.length) := by
  rw [queueIndication_link]
  by_cases h : s.link.q2.length < cap2
  · obtain ⟨k, hk⟩ : ∃ k, 32 - s.link.q2.length = k + 1 := ⟨31 - s.link.q2.length, by unfold cap2 at h; omega⟩
    rw [offer2_room _ _ h, hk]; simp
  · have hk : 32 - s.link.q2.length = 0 := by unfold cap2 at h; omega
    rw [offer2_full _ _ h, hk]; simp

theorem queueIndication_drop2 (r : Indication) {s : State} (h : s.link.drop2 ≤ 65535) :
    (queueIndication r s).link.drop2 = min (s.link.drop2 + (1 - (32 - s.link.q2.length))) 65535 := by
  rw [queueIndication_link]
  by_cases hq : s.link.q2.length < cap2
  · rw [offer2_room _ _ hq]; unfold cap2 at hq; simp; omega
  · rw [offer2_full _ _ hq]; unfold cap2 at hq; simp only [satAdd]; omega

/-- An insertion puts the record last, and of a full table the oldest entry leaves (R113, R117). -/
theorem insertRecord_inds (n : Indication) {s : State} (h : s.corr.table.length ≤ 48) :
    (insertRecord n s).corr.table.map (·.ind) = (s.corr.table.map (·.ind) ++ [n]).drop (s.corr.table.length + 1 - 48) := by
  unfold insertRecord tableCap
  rw [insertPaired_inds]
  by_cases hf : 48 ≤ s.corr.table.length
  · rw [if_pos hf, show s.corr.table.length + 1 - 48 = 1 by omega]
    unfold forceOut
    split
    · rename_i e; rw [e] at hf; simp at hf
    · rename_i e es he
      rw [leaveEffect_corr, he]; rfl
  · rw [if_neg hf, show s.corr.table.length + 1 - 48 = 0 by omega, List.drop_zero]

/-- An insertion into a table with room is the pairing search alone; of a full table the oldest entry leaves first, with EARLY
(R113, R117). -/
theorem insertRecord_room {s : State} (n : Indication) (h : s.corr.table.length < 48) : insertRecord n s = insertPaired n s := by
  unfold insertRecord tableCap; rw [if_neg (by omega)]

theorem insertRecord_full {s : State} (n : Indication) {old : Entry} {rest : List Entry} (ht : s.corr.table = old :: rest)
    (h : s.corr.table.length = 48) : ∃ u, insertRecord n s = insertPaired n u ∧ Keeps [.corr, .link] s u ∧
    u.corr.table = rest ∧ u.corr.spans = s.corr.spans ∧ EntriesLeft true s [old] u := by
  refine ⟨leaveEffect true (s.setCorr { s.corr with table := rest }) old, ?_, ?_, ?_, ?_, ?_⟩
  · unfold insertRecord tableCap forceOut; rw [if_pos (by omega), ht]
  · exact ((keeps_setCorr _ _).mono (by decide)).trans (leaveEffect_keeps _ _ _)
  · rw [leaveEffect_corr]; rfl
  · rw [leaveEffect_corr]; rfl
  · exact (leaveEffect_left true _ old).of_same rfl rfl rfl rfl

/-- A slot of a channel that the tracker evaluates, as a closed slot. -/
def closedAs (c : Chan) (x : Slot × CloseMark) : ClosedSlot := ⟨c, x.1, decide (x.2 = .long), decide (x.2 = .cut)⟩

theorem evaluateClosed_evaluated (c : Chan) (x : Slot × CloseMark) (s : State) :
    Evaluated s [closedAs c x] (evaluateClosed c s x) := by
  have keeps := evaluateClosed_keeps c s x
  have trk := evaluateClosed_trk c s x
  by_cases h : (s.cfg.chan.get c).nmin ≤ x.1.hits
  · have he : reportable s [closedAs c x] = [closedAs c x] := by simp [reportable, closedAs, h]
    have hr : closedIndications s [closedAs c x] = [slotRecord s c x.1 x.2] := by
      unfold closedIndications; rw [he]; rfl
    have hev : evaluateClosed c s x = queueIndication (slotRecord s c x.1 x.2)
        (insertRecord (slotRecord s c x.1 x.2) (s.setTrk { s.trk with seq := nextSeq s.trk.seq })) := if_pos h
    rw [if_pos h] at trk
    have ih := (insertRecord_hands (slotRecord s c x.1 x.2) (s.setTrk { s.trk with seq := nextSeq s.trk.seq })).link.c2 (by decide)
    refine ⟨keeps, by rw [trk]; exact ⟨rfl, rfl⟩, ?_, ?_, ?_, ?_, ?_, ?_⟩
    · rw [trk, he]; rfl
    · intro hs; rw [trk, he]; exact (Nat.min_eq_left hs).symm
    · rw [hr, hev, queueIndication_q2, ih.1, (insertRecord_keeps _ _).rc (by decide)]
      rfl
    · intro hd; rw [hr, hev, queueIndication_drop2 _ (by rw [ih.2]; exact hd), ih.1, ih.2]; rfl
    · rw [hr, hev, queueIndication_corr]
      exact fun hl => insertRecord_inds _ hl
    · have same : SameTable s (s.setTrk { s.trk with seq := nextSeq s.trk.seq }) := ⟨rfl, rfl, rfl, rfl, rfl, rfl⟩
      have r := insertRecord_same same (slotRecord s c x.1 x.2)
      rw [hr, hev, queueIndication_corr, queueIndication_link, offer2_q1, offer2_drop1]
      exact ⟨r.corr, r.q1, r.drop1⟩
  · have he : reportable s [closedAs c x] = [] := by simp [reportable, closedAs, h]
    have hr : closedIndications s [closedAs c x] = [] := by simp [closedIndications, he]
    have hev : evaluateClosed c s x = s.setTrk { s.trk with sparse := satAdd s.trk.sparse 1 } := if_neg h
    rw [hev]
    refine ⟨hev ▸ keeps, ⟨rfl, rfl⟩, ?_, ?_, ?_, ?_, ?_, ?_⟩
    · rw [he]; rfl
    · intro _; rw [he]; rfl
    · rw [hr]; simp
    · rw [hr]; intro hd; simp [hd]
    · rw [hr]; intro hl; simp [hl]
    · rw [hr]; exact ⟨rfl, rfl, rfl⟩

theorem evaluateClosed_foldl (c : Chan) : ∀ (xs : List (Slot × CloseMark)) (s : State),
    Evaluated s (xs.map (closedAs c)) (xs.foldl (evaluateClosed c) s)
  | [], s => Evaluated.refl s
  | x :: xs, s => (evaluateClosed_evaluated c x s).trans (evaluateClosed_foldl c xs _)

/-- What evaluating closed slots needs of the tracker: its sequence and its sparse count. -/
theorem SlotsClosed.of_trk {s t : State} {k : Tracker} {xs : List ClosedSlot} (h : SlotsClosed (s.setTrk k) xs t)
    (seq : k.seq = s.trk.seq) (sparse : k.sparse = s.trk.sparse) : SlotsClosed s xs t := by
  have ci : closedIndications (s.setTrk k) xs = closedIndications s xs := by
    unfold closedIndications; rw [State.setTrk_trk, seq]; rfl
  have same : SameTable s (s.setTrk k) := ⟨rfl, rfl, rfl, rfl, rfl, rfl⟩
  have r := insertRecords_same (closedIndications s xs) same
  obtain ⟨h1, h2, h3, h6, h4, h5⟩ := h
  rw [ci] at h3 h4 h5 h6
  rw [State.setTrk_trk, seq] at h1
  rw [State.setTrk_trk, sparse] at h2
  exact ⟨h1, h2, h3, h6, h4, ⟨h5.1.trans r.corr, h5.2.1.trans r.q1, h5.2.2.trans r.drop1⟩⟩

/-- An event of one channel settles its slots and evaluates those it closes (R96 to R107). -/
theorem settleSlots_settled (s : State) (c : Chan) (slots : ChanSlots) (order overflow : Nat) (closed : List (Slot × CloseMark)) :
    Settled s c slots order overflow (closed.map (closedAs c))
      (settleSlots c slots closed (s.setTrk { s.trk with openOrder := order, overflow := overflow })) := by
  have h := evaluateClosed_foldl c closed (s.setTrk { s.trk with
    chan := s.trk.chan.set c slots, openOrder := order, overflow := overflow })
  refine ⟨?_, h.counts, h.closed.of_trk rfl rfl, ((keeps_setTrk _ _).mono (by decide)).trans h.keeps,
    ((Hands.kept (keeps_setTrk _ _)).trans (settleSlots_hands ..)).link, ?_⟩
  · exact settleSlots_chan c slots closed _
  · intro he
    rw [List.map_eq_nil_iff.mp he]; rfl

theorem closesOf_cut (sl : ChanSlots) :
    closesOf (sl.slot0.map (.closes · .cut)) (sl.slot1.map (.closes · .cut)) = (openSlots sl).map (fun x => (x, CloseMark.cut)) := by
  rcases sl with ⟨_ | a, _ | b⟩ <;> try rfl
  simp only [openSlots, closesOf, Option.map_some, olderThan, decide_eq_true_eq]
  split <;> rfl

/-- Slots cut, as closed slots. -/
def cutSlots (xs : List (Chan × Slot)) : List ClosedSlot := xs.map (fun x => ⟨x.1, x.2, false, true⟩)

theorem closureRequest_evaluated (c : Chan) (s : State) :
    Evaluated s (cutSlots ((openSlots (s.trk.chan.get c)).map (fun x => (c, x)))) (closureRequest c s) := by
  have h := settleSlots_settled s c ⟨none, none⟩ s.trk.openOrder s.trk.overflow
    ((openSlots (s.trk.chan.get c)).map (fun x => (x, CloseMark.cut)))
  rw [← closesOf_cut] at h
  have e : closureRequest c s = settleSlots c ⟨none, none⟩ (closesOf ((s.trk.chan.get c).slot0.map (.closes · .cut))
    ((s.trk.chan.get c).slot1.map (.closes · .cut))) (s.setTrk { s.trk with
      openOrder := s.trk.openOrder, overflow := s.trk.overflow }) := rfl
  rw [← e, closesOf_cut, List.map_map] at h
  unfold cutSlots
  rw [List.map_map]
  exact ⟨h.keeps, h.counts, h.closed⟩

theorem closureRequests_evaluated : ∀ (cs : List Chan) (s : State), cs.Nodup →
    Evaluated s (cutSlots (openIn s cs)) (closureRequests cs s)
  | [], s, _ => Evaluated.refl s
  | c :: cs, s, h => by
    obtain ⟨hc, hn⟩ := List.nodup_cons.1 h
    have same : openIn (closureRequest c s) cs = openIn s cs := by
      unfold openIn
      refine List.flatMap_congr ?_
      intro d hd
      rw [closureRequest_chan, PerChan.get_set_of_ne _ _ (by rintro rfl; exact hc hd)]
    have := (closureRequest_evaluated c s).trans (closureRequests_evaluated cs (closureRequest c s) hn)
    rw [same] at this
    unfold cutSlots at *
    rwa [← List.map_append] at this

/-- Closure requests for several channels cut their slots (R104 to R107). -/
theorem closureRequests_cut {cs : List Chan} (h : cs.Nodup) (s : State) : CutFor s cs (closureRequests cs s) :=
  let e := closureRequests_evaluated cs s h
  { freed := closureRequests_get cs s, counts := e.counts, closed := e.closed }

/-! ### Gaps -/

/-- The records of gaps closed STOPPED. -/
def stopRecords (s : State) (gs : List (Chan × OpenGap)) : List (Queued GapRecord) :=
  gs.zipIdx.map (fun x => ⟨s.rc.run,
    { origin := s.own, seq := seqAfter s.cov.gapSeq x.2, channel := x.1.1, beam := (s.cfg.chan.get x.1.1).beam,
      rail := s.rail, reason := x.1.2.reason, xStart := x.1.2.xStart, xEnd := x.1.2.xEnd, firings := x.1.2.firings,
      closure := .stopped }⟩)

/-- The open gaps of some channels. -/
def gapsIn (s : State) (cs : List Chan) : List (Chan × OpenGap) :=
  cs.filterMap (fun c => (s.cov.chan.get c).gap.map (fun g => (c, g)))

/-- The coverage of a channel whose gap, if any, has closed. -/
def gapClosed (v : ChanCoverage) : ChanCoverage :=
  { v with gap := none, lastEnd := (v.gap.map (fun g => some g.xEnd)).getD v.lastEnd }

/-- Some gaps have been closed STOPPED in their order (R80). -/
structure StopsGaps (s : State) (gs : List (Chan × OpenGap)) (t : State) : Prop where
  keeps : Keeps [.cov, .link] s t
  seq : t.cov.gapSeq = seqAfter s.cov.gapSeq gs.length
  sent : t.link.q3 = s.link.q3 ++ (stopRecords s gs).take (16 - s.link.q3.length)
  dropped : s.link.drop3 ≤ 65535 → t.link.drop3 = min (s.link.drop3 + (gs.length - (16 - s.link.q3.length))) 65535

theorem StopsGaps.refl (s : State) : StopsGaps s [] s :=
  ⟨Keeps.refl _ _, rfl, by simp [stopRecords], fun h => by simp [h]⟩

theorem stopRecords_append {s t : State} {xs : List (Chan × OpenGap)} (h : StopsGaps s xs t) (ys : List (Chan × OpenGap)) :
    stopRecords s (xs ++ ys) = stopRecords s xs ++ stopRecords t ys := by
  have hc := h.keeps.cfg (by decide)
  have hr := h.keeps.rc (by decide)
  unfold stopRecords State.own State.rail
  rw [List.zipIdx_append, List.map_append]
  refine congrArg (_ ++ ·) ?_
  rw [List.zipIdx_eq_map_add, List.map_map]
  refine List.map_congr_left ?_
  intro x _
  simp only [Function.comp, h.seq, seqAfter_add, Nat.zero_add, hc, hr]

theorem StopsGaps.trans {s t u : State} {xs ys : List (Chan × OpenGap)} (h : StopsGaps s xs t) (k : StopsGaps t ys u) :
    StopsGaps s (xs ++ ys) u where
  keeps := h.keeps.trans k.keeps
  seq := by rw [k.seq, h.seq, seqAfter_add, List.length_append]
  sent := by rw [k.sent, h.sent, stopRecords_append h, append_take]
  dropped := fun hd => by
    have e := h.dropped hd
    have len : (stopRecords s xs).length = xs.length := by simp [stopRecords]
    rw [k.dropped (by omega), e, h.sent, List.length_append, List.length_append, List.length_take, len]
    omega

theorem queueGap_q3 (r : GapRecord) (s : State) :
    (queueGap r s).link.q3 = s.link.q3 ++ ([⟨s.rc.run, r⟩] : List (Queued GapRecord)).take (16 - s.link.q3.length) := by
  rw [queueGap_link]
  by_cases h : s.link.q3.length < cap3
  · obtain ⟨k, hk⟩ : ∃ k, 16 - s.link.q3.length = k + 1 := ⟨15 - s.link.q3.length, by unfold cap3 at h; omega⟩
    rw [offer3_room _ _ h, hk]; simp
  · have hk : 16 - s.link.q3.length = 0 := by unfold cap3 at h; omega
    rw [offer3_full _ _ h, hk]; simp

theorem queueGap_drop3 (r : GapRecord) {s : State} (h : s.link.drop3 ≤ 65535) :
    (queueGap r s).link.drop3 = min (s.link.drop3 + (1 - (16 - s.link.q3.length))) 65535 := by
  rw [queueGap_link]
  by_cases hq : s.link.q3.length < cap3
  · rw [offer3_room _ _ hq]; unfold cap3 at hq; simp; omega
  · rw [offer3_full _ _ hq]; unfold cap3 at hq; simp only [satAdd]; omega

theorem stopGap_stops (s : State) (c : Chan) : StopsGaps s (gapsIn s [c]) (stopGap s c) := by
  have keeps := stopGap_keeps s c
  unfold stopGap at *
  rcases hg : (s.cov.chan.get c).gap with _ | g
  · simp only [gapsIn, List.filterMap_cons, hg, Option.map_none, List.filterMap_nil]
    exact StopsGaps.refl s
  · simp only [hg] at keeps
    simp only [gapsIn, List.filterMap_cons, hg, Option.map_some, List.filterMap_nil]
    refine ⟨keeps, rfl, ?_, fun hd => ?_⟩
    · show (queueGap (gapRecord s c g .stopped) _).link.q3 = _
      rw [queueGap_q3]
      rfl
    · exact queueGap_drop3 (gapRecord s c g .stopped) (s := s.setCov _) hd

theorem stopGap_get (s : State) (c d : Chan) :
    (stopGap s c).cov.chan.get d = if d = c then gapClosed (s.cov.chan.get d) else s.cov.chan.get d := by
  by_cases h : d = c
  · subst h
    rw [if_pos rfl]
    unfold stopGap gapClosed
    rcases hg : (s.cov.chan.get d).gap with _ | g
    · simp only [Option.map_none, Option.getD_none]; rw [← hg]
    · simp [closeGap_cov]
  · rw [if_neg h, stopGap_get_of_ne _ h]

theorem stopGaps_stops : ∀ (cs : List Chan) (s : State), cs.Nodup → StopsGaps s (gapsIn s cs) (cs.foldl stopGap s) ∧
    ∀ d, (cs.foldl stopGap s).cov.chan.get d = if d ∈ cs then gapClosed (s.cov.chan.get d) else s.cov.chan.get d
  | [], s, _ => ⟨StopsGaps.refl s, fun _ => rfl⟩
  | c :: cs, s, h => by
    obtain ⟨hc, hn⟩ := List.nodup_cons.1 h
    obtain ⟨i1, i2⟩ := stopGaps_stops cs (stopGap s c) hn
    have same : gapsIn (stopGap s c) cs = gapsIn s cs := by
      unfold gapsIn
      refine List.filterMap_congr ?_
      intro d hd
      rw [stopGap_get_of_ne _ (by rintro rfl; exact hc hd)]
    refine ⟨?_, ?_⟩
    · have := (stopGap_stops s c).trans i1
      rw [same] at this
      rwa [show gapsIn s (c :: cs) = gapsIn s [c] ++ gapsIn s cs from List.filterMap_append (l := [c])]
    · intro d
      rw [List.foldl_cons, i2, stopGap_get]
      by_cases h1 : d = c
      · subst h1; simp [hc]
      · simp [h1]

/-- The close of all gaps at STOPPING (R81). -/
theorem closeAllGaps_stopped (s : State) : GapsStopped s (closeAllGaps s) :=
  let e := stopGaps_stops Chan.all s Chan.all_nodup
  { closed := fun c => (e.2 c).trans (if_pos (Chan.mem_all c)), seq := e.1.seq, sent := e.1.sent, dropped := e.1.dropped }

/-- The start of the drain changes the run controller only. -/
theorem stoppingClose_same (s : State) : Keeps [.rc] (closeAllGaps (closeAllSlots s)) (stoppingClose s) := keeps_setRc _ _

/-- The closes at STOPPING: all slots with CUT, then all gaps with STOPPED (R37, R81, R109). -/
theorem stoppingClose_closes (s : State) : CutFor s Chan.all (stoppingClose s) ∧ GapsStopped s (stoppingClose s) := by
  have slots : CutFor s Chan.all (closeAllSlots s) := closureRequests_cut Chan.all_nodup s
  have gaps := closeAllGaps_stopped (closeAllSlots s)
  have k1 := closeAllSlots_keeps s
  have k2 := closeAllGaps_keeps (closeAllSlots s)
  have k3 := stoppingClose_same s
  have trk := (k3.trk (by decide)).trans (k2.trk (by decide))
  have corr := (k3.corr (by decide)).trans (k2.corr (by decide))
  have gapsHand := (closeAllGaps_hands (closeAllSlots s)).link
  have link3 := k3.link (by decide)
  have q1 := (congrArg Link.q1 link3).trans (gapsHand.c1 (by decide)).1
  have drop1 := (congrArg Link.drop1 link3).trans (gapsHand.c1 (by decide)).2
  have q2 := (congrArg Link.q2 link3).trans (gapsHand.c2 (by decide)).1
  have drop2 := (congrArg Link.drop2 link3).trans (gapsHand.c2 (by decide)).2
  have gapsEnd := k3.cov (by decide)
  have linkEnd := k3.link (by decide)
  have slotsHand : Hands [.c1, .c2] s (closeAllSlots s) := closureRequests_hands ..
  have q3 : (closeAllSlots s).link.q3 = s.link.q3 := (slotsHand.link.c3 (by decide)).1
  have drop3 : (closeAllSlots s).link.drop3 = s.link.drop3 := (slotsHand.link.c3 (by decide)).2
  have cov := k1.cov (by decide)
  have cfg := k1.cfg (by decide)
  have rc := k1.rc (by decide)
  refine ⟨?_, ?_⟩
  · obtain ⟨h1, h2, h3, h4, h5, h8, h6, h7⟩ := slots
    rw [← trk] at h1 h2 h3 h4
    rw [← q2] at h5
    rw [← drop2] at h8
    rw [← corr] at h6
    rw [← corr, ← q1, ← drop1] at h7
    exact ⟨h1, h2, h3, h4, h5, h8, h6, h7⟩
  · obtain ⟨h1, h2, h3, h4⟩ := gaps
    unfold openGaps State.own State.rail at *
    rw [cov] at h1 h2 h3 h4
    rw [cfg, rc, q3] at h3
    rw [q3, drop3] at h4
    rw [← gapsEnd] at h1 h2
    rw [← linkEnd] at h3 h4
    exact ⟨h1, h2, h3, h4⟩

/-! ### States that agree in what a close reads -/

/-- A close by CUT speaks of the run, the configuration, the slots, the table and classes 1 and 2 alone. -/
theorem CutFor.of_same {s u t : State} {cs : List Chan} (same : SameTable s u) (trk : u.trk = s.trk)
    (q2 : u.link.q2 = s.link.q2) (drop2 : u.link.drop2 = s.link.drop2) (h : CutFor u cs t) : CutFor s cs t := by
  obtain ⟨freed, counts, ⟨seq, sparse, sent, dropped, entered, inserted⟩⟩ := h
  have own : u.own = s.own := congrArg (fun r => r.address.toNat) same.straps
  have rail : u.rail = s.rail := congrArg (fun r => r.rail) same.straps
  have opens : openIn u cs = openIn s cs := by unfold openIn; rw [trk]
  have rep : ∀ xs, reportable u xs = reportable s xs := fun xs => by unfold reportable; rw [same.cfg]
  have ind : ∀ n x, closedIndication u n x = closedIndication s n x := fun n x => by
    unfold closedIndication; rw [own, rail, same.cfg]
  have inds : ∀ xs, closedIndications u xs = closedIndications s xs := fun xs => by
    unfold closedIndications; rw [rep, trk]; simp only [ind]
  have ins := insertRecords_same (closedIndications s ((openIn s cs).map (fun x => ⟨x.1, x.2, false, true⟩))) same
  simp only [opens, rep, inds, trk, q2, drop2, same.run, same.corr] at freed counts seq sparse sent dropped entered inserted
  exact ⟨freed, counts, ⟨seq, sparse, sent, dropped, entered,
    inserted.1.trans ins.corr, inserted.2.1.trans ins.q1, inserted.2.2.trans ins.drop1⟩⟩

/-- A close of gaps speaks of the run, the configuration, the coverage and class 3 alone. -/
theorem GapsStopped.of_same {s u t : State} (run : u.rc.run = s.rc.run) (straps : u.rc.straps = s.rc.straps)
    (cfg : u.cfg = s.cfg) (cov : u.cov = s.cov) (q3 : u.link.q3 = s.link.q3)
    (drop3 : u.link.drop3 = s.link.drop3) (h : GapsStopped u t) : GapsStopped s t := by
  obtain ⟨h1, h2, h3, h4⟩ := h
  unfold openGaps State.own State.rail at *
  rw [cov] at h1 h2 h3 h4
  rw [cfg, run, straps, q3] at h3
  rw [q3, drop3] at h4
  exact ⟨h1, h2, h3, h4⟩

/-- The M results and hits of a volley reach classes 1 and 2 alone. -/
theorem handed_hands (pv : Int) (rs : List EvalRecord) (s : State) :
    Hands [.c1, .c2] s (rs.foldl (handF pv) (rs.foldl handM s)) :=
  (Hands.foldl handM_hands rs s).trans (Hands.foldl (handF_hands pv) rs _)

end Sys2Proof.Machine
end

