-- ==== Sys2Proof/Laws/Completion.lean ====
section
/-! SUPPORT. The hand-over of a completed volley: what its M results leave of the machines and the slots, what its hits leave of
each channel's slots, and the outcomes it hands. -/

namespace Sys2Proof.Machine

/-! ### M results (R67, R72, R73) -/

theorem mResult_coup (c : Chan) (present : Bool) (s : State) : (mResult c present s).coup =
    s.coup.set c (couplingAfter (s.cfg.chan.get c) (s.coup.get c) present) := by
  unfold mResult; dsimp only
  split
  · rw [(closureRequests_keeps _ _).coup (by decide)]; rfl
  · rfl

/-- An M result frees the slots of the dependants of a channel that enters LOST, and no others. -/
theorem mResult_slots (c d : Chan) (present : Bool) (s : State) : (mResult c present s).trk.chan.get d =
    if (couplingAfter (s.cfg.chan.get c) (s.coup.get c) present).state = .lost ∧ (s.coup.get c).state ≠ .lost ∧
      (s.cfg.chan.get d).source = c then ⟨none, none⟩ else s.trk.chan.get d := by
  unfold mResult; dsimp only
  split
  · rename_i h
    rw [closureRequests_get]
    simp [dependants, Chan.mem_all, h.1, h.2]
  · rename_i h
    rw [if_neg (fun x => h ⟨x.1, x.2.1⟩)]; rfl

/-- The machine of a channel after an M result that may not be handed. -/
def coupledBy (s : State) (r : EvalRecord) : Coupling :=
  if (s.cfg.chan.get r.chan).m.enabled then
    couplingAfter (s.cfg.chan.get r.chan) (s.coup.get r.chan) r.mPresent else s.coup.get r.chan

theorem handM_coup (s : State) (r : EvalRecord) (c : Chan) : (handM s r).coup.get c =
    if c = r.chan then coupledBy s r else s.coup.get c := by
  unfold handM coupledBy
  split
  · rw [mResult_coup, PerChan.get_set]
  · split
    · rename_i h; rw [h]
    · rfl

theorem handM_slots (s : State) (r : EvalRecord) (d : Chan) : (handM s r).trk.chan.get d =
    if (coupledBy s r).state = .lost ∧ (s.coup.get r.chan).state ≠ .lost ∧ (s.cfg.chan.get d).source = r.chan
    then ⟨none, none⟩ else s.trk.chan.get d := by
  unfold handM coupledBy
  split
  · exact mResult_slots _ _ _ _
  · rw [if_neg (fun h => h.2.1 h.1)]

theorem handM_cfg (s : State) (r : EvalRecord) : (handM s r).cfg = s.cfg := (handM_keeps s r).cfg (by decide)

theorem foldM_keeps (rs : List EvalRecord) (s : State) : Keeps [.coup, .trk, .corr, .link] s (rs.foldl handM s) :=
  Keeps.foldl handM_keeps _ _

/-- The machines after all M results of distinct channels: each of its own, every other one's stays. -/
theorem foldM_coup : ∀ (rs : List EvalRecord) (s : State), (rs.map (·.chan)).Nodup →
    (∀ r ∈ rs, (rs.foldl handM s).coup.get r.chan = coupledBy s r) ∧
    (∀ c, (∀ r ∈ rs, r.chan ≠ c) → (rs.foldl handM s).coup.get c = s.coup.get c) := by
  intro rs
  induction rs with
  | nil => intro s _; exact ⟨fun r h => by simp at h, fun _ _ => rfl⟩
  | cons x rs ih =>
    intro s nd
    rw [List.map_cons, List.nodup_cons] at nd
    obtain ⟨nx, nd⟩ := nd
    obtain ⟨h1, h2⟩ := ih (handM s x) nd
    have ne : ∀ r ∈ rs, r.chan ≠ x.chan := fun r hr e => nx (List.mem_map.mpr ⟨r, hr, e⟩)
    refine ⟨fun r hr => ?_, fun c hc => ?_⟩
    · rw [List.foldl_cons]
      rcases List.mem_cons.mp hr with rfl | hr
      · rw [h2 _ ne, handM_coup, if_pos rfl]
      · rw [h1 r hr]
        unfold coupledBy
        rw [handM_cfg, handM_coup, if_neg (ne r hr)]
    · rw [List.foldl_cons, h2 c (fun r hr => hc r (List.mem_cons_of_mem _ hr)), handM_coup,
        if_neg (fun e => hc x (List.mem_cons_self ..) e.symm)]

/-- The slots after all M results: freed where the channel's source has entered LOST (R73). -/
theorem foldM_slots (d : Chan) : ∀ (rs : List EvalRecord) (s : State), (rs.map (·.chan)).Nodup →
    (rs.foldl handM s).trk.chan.get d =
      if ((rs.foldl handM s).coup.get (s.cfg.chan.get d).source).state = .lost ∧
        (s.coup.get (s.cfg.chan.get d).source).state ≠ .lost then ⟨none, none⟩ else s.trk.chan.get d := by
  intro rs
  induction rs with
  | nil => intro s _; rw [if_neg (fun h => h.2 h.1)]; rfl
  | cons x rs ih =>
    intro s nd
    rw [List.map_cons, List.nodup_cons] at nd
    obtain ⟨nx, nd⟩ := nd
    have ne : ∀ r ∈ rs, r.chan ≠ x.chan := fun r hr e => nx (List.mem_map.mpr ⟨r, hr, e⟩)
    rw [List.foldl_cons, ih (handM s x) nd, handM_cfg, handM_slots]
    by_cases hx : (s.cfg.chan.get d).source = x.chan
    · rw [hx, (foldM_coup rs (handM s x) nd).2 _ ne, handM_coup, if_pos rfl]
      by_cases h1 : (coupledBy s x).state = .lost
      · by_cases h2 : (s.coup.get x.chan).state = .lost <;> simp [h1, h2]
      · simp [h1]
    · rw [handM_coup, if_neg hx]
      simp [hx]

/-! ### Hits and held requests (R68, R34) -/

theorem hitRecord_get (h : HitRecord) (s : State) (c : Chan) (hc : c ≠ h.chan) :
    (hitRecord h s).trk.chan.get c = s.trk.chan.get c := by
  rw [hitRecord_chan, PerChan.get_set_of_ne _ _ hc]

theorem firingNoHit_get (d c : Chan) (s : State) (hc : c ≠ d) :
    (firingNoHit d s).trk.chan.get c = s.trk.chan.get c := by
  rw [firingNoHit_chan, PerChan.get_set_of_ne _ _ hc]

theorem closureRequest_get (d c : Chan) (s : State) : (closureRequest d s).trk.chan.get c =
    if c = d then ⟨none, none⟩ else s.trk.chan.get c := by
  rw [closureRequest_chan, PerChan.get_set]

/-- The slots of the channel of a hit depend on its own slots, the open order, its parameters and Lmax alone. -/
theorem hitRecord_congr (h : HitRecord) {s t : State} (hc : t.cfg = s.cfg)
    (hs : t.trk.chan.get h.chan = s.trk.chan.get h.chan) (ho : t.trk.openOrder = s.trk.openOrder) :
    (hitRecord h t).trk.chan.get h.chan = (hitRecord h s).trk.chan.get h.chan := by
  rw [hitRecord_chan, hitRecord_chan, PerChan.get_set_self, PerChan.get_set_self, hc, hs, ho]

theorem firingNoHit_congr (c : Chan) {s t : State} (hc : t.cfg = s.cfg) (hs : t.trk.chan.get c = s.trk.chan.get c) :
    (firingNoHit c t).trk.chan.get c = (firingNoHit c s).trk.chan.get c := by
  rw [firingNoHit_chan, firingNoHit_chan, PerChan.get_set_self, PerChan.get_set_self, hc, hs]

theorem judgeHit_get (pv : Int) (s : State) (r : EvalRecord) (c : Chan) (h : c ≠ r.chan) :
    (judgeHit pv s r).trk.chan.get c = s.trk.chan.get c := by
  unfold judgeHit
  split
  · rfl
  · exact hitRecord_get _ _ _ h
  · exact hitRecord_get _ _ _ h
  · exact firingNoHit_get _ _ _ h
  · exact firingNoHit_get _ _ _ h

/-- A record's hand-over reaches its own channel's slots alone. -/
theorem handF_get (pv : Int) (s : State) (r : EvalRecord) (c : Chan) (h : c ≠ r.chan) :
    (handF pv s r).trk.chan.get c = s.trk.chan.get c := by
  unfold handF; dsimp only
  split
  · rw [closureRequest_get, if_neg h, judgeHit_get pv s r c h]
  · exact judgeHit_get pv s r c h

theorem foldF_keeps (pv : Int) (rs : List EvalRecord) (s : State) : Keeps [.trk, .corr, .link] s (rs.foldl (handF pv) s) :=
  Keeps.foldl (handF_keeps pv) _ _

theorem foldF_get (pv : Int) (c : Chan) : ∀ (rs : List EvalRecord) (s : State), (∀ r ∈ rs, r.chan ≠ c) →
    (rs.foldl (handF pv) s).trk.chan.get c = s.trk.chan.get c := by
  intro rs
  induction rs with
  | nil => intro s _; rfl
  | cons x rs ih =>
    intro s h
    rw [List.foldl_cons, ih _ (fun r hr => h r (List.mem_cons_of_mem _ hr)),
      handF_get pv s x c (fun e => h x (List.mem_cons_self ..) e.symm)]

/-- A record's channel is handed its record in a state whose slots of that channel are as they were. -/
theorem foldF_own (pv : Int) : ∀ (rs : List EvalRecord) (s : State), (rs.map (·.chan)).Nodup → ∀ r ∈ rs,
    ∃ u, Keeps [.trk, .corr, .link] s u ∧ u.trk.chan.get r.chan = s.trk.chan.get r.chan ∧
      (rs.foldl (handF pv) s).trk.chan.get r.chan = (handF pv u r).trk.chan.get r.chan := by
  intro rs
  induction rs with
  | nil => intro s _ r h; simp at h
  | cons x rs ih =>
    intro s nd r hr
    rw [List.map_cons, List.nodup_cons] at nd
    obtain ⟨nx, nd⟩ := nd
    have ne : ∀ r ∈ rs, r.chan ≠ x.chan := fun r hr e => nx (List.mem_map.mpr ⟨r, hr, e⟩)
    rcases List.mem_cons.mp hr with rfl | hr
    · exact ⟨s, Keeps.refl _ _, rfl, by rw [List.foldl_cons, foldF_get pv _ rs _ ne]⟩
    · obtain ⟨u, k, h1, h2⟩ := ih (handF pv s x) nd r hr
      exact ⟨u, (handF_keeps pv s x).trans k, by rw [h1, handF_get pv s x _ (ne r hr)], by rw [List.foldl_cons, h2]⟩

/-! ### Outcomes (R69) -/

theorem completionOutcome_marks (s : State) (fired : ChanSet) (c : Chan) :
    marksCoverage (completionOutcome s fired c) = false := by
  unfold completionOutcome
  split
  · split <;> rfl
  · split <;> rfl

/-- The outcomes of the completed entry, in ascending channel number. -/
theorem foldOutcome_eq (v : Volley) (cs : List Chan) (s : State) : cs.foldl (handOutcome v) s =
    afterHanded (cs.map (fun c => ⟨c, completionOutcome s v.fired c, v.pv⟩)) s := by
  unfold afterHanded
  rw [List.foldl_map]
  suffices ∀ (t : State), t.cfg = s.cfg → t.coup = s.coup → cs.foldl (handOutcome v) t =
      cs.foldl (fun t c => channelOutcome c (completionOutcome s v.fired c) v.pv t) t from this s rfl rfl
  induction cs with
  | nil => intro t _ _; rfl
  | cons c cs ih =>
    intro t hc hk
    rw [List.foldl_cons, List.foldl_cons]
    have e : completionOutcome t v.fired c = completionOutcome s v.fired c := by
      unfold completionOutcome sourceState; rw [hc, hk]
    show cs.foldl (handOutcome v) (channelOutcome c (completionOutcome t v.fired c) v.pv t) = _
    rw [e]
    refine ih _ ?_ ?_
    · rw [(channelOutcome_keeps _ _ _ t).cfg (by decide), hc]
    · rw [(channelOutcome_keeps _ _ _ t).coup (by decide), hk]

/-! ### The close of a run (R81, R109, R152) -/

theorem stoppingClose_slots (s : State) (c : Chan) : (stoppingClose s).trk.chan.get c = ⟨none, none⟩ := by
  unfold stoppingClose; dsimp only
  rw [State.setRc_trk, (closeAllGaps_keeps _).trk (by decide), closeAllSlots_get]

theorem stoppingClose_gap (s : State) (c : Chan) : ((stoppingClose s).cov.chan.get c).gap = none := by
  unfold stoppingClose; dsimp only
  rw [State.setRc_cov, closeAllGaps_gap]

end Sys2Proof.Machine
end

