-- ==== Sys2Proof/Laws/Load.lean ====
section
/-! SUPPORT. The load: the image of a memory that answers in full is what it gives, and the verdict of each check, once; and the
corrected value of each kind of field. -/

namespace Sys2Proof.Machine

@[simp] theorem imageBytes_length (b : List Byte) : (imageBytes b).length = 477 := by simp [imageBytes, imageSize]

/-- A memory that gives all 477 bytes is read as it is. -/
theorem imageBytes_of_length {b : List Byte} (h : b.length = 477) : imageBytes b = b := by
  apply List.ext_getElem (by simp [h])
  intro i h1 h2
  simp [imageBytes, List.getD, List.getElem?_eq_getElem h2]

/-- An image as its body and the two bytes of its CRC. -/
theorem imageBytes_parts {body : List Byte} {hi lo : Byte} (h : body.length = 475) :
    (imageBytes (body ++ [hi, lo])).take 475 = body ∧ (imageBytes (body ++ [hi, lo])).drop 475 = [hi, lo] := by
  rw [imageBytes_of_length (by simp [h])]
  constructor
  · rw [← h]; simp
  · rw [← h]; simp

theorem judgeImage_format {b : List Byte} (h : byteAt (imageBytes b) 0x000 ≠ 0x81) : judgeImage b = .refused .format 0 := by
  simp only [judgeImage]; rw [if_pos h]

theorem judgeImage_length {b : List Byte} (h0 : byteAt (imageBytes b) 0x000 = 0x81)
    (h : wordAt (imageBytes b) 0x001 ≠ imageSize) : judgeImage b = .refused .length 0 := by
  simp only [judgeImage]; rw [if_neg (not_not.mpr h0), if_pos h]

theorem judgeImage_crc {b : List Byte} (h0 : byteAt (imageBytes b) 0x000 = 0x81)
    (h1 : wordAt (imageBytes b) 0x001 = imageSize)
    (h : crcBytes (crc16 ((imageBytes b).take 0x1DB)) ≠ (imageBytes b).drop 0x1DB) :
    judgeImage b = .refused .imageCrc 0 := by
  simp only [judgeImage]; rw [if_neg (not_not.mpr h0), if_neg (not_not.mpr h1), if_pos h]

/-- Past the format, the length and the CRC, the plan, the entries and the rule count decide. -/
theorem judgeImage_good {b : List Byte} (h0 : byteAt (imageBytes b) 0x000 = 0x81)
    (h1 : wordAt (imageBytes b) 0x001 = imageSize)
    (h2 : crcBytes (crc16 ((imageBytes b).take 0x1DB)) = (imageBytes b).drop 0x1DB) :
    judgeImage b =
      match planLength (imageBytes b) with
      | none => .refused .noEndMark 0
      | some len =>
        match entryFault (imageBytes b) len with
        | some (code, e) => .refused code e
        | none =>
          if 8 < byteAt (imageBytes b) 0x193 then .refused .ruleCount 0
          else .accepted (readImage (imageBytes b) len).1 (readImage (imageBytes b) len).2 := by
  simp only [judgeImage]; rw [if_neg (not_not.mpr h0), if_neg (not_not.mpr h1)]
  exact (if_neg (not_not.mpr h2)).trans rfl

/-- What an accepted image has passed, and what is read from it. -/
theorem judgeImage_accepted {b : List Byte} {p : Params} {w : Warnings} (h : judgeImage b = .accepted p w) :
    ∃ len, planLength (imageBytes b) = some len ∧ entryFault (imageBytes b) len = none ∧
      byteAt (imageBytes b) 0x193 ≤ 8 ∧ readImage (imageBytes b) len = (p, w) := by
  by_cases h0 : byteAt (imageBytes b) 0x000 = 0x81
  · by_cases h1 : wordAt (imageBytes b) 0x001 = imageSize
    · by_cases h2 : crcBytes (crc16 ((imageBytes b).take 0x1DB)) = (imageBytes b).drop 0x1DB
      · rw [judgeImage_good h0 h1 h2] at h
        cases hl : planLength (imageBytes b) with
        | none => rw [hl] at h; cases h
        | some len =>
          rw [hl] at h
          cases he : entryFault (imageBytes b) len with
          | some x => simp only [he] at h; cases h
          | none =>
            simp only [he] at h
            by_cases hr : 8 < byteAt (imageBytes b) 0x193
            · rw [if_pos hr] at h; cases h
            · rw [if_neg hr] at h; injection h with hp hw
              exact ⟨len, rfl, he, by omega, Prod.ext hp hw⟩
      · rw [judgeImage_crc h0 h1 h2] at h; cases h
    · rw [judgeImage_length h0 h1] at h; cases h
  · rw [judgeImage_format h0] at h; cases h

/-! ### Corrections -/

/-- The divider is the greatest of 1, 2, 4 and 8 within what the image gives (R19). -/
theorem fitDivider_value (n : Nat) :
    (fitDivider n).value ∈ [1, 2, 4, 8] ∧ (fitDivider n).value ≤ max 1 n ∧
    ∀ step ∈ [1, 2, 4, 8], step ≤ n → step ≤ (fitDivider n).value := by
  simp only [fitDivider, List.mem_cons, List.not_mem_nil, or_false, forall_eq_or_imp, forall_eq]
  split_ifs <;> simp <;> omega

/-- The count is the greatest of 1, 2, 3, 4, 6 and 8 within what the image gives (R55). -/
theorem fitQ_value (n : Nat) :
    (fitQ n).value ∈ [1, 2, 3, 4, 6, 8] ∧ (fitQ n).value ≤ max 1 n ∧
    ∀ step ∈ [1, 2, 3, 4, 6, 8], step ≤ n → step ≤ (fitQ n).value := by
  simp only [fitQ, List.mem_cons, List.not_mem_nil, or_false, forall_eq_or_imp, forall_eq]
  split_ifs <;> simp <;> omega

/-- A gate end is the least of what the image gives, 6143 and the holds of the entries that name its channel (R55, R56). -/
theorem fitEnd_value (plan : List PlanEntry) (c : Chan) (given : Nat) :
    let bounds := given :: 6143 :: (plan.filter (fun e => inSet e.chans c)).map (fun e => 25 * e.hold)
    (fitEnd (shortestHold plan c) given).value ∈ bounds ∧
    ∀ n ∈ bounds, (fitEnd (shortestHold plan c) given).value ≤ n := by
  intro bounds
  cases hs : shortestHold plan c with
  | none =>
    have h0 : plan.filter (fun e => inSet e.chans c) = [] := by
      simpa only [shortestHold, List.min?_eq_none_iff, List.map_eq_nil_iff] using hs
    simp only [bounds, h0, fitEnd, List.map_nil, List.mem_cons, List.not_mem_nil, or_false, forall_eq_or_imp, forall_eq]
    omega
  | some h =>
    obtain ⟨hm, hl⟩ := List.min?_eq_some_iff.1 hs
    obtain ⟨e, he, rfl⟩ := List.mem_map.1 hm
    have hl' : ∀ x ∈ plan.filter (fun e => inSet e.chans c), e.hold ≤ x.hold :=
      fun x hx => hl _ (List.mem_map.2 ⟨x, hx, rfl⟩)
    have hmem : 25 * e.hold ∈ (plan.filter (fun e => inSet e.chans c)).map (fun e => 25 * e.hold) :=
      List.mem_map.2 ⟨e, he, rfl⟩
    simp only [bounds, fitEnd, List.mem_cons, forall_eq_or_imp]
    refine ⟨?_, by omega, by omega, fun n hn => ?_⟩
    · by_cases h1 : given ≤ min 6143 (25 * e.hold)
      · left; omega
      · by_cases h2 : 6143 ≤ 25 * e.hold
        · right; left; omega
        · right; right
          rwa [show min (25 * e.hold) (min 6143 given) = 25 * e.hold by omega]
    · obtain ⟨x, hx, rfl⟩ := List.mem_map.1 hn
      have := hl' x hx
      omega

/-- A list of all channels filtered holds two or more where two channels differ that pass. -/
theorem two_le_filter_all (P : Chan → Bool) :
    2 ≤ (Chan.all.filter P).length ↔ ∃ c d, c ≠ d ∧ P c = true ∧ P d = true := by
  constructor
  · intro h
    obtain ⟨c, d, rest, e⟩ : ∃ c d rest, Chan.all.filter P = c :: d :: rest := by
      match hl : Chan.all.filter P, h with
      | c :: d :: rest, _ => exact ⟨c, d, rest, rfl⟩
    have hn : (c :: d :: rest).Nodup := e ▸ Chan.all_nodup.filter P
    have hc : c ∈ Chan.all.filter P := by rw [e]; simp
    have hd : d ∈ Chan.all.filter P := by rw [e]; simp
    exact ⟨c, d, fun h => by simp [h] at hn, (List.mem_filter.1 hc).2, (List.mem_filter.1 hd).2⟩
  · rintro ⟨c, d, hne, hc, hd⟩
    have hsub : [c, d] ⊆ Chan.all.filter P := by
      intro x hx
      rcases List.mem_cons.1 hx with rfl | hx
      · exact List.mem_filter.2 ⟨Chan.mem_all _, hc⟩
      · rw [List.mem_singleton.1 hx]; exact List.mem_filter.2 ⟨Chan.mem_all _, hd⟩
    have hnd : [c, d].Nodup := by simpa using hne
    exact (hnd.subperm hsub).length_le

/-- Two channels name one port (R21). -/
theorem portConflict_iff (im : List Byte) {port : Nat} (h : port < 12) :
    portConflict im port = true ↔
      ∃ c d : Chan, c ≠ d ∧ byteAt im (chanOffset c) = port ∧ byteAt im (chanOffset d) = port := by
  have hraw : ∀ c, (rawPort im c).1 = some port ↔ byteAt im (chanOffset c) = port := by
    intro c
    unfold rawPort readPort
    by_cases h12 : byteAt im (chanOffset c) < 12
    · rw [if_pos h12]; simp
    · rw [if_neg h12]; simp; omega
  simp only [portConflict, decide_eq_true_eq]
  rw [two_le_filter_all]
  simp only [decide_eq_true_eq, hraw]

end Sys2Proof.Machine
end

