-- ==== Sys2Proof/Laws/Position.lean ====
section
/-! SUPPORT. The Position Unit: the accumulator's arithmetic, the frontier, and what one count does to the position. -/

namespace Sys2Proof.Machine

/-! ### The accumulator -/

theorem withValue_value (q : Pos) (v : Int) : (withValue q v).p * 256 + (withValue q v).f = v := by
  have h : (0 : Int) ≤ v % 256 := Int.emod_nonneg v (by decide)
  show v / 256 * 256 + ((v % 256).toNat : Int) = v
  omega

theorem withValue_f_le (q : Pos) (v : Int) : (withValue q v).f ≤ 255 := by
  have h : (0 : Int) ≤ v % 256 := Int.emod_nonneg v (by decide)
  show (v % 256).toNat ≤ 255
  omega

@[simp] theorem withValue_p (q : Pos) (v : Int) : (withValue q v).p = v / 256 := rfl
@[simp] theorem withValue_front (q : Pos) (v : Int) : (withValue q v).front = q.front := rfl
@[simp] theorem withValue_sIdx (q : Pos) (v : Int) : (withValue q v).sIdx = q.sIdx := rfl
@[simp] theorem withValue_nextStep (q : Pos) (v : Int) : (withValue q v).nextStep = q.nextStep := rfl
@[simp] theorem withValue_limitFlag (q : Pos) (v : Int) : (withValue q v).limitFlag = q.limitFlag := rfl
@[simp] theorem withValue_encoderError (q : Pos) (v : Int) : (withValue q v).encoderError = q.encoderError := rfl
@[simp] theorem withValue_refA (q : Pos) (v : Int) : (withValue q v).refA = q.refA := rfl
@[simp] theorem withValue_refB (q : Pos) (v : Int) : (withValue q v).refB = q.refB := rfl
@[simp] theorem withValue_firstSample (q : Pos) (v : Int) : (withValue q v).firstSample = q.firstSample := rfl

/-! ### A sample leaves the position -/

section
variable (period n : Nat) (a b : Bool) (q : Pos)
@[simp] theorem sampled_p : (sampled period n a b q).p = q.p := rfl
@[simp] theorem sampled_f : (sampled period n a b q).f = q.f := rfl
@[simp] theorem sampled_front : (sampled period n a b q).front = q.front := rfl
@[simp] theorem sampled_sIdx : (sampled period n a b q).sIdx = q.sIdx := rfl
@[simp] theorem sampled_nextStep : (sampled period n a b q).nextStep = q.nextStep := rfl
@[simp] theorem sampled_limitFlag : (sampled period n a b q).limitFlag = q.limitFlag := rfl
@[simp] theorem sampled_encoderError : (sampled period n a b q).encoderError = q.encoderError := rfl
@[simp] theorem sampled_refA : (sampled period n a b q).refA = (sampled period n a b q).qualA := rfl
@[simp] theorem sampled_refB : (sampled period n a b q).refB = (sampled period n a b q).qualB := rfl
@[simp] theorem sampled_firstSample : (sampled period n a b q).firstSample = q.firstSample := rfl
@[simp] theorem posValue_sampled : posValue (sampled period n a b q) = posValue q := rfl
end

/-! ### The frontier and the step -/

/-- The frontier becomes the greater of itself and P; nothing else of the Position Unit changes (R10). -/
theorem raiseFrontier_pos (s : State) : (raiseFrontier s).pos = { s.pos with front := max s.pos.front s.pos.p } := by
  unfold raiseFrontier
  split
  · rename_i h
    rw [(frontierIncrease_keeps _ _).pos (by decide)]
    simp [max_eq_right (Int.le_of_lt h)]
  · rename_i h
    rw [max_eq_left (by omega)]

/-- A step short of next_step, or outside RUNNING, is none (R12, R15). -/
theorem issueStep_none {s : State} (h : ¬(s.rc.runState = .running ∧ s.pos.nextStep ≤ s.pos.p)) : issueStep s = s :=
  if_neg h

/-- The step index and next_step after a step is issued (R12). -/
theorem issueStep_pos {s : State} (h : s.rc.runState = .running ∧ s.pos.nextStep ≤ s.pos.p) :
    (issueStep s).pos = { s.pos with
      sIdx := s.pos.sIdx + stepsReached s.cfg.d s.pos.nextStep s.pos.p
      nextStep := s.pos.nextStep + stepsReached s.cfg.d s.pos.nextStep s.pos.p * (s.cfg.d : Int) } := by
  unfold issueStep
  rw [if_pos h]
  simp only [(takeStep_keeps _ _ _).pos (by decide), State.setPos_pos]

/-- With next_step the multiple of D beyond s_idx, the steps reached bring s_idx to the floor of P/D (R12, R14). -/
theorem stepsReached_index {d : Nat} {idx : Nat} {p : Int} (hd : 0 < d) (h : ((idx : Int) + 1) * d ≤ p) :
    ((idx + stepsReached d (((idx : Int) + 1) * d) p : Nat) : Int) = p / d := by
  have hd' : (0 : Int) < d := by exact_mod_cast hd
  have h0 : 0 ≤ (p - ((idx : Int) + 1) * d) / d := Int.ediv_nonneg (by omega) (by omega)
  have h1 : (p - ((idx : Int) + 1) * d) / d = p / d - ((idx : Int) + 1) := by
    rw [Int.sub_mul_ediv_right _ _ (by omega)]
  unfold stepsReached
  push_cast
  rw [Int.toNat_of_nonneg h0, h1]
  ring

/-! ### One count -/

theorem countDiscarded_pos (u : Bool) (s : State) : (countDiscarded u s).pos = { s.pos with limitFlag := true } := by
  unfold countDiscarded
  split
  · rename_i h; rw [← h]
  · simp

/-- A reverse count (R7, R8): discarded below the lower limit, else exact. -/
theorem reverseCount_cases (s : State) :
    (reverseCount s = countDiscarded false s ∧ (posValue s.pos - s.cfg.s) / 256 < -positionLimit) ∨
    (reverseCount s = s.setPos (withValue s.pos (posValue s.pos - s.cfg.s)) ∧
      -positionLimit ≤ (posValue s.pos - s.cfg.s) / 256) := by
  unfold reverseCount
  by_cases h : (posValue s.pos - s.cfg.s) / 256 < -positionLimit
  · exact .inl ⟨if_pos h, h⟩
  · exact .inr ⟨if_neg h, by omega⟩

/-- A forward count (R7, R8, R10, R12): discarded beyond the upper limit, else applied, the frontier raised and a step
issued. -/
theorem forwardCount_cases (s : State) :
    (forwardCount s = countDiscarded true s ∧ positionLimit < (posValue s.pos + s.cfg.s) / 256) ∨
    (forwardCount s = issueStep (raiseFrontier (s.setPos (withValue s.pos (posValue s.pos + s.cfg.s)))) ∧
      (posValue s.pos + s.cfg.s) / 256 ≤ positionLimit) := by
  unfold forwardCount
  by_cases h : positionLimit < (posValue s.pos + s.cfg.s) / 256
  · exact .inl ⟨if_pos h, h⟩
  · exact .inr ⟨if_neg h, by omega⟩

/-- A sample instant after the first is the count it decodes, on the sampled qualifiers (R2 to R6). -/
theorem sampleInstant_decoded {s : State} (a b : Bool) (h : s.pos.firstSample = false) :
    sampleInstant a b s =
      applyDecoded (decodeCount s.cfg s.pos.refA s.pos.refB (sampled s.cfg.p s.cfg.n a b s.pos).qualA
        (sampled s.cfg.p s.cfg.n a b s.pos).qualB) (s.setPos (sampled s.cfg.p s.cfg.n a b s.pos)) := by
  unfold sampleInstant; rw [h]; rfl

theorem operating_of_inRun {s : State} (h : s.inRun = true) : s.operating = true := by
  unfold State.inRun at h; unfold State.operating
  split at h <;> simp_all

/-- A sample instant in a run, after the first (R4). -/
theorem exec_sample_inRun {s : State} (a b : Bool) (run : s.inRun = true) (h : s.pos.firstSample = false) :
    exec (.encoderSampleInstant a b) s = .next
      (match decodeCount s.cfg s.pos.refA s.pos.refB (sampled s.cfg.p s.cfg.n a b s.pos).qualA
          (sampled s.cfg.p s.cfg.n a b s.pos).qualB with
        | .none => s.setPos (sampled s.cfg.p s.cfg.n a b s.pos)
        | .forward => forwardCount (s.setPos (sampled s.cfg.p s.cfg.n a b s.pos))
        | .reverse => reverseCount (s.setPos (sampled s.cfg.p s.cfg.n a b s.pos))
        | .illegal => illegalTransition (s.setPos (sampled s.cfg.p s.cfg.n a b s.pos))) := by
  rw [exec_encoderSampleInstant, if_pos (operating_of_inRun run), sampleInstant_decoded a b h]
  unfold applyDecoded
  have : (s.setPos (sampled s.cfg.p s.cfg.n a b s.pos)).inRun = true := run
  refine congrArg Host.Outcome.next ((if_pos this).trans ?_)
  generalize decodeCount _ _ _ _ _ = d
  cases d <;> rfl

end Sys2Proof.Machine
end

