-- ==== Sys2Proof/WellFormed.lean ====
section
/-! DEFINITION. What a command must satisfy beyond its type: the size of the image and of a volley's samples, a good frame.
The meanings are total, and take ill-formed commands too. -/

namespace Sys2Proof

/-- A port's samples of one volley: at most 25 × 250, the longest hold (R59). -/
def samplesFit (samples : List Byte) : Bool := decide (samples.length ≤ 6250)

/-- The command is well formed: LOAD_END carries the 477 bytes of the image, or none where the memory does not answer
(R147, R159); VOLLEY_COMPLETION at most
twelve ports, and no more samples than a hold has ticks (R21, R59); FRAME_RECEIVED a good frame (R141). -/
def Instr.wellFormed : Instr → Bool
  | .loadEnd image => decide (image.length = 477) || image.isEmpty
  | .volleyCompletion echoes => decide (echoes.length ≤ 12) && echoes.all samplesFit
  | .frameReceived chars => (Machine.parseFrame chars).isSome
  | .powerOn | .supplyLow | .resetPin | .resetRelease _ | .encoderSampleInstant _ _ | .zoneLineLevelChange _ | .quiet
  | .codeSlotRead _ _ | .claimPeriodEnd | .stuckTimerExpiry | .linkIdleInstant | .beginTime | .frameComplete
  | .readbackMismatch | .receiveError _ | .serviceTimeEnd _ | .runstart _ | .runstop _ | .mask _ | .suppress _ _
  | .indication _ _ | .drainEnd | .linkLevelChange _ => true

end Sys2Proof
end

