-- ==== Sys2Proof/Tests/Slice0.lean ====
section
/-! SUPPORT. Tests on fixed values: the worked examples of spec/ with the values its tables give, ill-formed commands that
WellFormed refuses, and, for each statement with hypotheses, a witness that meets them, at the ends of the ranges its clauses
name. Each witness carries the name of its statement. -/

namespace Sys2Proof.Tests
open Sys2Proof Sys2Proof.Machine

/-! ### Small states -/

/-- CH6 of 6.5.1, with the F gate of the example of 4.4. -/
def chan : ChanParams :=
  { port := some 0, f := ⟨true, 40, 60, 80, 3, false⟩, m := ⟨true, 70, 80, 60, 2⟩, wedge := 30, source := .ch0,
    kd := 2, kl := 3, kr := 2, beam := 6, k := 16935, sQ := 30793, cQ := 11208, offset := -2400, tx := 8, tz := 4,
    g := 3, nmin := 2 }

def cfg : Params :=
  { p := 2, n := 4, mode := .x4, aLeads := true, s := 86, d := 4, plan := [⟨1, 10, 1, 0⟩, ⟨2, 10, 2, 1⟩], tw := 1,
    chan := PerChan.ofFn (fun c => { chan with port := some c.num, source := c }), lmax := 100,
    rules := [⟨0x1FF, 0x1FF, 40, 20, 2⟩], horizon := 2000, single := 0, dropOldest := true, drain := 1 }

/-- A station in STANDBY at address 5 on the left rail, the zone line enabled. -/
def standby : State :=
  { State.reset with
    rc := { RunCtl.afterReset .powerOn with inReset := false, runState := .standby, straps := ⟨5, .left, true⟩ }
    cfg := cfg
    link := { Link.afterReset .recessive with tx := .idle, rx := .skip } }

/-- The same station in run 1, waiting for a step. -/
def running : State :=
  { standby with
    rc := { standby.rc with runState := .running, run := 1 }
    pos := { standby.pos with nextStep := 4 }
    seq := { standby.seq with sq := .waitStep }
    zone := { standby.zone with ctl := .idle }
    coup := PerChan.ofFn (fun _ => ⟨.doubtful, 0, 0⟩) }

/-- A request stands for entry 0 of the cycle of step 1. -/
def requesting : State :=
  { running with
    seq := { running.seq with sq := .pending, cycle := some ⟨1, 4⟩, pointer := some 0 }
    pos := { running.pos with p := 4, front := 4, sIdx := 1, nextStep := 8 }
    zone := { running.zone with ctl := .wait } }

/-- The request claims, at code 16 + 5, in slot 0. -/
def claiming : State :=
  { requesting with zone := { requesting.zone with ctl := .claim, line := .dominant, claimPeriod := some 0, claimCode := 21 } }

/-- The same claim a number of ticks into its claim period, with the slots read and the line as given. -/
def claimingAt (ticks slots : Nat) (line : LineLevel) : State :=
  { claiming with
    zone := { claiming.zone with claimPeriod := some ticks, slotRead := slots, line := line }
    pos := { claiming.pos with sampleClock := 1 } }

/-- The volley of entry 0 is in hold. -/
def hold : State :=
  { requesting with
    seq := { requesting.seq with sq := .hold, volley := some ⟨0, 1, 4, [0]⟩, holdTimer := 250 }
    acq := [⟨.ch0, none, none, 0, false⟩]
    zone := { requesting.zone with ctl := .hold, line := .dominant } }

/-- The drain of run 1. -/
def drain : State :=
  { standby with rc := { standby.rc with runState := .stopping, run := 1, draining := true, drainTimer := 0 } }

/-- An indication of a peer, on the left rail at 1000 to 1010. -/
def ind (origin seq : Nat) (channel : Chan) (x0 x1 : Int) : Indication :=
  { origin := origin, seq := seq, channel := channel, rail := .left, beam := 3, xStart := x0, xEnd := x1, zMin := 100,
    zMax := 110, peak := 90, hits := 4, spanned := 5, saturated := false, doubtful := false, gapped := false, long := false,
    cut := false }

def slot (order hits : Nat) (x : Int) (z : Nat) : Slot :=
  { order := order, lastX := x, lastZ := z, xMin := x, xMax := x, zMin := z, zMax := z, peak := 100, hits := hits,
    spanned := hits, missRun := 0, saturated := false, doubtful := false, gapped := false }

/-- A channel with an open gap over 100 to 200, and the given firings. -/
def gapAt (firings : Nat) : ChanCoverage := ⟨some ⟨.missed, 100, 200, firings⟩, some 200, some 50⟩

def covered (v : ChanCoverage) : State :=
  { running with cov := { running.cov with chan := running.cov.chan.set .ch0 v } }

/-- The state with its link as given. -/
def withLink (f : Link → Link) (s : State) : State := { s with link := f s.link }

/-- The next sample qualifies an edge of A, of B, or of both. -/
def atSample (a b : Nat) (s : State) : State := { s with pos := { s.pos with agreeA := a, agreeB := b } }

/-- The state at a place on the track. -/
def atPlace (p : Int) (f : Nat) (front : Int) (s : State) : State :=
  { s with pos := { s.pos with p := p, f := f, front := front } }

def withQ0 (n : Nat) (s : State) : State :=
  { s with link := { s.link with q0 := List.replicate n ⟨1, .zoneStuck⟩ } }

/-! ### Well-formed commands: one refused by each check -/

theorem test_wellFormed_refuses_short_image : Instr.wellFormed (.loadEnd [0x81#8]) = false := by decide
theorem test_wellFormed_refuses_long_hold :
    Instr.wellFormed (.volleyCompletion [[], [], [], List.replicate 6251 0]) = false := by decide +kernel
theorem test_wellFormed_refuses_a_thirteenth_port :
    Instr.wellFormed (.volleyCompletion (List.replicate 13 [])) = false := by decide
theorem test_wellFormed_refuses_frame_without_sync : Instr.wellFormed (.frameReceived [0x5B#8, 1, 1, 1, 0, 0, 0]) = false := by
  decide
theorem test_wellFormed_accepts :
    Instr.wellFormed (.loadEnd []) = true ∧ Instr.wellFormed .quiet = true ∧
    Instr.wellFormed (.frameReceived (frameChars 16 kindRunstart 7 [])) = true := by decide +kernel

/-! ### The step and the queue -/

theorem witness_StepRunsTheFrontCommand : { standby with pending := [Instr.quiet, .beginTime] }.pending = .quiet :: [.beginTime] := rfl

theorem witness_ExecKeepsTheQueue : ∃ t, exec (.runstart 1) standby = .next t := ⟨_, rfl⟩

/-! ### Reset and load -/

/-- Bytes of zero. -/
def zeros (n : Nat) : List Byte := List.replicate n 0x00#8

/-- The station after its straps are read. -/
def released : State := State.reset.setRc { State.reset.rc with inReset := false, straps := ⟨5, .left, true⟩ }

theorem witness_ResetInitialisesEveryBlock :
    (Instr.powerOn = .powerOn ∧ ResetCause.powerOn = .powerOn) ∧ (Instr.supplyLow = .supplyLow ∧ ResetCause.supplyLow = .supplyLow) ∧
    (Instr.resetPin = .resetPin ∧ ResetCause.resetPin = .resetPin) := by decide

/-- What the station drives at the reset: the hold; the start slot, and slot 2, of a claim at code 21, dominant; its slot 1
recessive; a frame in flight on a dominant and on a recessive bit; and nothing. -/
theorem witness_ResetInitialisesEveryBlock_lines :
    (hold.zone.ctl = .hold ∧ hold.zone.line = .dominant) ∧ standby.zone.ctl ≠ .hold ∧ standby.zone.ctl ≠ .claim ∧
    (∀ x ∈ [(24, true), (25, false), (49, false), (50, true)],
      (claimingAt x.1 0 .dominant).zone.ctl = .claim ∧
      (x.1 / 25 = 0 ∨ (21#5).getLsbD (5 - min 5 (x.1 / 25)) = false ↔ x.2 = true)) ∧
    standby.link.tx ≠ .send ∧
    (∀ x ∈ [(3727, LineLevel.dominant), (3725, LineLevel.recessive)],
      ((frameChars 5 kindIndication 1 (indicationPayload (ind 5 0 .ch1 1000 1010))).flatMap charLevels).getD
        ((3750 - x.1) * 2 / 25) .recessive = x.2) := by decide

theorem witness_ReleaseReadsTheStraps : State.reset.rc.inReset = true ∧ standby.rc.inReset = false := by decide

/-- 11.4: a channel record of CH0 with the values of 6.5.1, a port byte that names no port, an F start below the wedge delay, and an
M start above its end. -/
theorem test_channel_record_is_read_by_its_offsets :
    let image := List.replicate 0x89 0x00#8 ++ [0x0C, 0xC8, 0x00, 0x70, 0x17, 0x50, 0x02, 0x01, 0x84, 0x03, 0x20, 0x03, 0x50, 0x02,
      0x00, 0x2C, 0x01, 0x05, 0x32, 0x02, 0x06, 0x27, 0x42, 0x49, 0x78, 0xC8, 0x2B, 0xA0, 0xF6, 0x08, 0x04, 0x03, 0x02]
    readChan image [] .ch0 =
      ({ port := none, f := ⟨true, 300, 6000, 80, 2, true⟩, m := ⟨false, 900, 800, 80, 2⟩, wedge := 300, source := .ch5, kd := 2,
         kl := 3, kr := 2, beam := 6, k := 16935, sQ := 30793, cQ := 11208, offset := -2400, tx := 8, tz := 4, g := 3, nmin := 2 },
       { ChanWarnings.empty with port := true, clampF := true, disabledM := true }) := by decide

theorem witness_LoadEndsInFaultedOrStandby :
    (withQ0 3 released).rc.inReset = false ∧ (withQ0 3 released).rc.runState = .loading ∧
    (withQ0 3 released).link.q0.length < 4 ∧ byteAt (imageBytes []) 0 ≠ 0x81 ∧ 4 ≤ (withQ0 4 released).link.q0.length ∧
    (State.reset.rc.inReset = true ∨ State.reset.rc.runState ≠ .loading) ∧
    (standby.rc.inReset = true ∨ standby.rc.runState ≠ .loading) := by decide +kernel

theorem test_missing_memory_is_a_format_fault : judgeImage [] = .refused .format 0 :=
  judgeImage_format witness_LoadEndsInFaultedOrStandby.2.2.2.1

theorem witness_LoadChecks_format : byteAt (imageBytes [0x80#8]) 0 ≠ 0x81 := by decide
theorem witness_LoadChecks_length :
    byteAt (imageBytes [0x81#8, 0xDE#8, 0x01#8]) 0 = 0x81 ∧ wordAt (imageBytes [0x81#8, 0xDE#8, 0x01#8]) 1 ≠ 477 := by
  decide
/-- R156: the CRC over 31h to 39h is 29B1h. -/
theorem test_crc_of_the_nine_digits : crc16 [0x31, 0x32, 0x33, 0x34, 0x35, 0x36, 0x37, 0x38, 0x39] = 0x29B1#16 := by
  decide +kernel

/-- 4.1, fitting gates at load: CH3, and CH4 with its late M gate, under a shortest hold of 120 µs; the F gate's wedge delay is
300 ticks. -/
theorem test_gates_are_fitted :
    let ch3 : List Byte := [0x00, 0xC8, 0x00, 0x70, 0x17, 0x50, 0x02, 0x00, 0x54, 0x0B, 0x1C, 0x0C, 0x50, 0x02, 0x00]
    let ch4 : List Byte := [0x00, 0xC8, 0x00, 0x70, 0x17, 0x50, 0x02, 0x00, 0xEA, 0x0B, 0x1C, 0x0C, 0x50, 0x02, 0x00]
    readF ch3 0 (some 120) 300 = (⟨true, 300, 3000, 80, 2, false⟩, true, false) ∧
    readM ch3 0 (some 120) = (⟨true, 2900, 3000, 80, 2⟩, true, false) ∧
    (readM ch4 0 (some 120)).1.enabled = false ∧ (readM ch4 0 (some 120)).2 = (true, true) := by decide

theorem test_release_enters_loading : exec (.resetRelease ⟨5, .left, true⟩) State.reset = .next released := rfl
theorem test_reset_keeps_the_queue : ∃ t, exec .supplyLow { running with pending := [.quiet] } = .next t ∧
    t.pending = [.quiet] ∧ t.rc.cause = .supplyLow ∧ t.rc.run = 0 := ⟨_, rfl, by decide⟩

/-! ### Position and steps -/

theorem witness_FirstSampleTakesTheRawLevels :
    ({ standby with pos := { standby.pos with firstSample := true } }).operating = true ∧ State.reset.operating = false := by decide

theorem witness_QualifiedLevelChangesAtTheNthSample : (1 : Nat) ≤ 4 := by decide

/-- 1.2, a disturbed rising edge. -/
theorem test_disturbed_edge_is_qualified_at_the_seventh_sample :
    [true, true, false, true, true, true, true].foldl (fun q raw => qualify 4 q.1 q.2 raw) (false, 0) = (true, 0) ∧
    [true, true, false, true, true, true].foldl (fun q raw => qualify 4 q.1 q.2 raw) (false, 0) = (false, 3) := by decide

theorem witness_StandbyDiscardsCounts : standby.rc.runState = .standby ∧ standby.pos.firstSample = false := by decide

/-- The last forward count that the upper limit allows, of 1.4, from a frontier behind the new P and from one at it, in RUNNING and
in STOPPING. -/
theorem witness_ForwardCountMovesPositionAndFrontier : ∀ front ∈ [(1999999999 : Int), 2000000000], ∀ run ∈ [RunState.running, .stopping],
    let u := atSample 3 0 (atPlace 1999999999 250 front running)
    let s : State := { u with rc := { u.rc with runState := run } }
    let q := sampled s.cfg.p s.cfg.n true false s.pos
    s.inRun = true ∧ s.pos.firstSample = false ∧
    decodeCount s.cfg s.pos.refA s.pos.refB q.qualA q.qualB = .forward ∧ (s.pos.p * 256 + s.pos.f + s.cfg.s) / 256 ≤ 2000000000 ∧
    (s.pos.front < (s.pos.p * 256 + s.pos.f + s.cfg.s) / 256 ↔ front = 1999999999) := by
  decide

theorem witness_ReverseCountMovesPositionOnly :
    let s := atSample 0 3 (atPlace (-2000000000) 86 0 running)
    let q := sampled s.cfg.p s.cfg.n false true s.pos
    s.inRun = true ∧ s.pos.firstSample = false ∧
    decodeCount s.cfg s.pos.refA s.pos.refB q.qualA q.qualB = .reverse ∧ -2000000000 ≤ (s.pos.p * 256 + s.pos.f - s.cfg.s) / 256 := by
  decide

/-- The first count beyond each limit, with room on class 0 and without, and with the flag set. -/
theorem witness_CountBeyondALimitIsDiscarded :
    (let s := atSample 3 0 (atPlace 2000000000 252 2000000000 running)
     let q := sampled s.cfg.p s.cfg.n true false s.pos
     s.inRun = true ∧ s.pos.firstSample = false ∧ decodeCount s.cfg s.pos.refA s.pos.refB q.qualA q.qualB = .forward ∧
     2000000000 < (s.pos.p * 256 + s.pos.f + s.cfg.s) / 256 ∧ s.pos.limitFlag = false ∧ (withQ0 3 s).link.q0.length < 4 ∧
     ¬ (withQ0 4 s).link.q0.length < 4 ∧ ({ s.pos with limitFlag := true }).limitFlag = true) ∧
    (let s := atSample 0 3 (atPlace (-2000000000) 85 0 running)
     let q := sampled s.cfg.p s.cfg.n false true s.pos
     s.inRun = true ∧ s.pos.firstSample = false ∧ decodeCount s.cfg s.pos.refA s.pos.refB q.qualA q.qualB = .reverse ∧
     (s.pos.p * 256 + s.pos.f - s.cfg.s) / 256 < -2000000000) := by decide

/-- Both levels change, in X4; neither changes; a rise and a fall of A, in X2 and X1, with B at either level. -/
theorem witness_IllegalTransitionRaisesTheErrorCounter :
    (let s := atSample 3 3 running
     let q := sampled s.cfg.p s.cfg.n true true s.pos
     s.inRun = true ∧ s.pos.firstSample = false ∧ s.cfg.mode = .x4 ∧
     decodeCount s.cfg s.pos.refA s.pos.refB q.qualA q.qualB = .illegal) ∧
    (let q := sampled running.cfg.p running.cfg.n false false running.pos
     decodeCount running.cfg running.pos.refA running.pos.refB q.qualA q.qualB = .none) ∧
    (∀ mode ∈ [CountMode.x1, .x2], ∀ refA refB aLeads : Bool,
     let s0 := atSample 3 0 running
     let s := { s0 with cfg := { cfg with mode := mode, aLeads := aLeads },
                        pos := { s0.pos with qualA := refA, qualB := refB, refA := refA, refB := refB } }
     let q := sampled s.cfg.p s.cfg.n (!refA) refB s.pos
     s.inRun = true ∧ s.pos.firstSample = false ∧ s.cfg.mode ≠ .x4 ∧ q.qualA = !s.pos.refA ∧
     decodeCount s.cfg s.pos.refA s.pos.refB q.qualA q.qualB ≠ .illegal) := by decide

/-- R6 with A leading: a rise of A with B low counts forward, and with B high in reverse; in X2 a fall the other way; in X1 a
fall counts nothing. -/
theorem test_x1_and_x2_count_at_the_edges_of_a :
    (∀ mode ∈ [CountMode.x1, .x2], decodeCount { cfg with mode := mode } false false true false = .forward ∧
      decodeCount { cfg with mode := mode } false true true true = .reverse) ∧
    decodeCount { cfg with mode := .x2 } true true false true = .forward ∧
    decodeCount { cfg with mode := .x1 } true true false true = .none := by decide

theorem travelLaw_at (s : State) (limits : -2000000000 ≤ s.pos.p ∧ s.pos.p ≤ 2000000000) (fraction : s.pos.f ≤ 255)
    (behind : s.pos.p ≤ s.pos.front) (frontier : 0 ≤ s.pos.front ∧ s.pos.front ≤ 2000000000) (step : StepLaw s)
    (size : s.operating = true → 4 ≤ s.cfg.d ∧ s.cfg.d ≤ 60) : TravelLaw s := ⟨⟨limits, fraction, behind, frontier⟩, step, size⟩

/-- A count short of the next step at 4, the count that reaches it, and the same with a volley in hold. -/
theorem witness_StepIsIssuedAtNextStep :
    TravelLaw (atSample 3 0 running) ∧ TravelLaw (atSample 3 0 (atPlace 3 255 3 running)) ∧
    TravelLaw (atSample 3 0 (atPlace 7 255 7 hold)) ∧
    ∀ s ∈ [atSample 3 0 running, atSample 3 0 (atPlace 3 255 3 running), atSample 3 0 (atPlace 7 255 7 hold)],
      let q := sampled s.cfg.p s.cfg.n true false s.pos
      s.rc.runState = .running ∧ s.pos.firstSample = false ∧
      decodeCount s.cfg s.pos.refA s.pos.refB q.qualA q.qualB = .forward ∧
      ((s.pos.p * 256 + s.pos.f + s.cfg.s) / 256 < s.pos.nextStep ↔ s.pos.p = 0) ∧ (s.seq.sq = .hold ↔ s.pos.p = 7) := by
  refine ⟨travelLaw_at _ ?_ ?_ ?_ ?_ ?_ ?_, travelLaw_at _ ?_ ?_ ?_ ?_ ?_ ?_, travelLaw_at _ ?_ ?_ ?_ ?_ ?_ ?_, ?_⟩ <;>
    (try unfold StepLaw) <;> decide

/-- The count that issues the step of index 2: entry 0 is due and its channel fires, or is muted; a request pending, and a volley
in hold, with a cycle waiting and with the old one going on. -/
theorem witness_StepIsIssuedAtNextStep_walks :
    (let s := atSample 3 0 (atPlace 7 255 7 requesting)
     TravelLaw s ∧ s.seq.sq = .pending ∧ s.seq.cycle = some ⟨1, 4⟩ ∧ s.seq.pointer = some 0 ∧ s.zone.ctl = .wait ∧
     s.pos.nextStep ≤ (s.pos.p * 256 + s.pos.f + s.cfg.s) / 256 ∧ WalkStops s 2 0 0 ⟨1, 10, 1, 0⟩ ∧
     WalkEnds { s with seq := { s.seq with mask := 1 } } 2 0) ∧
    running.seq.sq = .waitStep ∧ { running.seq with sq := .off }.sq = .off ∧
    { hold.seq with waiting := some ⟨2, 8⟩ }.waiting = some ⟨2, 8⟩ ∧ hold.seq.waiting = none ∧
    hold.seq.cycle = some ⟨1, 4⟩ ∧ hold.seq.volley = some ⟨0, 1, 4, [0]⟩ := by
  refine ⟨⟨travelLaw_at _ (by decide) (by decide) (by decide) (by decide) (by unfold StepLaw; decide) (by decide), by decide, by decide,
    by decide, by decide, by decide, ⟨by decide, by decide, by decide, ⟨.ch0, by decide, by decide, by decide⟩, ?_⟩, ?_⟩,
    by decide, rfl, rfl, by decide, by decide, by decide⟩
  · intro j x _ h; omega
  · intro j x _ h d
    rintro ⟨c, h1, _, h3⟩
    match j, h with
    | 0, h => cases h; cases c <;> revert h1 h3 <;> decide
    | 1, h => cases h; revert d; decide

theorem witness_EveryStepKeepsTheTravelLaw :
    TravelLaw (atPlace 1999999999 255 2000000000 standby) ∧ ∃ t, step (atPlace 1999999999 255 2000000000 standby) = .next t :=
  ⟨travelLaw_at _ (by decide) (by decide) (by decide) (by decide) (by unfold StepLaw; decide) (by decide), _, rfl⟩

/-- 1.4, carries and borrows: the third forward count, and the reverse count below 0. -/
theorem test_carry_and_borrow :
    (match exec (.encoderSampleInstant true false) (atSample 3 0 (atPlace 0 172 0 running)) with
      | .next t => decide (t.pos.p = 1 ∧ t.pos.f = 2) | .fault _ | .refused _ => false) = true ∧
    (match exec (.encoderSampleInstant false true) (atSample 0 3 running) with
      | .next t => decide (t.pos.p = -1 ∧ t.pos.f = 170) | .fault _ | .refused _ => false) = true := by decide

/-! ### Firing -/

/-- The channel of the entry can fire; it has been muted meanwhile; the station is no claimant. -/
theorem witness_GrantFiresTheFireableChannels :
    claiming.observing = true ∧ claiming.zone.claimPeriod ≠ none ∧ claiming.zone.ctl = .claim ∧ claiming.zone.orphaned = false ∧
    claiming.seq.pointer = some 0 ∧ claiming.seq.cycle = some ⟨1, 4⟩ ∧ claiming.cfg.plan[0]? = some ⟨1, 10, 1, 0⟩ ∧
    CanFire claiming ⟨1, 10, 1, 0⟩ ∧ ¬ CanFire { claiming with seq := { claiming.seq with mask := 1 } } ⟨1, 10, 1, 0⟩ ∧
    ({ requesting.zone with claimPeriod := some 149 }).claimPeriod ≠ none ∧ requesting.zone.ctl ≠ .claim := by
  refine ⟨by decide, by decide, by decide, by decide, by decide, by decide, by decide, ⟨.ch0, by decide, by decide, by decide⟩, ?_,
    by decide, by decide⟩
  rintro ⟨c, h1, _, h3⟩
  cases c <;> revert h1 h3 <;> decide

/-- An orphaned claim, in RUNNING and in STOPPING. -/
def orphan (r : RunState) : State :=
  { claiming with rc := { claiming.rc with runState := r }, zone := { claiming.zone with orphaned := true } }

theorem witness_OrphanedWinReleasesTheLine : ∀ r ∈ [RunState.running, .stopping],
    (orphan r).observing = true ∧ (orphan r).zone.claimPeriod ≠ none ∧ (orphan r).zone.ctl = .claim ∧
    (orphan r).zone.orphaned = true := by decide

/-- At the end of slot 5, which code 21 drives recessive and code 20 dominant. -/
def atSlot5 (code : BitVec 5) : State :=
  { orphan .running with zone := { (orphan .running).zone with claimPeriod := some 150, claimCode := code } }

theorem witness_OrphanedWinReleasesTheLine_slot5 : ∀ x ∈ [(20#5, true), (21#5, false)],
    (atSlot5 x.1).zone.claimPeriod.getD 0 / 25 ≠ 0 ∧ (atSlot5 x.1).zone.line = .dominant ∧ (atSlot5 x.1).zone.ctl = .claim ∧
    ((atSlot5 x.1).zone.claimCode.getLsbD (5 - min 5 ((atSlot5 x.1).zone.claimPeriod.getD 0 / 25)) = false ↔ x.2 = true) := by
  decide

/-- R48: a released line goes recessive where slot 5 was the station's own, and stays dominant where another party drives it. -/
theorem test_release_leaves_the_level_of_the_others :
    [20#5, 21#5].map (fun code => match exec .claimPeriodEnd (atSlot5 code) with
      | .next t => (t.zone.ctl, t.zone.line) | .fault _ | .refused _ => (.off, .recessive)) =
      [(.idle, .recessive), (.idle, .dominant)] := by decide

theorem offered_empty {b : Block} {c : Instr} {s : State} (h : s.operating = true) (f : busyOf s.link b = none)
    (q : s.link.rxQueue = []) : Offered b c s := ⟨h, f, .inl q⟩

/-- In STANDBY, and with CH0 in hold; and a MASK for another address. -/
theorem witness_MaskClearsThenSets :
    (∀ s ∈ [standby, hold], (5#8).toNat = s.own ∧ Offered .volleySequencer (.mask ⟨5, 0xFF, 0xFF⟩) s) ∧ (4#8).toNat ≠ standby.own := by
  refine ⟨?_, by decide⟩
  intro s h
  simp only [List.mem_cons, List.not_mem_nil, or_false] at h
  rcases h with rfl | rfl <;> exact ⟨by decide, offered_empty (by decide) (by decide) (by decide)⟩

/-- Two open slots, one of Nmin hits and one of fewer: one record, one sparse; and the open gap that a run's end closes. -/
theorem witness_closes :
    let s := { running with
      trk := { running.trk with chan := running.trk.chan.set .ch0 ⟨some (slot 0 2 500 300), some (slot 1 1 600 300)⟩ } }
    (∀ cs ∈ [[Chan.ch0], Chan.all], (openIn s cs).length = 2 ∧
      (reportable s ((openIn s cs).map (fun x => ⟨x.1, x.2, false, true⟩))).length = 1 ∧ s.trk.sparse ≤ 65535 ∧
      s.corr.table.length ≤ 48 ∧ s.link.drop2 ≤ 65535) ∧
    (openGaps (covered (gapAt 65534))).map (·.1) = [.ch0] ∧ (covered (gapAt 65534)).link.drop3 ≤ 65535 := by decide

/-- CH0's source in LOST, and a request held for CH0. -/
def holdLost : State := { hold with coup := hold.coup.set .ch0 ⟨.lost, 0, 0⟩ }
def holdCut : State := { hold with seq := { hold.seq with held := 1 } }

/-- In RUNNING and in STOPPING; with a held request and without; the source LOST and not; a cycle waiting, and the old one. -/
theorem witness_CompletionHandsOnAndEnds :
    (∀ s ∈ [hold, holdLost, holdCut], s.seq.sq = .hold ∧ s.seq.volley = some ⟨0, 1, 4, [0]⟩ ∧
      s.cfg.plan[0]? = some ⟨1, 10, 1, 0⟩ ∧ (s.acq.map (·.chan)).Nodup ∧ s.acq.map (·.chan) = [.ch0] ∧ s.rc.runState = .running) ∧
    (hold.cfg.chan.get .ch0).m.enabled = true ∧ inSet holdCut.seq.held .ch0 = true ∧ inSet hold.seq.held .ch0 = false ∧
    hold.zoneEnabled = true ∧ hold.zone.ctl = .hold ∧ hold.zone.quiet = false ∧ hold.zone.claimPeriod = none ∧
    hold.seq.waiting = none ∧ hold.seq.cycle = some ⟨1, 4⟩ ∧
    { hold.seq with waiting := some ⟨2, 8⟩ }.waiting = some ⟨2, 8⟩ ∧ { hold.seq with cycle := none }.cycle = none ∧
    ({ hold.rc with runState := .stopping }).runState = .stopping := by decide

/-- The volley of entry 0 in hold in STOPPING, with an open slot of CH1 and open gaps of CH0 and CH1. -/
def stoppingHold : State :=
  { hold with
    rc := { hold.rc with runState := .stopping }
    cov := { hold.cov with chan := (hold.cov.chan.set .ch0 (gapAt 3)).set .ch1 (gapAt 3) }
    trk := { hold.trk with chan := hold.trk.chan.set .ch1 ⟨some (slot 0 2 500 300), none⟩ } }

theorem witness_CompletionHandsOnAndEnds_stopping :
    stoppingHold.seq.sq = .hold ∧ stoppingHold.seq.volley = some ⟨0, 1, 4, [0]⟩ ∧ stoppingHold.rc.runState = .stopping ∧
    stoppingHold.cfg.plan[0]? = some ⟨1, 10, 1, 0⟩ ∧ (stoppingHold.acq.map (·.chan)).Nodup ∧
    (stoppingHold.trk.chan.get .ch1).slot0 ≠ none ∧ (stoppingHold.cov.chan.get .ch1).gap ≠ none := by decide

/-- R37, R80, R107: the slot's record goes out with CUT; the gap of CH0 is closed RESUMED by its good firing, that of CH1 STOPPED. -/
theorem test_completion_in_stopping_closes_the_run :
    (match exec (.volleyCompletion []) stoppingHold with
      | .next t => decide (t.link.q2.map (fun r => (r.item.channel, r.item.cut)) = [(.ch1, true)] ∧
          t.link.q3.map (·.item.closure) = [.resumed, .stopped] ∧ t.rc.draining = true)
      | .fault _ | .refused _ => false) = true := by decide

theorem witness_EveryStepKeepsTheFiringLaw : FiringLaw hold ∧ ∃ t, step hold = .next t := by
  refine ⟨⟨⟨?_, ?_, ?_, ?_, ?_, ?_, ?_, ?_, ?_, ?_⟩, ⟨?_, ?_, ?_, ?_, ?_, ?_, ?_, ?_, ?_, ?_, ?_, ?_⟩⟩, _, rfl⟩
  all_goals first | decide | exact fun _ => ⟨⟨0, 1, 4, [0]⟩, ⟨1, 10, 1, 0⟩, rfl, rfl⟩ | exact fun h => absurd h (by decide)

theorem test_grant_opens_the_record_of_ch0 :
    (match exec .claimPeriodEnd claiming with
      | .next t => decide (t.seq.volley = some ⟨0, 1, 4, [0]⟩ ∧ t.acq = [⟨.ch0, none, none, 0, false⟩] ∧ t.seq.holdTimer = 250)
      | .fault _ | .refused _ => false) = true := by decide
/-- R33: a channel in both lists ends muted. -/
theorem test_mask_sets_after_it_clears :
    (match exec (.mask ⟨5, 0x81, 0x03⟩) { standby with seq := { standby.seq with mask := 0x06 } } with
      | .next t => t.seq.mask | .fault _ | .refused _ => 0) = 0x85 := by decide

/-! ### Zone line -/

/-- 3.1.1: station 7 with two losses has code 23, with three code 7. -/
theorem test_claim_codes : claimCodeOf 7 2 = 23#5 ∧ claimCodeOf 7 3 = 7#5 := by decide

theorem witness_LowerClaimCodeWins : (15#5).toNat < (16#5).toNat ∧ (30#5).toNat < (31#5).toNat := by decide

/-- The zone line as given, in a running station. -/
def onLine (ctl : ZlState) (line : LineLevel) (quiet stuck : Bool) : State :=
  { requesting with zone := { requesting.zone with ctl := ctl, line := line, quiet := quiet, stuck := stuck } }

/-- The line quiet; busy with less than 3 µs recessive; recessive for 3 µs with QUIET yet to be taken; and the line held. -/
theorem witness_StartEdgeBeginsAClaimPeriod :
    (∀ ctl ∈ [ZlState.off, .idle, .wait, .claim], ∀ quiet : Bool,
      (onLine ctl .recessive quiet false).observing = true ∧ (onLine ctl .recessive quiet false).zone.ctl ≠ .hold ∧
      (onLine ctl .recessive quiet false).zone.quiet = quiet) ∧
    (∀ ctl ∈ [ZlState.off, .idle, .wait], ∀ stuck : Bool, ∀ time ∈ [74, 75],
      let z := { (onLine ctl .recessive false stuck).zone with recessiveTime := time }
      z.claimPeriod = none ∧ z.ctl ≠ .claim ∧ z.ctl ≠ .hold ∧ z.quiet = false ∧ z.line = .recessive ∧ z.stuck = stuck ∧
      (75 ≤ z.recessiveTime ↔ time = 75)) ∧
    (withQ0 3 (onLine .wait .recessive false true)).link.q0.length < 4 ∧ hold.observing = true ∧ hold.zone.ctl = .hold := by decide

/-- A claimant in its start slot and in slot 2 of code 21 drives dominant; in slot 1 recessive. -/
theorem witness_StartEdgeBeginsAClaimPeriod_recessive : ∀ x ∈ [(0, true), (24, true), (25, false), (50, true)],
    (claimingAt x.1 0 .dominant).observing = true ∧ (claimingAt x.1 0 .dominant).zone.ctl = .claim ∧
    (x.1 / 25 = 0 ∨ (21#5).getLsbD (5 - min 5 (x.1 / 25)) = false ↔ x.2 = true) := by decide

/-- R44, 3.1.1: at code 21 the line goes recessive where slot 1 begins and dominant where slot 2 does. -/
theorem test_zone_line_follows_the_claim :
    (tick (claimingAt 23 0 .dominant)).zone.line = .dominant ∧ (tick (claimingAt 24 0 .dominant)).zone.line = .recessive ∧
    (tick (claimingAt 49 1 .recessive)).zone.line = .dominant ∧ (tick (claimingAt 74 2 .dominant)).zone.line = .recessive := by
  decide

/-- R44: the own dominant slot keeps the line dominant; in a recessive slot the line may be let go. -/
theorem test_own_dominant_slot_holds_the_line :
    exec (.zoneLineLevelChange .recessive) (claimingAt 10 0 .dominant) = .next (claimingAt 10 0 .dominant) ∧
    exec (.zoneLineLevelChange .recessive) (claimingAt 30 0 .dominant) = .next (claimingAt 30 0 .recessive) := ⟨rfl, rfl⟩

/-- R43: the start slot of a waiting station falls on the edge that ends 3 µs recessive; an edge one tick earlier leaves it
waiting. -/
theorem test_edge_at_the_third_microsecond :
    (let z := { (onLine .wait .recessive false false) with zone := { requesting.zone with recessiveTime := 75 } }
     match exec (.zoneLineLevelChange .dominant) z with
      | .next t => decide (t.zone.ctl = .claim ∧ t.zone.claimPeriod = some 0) | .fault _ | .refused _ => false) = true ∧
    (let z := { (onLine .wait .recessive false false) with zone := { requesting.zone with recessiveTime := 74 } }
     match exec (.zoneLineLevelChange .dominant) z with
      | .next t => decide (t.zone.ctl = .wait ∧ t.zone.claimPeriod = none) | .fault _ | .refused _ => false) = true := by decide

theorem witness_QuietClearsStuckAndClaims : ∀ ctl ∈ [ZlState.idle, .wait], ∀ stuck : Bool,
    (onLine ctl .recessive false stuck).observing = true ∧ (onLine ctl .recessive false stuck).zone.claimPeriod = none ∧
    (onLine ctl .recessive false stuck).zone.quiet = false ∧ (onLine ctl .recessive false stuck).zone.ctl ≠ .claim ∧
    (onLine ctl .recessive false stuck).zone.ctl ≠ .hold ∧ (onLine ctl .recessive false stuck).zone.stuck = stuck ∧
    (withQ0 3 (onLine ctl .recessive false stuck)).link.q0.length < 4 ∧
    4 ≤ (withQ0 4 (onLine ctl .recessive false stuck)).link.q0.length := by decide

/-- Code 21 drives recessive in slots 1, 3 and 5, and dominant in slots 2 and 4. -/
theorem witness_ClaimIsLostOnADominantReading :
    standby.zone.ctl ≠ .claim ∧ claiming.zone.ctl = .claim ∧ slotDrive claiming.zone.claimCode .slot1 = .recessive ∧
    slotDrive claiming.zone.claimCode .slot2 = .dominant ∧ slotDrive claiming.zone.claimCode .slot4 = .dominant ∧
    slotDrive claiming.zone.claimCode .slot5 = .recessive := by decide

theorem witness_StuckTimerExpirySetsStuck :
    (∀ ctl ∈ [ZlState.idle, .wait], (onLine ctl .dominant false false).zone.ctl = ctl ∧
      (onLine ctl .dominant false false).zone.line = .dominant ∧ (onLine ctl .dominant false false).zone.stuck = false) ∧
    (withQ0 3 (onLine .idle .dominant false false)).link.q0.length < 4 ∧
    ¬ (withQ0 4 (onLine .idle .dominant false false)).link.q0.length < 4 ∧
    (onLine .wait .dominant false true).zone.stuck = true ∧ claiming.zone.ctl ≠ .idle ∧ claiming.zone.ctl ≠ .wait := by decide

/-- A lost claim counts, and the count holds at 255. -/
theorem test_loss_count_holds : (claimLost true { claiming.zone with losses := 255 }).losses = 255 ∧
    (claimLost true { claiming.zone with losses := 2 }).losses = 3 := by decide
/-- R42: a request joins up to 0.5 µs after the start edge, 12 ticks of 40 ns, and not after 13. -/
theorem test_join_window : joinWindow { standby.zone with claimPeriod := some 12 } = true ∧
    joinWindow { standby.zone with claimPeriod := some 13 } = false := by decide

/-! ### Gates: the example of 4.4 -/

/-- The samples of ticks 0 to 60: those before tick 38 are 0. -/
def echoes : List Byte := List.replicate 38 0 ++
  [120, 130, 140, 90, 60, 85, 95, 70, 100, 180, 200, 190, 90, 50, 81, 120, 255, 230, 40, 45, 240, 250, 250]

/-- R22: CH0's echo is its own port's; another port's samples are not CH0's. R68: a hit of a LOST source opens no slot. -/
theorem test_completion_reads_its_own_port :
    [(hold, [echoes]), (hold, [[], echoes]), (holdLost, [echoes])].map (fun x =>
      match exec (.volleyCompletion x.2) x.1 with
      | .next t => (t.trk.chan.get .ch0).slot0.isSome | .fault _ | .refused _ => false) = [true, false, false] := by
  decide

def gated (peak : Bool) (q : Nat) : ChanParams := { chan with f := { chan.f with peak := peak, q := q } }

theorem test_first_and_peak_hits :
    (evaluate (gated false 3) 10 echoes (freshRecord .ch0)).fHit = some ⟨46, 200, false⟩ ∧
    (evaluate (gated true 3) 10 echoes (freshRecord .ch0)).fHit = some ⟨52, 255, true⟩ ∧
    (evaluate (gated false 2) 10 echoes (freshRecord .ch0)).fHit = some ⟨40, 140, false⟩ ∧
    (evaluate (gated true 2) 10 echoes (freshRecord .ch0)).fHit = some ⟨52, 255, true⟩ := by decide

theorem witness_FHitExistsForAQualifiedRun :
    chan.f.enabled = true ∧ 1 ≤ chan.f.q ∧ 1 ≤ chan.f.threshold ∧ chan.f.stop ≤ 25 * 10 ∧
    ∀ i < 3, 80 ≤ (echoes.getD (46 + i) 0).toNat := by decide

/-- Both modes have a hit, and a run at tick 47 of the example. -/
theorem witness_FHitIsTheFirstOrTheHighest : ∀ peak : Bool,
    (gated peak 3).f.enabled = true ∧ 1 ≤ (gated peak 3).f.q ∧ 1 ≤ (gated peak 3).f.threshold ∧ (gated peak 3).f.stop ≤ 25 * 10 ∧
    (evaluate (gated peak 3) 10 echoes ⟨.ch0, none, none, 0, false⟩).fHit.isSome ∧
    (gated peak 3).f.start ≤ 47 ∧ 47 + (gated peak 3).f.q ≤ (gated peak 3).f.stop ∧
    ∀ i < 3, (gated peak 3).f.threshold ≤ (echoes.getD (47 + i) 0).toNat := by decide

theorem witness_MResultIsPresentForAQualifiedRun :
    chan.m.enabled = true ∧ 1 ≤ chan.m.q ∧ 1 ≤ chan.m.threshold ∧ chan.m.stop ≤ 25 * 10 := by decide

/-! ### Coupling and coverage -/

/-- 5.2, one channel's machine: the state after each of the sixteen completions. -/
theorem test_one_channels_machine :
    ([true, false, true, false, false, false, true, false, false, false, false, false, true, false, true, true].scanl
        (couplingAfter chan) ⟨.doubtful, 0, 0⟩).tail =
      [⟨.coupled, 0, 0⟩, ⟨.coupled, 1, 0⟩, ⟨.coupled, 0, 0⟩, ⟨.coupled, 1, 0⟩, ⟨.doubtful, 0, 0⟩, ⟨.doubtful, 1, 0⟩,
       ⟨.coupled, 0, 0⟩, ⟨.coupled, 1, 0⟩, ⟨.doubtful, 0, 0⟩, ⟨.doubtful, 1, 0⟩, ⟨.doubtful, 2, 0⟩, ⟨.lost, 0, 0⟩,
       ⟨.lost, 0, 1⟩, ⟨.lost, 0, 0⟩, ⟨.lost, 0, 1⟩, ⟨.coupled, 0, 0⟩] := by decide

theorem witness_CouplingIsLostAfterKdPlusKlAbsences : (1 ≤ chan.kd ∧ 1 ≤ chan.kl ∧ 1 ≤ chan.kr) ∧
    (1 : Nat) ≤ { chan with kd := 1, kl := 1, kr := 1 }.kd := by decide

/-- CH0 one absence short of LOST, with its slots as given, and CH1 naming itself. -/
def tracking (a b : Option Slot) : State :=
  { running with
    coup := running.coup.set .ch0 ⟨.doubtful, 2, 0⟩
    trk := { running.trk with chan := running.trk.chan.set .ch0 ⟨a, b⟩ } }

theorem witness_EntryToLostCutsTheDependants :
    let s := tracking (some (slot 0 3 500 300)) none
    (couplingAfter (s.cfg.chan.get .ch0) (s.coup.get .ch0) false).state = .lost ∧ (s.coup.get .ch0).state ≠ .lost ∧
    (s.cfg.chan.get .ch0).source = .ch0 ∧ (s.cfg.chan.get .ch1).source ≠ .ch0 ∧ Chan.ch1 ≠ .ch0 ∧
    (couplingAfter (s.cfg.chan.get .ch0) (s.coup.get .ch0) true).state ≠ .lost := by decide

theorem gapAt_law {firings : Nat} (h : 1 ≤ firings ∧ firings < 65535) : ChanCoverageLaw (gapAt firings) := by
  constructor <;> simp [gapAt]
  omega

/-- Class 3 with the given number of records. -/
def withQ3 (n : Nat) (s : State) : State :=
  withLink (fun l => { l with q3 := List.replicate n ⟨1, ⟨5, 0, .ch0, 6, .left, .missed, 100, 200, 1, .changed⟩⟩ }) s

theorem witness_ChangedReasonClosesAndOpensAGap :
    ((covered (gapAt 1)).cov.chan.get .ch0).gap = some ⟨.missed, 100, 200, 1⟩ ∧ Reason.missed ≠ .blocked ∧
    ChanCoverageLaw ((covered (gapAt 1)).cov.chan.get .ch0) ∧
    (∀ n ∈ [15, 16], (withQ3 n (covered (gapAt 1))).cov = (covered (gapAt 1)).cov ∧
      ((withQ3 n (covered (gapAt 1))).link.q3.length < 16 ↔ n = 15)) :=
  ⟨rfl, by decide, gapAt_law (by decide), by decide⟩

/-- A gap one firing short of the last before FULL, a gap at the last; no gap open with a reach and a last gap end, with a reach
only, and with neither; class 3 with a place left, and full. -/
theorem witness_SameReasonExtendsAndGoodResumes :
    (ChanCoverageLaw ((covered (gapAt 65533)).cov.chan.get .ch0) ∧ 65533 + 1 < 65535) ∧
    (ChanCoverageLaw ((covered (gapAt 65534)).cov.chan.get .ch0) ∧ 65534 + 1 = 65535) ∧
    (ChanCoverageLaw ((covered ⟨none, some 200, some 200⟩).cov.chan.get .ch0) ∧
      ((covered ⟨none, some 200, some 200⟩).cov.chan.get .ch0).reach = some 200) ∧
    (ChanCoverageLaw ((covered ⟨none, some 200, none⟩).cov.chan.get .ch0) ∧
      ChanCoverageLaw ((covered ⟨none, none, none⟩).cov.chan.get .ch0)) ∧
    (∀ n ∈ [15, 16], (((withQ3 n (covered (gapAt 65534))).cov.chan.get .ch0).gap = (gapAt 65534).gap ∧
      ((withQ3 n (covered (gapAt 65534))).link.q3.length < 16 ↔ n = 15))) := by
  have closed : ∀ v ∈ [(⟨none, some 200, some 200⟩ : ChanCoverage), ⟨none, some 200, none⟩, ⟨none, none, none⟩],
      ChanCoverageLaw v := by
    intro v h
    simp only [List.mem_cons, List.not_mem_nil, or_false] at h
    rcases h with rfl | rfl | rfl <;> constructor <;> simp
  exact ⟨⟨gapAt_law (by decide), by decide⟩, ⟨gapAt_law (by decide), by decide⟩,
    ⟨closed ⟨none, some 200, some 200⟩ (by simp), rfl⟩,
    ⟨closed ⟨none, some 200, none⟩ (by simp), closed ⟨none, none, none⟩ (by simp)⟩, by decide⟩

theorem witness_EveryStepKeepsTheCoverageLaw : CoverageLaw (covered (gapAt 65534)) ∧ ∃ t, step (covered (gapAt 65534)) = .next t := by
  refine ⟨fun c => ?_, _, rfl⟩
  have none_law : ChanCoverageLaw ⟨none, none, none⟩ := by constructor <;> simp
  cases c
  · exact gapAt_law (by decide)
  all_goals exact none_law

/-- R77, R78: the new gap of a channel whose reach has not moved opens beyond the end of the closed one. -/
theorem test_gap_is_raised_past_the_last_end :
    ((takeOutcome .ch0 (.bad .blocked) 2500 (covered (gapAt 1))).cov.chan.get .ch0).gap = some ⟨.blocked, 201, 201, 1⟩ := by decide

/-- R78, R79: a bad outcome with no gap open begins one of one firing, at once beyond the last gap end. -/
theorem test_bad_outcome_opens_a_gap :
    ((takeOutcome .ch0 (.bad .blocked) 2500 (covered ⟨none, some 200, some 200⟩)).cov.chan.get .ch0).gap =
      some ⟨.blocked, 201, 201, 1⟩ ∧
    ((takeOutcome .ch0 (.bad .muted) 2500 (covered ⟨none, none, none⟩)).cov.chan.get .ch0).gap = some ⟨.muted, 100, 100, 1⟩ := by
  decide

/-- R80, R81: the gaps that stand at the end of a run give records closed STOPPED. -/
theorem test_run_end_closes_the_gap_stopped :
    (closeAllGaps (covered (gapAt 3))).link.q3.map (fun r => (r.item.xStart, r.item.xEnd, r.item.firings, r.item.closure)) =
      [(100, 200, 3, .stopped)] := by decide

/-! ### Projection: the worked cases of 6.5 -/

theorem test_worked_projections :
    (let c6 := { chan with wedge := 300 }
     project c6 .ch6 1200000 ⟨1800, 168, false⟩ false = ⟨.ch6, 1197236, 133, 168, false, false⟩ ∧
     (project { c6 with beam := 5 } .ch6 1200000 ⟨1800, 168, false⟩ false).x = 1197964) ∧
    (let tie := { chan with k := 32768, wedge := 100, sQ := 16384, offset := 0 }
     (project { tie with beam := 3 } .ch0 10000 ⟨102, 9, false⟩ false).x = 10001 ∧
     (project { tie with beam := 4 } .ch0 10000 ⟨102, 9, false⟩ false).x = 9999) ∧
    (let straight := { chan with beam := 0, k := 30933, sQ := 0, cQ := 32767, wedge := 150, offset := 800 }
     (project straight .ch0 55000 ⟨1350, 9, true⟩ true) = ⟨.ch0, 55800, 566, 9, true, true⟩) := by decide

/-- 6.5.4, the longest path, is within the hypotheses and below the bounds by one; a tof of 6143 reaches them. -/
def longest : ChanParams := { chan with wedge := 0, k := 65535, sQ := 32767, cQ := 32767, offset := 32767, beam := 1 }
theorem test_longest_path : project longest .ch0 2000000000 ⟨6142, 9, false⟩ false = ⟨.ch0, 2000038909, 6142, 9, false, false⟩ := by
  decide
theorem witness_ProjectionStaysWithinItsBounds :
    6143 - longest.wedge ≤ 6143 ∧ longest.k ≤ 65535 ∧ longest.sQ ≤ 32767 ∧ longest.cQ ≤ 32767 ∧ -32767 ≤ longest.offset ∧
    longest.offset ≤ 32767 ∧ (-2000000000 : Int) ≤ 2000000000 ∧ trackPart longest 6143 = 6143 := by decide

/-! ### Tracking -/

def hitAt (x : Int) (z : Nat) : HitRecord := ⟨.ch0, x, z, 90, false, false⟩

/-- The two open slots of 7.4's example. -/
def twoSlots : State := tracking (some (slot 10 3 500 300)) (some (slot 11 3 510 302))

theorem test_choosing_between_two_slots :
    [hitAt 505 301, hitAt 507 300, hitAt 503 306, hitAt 490 300].map (fun h => takingPlace chan h (twoSlots.trk.chan.get .ch0)) =
      [some .p0, some .p1, some .p1, none] := by decide

/-- A hit of a lone slot; of the nearer of two that match; of the one of two that matches; and, at equal distances, of the older;
in either place; the other slot a miss short of its last, and at its last. -/
theorem witness_NearerSlotTakesTheHit : ∀ first : Bool, ∀ h ∈ [hitAt 507 300, hitAt 517 302, hitAt 505 301], ∀ misses ∈ [1, 2],
    let near := slot 10 3 510 302
    let far := { slot 11 3 500 300 with missRun := misses }
    let s := if first then tracking (some near) (some far) else tracking (some far) (some near)
    let lone := if first then tracking (some near) none else tracking none (some near)
    let c := s.cfg.chan.get h.chan
    s.trk.chan.get h.chan = (if first then ⟨some near, some far⟩ else ⟨some far, some near⟩) ∧
    lone.trk.chan.get h.chan = (if first then ⟨some near, none⟩ else ⟨none, some near⟩) ∧
    (distX h.x near.lastX ≤ c.tx ∧ distZ h.z near.lastZ ≤ c.tz) ∧
    (h.x = 517 ∧ ¬ (distX h.x far.lastX ≤ c.tx ∧ distZ h.z far.lastZ ≤ c.tz) ∨
      h.x = 507 ∧ distX h.x near.lastX < distX h.x far.lastX ∨
      h.x = 505 ∧ distX h.x near.lastX = distX h.x far.lastX ∧
        (far.order + 4294967296 - near.order) % 4294967296 < 2147483648 ∧
        2147483648 ≤ (near.order + 4294967296 - far.order) % 4294967296) ∧
    max near.xMax h.x - min near.xMin h.x ≤ (s.cfg.lmax : Int) ∧
    (far.missRun + 1 < c.g ↔ misses = 1) ∧ (c.g ≤ far.missRun + 1 ↔ misses = 2) := by decide

/-- With G = 1 the first miss is a slot's last. -/
theorem witness_NearerSlotTakesTheHit_one : { chan with g := 1 }.g ≤ (slot 11 3 500 300).missRun + 1 := by decide

/-- Class 2 with the given number of records. -/
def withQ2 (n : Nat) (s : State) : State := withLink (fun l => { l with q2 := List.replicate n ⟨1, ind 5 0 .ch1 1000 1010⟩ }) s

/-- R97, R101, R103, R135: the hit goes to the nearer slot, and the other closes at its last miss with no mark; its record is the
last of class 2, or is counted there where class 2 is full. -/
theorem test_hit_closes_the_other_slot_at_its_last_miss :
    let closed := fun (n : Nat) => hitRecord (hitAt 507 300)
      (withQ2 n (tracking (some { slot 10 3 500 300 with missRun := 2 }) (some (slot 11 3 510 302))))
    ((closed 31).trk.chan.get .ch0).slot0 = none ∧ ((closed 31).trk.chan.get .ch0).slot1.map (·.hits) = some 4 ∧
    (closed 31).link.q2.getLast?.map (fun r => (r.item.xStart, r.item.spanned, r.item.long, r.item.cut)) =
      some (500, 4, false, false) ∧
    [31, 32].map (fun n => ((closed n).link.q2.length, (closed n).link.drop2, (closed n).corr.table.length)) =
      [(32, 0, 1), (32, 1, 1)] := by decide

/-- R97: two slots equally near, the older in slot 1. -/
theorem test_equal_distances_go_to_the_older :
    takingPlace chan (hitAt 505 301) (tracking (some (slot 11 3 500 300)) (some (slot 10 3 510 302))).trk.chan.ch0 = some .p1 := by
  decide

/-- A slot at the length limit, with enough hits and with too few. -/
def longSlot (hits : Nat) : Slot := { slot 4294967295 hits 500 300 with xMin := 400 }

theorem witness_LongSlotBecomesAnIndication : ∀ hits ∈ [1, 2],
    let s := tracking (some (longSlot hits)) none
    let h := hitAt 501 304
    s.trk.chan.get h.chan = ⟨some (longSlot hits), none⟩ ∧
    (distX h.x (longSlot hits).lastX ≤ (s.cfg.chan.get h.chan).tx ∧ distZ h.z (longSlot hits).lastZ ≤ (s.cfg.chan.get h.chan).tz) ∧
    (s.cfg.lmax : Int) < max (longSlot hits).xMax h.x - min (longSlot hits).xMin h.x ∧ s.corr.table.length < 48 ∧
    ((s.cfg.chan.get h.chan).nmin ≤ (longSlot hits).hits ↔ hits = 2) := by decide

/-- The long slot beside another one that the hit does not match, in either place; the other stays, and closes at its last miss,
before the long slot where it is older. -/
theorem witness_LongSlotBecomesAnIndication_two : ∀ first : Bool, ∀ misses ∈ [1, 2], ∀ order ∈ [4294967294, 0],
    let old := longSlot 2
    let other := { slot order 2 600 300 with missRun := misses }
    let s := if first then tracking (some old) (some other) else tracking (some other) (some old)
    let h := hitAt 501 304
    s.trk.chan.get h.chan = (if first then ⟨some old, some other⟩ else ⟨some other, some old⟩) ∧
    (distX h.x old.lastX ≤ chan.tx ∧ distZ h.z old.lastZ ≤ chan.tz) ∧ ¬ distX h.x other.lastX ≤ chan.tx ∧
    (s.cfg.lmax : Int) < max old.xMax h.x - min old.xMin h.x ∧ (other.missRun + 1 < (s.cfg.chan.get h.chan).g ↔ misses = 1) ∧
    ((old.order + 4294967296 - other.order) % 4294967296 < 2147483648 ∧
      2147483648 ≤ (other.order + 4294967296 - old.order) % 4294967296 ↔ order = 4294967294) ∧
    ((other.order + 4294967296 - old.order) % 4294967296 < 2147483648 ∧
      2147483648 ≤ (old.order + 4294967296 - other.order) % 4294967296 ↔ order = 0) := by decide

theorem witness_UnmatchedHitIsAnOverflow :
    let c := twoSlots.cfg.chan.get .ch0
    twoSlots.trk.chan.get .ch0 = ⟨some (slot 10 3 500 300), some (slot 11 3 510 302)⟩ ∧
    ¬ (distX 490 500 ≤ c.tx ∧ distZ 300 300 ≤ c.tz) ∧ ¬ (distX 490 510 ≤ c.tx ∧ distZ 300 302 ≤ c.tz) ∧ 0 + 1 < c.g := by decide

/-- No open slot; and one that the hit does not match, in either place. -/
theorem witness_UnmatchedHitIsAnOverflow_opens :
    (tracking none none).trk.chan.get .ch0 = ⟨none, none⟩ ∧
    (tracking (some (slot 10 3 500 300)) none).trk.chan.get .ch0 = ⟨some (slot 10 3 500 300), none⟩ ∧
    (tracking none (some (slot 10 3 500 300))).trk.chan.get .ch0 = ⟨none, some (slot 10 3 500 300)⟩ ∧
    ¬ (distX 509 500 ≤ chan.tx ∧ distZ 300 300 ≤ chan.tz) ∧ (slot 10 3 500 300).missRun + 1 < chan.g := by decide

/-- R96: the first slot opens in slot 0, the next beside it. -/
theorem test_hits_open_slots :
    (let t := hitRecord (hitAt 700 300) (hitRecord (hitAt 500 300) (tracking none none))
     ((t.trk.chan.get .ch0).slot0.map (·.xMin), (t.trk.chan.get .ch0).slot1.map (·.order), t.trk.openOrder)) =
      (some 500, some 1, 2) := by decide

/-- A slot one miss short of G, in either place, with Nmin hits and with one less. -/
theorem witness_UnmatchedHitIsAnOverflow_closes : ∀ first : Bool, ∀ hits ∈ [1, 2],
    let old := { slot 10 hits 500 300 with missRun := 2 }
    let s := if first then tracking (some old) none else tracking none (some old)
    s.trk.chan.get .ch0 = (if first = true then ⟨some old, none⟩ else ⟨none, some old⟩) ∧
    (s.cfg.chan.get .ch0).g ≤ old.missRun + 1 ∧ s.corr.table.length < 48 ∧
    ((s.cfg.chan.get .ch0).nmin ≤ old.hits ↔ hits = 2) := by decide

/-- Two open slots at one event: neither, one, or both at their last miss; the open orders in either order. -/
theorem witness_UnmatchedHitIsAnOverflow_two : ∀ a ∈ [1, 2], ∀ b ∈ [1, 2], ∀ order ∈ [9, 11],
    let s := tracking (some { slot 10 2 500 300 with missRun := a }) (some { slot order 1 510 302 with missRun := b })
    (s.trk.chan.get .ch0).slot0.isSome ∧ (s.trk.chan.get .ch0).slot1.isSome ∧
    ((openSlots (s.trk.chan.get .ch0)).head?.map (·.order) = some (min 10 order)) ∧
    (a + 1 < (s.cfg.chan.get .ch0).g ↔ a = 1) ∧ (b + 1 < (s.cfg.chan.get .ch0).g ↔ b = 1) ∧ s.corr.table.length ≤ 48 ∧
    s.trk.sparse ≤ 65535 := by decide

/-- R103, R105: two slots reach G at one empty firing: the older, in slot 1, gives its record first. -/
theorem test_two_slots_close_older_first :
    (firingNoHit .ch0 (tracking (some { slot 10 2 500 300 with missRun := 2 }) (some { slot 9 2 510 302 with missRun := 2 }))).link.q2.map
      (fun r => (r.item.xStart, r.item.seq, r.item.spanned)) = [(510, 0, 3), (500, 1, 3)] := by decide

/-- R101: an empty firing below G is one miss, and the slot stays. -/
theorem test_slot_below_g_stays :
    ((firingNoHit .ch0 (tracking (some (slot 10 2 500 300)) none)).trk.chan.get .ch0).slot0.map (fun x => (x.missRun, x.spanned)) =
      some (1, 3) := by decide

/-- The open orders wrap: the older slot has the last order, the newer one order 0. -/
theorem witness_ClosureRequestCutsOldestFirst : ∀ first : Bool,
    let older := slot 4294967295 2 500 300
    let newer := slot 0 2 510 302
    let s := if first then tracking (some older) (some newer) else tracking (some newer) (some older)
    s.trk.chan.get .ch0 = (if first then ⟨some older, some newer⟩ else ⟨some newer, some older⟩) ∧
    (newer.order + 4294967296 - older.order) % 4294967296 < 2147483648 ∧
    2147483648 ≤ (older.order + 4294967296 - newer.order) % 4294967296 ∧
    (s.cfg.chan.get .ch0).nmin ≤ older.hits ∧ (s.cfg.chan.get .ch0).nmin ≤ newer.hits ∧ s.link.q2.length + 2 ≤ 32 := by decide

theorem witness_EveryStepKeepsTheTrackerLaw : TrackerLaw twoSlots ∧ ∃ t, step twoSlots = .next t := by
  refine ⟨⟨?_, fun h => absurd h (by decide), fun _ c => by cases c <;> decide⟩, _, rfl⟩
  intro c sl h
  cases c
  · rcases h with h | h <;> cases h <;> constructor <;> decide
  all_goals rcases h with h | h <;> cases h

/-- A lost coupling cuts the open slot: CH0's third absence in DOUBTFUL. -/
theorem test_entry_to_lost_cuts_the_slot :
    ((mResult .ch0 false (tracking (some (slot 0 3 500 300)) none)).trk.chan.get .ch0 = ⟨none, none⟩) ∧
    ((mResult .ch0 false (tracking (some (slot 0 3 500 300)) none)).link.q2.map (·.item.cut) = [true]) := by decide

/-! ### Correlation -/

def payload (origin : Byte) (seq : BitVec 16) (railByte : Byte) : IndicationPayload :=
  { origin := origin, seq := seq, channel := 1, rail := railByte, beam := 3, xStart := 1000, xEnd := 1010, zMin := 100,
    zMax := 110, peak := 90, hits := 4, spanned := 5, flags := 0 }

def correlating (table : List Entry) (spans : List Span) (s : State) : State :=
  { s with corr := { s.corr with table := table, spans := spans, callSeq := 65535 } }

/-- A peer not seen; and differences of 0, 1, 2, 32767, 32768 and 65535 from the last seq. -/
theorem witness_SequenceCheckJudgesThePeer :
    running.corr.peers[3]? = some ⟨false, false, 0, 0, 0⟩ ∧
    ∀ seq ∈ [65535, 0, 1, 32766, 32767, 65534],
      let s := { running with corr := { running.corr with peers := running.corr.peers.set 3 ⟨true, true, 65535, 65534, 65535⟩ } }
      s.corr.peers[3]? = some ⟨true, true, 65535, 65534, 65535⟩ ∧ seq ≤ 65535 ∧
      ((seq : Int) - 65535) % 65536 ∈ [0, 1, 2, 32767, 32768, 65535] := by decide

theorem witness_IndicationIsCheckedAndInserted :
    let full := correlating (List.replicate 47 ⟨ind 3 0 .ch1 1000 1010, none, false, 0⟩) [] running
    let r := ind 3 1 .ch1 1000 1010
    indicationRecord (payload 3 1 0) = some r ∧ full.inRun = true ∧ (1#8) = full.rc.run ∧ r.origin ≠ full.own ∧
    (payload 3 1 0).rail = railCode full.rail ∧ (peerCheck r.origin r.seq full).1 = true ∧
    (∀ e ∈ full.corr.table, e.ind.origin ≠ r.origin ∨ e.ind.seq ≠ r.seq) ∧ full.corr.table.length < 48 ∧ (2#8) ≠ full.rc.run ∧
    standby.rc.runState = .standby ∧ (indicationRecord (payload 5 1 0)).map (·.origin) = some running.own ∧
    running.rc.conflict = false ∧ (withQ0 3 running).link.q0.length < 4 ∧ 4 ≤ (withQ0 4 running).link.q0.length ∧
    { running.rc with conflict := true }.conflict = true := by decide

/-- A table of 48 whose oldest entry is own and UNPAIRED, a peer's, or own and PAIRED, of a beam in the single-call set and not. -/
def fullTable (oldest : Entry) (single : BeamSet) : State :=
  { correlating (oldest :: List.replicate 47 ⟨ind 3 0 .ch1 1000 1010, none, false, 0⟩) [] running with
    cfg := { cfg with single := single } }

theorem witness_IndicationIsCheckedAndInserted_full :
    ∀ x ∈ [(5, none, 8), (5, none, 0), (3, none, 0), (5, some (⟨3, 0⟩ : IndicationId), 0)],
    let old : Entry := ⟨ind x.1 9 .ch1 10 20, x.2.1, false, 0⟩
    let s := fullTable old x.2.2
    let r := ind 3 1 .ch1 1000 1010
    s.corr.table.length = 48 ∧ s.corr.table.head? = some old ∧ s.inRun = true ∧ (1#8) = s.rc.run ∧ r.origin ≠ s.own ∧
    (payload 3 1 0).rail = railCode s.rail ∧ (peerCheck r.origin r.seq s).1 = true ∧
    (∀ e ∈ s.corr.table, e.ind.origin ≠ r.origin ∨ e.ind.seq ≠ r.seq) ∧ s.corr.spans = [] ∧ s.link.q1.length < 24 ∧
    (inBeams s.cfg.single old.ind.beam = true ↔ x.2.2 = 8) := by decide

/-- The form check at the first value that each of its clauses refuses; the wrong rail; a seq heard last; one that stands in the
table. -/
theorem witness_IndicationIsCheckedAndInserted_refused :
    15 < (payload 16 1 0).origin.toNat ∧ { payload 3 1 0 with xEnd := 999 }.xEnd.toInt < (payload 3 1 0).xStart.toInt ∧
    { payload 3 1 0 with zMax := 99 }.zMax.toNat < (payload 3 1 0).zMin.toNat ∧
    6143 < { payload 3 1 0 with zMax := 6144 }.zMax.toNat ∧ 8 < { payload 3 1 0 with beam := 9 }.beam.toNat ∧
    { payload 3 1 0 with hits := 0 }.hits.toNat = 0 ∧ 7 < { payload 3 1 0 with channel := 8 }.channel.toNat ∧
    (payload 3 1 1).rail ≠ railCode running.rail ∧
    (let s := { running with corr := { running.corr with peers := running.corr.peers.set 3 ⟨true, true, 1, 0, 0⟩ } }
     (peerCheck 3 1 s).1 = false) ∧
    (let s := correlating [⟨ind 3 1 .ch1 1000 1010, none, false, 0⟩] [] running
     (peerCheck 3 1 s).1 = true ∧ ¬ ∀ e ∈ s.corr.table, e.ind.origin ≠ 3 ∨ e.ind.seq ≠ 1) := by decide

theorem witness_IndicationIsOffered :
    Offered .correlationUnit (.indication 1 (payload 3 1 0)) (correlating (List.replicate 47 ⟨ind 3 0 .ch1 1000 1010, none, false, 0⟩) [] running) ∧
    Offered .correlationUnit (.indication 2 (payload 3 1 0)) (withQ0 3 running) ∧
    Offered .correlationUnit (.indication 1 (payload 5 1 0)) (withQ0 4 running) ∧
    Offered .correlationUnit (.indication 1 (payload 5 1 0)) { running with rc := { running.rc with conflict := true } } ∧
    Offered .correlationUnit (.indication 2 (payload 3 1 0)) standby := by
  refine ⟨?_, ?_, ?_, ?_, ?_⟩ <;> exact offered_empty (by decide) (by decide) rfl

/-- An entry a qmm beyond Dx, then one at Dx, with the call this station's to build and a peer's; of two rules the second
matches. -/
theorem witness_PairNamesEachOtherAndIsCalledOnce : ∀ own ∈ [3, 2],
    let narrow : PairRule := ⟨0x1FF, 0x1FF, 39, 20, 1⟩
    let rule : PairRule := ⟨0x1FF, 0x1FF, 40, 20, 2⟩
    let far : Entry := ⟨ind 3 1 .ch1 1101 1110, none, false, 0⟩
    let near : Entry := ⟨ind own 2 .ch1 1000 1010, none, false, 0⟩
    let n := ind 9 3 .ch2 1050 1060
    let s := { running with
      rc := { running.rc with straps := ⟨3, .left, true⟩ }, cfg := { cfg with rules := [narrow, rule] },
      corr := { running.corr with table := [] ++ far :: near :: [] } }
    s.corr.table = [far] ++ near :: [] ∧ near.partner = none ∧ ¬ (near.ind.origin = n.origin ∧ near.ind.channel = n.channel) ∧
    s.cfg.rules[1]? = some rule ∧ inBeams rule.setA n.beam = true ∧ inBeams rule.setB near.ind.beam = true ∧
    max n.xStart near.ind.xStart - min n.xEnd near.ind.xEnd = rule.dx ∧
    max n.zMin near.ind.zMin ≤ min n.zMax near.ind.zMax + rule.dz ∧
    ¬ (max n.xStart near.ind.xStart - min n.xEnd near.ind.xEnd ≤ narrow.dx) ∧
    (∀ r ∈ s.cfg.rules, ¬ (max n.xStart far.ind.xStart - min n.xEnd far.ind.xEnd ≤ r.dx)) ∧
    (min near.ind.origin n.origin = s.own ↔ own = 3) ∧ s.corr.spans = [] ∧ s.link.q1.length < 24 := by decide

/-- R125: a pair whose call reaches from 1000 to 1060, under a span that holds it and one that ends a qmm short; class 1 with a
place left and without. -/
def pairing (span : Span) (calls : Nat) : State :=
  { running with
    rc := { running.rc with straps := ⟨3, .left, true⟩ }
    corr := { running.corr with table := [⟨ind 3 2 .ch1 1000 1010, none, false, 0⟩], spans := [span], suppressed := 65534 }
    link := { running.link with q1 := List.replicate calls ⟨1, ⟨0, 0, .left, 1000, 1010, 100, 110, 90, ⟨5, 0, 3⟩, none, false, false,
      false, false, false⟩⟩ } }

theorem witness_PairNamesEachOtherAndIsCalledOnce_spans : ∀ x ∈ [((1060 : Int), true), (1059, false)], ∀ calls ∈ [23, 24],
    let s := pairing ⟨1000, x.1⟩ calls
    min 3 9 = s.own ∧ s.corr.table.length < 48 ∧ ((∃ sp ∈ s.corr.spans, sp.a ≤ (1000 : Int) ∧ 1060 ≤ sp.b) ↔ x.2 = true) ∧
    (s.link.q1.length < 24 ↔ calls = 23) := by decide

theorem test_call_within_a_span_is_suppressed :
    [(pairing ⟨1000, 1060⟩ 0), (pairing ⟨1000, 1059⟩ 0), (pairing ⟨1000, 1059⟩ 24)].map (fun s =>
      let t := insertPaired (ind 9 3 .ch2 1050 1060) s
      (t.corr.callSeq, t.corr.suppressed, t.link.q1.length, t.link.drop1)) =
      [(1, 65535, 0, 0), (1, 65534, 1, 0), (1, 65534, 24, 1)] := by decide

/-- A table of 48, its oldest own and UNPAIRED, of a single-call beam and not. -/
theorem witness_PairNamesEachOtherAndIsCalledOnce_full : ∀ single ∈ [(8 : BeamSet), 0],
    let s := fullTable ⟨ind 5 9 .ch1 10 20, none, false, 0⟩ single
    s.corr.table.head? = some ⟨ind 5 9 .ch1 10 20, none, false, 0⟩ ∧ s.corr.table.length = 48 ∧
    (ownUnpaired s (s.corr.table.take 1)).length = 1 ∧ (inBeams s.cfg.single 3 = true ↔ single = 8) := by decide

theorem witness_FrontierIncreaseAgesTableAndSpans :
    (correlating [⟨ind 5 2 .ch1 1000 1010, none, false, 0⟩] [⟨0, 100⟩] running).corr.callSeq ≤ 65535 ∧
    (correlating [⟨ind 5 2 .ch1 1000 1010, none, false, 0⟩] [⟨0, 100⟩] running).corr.unpairedDrop ≤ 65535 := by decide

/-- 8.8, merging spans. -/
theorem test_merging_spans :
    mergeSpan ⟨2000, 2999⟩ [⟨1000, 1999⟩, ⟨3000, 3500⟩, ⟨5000, 5999⟩] = [⟨1000, 3500⟩, ⟨5000, 5999⟩] ∧
    mergeSpan ⟨3400, 4999⟩ [⟨1000, 3500⟩, ⟨5000, 5999⟩] = [⟨1000, 5999⟩] ∧
    mergeSpan ⟨6001, 6100⟩ [⟨1000, 5999⟩] = [⟨1000, 5999⟩, ⟨6001, 6100⟩] := by decide

def eight : List Span := (List.range 8).map (fun i => ⟨10 * i, 10 * i + 4⟩)

theorem eight_law : SpansLaw eight := ⟨by decide, by decide, by decide⟩

/-- Eight spans: one that touches none, and one that is adjacent to the last. -/
theorem witness_SuppressMergesItsSpan :
    SpansLaw (correlating [] eight running).corr.spans ∧ running.rc.runState = .running ∧ (1#8) = running.rc.run ∧
    (∀ p ∈ [(76#32, 80#32), (75#32, 75#32)], p.1.toInt ≤ p.2.toInt) ∧
    (∀ sp ∈ eight, sp.b + 1 < 76 ∨ 80 + 1 < sp.a) ∧ ¬ (∀ sp ∈ eight, sp.b + 1 < 75 ∨ 75 + 1 < sp.a) ∧ eight.length = 8 ∧
    (2#8) ≠ running.rc.run ∧ standby.rc.runState ≠ .running ∧
    Offered .correlationUnit (.suppress 1 ⟨0, 76, 80⟩) (correlating [] eight running) ∧
    Offered .correlationUnit (.suppress 1 ⟨0, 76, 80⟩) standby :=
  ⟨eight_law, by decide, by decide, by simp, by decide, by decide, by decide, by decide, by decide,
   offered_empty (by decide) (by decide) rfl, offered_empty (by decide) (by decide) rfl⟩

/-- R126: the other rail, a rail byte that names none, and a span whose start lies above its end by 1. -/
theorem witness_SuppressMergesItsSpan_discards :
    (∀ rail ∈ [1#8, 2#8], rail ≠ railCode running.rail) ∧ (75#32).toInt < (76#32).toInt ∧
    Offered .correlationUnit (.suppress 1 ⟨2, 76, 75⟩) running :=
  ⟨by decide, by decide, offered_empty (by decide) (by decide) rfl⟩

theorem witness_EveryStepKeepsTheCorrelationLaw :
    CorrelationLaw (correlating (List.replicate 48 ⟨ind 3 0 .ch1 1000 1010, none, false, 0⟩) eight running) ∧
    ∃ t, step (correlating (List.replicate 48 ⟨ind 3 0 .ch1 1000 1010, none, false, 0⟩) eight running) = .next t :=
  ⟨⟨by decide, eight_law, by decide, by decide⟩, _, rfl⟩

/-! ### Run control -/

def record : Queued Indication := ⟨1, ind 5 0 .ch1 1000 1010⟩

def sending (flushed : Bool) : State :=
  let chars := frameChars 5 kindIndication 1 (indicationPayload record.item)
  { standby with link := { standby.link with
      tx := .send, rank := some 37, q2 := [record], inFlight := some ⟨.c2, chars, flushed⟩ } }

theorem witness_RunstartStartsARun : (255#8) ≠ 0 ∧ (1#8) ≠ 0 ∧ standby.rc.runState = .standby ∧ standby.link.inFlight = none ∧
    Offered .runController (.runstart 255) standby ∧ Offered .runController (.runstart 1) standby :=
  ⟨by decide, by decide, rfl, rfl, offered_empty (by decide) (by decide) rfl, offered_empty (by decide) (by decide) rfl⟩

/-- A frame of each class in flight. -/
theorem witness_RunstartStartsARun_flight : ∀ cls ∈ [TxClass.c0, .c1, .c2, .c3],
    let s := withLink (fun l => { l with tx := .send, q2 := [record, record], inFlight := some ⟨cls, [0x5A], false⟩ }) standby
    s.rc.runState = .standby ∧ s.link.inFlight.map (·.cls) = some cls ∧ Offered .runController (.runstart 1) s := by
  intro cls h
  exact ⟨rfl, rfl, offered_empty rfl rfl rfl⟩

/-- R136: the record of the class-2 frame in flight stays at the head, its frame marked as flushed, and the other is counted. -/
theorem test_run_start_keeps_the_record_in_flight :
    (match exec (.runstart 9) (withLink (fun l => { l with q2 := [record, record] }) (sending false)) with
      | .next t => decide (t.link.q2 = [record] ∧ t.link.drop2 = 1 ∧ t.link.inFlight.map (·.flushed) = some true)
      | .fault _ | .refused _ => false) = true := by decide

/-- R144, R157: a frame of a wrong length behind a RUNSTART comes to the head once the run has started, and is counted in it. -/
theorem test_bad_length_behind_a_runstart_is_counted :
    (match exec (.runstart 9) (withLink (fun l => { l with
        receiveError := 7, rxQueue := [⟨20, kindRunstart, 9, []⟩, ⟨20, kindMask, 0, [5]⟩] }) standby) with
      | .next t => decide (t.rc.runState = .running ∧ t.link.receiveError = 1 ∧ t.link.rxQueue = [])
      | .fault _ | .refused _ => false) = true := by decide

/-- A stop and a new start meet every state of the controller and of the sequencer. -/
theorem witness_RunstopEntersStopping :
    (∀ s ∈ [running, requesting, claiming, hold], s.rc.runState = .running ∧ s.rc.run = 1 ∧
      Offered .runController (.runstop 1) s ∧ Offered .runController (.runstart 2) s) ∧
    [running, requesting, claiming, hold].map (·.zone.ctl) = [.idle, .wait, .claim, .hold] ∧
    (standby.rc.runState ≠ .running ∨ (0#8) ≠ standby.rc.run) ∧ Offered .runController (.runstop 0) standby ∧
    (drain.rc.runState = .stopping ∧ (2#8) ≠ 0 ∧ (2#8) ≠ drain.rc.run ∧ Offered .runController (.runstart 2) drain) ∧
    (drain.inRun = true ∧ (1#8) = drain.rc.run ∧ Offered .runController (.runstart 1) drain) ∧
    Offered .runController (.runstart 0) standby := by
  refine ⟨?_, by decide, by decide, offered_empty (by decide) (by decide) rfl,
    ⟨rfl, by decide, by decide, offered_empty (by decide) (by decide) rfl⟩,
    ⟨by decide, rfl, offered_empty (by decide) (by decide) rfl⟩, offered_empty (by decide) (by decide) rfl⟩
  intro s h
  simp only [List.mem_cons, List.not_mem_nil, or_false] at h
  rcases h with rfl | rfl | rfl | rfl <;>
    exact ⟨rfl, rfl, offered_empty (by decide) (by decide) rfl, offered_empty (by decide) (by decide) rfl⟩

/-- Two places left on class 0, one, and none; no pending start, and one. -/
theorem witness_DrainEndSummarisesTheRun :
    drain.rc.runState = .stopping ∧ drain.rc.draining = true ∧ drain.rc.pendingStart = none ∧
    (correlating [⟨ind 5 2 .ch1 1000 1010, none, false, 0⟩] [] drain).corr.callSeq ≤ 65535 ∧
    drain.corr.unpairedDrop ≤ 65535 ∧ (correlating [⟨ind 5 2 .ch1 1000 1010, none, false, 0⟩] [] drain).corr.spans = [] ∧
    drain.link.q1.length + 1 ≤ 24 ∧
    (withQ0 2 drain).link.q0.length + 2 ≤ 4 ∧ (withQ0 3 drain).link.q0.length + 1 = 4 ∧
    4 ≤ (withQ0 4 drain).link.q0.length ∧
    ({ drain.rc with pendingStart := some 9 }).pendingStart = some 9 ∧ hold.rc.runState ≠ .stopping := by decide

theorem test_drain_end_summarises_and_rests :
    (match exec .drainEnd drain with
      | .next t => decide (t.rc.runState = .standby ∧ t.link.q0.length = 2 ∧ t.link.q0.map (·.run) = [1, 1])
      | .fault _ | .refused _ => false) = true := by decide

/-- R135, R155, R136: with class 0 full both parts are counted there; a pending run then starts from 0, with the record of class 2
flushed into its counter. -/
theorem test_drain_end_with_class_0_full :
    [none, some 9].map (fun r => match exec .drainEnd { withQ0 4 (withLink (fun l => { l with q2 := [record] }) drain) with
        rc := { drain.rc with pendingStart := r } } with
      | .next t => (t.rc.runState, t.rc.run, t.link.q0.length, t.link.drop0, t.link.q2.length, t.link.drop2)
      | .fault _ | .refused _ => (.loading, 0, 0, 0, 0, 0)) =
    [(.standby, 1, 4, 2, 1, 0), (.running, 9, 4, 0, 0, 1)] := by decide

/-- R150: a RUNSTART of the run in progress has no effect but its service time. -/
theorem test_same_run_goes_on :
    (match exec (.runstart 1) running with
      | .next t => decide (t.rc = running.rc ∧ t.seq = running.seq ∧ t.link.busyRun = some 250)
      | .fault _ | .refused _ => false) = true := by decide

/-! ### Carriage link -/

theorem witness_BuiltFramesPassReception : (0 : Nat) < 32 ∧ (31 : Nat) < 32 ∧ (List.replicate 32 0x5A#8).length ≤ 32 ∧
    ([] : List Byte).length ≤ 32 := by decide

/-- Records at the ends of their ranges, a call of class 0 and one of class 3, and payloads of the three lengths taken. -/
theorem witness_BuiltFramesPassReception_records :
    (let r := { ind 15 65535 .ch7 (-2147483648) 2147483647 with beam := 8, zMin := 0, zMax := 6143, peak := 255, hits := 255,
                                                                spanned := 65535 }
     r.origin ≤ 15 ∧ r.seq ≤ 65535 ∧ r.beam ≤ 8 ∧ (-2147483648 ≤ r.xStart ∧ r.xStart < 2147483648) ∧
     (-2147483648 ≤ r.xEnd ∧ r.xEnd < 2147483648) ∧ r.xStart ≤ r.xEnd ∧ r.zMin ≤ r.zMax ∧ r.zMax ≤ 6143 ∧ r.peak ≤ 255 ∧
     1 ≤ r.hits ∧ r.hits ≤ 255 ∧ r.spanned ≤ 65535) ∧
    (∀ x ∈ [((0 : Nat), (none : Option Member)), (3, some ⟨15, 65535, 8⟩)], (x.2 = none ↔ x.1 = 0) ∧ x.1 ≤ 3) ∧
    (Warnings.empty.ruleClass.length = 8 ∧ Warnings.empty.portConflict.length = 12) ∧
    ([5, 1, 2] : List Byte).length = 3 ∧ (zeros 9).length = 9 ∧ (zeros 23).length = 23 ∧ (([5, 1, 2] : List Byte).getD 0 0).toNat = 5 := by
  decide

/-- 11.2: an INDICATION payload byte by byte, and the record read back from it. -/
theorem test_indication_payload :
    let r := { ind 3 0x1234 .ch6 (-2) 0x01020304 with rail := .right, zMin := 0x0102, zMax := 0x0304, spanned := 0x0506,
                                                      doubtful := true, cut := true }
    indicationPayload r = [3, 0x34, 0x12, 6, 1, 3, 0xFE, 0xFF, 0xFF, 0xFF, 4, 3, 2, 1, 2, 1, 4, 3, 90, 4, 6, 5, 0x12] ∧
    indicationRecord (indicationOfBytes (indicationPayload r)) = some r := by decide

/-- 11.2: a CALL of class 3 byte by byte, and the first bytes of a STATION_UP. -/
theorem test_call_and_station_up_payloads :
    callPayload { seq := 0x0102, cls := 3, rail := .right, xLo := 256, xHi := -1, zLo := 0x0304, zHi := 0x0506, peak := 90,
                  first := ⟨5, 0x0708, 6⟩, second := some ⟨9, 0x090A, 1⟩, uncertain := false, early := true, saturated := false,
                  doubtful := false, long := true } =
      [2, 1, 3, 1, 0, 1, 0, 0, 0xFF, 0xFF, 0xFF, 0xFF, 4, 3, 6, 5, 90, 0x12, 5, 8, 7, 6, 9, 0x0A, 9, 1] ∧
    (eventPayload (.stationUp .supplyLow { Warnings.empty with drain := true })).take 4 = [1, 3, 0x20, 0] ∧
    (eventPayload (.stationUp .supplyLow Warnings.empty)).length = 22 := by decide

/-- 11.2: a GAP payload and the second part of RUN_SUMMARY byte by byte. -/
theorem test_gap_and_summary_payloads :
    gapPayload ⟨5, 0x0102, .ch2, 6, .left, .blocked, 256, -1, 0x0304, .stopped⟩ =
      [5, 2, 1, 2, 6, 0, 5, 0, 1, 0, 0, 0xFF, 0xFF, 0xFF, 0xFF, 4, 3, 4] ∧
    eventPayload (.runSummary2 ⟨[0, 9], 1, 2, 3, 4, 0x0506⟩) = [7, 2, 1, 2, 1, 0, 2, 0, 3, 0, 4, 0, 6, 5] := by decide

/-- Frames at the head of the receive queue, one for each block, and one not at the head. -/
def queued (frames : List Frame) (s : State) : State := { s with link := { s.link with rxQueue := frames } }

def maskFrame : Frame := ⟨20, kindMask, 0, [5, 1, 2]⟩
def startFrame : Frame := ⟨20, kindRunstart, 9, []⟩
def suppressFrame : Frame := ⟨20, kindSuppress, 1, [0, 76, 0, 0, 0, 80, 0, 0, 0]⟩

theorem witness_TakingAFrameMakesItsBlockBusy :
    Offered .runController (.runstart 9) (queued [startFrame, maskFrame] standby) ∧
    Offered .runController (.runstop 9) standby ∧
    Offered .volleySequencer (.mask ⟨5, 1, 2⟩) (queued [maskFrame] running) ∧ (5#8).toNat = running.own ∧
    Offered .correlationUnit (.suppress 1 ⟨0, 76, 80⟩) (queued [suppressFrame] running) ∧
    Offered .correlationUnit (.indication 1 (payload 3 1 0)) running ∧
    ¬ Offered .volleySequencer (.mask ⟨5, 1, 2⟩) (queued [startFrame, maskFrame] standby) ∧
    busyOf { running.link with busySeq := some 0 } .volleySequencer = some 0 ∧ busyOf running.link .volleySequencer = none := by
  refine ⟨⟨by decide, by decide, .inr ⟨_, _, rfl, by decide⟩⟩, offered_empty (by decide) (by decide) rfl,
    ⟨by decide, by decide, .inr ⟨_, _, rfl, by decide⟩⟩, by decide,
    ⟨by decide, by decide, .inr ⟨_, _, rfl, by decide⟩⟩, offered_empty (by decide) (by decide) rfl, ?_, rfl, rfl⟩
  rintro ⟨_, _, h | ⟨f, fs, h, d⟩⟩
  · cases h
  · cases h; revert d; decide

def receiving (s : State) : State := { s with link := { s.link with rx := .frame, receiveError := 65535 } }

/-- A RUNSTART of address 16, a frame of own address, and a frame with a wrong CRC; a queue with a place left, a full one and an empty
one. -/
theorem witness_ReceptionQueuesOrDiscards :
    (receiving standby).link.rx = .frame ∧ (receiving standby).link.receiveError ≤ 65535 ∧
    parseFrame [0x5A, 0x10, 0x01, 0x09, 0x00, 0x00, 0x00] = none ∧
    parseFrame (frameChars 16 kindRunstart 9 []) = some ⟨16, kindRunstart, 9, []⟩ ∧
    (receiving standby).operating = true ∧ (receiving standby).link.tx ≠ .send ∧
    ({ (receiving standby).link with tx := .send }).tx = .send ∧
    (16#5).toNat ≠ (receiving standby).own ∧
    disposal (receiving standby).own ⟨16, kindRunstart, 9, []⟩ = .hand .runController (.runstart 9) ∧
    disposal (receiving standby).own startFrame = .hand .runController (.runstart 9) ∧
    (queued (List.replicate 15 startFrame) (receiving standby)).link.rxQueue.length < 16 ∧
    (queued (List.replicate 16 startFrame) (receiving standby)).link.rxQueue.length = 16 ∧
    (∀ g ∈ List.replicate 16 startFrame, disposal (receiving standby).own g = .hand .runController (.runstart 9)) ∧
    (receiving standby).link.rxQueue = [] ∧
    (parseFrame (frameChars 16 kindCall 9 [])).map (·.kind) = some kindCall ∧
    (∀ x ∈ [(0x01#8, 0), (0x02#8, 0), (0x03#8, 3), (0x04#8, 9), (0x10#8, 23)], kindCall ≠ x.1) ∧
    (parseFrame (frameChars 16 kindMask 9 [5, 1])).map (fun f => (f.kind, f.payload.length)) = some (0x03#8, 2) ∧
    ({ receiving standby with rc := { standby.rc with runState := .faulted } }).operating = false ∧
    (parseFrame (frameChars 5 kindCall 9 [])).map (·.source.toNat) = some (receiving standby).own ∧
    (receiving standby).rc.conflict = false ∧ (withQ0 3 (receiving standby)).link.q0.length < 4 ∧
    4 ≤ (withQ0 4 (receiving standby)).link.q0.length ∧ { standby.rc with conflict := true }.conflict = true := by decide +kernel

/-- The frames that no block takes: a CALL, a MASK without its third byte, and a MASK of address 6. -/
def untaken : List Frame := [⟨16, kindCall, 9, []⟩, ⟨16, kindMask, 9, [5, 1]⟩, ⟨16, kindMask, 9, [6, 1, 2]⟩]

theorem witness_ReceptionQueuesOrDiscards_untaken :
    (∀ f ∈ untaken, f.source.toNat ≠ (receiving standby).own ∧ disposal 5 f ≠ .hand .runController (.runstart 9)) ∧
    untaken.map (disposal 5) = [.discard, .badLength, .discard] ∧ (kindMask = 0x03#8 ∧ (6#8).toNat ≠ (receiving standby).own) ∧
    (queued [startFrame] (receiving standby)).link.rxQueue = [startFrame] ∧ { cfg with dropOldest := false }.dropOldest = false ∧
    { cfg with dropOldest := true }.dropOldest = true := by decide

/-- R143, R144, R157: behind a waiting RUNSTART each of them enters last; at an empty queue each leaves at once, the one of a wrong
length with a receive error. -/
theorem test_untaken_frames_wait_behind_a_waiting_one :
    untaken.map (fun f => (acceptFrame f (queued [startFrame] standby)).link.rxQueue) = untaken.map (fun f => [startFrame, f]) ∧
    untaken.map (fun f => let t := acceptFrame f standby; (t.link.rxQueue, t.link.receiveError)) = [([], 0), ([], 1), ([], 0)] := by
  decide

/-- R143, R116: at sixteen frames a CALL is lost, or the oldest for it, and the epoch rises for either. -/
theorem test_overflow_counts_whatever_the_kind :
    [false, true].map (fun oldest =>
      let t := acceptFrame ⟨16, kindCall, 9, []⟩ { queued (maskFrame :: List.replicate 15 startFrame) standby with
        cfg := { cfg with dropOldest := oldest } }
      (t.link.rxQueue.head?, t.link.rxQueue.getLast?.map (·.kind), t.link.receiveOverflow, t.corr.epoch)) =
    [(some maskFrame, some kindRunstart, 1, 1), (some startFrame, some kindCall, 1, 1)] := by decide

def deferring (idle : Bool) (queue : List (Queued Indication)) : State :=
  { standby with link := { standby.link with tx := .defer, rank := some 37, idle := idle, q2 := queue } }

theorem witness_IdleInstantGivesTheRank :
    standby.linkOn = true ∧ standby.link.rx ≠ .hunt ∧ ({ standby.link with rx := .hunt }).rx = .hunt ∧ standby.link.tx = .idle ∧
    (deferring false [⟨1, ind 5 0 .ch1 1000 1010⟩]).link.tx = .defer ∧
    (receiving standby).link.rx = .frame ∧ (receiving standby).link.level = .recessive ∧
    (receiving standby).link.gather.since = none ∧ { (receiving standby).link with level := .dominant }.level ≠ .recessive ∧
    headOf (deferring false [⟨1, ind 5 0 .ch1 1000 1010⟩]).link .c2 = true ∧
    (∀ lower ∈ [TxClass.c0, .c1], headOf (deferring false [⟨1, ind 5 0 .ch1 1000 1010⟩]).link lower = false) ∧
    (∀ any ∈ [TxClass.c0, .c1, .c2, .c3], headOf standby.link any = false) ∧
    (let l := { standby.link with idle := true, sinceIdle := 1600 }
     l.tx = .idle ∧ l.idle = true ∧ l.rank = none ∧ ∀ any ∈ [TxClass.c0, .c1, .c2, .c3], headOf l any = false) ∧
    ({ standby.link with tx := .send }).tx = .send := by decide

/-- A link recessive for the given ticks, a hunting receiver, and a record in class 2; the link in LOADING. -/
def recessiveFor (n : Nat) : State :=
  withLink (fun l => { l with rx := .hunt, idle := false, recessiveTime := n, q2 := [⟨1, ind 5 0 .ch1 1000 1010⟩] }) standby

theorem witness_IdleInstantGivesTheRank_edge :
    (∀ n ∈ [149, 150], let l := (recessiveFor n).link
      (recessiveFor n).linkOn = true ∧ l.tx ≠ .send ∧ l.idle = false ∧ l.level = .recessive ∧ l.rx ≠ .off ∧ l.recessiveTime = n) ∧
    State.reset.linkOn = false := by decide

/-- R134, R137: at an edge on a link recessive for 6 µs the transmitter has its rank, and the edge starts a frame; one tick
earlier it has none. -/
theorem test_edge_at_the_sixth_microsecond :
    [149, 150].map (fun n => match exec (.linkLevelChange .dominant) (recessiveFor n) with
      | .next t => (t.link.tx, t.link.rank, t.link.rx, t.link.idle)
      | .fault _ | .refused _ => (.off, none, .off, true)) =
    [(.idle, none, .frame, false), (.defer, some 37, .frame, false)] := by decide

def callOf : Call :=
  { seq := 0, cls := 0, rail := .left, xLo := 1000, xHi := 1010, zLo := 100, zHi := 110, peak := 90, first := ⟨5, 0, 3⟩,
    second := none, uncertain := false, early := false, saturated := false, doubtful := false, long := false }

/-- A head record in each class with the lower classes empty, and none; the link idle and not; a frame in flight, and none. -/
theorem witness_TransmitterSendsTheHeadRecord :
    (∀ idle : Bool, (deferring idle []).link.tx = .defer ∧ (deferring idle []).link.idle = idle) ∧
    (withQ0 1 (deferring true [])).link.q0 = ⟨1, .zoneStuck⟩ :: [] ∧
    (let l := (withLink (fun l => { l with q1 := [⟨1, callOf⟩] }) (deferring true [])).link
     l.q0 = [] ∧ l.q1 = ⟨1, callOf⟩ :: []) ∧
    (let l := (deferring true [record]).link; l.q0 = [] ∧ l.q1 = [] ∧ l.q2 = record :: []) ∧
    (let l := (withQ3 1 (deferring true [])).link
     l.q0 = [] ∧ l.q1 = [] ∧ l.q2 = [] ∧ l.q3 ≠ [] ∧ (deferring true []).link.q3 = []) ∧
    (∀ flushed : Bool, (sending flushed).link.tx = .send ∧
      (sending flushed).link.inFlight.map (·.flushed) = some flushed) ∧
    (sending true).link.sendLeft = 0 ∧ driven { (sending true).link with sendLeft := 350 } = .dominant ∧
    { (sending true).link with inFlight := none }.inFlight = none ∧ standby.link.tx ≠ .send ∧ standby.link.tx ≠ .defer :=
  ⟨fun _ => ⟨rfl, rfl⟩, rfl, ⟨rfl, rfl⟩, ⟨rfl, rfl, rfl⟩, ⟨rfl, rfl, rfl, by decide, rfl⟩, fun _ => ⟨rfl, rfl⟩, rfl, by decide,
    by decide⟩

theorem witness_EveryStepKeepsTheLinkLaw : LinkLaw (sending true) ∧ ∃ t, exec .frameComplete (sending true) = .next t := by
  refine ⟨⟨by decide, by decide, ?_, ?_, ?_, by decide, by decide, fun _ => rfl⟩, _, rfl⟩
  · exact ⟨fun _ h => (by cases h), fun _ => rfl⟩
  · intro fl h; cases h; decide
  · intro r h; cases h; decide

/-- R137: the rank of a class-2 record at address 5 is 2 × 16 + 5. -/
theorem test_rank : (idleInstant 5 { standby.link with q2 := [⟨1, ind 5 0 .ch1 1000 1010⟩] }).rank = some 37 := by decide
/-- A frame with an empty payload is 7 characters and lasts 35 µs (R138). -/
theorem test_a_frame_takes_its_characters_time : (frameChars 16 kindRunstart 9 []).length = 7 ∧
    sendTicks (frameChars 16 kindRunstart 9 []) = 875 := by decide

/-- R133: the sync byte 5Ah goes out as its start bit, its bits from the least significant on, and its stop bit. -/
theorem test_levels_of_the_sync_byte : charLevels 0x5A =
    [.dominant, .dominant, .recessive, .dominant, .recessive, .recessive, .dominant, .recessive, .dominant, .recessive] := by decide

/-- R133: the middles of the ten bits are 6.25 ticks into a character and each 12.5 further on; the levels of a byte, read there, are
the byte. -/
theorem test_character_is_read_at_its_bits_middles :
    (List.range 10).map bitMiddle = [7, 19, 32, 44, 57, 69, 82, 94, 107, 119] ∧
    (∀ b ∈ [0x00#8, 0x5A#8, 0x81#8, 0xFF#8], charByte (charLevels b) = b) := by decide

/-- A receiver in RX_FRAME that has gathered what is given. -/
def gathering (g : Gathering) : State :=
  { withLink (fun l => { l with rx := .frame, gather := g }) standby with pos := { standby.pos with sampleClock := 1 } }

/-- R133: a tick before a bit's middle reads nothing, the middle reads the level, and the character's last tick gives its byte. -/
theorem test_tick_gathers :
    (tick (gathering ⟨some 5, [], []⟩)).link.gather = ⟨some 6, [], []⟩ ∧
    (tick (gathering ⟨some 6, [], []⟩)).link.gather = ⟨some 7, [.recessive], []⟩ ∧
    (tick (gathering ⟨some 124, charLevels 0x5A, []⟩)).link.gather = ⟨none, [], [0x5A]⟩ := by decide

/-- R141: what the checks say of a frame: a dominant stop bit, a first byte that is not the sync byte, a length above 32, a wrong
CRC, and a good frame. -/
def judgedCases : List (Gathering × Instr) :=
  [(⟨some 119, List.replicate 10 .dominant, []⟩, .receiveError .framing),
   (⟨none, [], [0x5B]⟩, .receiveError .sync),
   (⟨none, [], [0x5A, 0x10, 0x01, 0x09, 0x21]⟩, .receiveError .length),
   (⟨none, [], [0x5A, 0x10, 0x01, 0x09, 0x00, 0x00, 0x00]⟩, .receiveError .crc),
   (⟨none, [], frameChars 16 kindRunstart 9 []⟩, .frameReceived (frameChars 16 kindRunstart 9 []))]

theorem witness_EmptyQueueStepIsTime_judged : ∀ x ∈ judgedCases, (gathering x.1).link.rx = .frame ∧ Judged x.1 x.2 := by
  unfold Judged; decide +kernel

/-- A frame of 30 characters, so 3750 ticks, with the given number left. -/
def sendingAt (left : Nat) : State := withLink (fun l => { l with sendLeft := left, level := .dominant }) (sending false)

/-- R133: the third bit, a 1 of the sync byte, is recessive from tick 25 of the frame on. -/
theorem test_link_follows_the_bits_of_the_frame :
    (tick (sendingAt 3726)).link.level = .recessive ∧ (tick (sendingAt 3727)).link.level = .dominant := by decide

/-- R139: a mismatch on that recessive bit leaves the link dominant, and one on a dominant bit leaves it recessive. -/
theorem test_level_after_a_mismatch :
    (frameAbandoned (sendingAt 3725).link).level = .dominant ∧ (frameAbandoned (sendingAt 3740).link).level = .recessive := by
  decide

/-- R142: the own frame, gathered to its end, is dropped; the next idle instant counts no receive error. -/
theorem test_own_frame_is_dropped_without_count :
    (let s := withLink (fun l => { l with rx := .frame }) (sendingAt 0)
     match exec .frameComplete s with
      | .next t => (match exec .linkIdleInstant t with
        | .next u => decide (t.link.rx = .skip ∧ u.link.receiveError = 0 ∧ u.link.rx = .hunt)
        | .fault _ | .refused _ => false)
      | .fault _ | .refused _ => false) = true := by decide

/-- R134: a link that another node has made dominant by the end of the last stop bit, of a frame sent or of one received, stays
dominant. -/
theorem test_link_held_dominant_stays_dominant :
    (match exec .frameComplete (sendingAt 0) with
      | .next t => (t.link.tx, t.link.level, dueLinkIdle { t with link := { t.link with recessiveTime := 150 } })
      | .fault _ | .refused _ => (.off, .recessive, true)) = (.idle, .dominant, false) ∧
    (frameEnds (frameChars 16 kindRunstart 9 [])
      (withLink (fun l => { l with rx := .frame, level := .dominant }) standby)).link.level = .dominant := by
  refine ⟨by decide, ?_⟩
  unfold frameEnds
  rw [witness_ReceptionQueuesOrDiscards.2.2.2.1]
  decide

/-! ### Time: each clause of the step on an empty queue -/

/-- Each due command, at the tick that brings it. -/
def dueAt : List (State × Instr) :=
  [({ claiming with zone := { claiming.zone with claimPeriod := some 150, slotRead := 5 } }, .claimPeriodEnd),
   ({ requesting with zone := { requesting.zone with recessiveTime := 75 } }, .quiet),
   ({ requesting with zone := { requesting.zone with line := .dominant, stuckTimer := 25000 } }, .stuckTimerExpiry),
   (sendingAt 3718, .readbackMismatch), (sendingAt 0, .frameComplete),
   (withLink (fun l => { l with beginIn := 0 }) (deferring true []), .beginTime),
   (withLink (fun l => { l with recessiveTime := 150 }) standby, .linkIdleInstant),
   (withLink (fun l => { l with busyRun := some 0, busySeq := some 0, busyCorr := some 0 }) standby, .serviceTimeEnd .runController),
   (withLink (fun l => { l with busySeq := some 0, busyCorr := some 0 }) standby, .serviceTimeEnd .volleySequencer),
   (withLink (fun l => { l with busyCorr := some 0 }) standby, .serviceTimeEnd .correlationUnit),
   (drain, .drainEnd), (queued [startFrame] standby, .runstart 9)] ++ judgedCases.map (fun x => (gathering x.1, x.2))

theorem witness_EmptyQueueStepIsTime_due : ∀ x ∈ dueAt, x.1.pending = [] ∧ due x.1 = some x.2 := by decide +kernel

/-- The sample instant, the end of the hold, and the middle of the first code slot. -/
theorem witness_EmptyQueueStepIsTime_awaits :
    (∀ s ∈ [standby, { hold with seq := { hold.seq with holdTimer := 0 }, pos := { hold.pos with sampleClock := 1 } },
        { claiming with zone := { claiming.zone with claimPeriod := some 37 }, pos := { claiming.pos with sampleClock := 1 } }],
      s.pending = [] ∧ due s = none ∧ awaitsOutside s = true) ∧
    standby.operating = true ∧ standby.pos.sampleClock = 0 ∧ hold.seq.sq = .hold ∧ claiming.zone.ctl = .claim ∧
    claiming.zone.slotRead = 0 := by decide

/-- One tick short of quiet, of the end of a claim period, of a begin time and of the end of the hold; a slot of the claim going on, and the next
begun, recessive and dominant; and in reset. -/
theorem witness_EmptyQueueStepIsTime_tick :
    ∀ s ∈ [State.reset, { requesting with zone := { requesting.zone with recessiveTime := 74 }, pos := { running.pos with sampleClock := 1 } },
        { requesting with zone := { requesting.zone with claimPeriod := some 149 }, pos := { running.pos with sampleClock := 1 } },
        claimingAt 23 0 .dominant, claimingAt 24 0 .dominant, claimingAt 49 1 .recessive, claimingAt 74 2 .dominant,
        { hold with seq := { hold.seq with holdTimer := 1 }, pos := { hold.pos with sampleClock := 1 } },
        { sendingAt 3726 with pos := { standby.pos with sampleClock := 1 } }, { sendingAt 3727 with pos := { standby.pos with sampleClock := 1 } },
        gathering ⟨some 5, [], []⟩, gathering ⟨some 6, [], []⟩, gathering ⟨some 123, charLevels 0x5A, []⟩,
        gathering ⟨some 124, charLevels 0x5A, []⟩, gathering ⟨none, [], [0x5A]⟩,
        { withLink (fun l => { l with beginIn := 1, recessiveTime := 149 }) (deferring false []) with
          pos := { standby.pos with sampleClock := 1 } }],
      s.pending = [] ∧ due s = none ∧ awaitsOutside s = false := by decide

/-! ### Images: the checks of a load, last in the file for their long CRCs -/

/-- The bodies of five images: no plan; 32 entries of CH0, the last marked, with a rule count; one entry of a channel list. -/
def bodyNoPlan : List Byte := [0x81, 0xDD, 0x01] ++ zeros 472
def bodyFull (rules : Byte) : List Byte :=
  [0x81, 0xDD, 0x01] ++ zeros 5 ++ (List.replicate 31 [0x01, 0x78, 0x00, 0x00]).flatten ++ [0x01, 0x78, 0x00, 0x80] ++
    zeros 267 ++ [rules] ++ zeros 71
def bodyOne (chans : Byte) : List Byte := [0x81, 0xDD, 0x01] ++ zeros 5 ++ [chans, 0x00, 0x00, 0x80] ++ zeros 463

/-- The CRC register after every 25 bytes. -/
def crcRuns (c : BitVec 16) : List (BitVec 16) → List Byte → Bool
  | [], l => l.isEmpty
  | k :: ks, l => decide ((l.take 25).foldl crcByte c = k) && crcRuns k ks (l.drop 25)

theorem crcRuns_end : ∀ (ks : List (BitVec 16)) (c : BitVec 16) (l : List Byte), crcRuns c ks l = true →
    l.foldl crcByte c = ks.getLast?.getD c
  | [], c, l, h => by cases l with
    | nil => rfl
    | cons x xs => simp [crcRuns] at h
  | k :: ks, c, l, h => by
    simp only [crcRuns, Bool.and_eq_true, decide_eq_true_eq] at h
    rw [← List.take_append_drop 25 l, List.foldl_append, h.1, crcRuns_end ks k _ h.2]
    cases ks with
    | nil => rfl
    | cons a as => rw [List.getLast?_cons_cons]; simp [List.getLast?_eq_some_getLast]

/-- An image's CRC, from the register after every 25 bytes. -/
theorem crc_of_runs {body : List Byte} (ks : List (BitVec 16)) (hi lo : Byte) (h : crcRuns 0xFFFF#16 ks body = true)
    (n : body.length = 475) (e : crcBytes (ks.getLast?.getD 0xFFFF#16) = [hi, lo]) :
    crcBytes (crc16 ((imageBytes (body ++ [hi, lo])).take 475)) = (imageBytes (body ++ [hi, lo])).drop 475 := by
  rw [(imageBytes_parts n).1, (imageBytes_parts n).2, crc16, crcRuns_end ks _ _ h, e]

def imageNoPlan : List Byte := bodyNoPlan ++ [0xEC, 0xAA]
theorem imageNoPlan_crc : crcBytes (crc16 ((imageBytes imageNoPlan).take 475)) = (imageBytes imageNoPlan).drop 475 :=
  crc_of_runs [18572, 13341, 10712, 41987, 46684, 23294, 6959, 30060, 58855, 62437,
    3006, 15138, 466, 22614, 39426, 11624, 16605, 24514, 60586] _ _ (by decide +kernel) (by decide +kernel) (by decide)

def imageFull9 : List Byte := bodyFull 9 ++ [0x82, 0xDE]
theorem imageFull9_crc : crcBytes (crc16 ((imageBytes imageFull9).take 475)) = (imageBytes imageFull9).drop 475 :=
  crc_of_runs [17045, 24123, 4444, 51842, 9661, 55536, 21588, 65303, 40425, 42856,
    6263, 17079, 33630, 23537, 29611, 57024, 10819, 63850, 33502] _ _ (by decide +kernel) (by decide +kernel) (by decide)

def imageFull8 : List Byte := bodyFull 8 ++ [0xA0, 0x5E]
theorem imageFull8_crc : crcBytes (crc16 ((imageBytes imageFull8).take 475)) = (imageBytes imageFull8).drop 475 :=
  crc_of_runs [17045, 24123, 4444, 51842, 9661, 55536, 21588, 65303, 40425, 42856,
    6263, 17079, 33630, 23537, 29611, 57024, 18331, 13448, 41054] _ _ (by decide +kernel) (by decide +kernel) (by decide)

def imageOne0 : List Byte := bodyOne 0x00 ++ [0xFB, 0x25]
theorem imageOne0_crc : crcBytes (crc16 ((imageBytes imageOne0).take 475)) = (imageBytes imageOne0).drop 475 :=
  crc_of_runs [8178, 17231, 40337, 57033, 34306, 15807, 44532, 34881, 62892, 2160,
    56442, 46656, 28312, 4691, 39063, 12166, 25239, 13424, 64293] _ _ (by decide +kernel) (by decide +kernel) (by decide)

def imageOne31 : List Byte := bodyOne 0x1F ++ [0x8A, 0xF3]
theorem imageOne31_crc : crcBytes (crc16 ((imageBytes imageOne31).take 475)) = (imageBytes imageOne31).drop 475 :=
  crc_of_runs [62541, 51670, 14472, 43853, 30925, 15935, 16882, 47072, 35152, 51016,
    49225, 16231, 64833, 62901, 55065, 48560, 24292, 39858, 35571] _ _ (by decide +kernel) (by decide +kernel) (by decide)

/-- Past the CRC, with 32 entries: nine rules, and eight. -/
theorem witness_LoadChecks_rules :
    (byteAt (imageBytes imageFull9) 0 = 0x81 ∧ wordAt (imageBytes imageFull9) 1 = 477 ∧
      endMark (imageBytes imageFull9) 31 = true ∧ (∀ e < 31, endMark (imageBytes imageFull9) e = false) ∧
      (∀ e ≤ 31, (chansOf (entryChans (imageBytes imageFull9) e)).length ∈ [1, 2, 3, 4]) ∧
      byteAt (imageBytes imageFull9) 0x193 = 9) ∧
    (byteAt (imageBytes imageFull8) 0 = 0x81 ∧ wordAt (imageBytes imageFull8) 1 = 477 ∧
      endMark (imageBytes imageFull8) 31 = true ∧ (∀ e < 31, endMark (imageBytes imageFull8) e = false) ∧
      (∀ e ≤ 31, (chansOf (entryChans (imageBytes imageFull8) e)).length ∈ [1, 2, 3, 4]) ∧
      byteAt (imageBytes imageFull8) 0x193 = 8) := by decide +kernel

theorem witness_AcceptedConfigurationIsInRange : ∃ p w, judgeImage imageFull8 = .accepted p w := by
  have h := witness_LoadChecks_rules.2
  rw [judgeImage_good h.1 h.2.1 imageFull8_crc,
    show planLength (imageBytes imageFull8) = some 32 by decide +kernel]
  simp only
  rw [show entryFault (imageBytes imageFull8) 32 = none by decide +kernel]
  simp only
  rw [if_neg (by rw [h.2.2.2.2.2]; decide)]
  exact ⟨_, _, rfl⟩

theorem witness_LoadChecks_crc : ∃ b, byteAt (imageBytes b) 0 = 0x81 ∧ wordAt (imageBytes b) 1 = 477 ∧
    ¬ crcBytes (crc16 ((imageBytes b).take 475)) = (imageBytes b).drop 475 := by
  refine ⟨bodyNoPlan ++ [0x00, 0x00], by decide +kernel, by decide +kernel, fun h => ?_⟩
  have n : bodyNoPlan.length = 475 := by decide +kernel
  have g := imageNoPlan_crc
  rw [imageNoPlan, (imageBytes_parts n).1, (imageBytes_parts n).2] at g
  rw [(imageBytes_parts n).1, (imageBytes_parts n).2, g] at h
  exact absurd h (by decide)
theorem witness_LoadChecks_noEndMark : byteAt (imageBytes imageNoPlan) 0 = 0x81 ∧ wordAt (imageBytes imageNoPlan) 1 = 477 ∧
    ∀ e < 32, endMark (imageBytes imageNoPlan) e = false := by decide
/-- An empty first entry, and one of five channels. -/
theorem witness_LoadChecks_entry :
    (byteAt (imageBytes imageOne0) 0 = 0x81 ∧ wordAt (imageBytes imageOne0) 1 = 477 ∧ endMark (imageBytes imageOne0) 0 = true ∧
      (chansOf (entryChans (imageBytes imageOne0) 0)).length = 0) ∧
    (byteAt (imageBytes imageOne31) 0 = 0x81 ∧ wordAt (imageBytes imageOne31) 1 = 477 ∧
      endMark (imageBytes imageOne31) 0 = true ∧ 4 < (chansOf (entryChans (imageBytes imageOne31) 0)).length) := by
  decide +kernel

end Sys2Proof.Tests
end

section
/-! SUPPORT. The law of travel (law 1, R14): what a count, a load, a run start and a stop keep of it, and that every step keeps it. -/

namespace Sys2Proof.Machine

/-! ### Changes that keep the law -/

/-- The two positions agree in the accumulator, the frontier and the steps. -/
structure SameTravel (q r : Pos) : Prop where
  p : r.p = q.p
  f : r.f = q.f
  front : r.front = q.front
  sIdx : r.sIdx = q.sIdx
  nextStep : r.nextStep = q.nextStep

theorem SameTravel.of_eq {q r : Pos} (h : r = q) : SameTravel q r := by subst h; exact ⟨rfl, rfl, rfl, rfl, rfl⟩

/-- P, f and F at 0 are within the limits. -/
theorem PositionLaw.of_zero {s : State} (p : s.pos.p = 0) (f : s.pos.f = 0) (front : s.pos.front = 0) : PositionLaw s where
  limits := by rw [p]; decide
  fraction := by rw [f]; decide
  behind := by rw [p, front]
  frontier := by rw [front]; decide

/-- A change of the qualifiers, the flag and the counter alone keeps the limits. -/
theorem PositionLaw.of_same {s t : State} (h : PositionLaw s) (same : SameTravel s.pos t.pos) : PositionLaw t where
  limits := by rw [same.p]; exact h.limits
  fraction := by rw [same.f]; exact h.fraction
  behind := by rw [same.p, same.front]; exact h.behind
  frontier := by rw [same.front]; exact h.frontier

/-- A change that leaves the travel, and starts neither a run nor the operation, keeps the law. -/
theorem TravelLaw.of_same {s t : State} (h : TravelLaw s) (same : SameTravel s.pos t.pos) (cfg : t.cfg = s.cfg)
    (runs : t.rc.runState = .running → s.rc.runState = .running) (serves : t.operating = true → s.operating = true) :
    TravelLaw t where
  position := h.position.of_same same
  step run := by rw [same.nextStep, same.sIdx, same.front, cfg]; exact h.step (runs run)
  size op := by rw [cfg]; exact h.size (serves op)

/-- The station operates in a run state. -/
theorem operating_congr {s t : State} (h : t.rc.runState = s.rc.runState) : t.operating = s.operating := by
  unfold State.operating; rw [h]

theorem operating_of_running {s : State} (h : s.rc.runState = .running) : s.operating = true := by
  unfold State.operating; rw [h]

theorem operating_of_standby {s : State} (h : s.rc.runState = .standby) : s.operating = true := by
  unfold State.operating; rw [h]

theorem operating_of_stopping {s : State} (h : s.rc.runState = .stopping) : s.operating = true := by
  unfold State.operating; rw [h]

theorem inRun_of_running {s : State} (h : s.rc.runState = .running) : s.inRun = true := by
  unfold State.inRun; rw [h]

/-- The same, where the run state stays. -/
theorem TravelLaw.of_same_run {s t : State} (h : TravelLaw s) (same : SameTravel s.pos t.pos) (cfg : t.cfg = s.cfg)
    (run : t.rc.runState = s.rc.runState) : TravelLaw t :=
  h.of_same same cfg (fun r => run ▸ r) (fun op => operating_congr run ▸ op)

/-- A frame taken, discards and every other change of blocks that the law does not read keep it. -/
theorem TravelLaw.of_keeps {l : List Part} {s t : State} (h : TravelLaw s) (k : Keeps l s t)
    (pos : Part.pos ∉ l := by decide) (cfg : Part.cfg ∉ l := by decide) (rc : Part.rc ∉ l := by decide) : TravelLaw t :=
  h.of_same_run (.of_eq (k.pos pos)) (k.cfg cfg) (by rw [k.rc rc])

/-! ### Counts -/

/-- A discarded count keeps the law (R8). -/
theorem travelLaw_countDiscarded {s : State} (h : TravelLaw s) (u : Bool) : TravelLaw (countDiscarded u s) := by
  have k := countDiscarded_keeps u s
  refine h.of_same_run ?_ (k.cfg (by decide)) (by rw [k.rc (by decide)])
  rw [countDiscarded_pos]
  exact ⟨rfl, rfl, rfl, rfl, rfl⟩

/-- A reverse count keeps the law: P falls, and not below its limit (R8, R10). -/
theorem travelLaw_reverseCount {s : State} (h : TravelLaw s) : TravelLaw (reverseCount s) := by
  rcases reverseCount_cases s with ⟨e, _⟩ | ⟨e, low⟩
  · rw [e]; exact travelLaw_countDiscarded h false
  · rw [e]
    obtain ⟨⟨_, high⟩, fraction, behind, frontier⟩ := h.position
    have fall : (posValue s.pos - s.cfg.s) / 256 ≤ s.pos.p := by unfold posValue; omega
    exact ⟨⟨⟨low, fall.trans high⟩, withValue_f_le _ _, fall.trans behind, frontier⟩, h.step, h.size⟩

/-- P after a forward count lies at or beyond P before it. -/
theorem forward_le (s : State) : s.pos.p ≤ (posValue s.pos + s.cfg.s) / 256 := by unfold posValue; omega

/-- The limits hold once the frontier is raised to a P within the upper limit (R8, R10). -/
theorem positionLaw_raiseFrontier {s : State} {q : Pos} (h : PositionLaw s) (rise : s.pos.p ≤ q.p) (limit : q.p ≤ positionLimit)
    (fraction : q.f ≤ 255) (front : q.front = s.pos.front) : PositionLaw (raiseFrontier (s.setPos q)) := by
  obtain ⟨⟨low, _⟩, _, _, f0, f1⟩ := h
  unfold positionLimit at limit
  constructor <;> rw [raiseFrontier_pos] <;> simp only [State.setPos_pos, front]
  · exact ⟨low.trans rise, limit⟩
  · exact fraction
  · exact le_max_right ..
  · exact ⟨f0.trans (le_max_left ..), max_le f1 limit⟩

/-- The frontier lies below the next step (R14). -/
theorem StepLaw.front_lt {s : State} (h : StepLaw s) (run : s.rc.runState = .running) (hd : 0 < s.cfg.d) :
    (s.pos.sIdx : Int) * s.cfg.d ≤ s.pos.front ∧ s.pos.front < s.pos.nextStep := by
  obtain ⟨next, idx⟩ := h run
  have k := (Int.ediv_eq_iff_of_pos (by exact_mod_cast hd : (0 : Int) < s.cfg.d)).mp idx.symm
  rw [next, add_mul, one_mul]
  exact k

/-- Short of the next step the step law stands whatever the frontier rises to (R14). -/
theorem StepLaw.short {s t : State} (h : StepLaw s) (hd : 0 < s.cfg.d) (cfg : t.cfg = s.cfg) (rc : t.rc = s.rc)
    (sIdx : t.pos.sIdx = s.pos.sIdx) (next : t.pos.nextStep = s.pos.nextStep) (rise : s.pos.front ≤ t.pos.front)
    (short : t.pos.front < s.pos.nextStep) : StepLaw t := by
  intro run
  rw [rc] at run
  obtain ⟨low, _⟩ := h.front_lt run hd
  obtain ⟨hn, _⟩ := h run
  rw [next, sIdx, cfg]
  refine ⟨hn, ((Int.ediv_eq_iff_of_pos (by exact_mod_cast hd)).mpr ⟨low.trans rise, ?_⟩).symm⟩
  rw [hn, add_mul, one_mul] at short
  exact short

/-- The step that P has reached: its index is the floor of P/D, and the next one lies a D beyond it (R12, R14). -/
theorem step_issued {d : Nat} {p next : Int} {idx : Nat} (hd : 0 < d) (law : next = ((idx : Int) + 1) * d)
    (reached : next ≤ p) :
    ((idx + stepsReached d next p : Nat) : Int) = p / d ∧
    next + stepsReached d next p * (d : Int) = (((idx + stepsReached d next p : Nat) : Int) + 1) * d := by
  subst law
  refine ⟨stepsReached_index hd reached, ?_⟩
  push_cast
  ring

/-- The state a forward count within the limit leaves before a step is issued. -/
def counted (s : State) : State := raiseFrontier (s.setPos (withValue s.pos (posValue s.pos + s.cfg.s)))

theorem counted_keeps (s : State) : Keeps [.pos, .corr, .link] s (counted s) :=
  ((keeps_setPos _ _).mono (by decide)).trans (raiseFrontier_keeps _)

theorem counted_pos (s : State) : (counted s).pos = { withValue s.pos (posValue s.pos + s.cfg.s) with
    front := max s.pos.front ((posValue s.pos + s.cfg.s) / 256) } := raiseFrontier_pos _

theorem issueStep_counted_kept (s : State) : (issueStep (counted s)).rc = s.rc ∧ (issueStep (counted s)).cfg = s.cfg := by
  have k := counted_keeps s
  have i := issueStep_keeps (counted s)
  exact ⟨(i.rc (by decide)).trans (k.rc (by decide)), (i.cfg (by decide)).trans (k.cfg (by decide))⟩

/-- A forward count within the limit keeps the limits (R8, R10). -/
theorem positionLaw_counted {s : State} (h : PositionLaw s) (limit : (posValue s.pos + s.cfg.s) / 256 ≤ positionLimit) :
    PositionLaw (counted s) := positionLaw_raiseFrontier h (forward_le s) limit (withValue_f_le ..) rfl

/-- The step law after a forward count: the step reached is issued, or none is reached (R12, R13, R14). -/
theorem stepLaw_issueStep {s : State} (h : StepLaw s) (hd : s.rc.runState = .running → 0 < s.cfg.d) :
    StepLaw (issueStep (counted s)) := by
  intro run
  have k := counted_keeps s
  obtain ⟨rc, cfg⟩ := issueStep_counted_kept s
  rw [rc] at run
  obtain ⟨next, _⟩ := h run
  obtain ⟨_, front⟩ := h.front_lt run (hd run)
  by_cases reached : s.pos.nextStep ≤ (posValue s.pos + s.cfg.s) / 256
  · have issued := step_issued (hd run) next reached
    rw [issueStep_pos ⟨by rw [k.rc (by decide)]; exact run, by rw [counted_pos]; exact reached⟩, cfg, k.cfg (by decide),
      counted_pos, max_eq_right (by omega)]
    exact ⟨issued.2.trans (by simp), issued.1⟩
  · have short : ¬((counted s).rc.runState = .running ∧ (counted s).pos.nextStep ≤ (counted s).pos.p) := by
      rintro ⟨_, r⟩; rw [counted_pos] at r; exact reached r
    rw [issueStep_none short]
    refine h.short (hd run) (k.cfg (by decide)) (k.rc (by decide)) ?_ ?_ ?_ ?_ (by rw [k.rc (by decide)]; exact run) <;>
      rw [counted_pos] <;> simp only [withValue_sIdx, withValue_nextStep]
    · exact le_max_left ..
    · exact max_lt front (by omega)

/-- A step issued leaves P, f and F (R12). -/
theorem positionLaw_issueStep {s : State} (h : PositionLaw s) : PositionLaw (issueStep s) := by
  by_cases r : s.rc.runState = .running ∧ s.pos.nextStep ≤ s.pos.p
  · refine ⟨?_, ?_, ?_, ?_⟩ <;> rw [issueStep_pos r]
    exacts [h.limits, h.fraction, h.behind, h.frontier]
  · rw [issueStep_none r]; exact h

/-- A forward count keeps the law (R8, R10, R12, R14). -/
theorem travelLaw_forwardCount {s : State} (h : TravelLaw s) : TravelLaw (forwardCount s) := by
  rcases forwardCount_cases s with ⟨e, _⟩ | ⟨e, limit⟩
  · rw [e]; exact travelLaw_countDiscarded h true
  · rw [e]
    change TravelLaw (issueStep (counted s))
    obtain ⟨rc, cfg⟩ := issueStep_counted_kept s
    refine ⟨positionLaw_issueStep (positionLaw_counted h.position limit), stepLaw_issueStep h.step fun run => ?_, fun op => ?_⟩
    · have := (h.size (operating_of_running run)).1
      omega
    · rw [cfg]; exact h.size (operating_congr (congrArg RunCtl.runState rc) ▸ op)

/-- A sample instant keeps the law (R2 to R14). -/
theorem travelLaw_sampleInstant {s : State} (h : TravelLaw s) (a b : Bool) : TravelLaw (sampleInstant a b s) := by
  have set : ∀ q, SameTravel s.pos q → TravelLaw (s.setPos q) := fun q same => h.of_same_run same rfl rfl
  unfold sampleInstant applyDecoded
  dsimp only
  split
  · exact set _ ⟨rfl, rfl, rfl, rfl, rfl⟩
  · have sampled := set (sampled s.cfg.p s.cfg.n a b s.pos) ⟨rfl, rfl, rfl, rfl, rfl⟩
    split
    · split
      · exact sampled
      · exact travelLaw_forwardCount sampled
      · exact travelLaw_reverseCount sampled
      · exact sampled.of_same_run ⟨rfl, rfl, rfl, rfl, rfl⟩ rfl rfl
    · exact sampled

/-! ### The run -/

/-- A run starts at P, f and F 0 with the next step at D (R16, R14). -/
theorem travelLaw_startRun {s : State} (h : TravelLaw s) (op : s.operating = true) (r : Byte) : TravelLaw (startRun r s) where
  position := .of_zero rfl rfl rfl
  step _ := ⟨by show (s.cfg.d : Int) = (0 + 1) * s.cfg.d; omega, by show (0 : Int) = 0 / s.cfg.d; simp⟩
  size _ := h.size op

/-- STOPPING leaves the travel (R15, R152). -/
theorem travelLaw_enterStopping {s : State} (h : TravelLaw s) (run : s.rc.runState = .running) :
    TravelLaw (enterStopping s) := by
  have k := enterStopping_keeps s
  have stops : (enterStopping s).rc.runState = .stopping := by rw [enterStopping_rc]; split <;> rfl
  exact h.of_same (.of_eq (k.pos (by decide))) (k.cfg (by decide)) (fun r => by rw [stops] at r; cases r)
    (fun _ => operating_of_running run)

/-- A RUNSTART frame keeps the law (R150). -/
theorem travelLaw_runstartTaken {s : State} (h : TravelLaw s) (r : Byte) : TravelLaw (runstartTaken r s) := by
  have pending : TravelLaw (s.setRc { s.rc with pendingStart := some r }) := h.of_same_run (.of_eq rfl) rfl rfl
  unfold runstartTaken
  split
  · exact h
  · split
    · exact travelLaw_startRun h (operating_of_standby ‹_›) r
    · split
      · exact h
      · exact travelLaw_enterStopping pending ‹_›
    · split
      · exact h
      · exact pending
    · exact h
    · exact h

/-- A RUNSTOP frame keeps the law (R152). -/
theorem travelLaw_runstopTaken {s : State} (h : TravelLaw s) (r : Byte) : TravelLaw (runstopTaken r s) := by
  unfold runstopTaken
  split
  · exact travelLaw_enterStopping h (And.left ‹_›)
  · exact h

/-- The end of the drain keeps the law (R153). -/
theorem travelLaw_drainEnded {s : State} (h : TravelLaw s) (stops : s.rc.runState = .stopping) : TravelLaw (drainEnded s) := by
  have k := (correlationDrainEnd_keeps s).trans ((queueSummary_keeps (correlationDrainEnd s)).mono (by decide))
  have standby : TravelLaw ((queueSummary (correlationDrainEnd s)).setRc
      { (queueSummary (correlationDrainEnd s)).rc with runState := .standby, draining := false, drainTimer := 0 }) :=
    h.of_same (.of_eq (k.pos (by decide))) (k.cfg (by decide)) (fun r => by cases r)
      (fun _ => operating_of_stopping stops)
  unfold drainEnded
  dsimp only
  split
  · exact standby
  · exact travelLaw_startRun standby rfl _

/-! ### The load and the reset -/

/-- After a reset P, f and F are 0 and the station does not operate (R17). -/
theorem travelLaw_takeReset (cause : ResetCause) (s : State) : TravelLaw (takeReset cause s) where
  position := .of_zero rfl rfl rfl
  step run := by cases run
  size op := by cases op

/-- A good load brings D within 4 to 60 (R1). -/
theorem accepted_d {im : List Byte} {p : Params} {w : Warnings} (h : judgeImage im = .accepted p w) : 4 ≤ p.d ∧ p.d ≤ 60 := by
  obtain ⟨len, _, _, _, e⟩ := judgeImage_accepted h
  have : p.d = min 60 (max 4 (byteAt (imageBytes im) 0x007)) := congrArg (fun x => x.1.d) e.symm
  omega

/-- The end of a load keeps the law (R3, R148, R149). -/
theorem travelLaw_loadEnded {s : State} (h : TravelLaw s) (im : List Byte) : TravelLaw (loadEnded im s) := by
  unfold loadEnded
  split
  · exact h.of_same (.of_eq rfl) rfl (fun r => by cases r) (fun op => by cases op)
  · rename_i accepted
    exact ⟨h.position.of_same ⟨rfl, rfl, rfl, rfl, rfl⟩, (fun run => by cases run), fun _ => accepted_d accepted⟩

/-! ### Every step -/

/-- A taken frame, its block's act and the discards behind it keep the law where the act does. -/
theorem travelLaw_taken {b : Block} {c : Instr} {n : Nat} {s u v : State} (h : TravelLaw s) (taken : takeFrame b c n s = some u)
    (keeps : TravelLaw u → TravelLaw v) : TravelLaw (dispatchDiscards v) :=
  (keeps (h.of_keeps (takeFrame_keeps taken))).of_keeps (dispatchDiscards_keeps _)

/-- Every command keeps the law: of those that leave the run state, the sample instant alone moves the position. -/
theorem travelLaw_exec {c : Instr} {s t : State} (h : TravelLaw s) (e : exec c s = .next t) : TravelLaw t := by
  have k := exec_touches e
  cases c with
  | powerOn => cases e; exact travelLaw_takeReset ..
  | supplyLow => cases e; exact travelLaw_takeReset ..
  | resetPin => cases e; exact travelLaw_takeReset ..
  | loadEnd im =>
    rw [exec_loadEnd] at e; injection e with e; subst e
    split
    · exact travelLaw_loadEnded h im
    · exact h
  | encoderSampleInstant a b =>
    rw [exec_encoderSampleInstant] at e; injection e with e; subst e
    split
    · exact travelLaw_sampleInstant h a b
    · exact h
  | runstart r =>
    rw [exec_runstart] at e; injection e with e; subst e
    split
    · exact h
    · exact travelLaw_taken h ‹_› fun hu => travelLaw_runstartTaken hu r
  | runstop r =>
    rw [exec_runstop] at e; injection e with e; subst e
    split
    · exact h
    · exact travelLaw_taken h ‹_› fun hu => travelLaw_runstopTaken hu r
  | drainEnd =>
    rw [exec_drainEnd] at e; injection e with e; subst e
    split
    · exact travelLaw_drainEnded h (And.left ‹_›)
    · exact h
  | _ =>
    obtain ⟨run, cfg⟩ : t.rc.runState = s.rc.runState ∧ t.cfg = s.cfg := by simpa using exec_runState e
    exact h.of_same_run (.of_eq (k.pos (by simp [touched]))) cfg run

/-- A tick moves the sample clock alone of the position. -/
theorem travelLaw_tick {s : State} (h : TravelLaw s) : TravelLaw (tick s) := by
  refine h.of_same_run ?_ rfl ?_
  · show SameTravel s.pos (tickPos s.operating s.pos)
    unfold tickPos
    split <;> exact ⟨rfl, rfl, rfl, rfl, rfl⟩
  · show (tickRun s.rc).runState = _
    unfold tickRun
    split <;> rfl

/-- Settles O17: every command, a tick and a change of the queue keep the law of travel, so every step does. -/
theorem everyStepKeepsTheTravelLaw : Obligations.EveryStepKeepsTheTravelLaw :=
  step_keeps_of (inv := TravelLaw) (fun _ _ _ h e => travelLaw_exec h e) (fun _ h => travelLaw_tick h)
    fun _ _ h => h.of_same_run (.of_eq rfl) rfl rfl

end Sys2Proof.Machine
end

section
/-! SUPPORT. Sample instants (1.2, 1.3): what the first one, one in STANDBY and one count of each kind leave; the tables of R5 and R6. -/

namespace Sys2Proof.Machine

/-! ### Qualification (R2) -/

/-- An agreeing sample sets the agree run to 0 (R2). -/
theorem qualify_agree (n : Nat) (level : Bool) (run : Nat) : qualify n level run level = (level, 0) := if_pos rfl

/-- A disagreeing sample short of the nth makes the agree run one longer (R2). -/
theorem qualify_short {n run : Nat} (level : Bool) (h : run + 1 < n) : qualify n level run (!level) = (level, run + 1) := by
  unfold qualify
  rw [if_neg (by simp), if_neg (by omega)]

/-- The nth disagreeing sample changes the level (R2). -/
theorem qualify_nth {n run : Nat} (level : Bool) (h : n ≤ run + 1) : qualify n level run (!level) = (!level, 0) := by
  unfold qualify
  rw [if_neg (by simp), if_pos h]

/-- Fewer than n disagreeing samples leave the level, and the agree run is their number (R2). -/
theorem foldl_qualify_short {n : Nat} (level : Bool) : ∀ {k : Nat}, k < n →
    (List.replicate k (!level)).foldl (fun (q : Bool × Nat) raw => qualify n q.1 q.2 raw) (level, 0) = (level, k)
  | 0, _ => rfl
  | k + 1, h => by
    rw [List.replicate_succ', List.foldl_append, foldl_qualify_short level (by omega)]
    exact qualify_short level h

/-- Settles O10. -/
theorem qualifiedLevelChangesAtTheNthSample : Obligations.QualifiedLevelChangesAtTheNthSample := by
  intro n level hn
  refine ⟨fun k hk => foldl_qualify_short level hk, ?_, fun run => qualify_agree n level run⟩
  obtain ⟨m, rfl⟩ : ∃ m, n = m + 1 := ⟨n - 1, by omega⟩
  dsimp only
  rw [List.replicate_succ', List.foldl_append, foldl_qualify_short level (Nat.lt_succ_self m)]
  exact qualify_nth level le_rfl

/-! ### Samples that count nothing (R3, R4) -/

/-- Settles O9. -/
theorem firstSampleTakesTheRawLevels : Obligations.FirstSampleTakesTheRawLevels := by
  intro s a b
  refine ⟨fun op first => ⟨s.setPos (firstSampled s.cfg.p a b s.pos), ?_, rfl, keeps_setPos _ _⟩, fun op => ?_⟩
  · rw [exec_encoderSampleInstant, if_pos op]
    unfold sampleInstant
    rw [if_pos first]
  · rw [exec_encoderSampleInstant, if_neg (by rw [op]; decide)]

/-- Settles O11. -/
theorem standbyDiscardsCounts : Obligations.StandbyDiscardsCounts := by
  intro s a b standby first
  refine ⟨s.setPos (sampled s.cfg.p s.cfg.n a b s.pos), ?_, keeps_setPos _ _, rfl⟩
  have rest : (s.setPos (sampled s.cfg.p s.cfg.n a b s.pos)).inRun = false := by
    unfold State.inRun; rw [State.setPos_rc, standby]
  rw [exec_encoderSampleInstant, if_pos (operating_of_standby standby), sampleInstant_decoded a b first]
  unfold applyDecoded
  rw [rest]
  rfl

/-! ### Counts (R7 to R9) -/

/-- A sample instant that decodes a forward count, on the sampled qualifiers. -/
theorem exec_sample_forward {s : State} {a b : Bool} (run : s.inRun = true) (first : s.pos.firstSample = false)
    (h : decodeCount s.cfg s.pos.refA s.pos.refB (sampled s.cfg.p s.cfg.n a b s.pos).qualA
      (sampled s.cfg.p s.cfg.n a b s.pos).qualB = .forward) :
    exec (.encoderSampleInstant a b) s = .next (forwardCount (s.setPos (sampled s.cfg.p s.cfg.n a b s.pos))) := by
  rw [exec_sample_inRun a b run first, h]

/-- A sample instant that decodes a reverse count, on the sampled qualifiers. -/
theorem exec_sample_reverse {s : State} {a b : Bool} (run : s.inRun = true) (first : s.pos.firstSample = false)
    (h : decodeCount s.cfg s.pos.refA s.pos.refB (sampled s.cfg.p s.cfg.n a b s.pos).qualA
      (sampled s.cfg.p s.cfg.n a b s.pos).qualB = .reverse) :
    exec (.encoderSampleInstant a b) s = .next (reverseCount (s.setPos (sampled s.cfg.p s.cfg.n a b s.pos))) := by
  rw [exec_sample_inRun a b run first, h]

/-- Settles O13. -/
theorem reverseCountMovesPositionOnly : Obligations.ReverseCountMovesPositionOnly := by
  intro s a b run first q value decoded limit
  rcases reverseCount_cases (s.setPos q) with ⟨_, low⟩ | ⟨exact_, _⟩
  · exact absurd low (not_lt.mpr limit)
  · refine ⟨_, exec_sample_reverse run first decoded, ?_⟩
    rw [exact_]
    exact ⟨withValue_value _ _, withValue_f_le _ _, rfl, (keeps_setPos _ _).trans (keeps_setPos _ _)⟩

/-- A discarded count queues its event under the limit flag (R8, R9). -/
theorem countDiscarded_link (u : Bool) (s : State) : (countDiscarded u s).link =
    if s.pos.limitFlag then s.link else offer0 s.own ⟨s.rc.run, .positionLimit u⟩ s.link := by
  unfold countDiscarded
  split <;> rfl

/-- Settles O14: the count is the discarded one of its direction, and the event goes to class 0 under the flag. -/
theorem countBeyondALimitIsDiscarded : Obligations.CountBeyondALimitIsDiscarded := by
  intro s a b upper run first q d beyond
  have discards : exec (.encoderSampleInstant a b) s = .next (countDiscarded upper (s.setPos q)) := by
    rcases beyond with ⟨rfl, decoded, high⟩ | ⟨rfl, decoded, low⟩
    · rcases forwardCount_cases (s.setPos q) with ⟨e, _⟩ | ⟨_, limit⟩
      · rw [exec_sample_forward run first decoded, e]
      · exact absurd high (not_lt.mpr limit)
    · rcases reverseCount_cases (s.setPos q) with ⟨e, _⟩ | ⟨_, limit⟩
      · rw [exec_sample_reverse run first decoded, e]
      · exact absurd low (not_lt.mpr limit)
  refine ⟨_, discards, countDiscarded_pos _ _,
    ((keeps_setPos _ _).mono (by decide)).trans (countDiscarded_keeps _ _), fun flag => ?_, fun flag => ?_⟩ <;>
    rw [countDiscarded_link]
  · exact if_pos flag
  · rw [if_neg (by rw [State.setPos_pos, sampled_limitFlag, flag]; decide)]
    exact offer0_handed ..

/-! ### Decoding (R5, R6) -/

/-- The forward turns of the pair (A, B) with A leading (R5). -/
def forwardTurns : List ((Bool × Bool) × (Bool × Bool)) :=
  [((false, false), (true, false)), ((true, false), (true, true)), ((true, true), (false, true)),
   ((false, true), (false, false))]

/-- X4: a turn through low-low, high-low, high-high, low-high is forward in A_LEADS and reverse in B_LEADS (R5). -/
theorem decodeX4_forward : ∀ aLeads refA refB newA newB : Bool, decodeX4 aLeads refA refB newA newB = .forward ↔
    if aLeads = true then ((refA, refB), (newA, newB)) ∈ forwardTurns else ((newA, newB), (refA, refB)) ∈ forwardTurns := by
  decide

theorem decodeX4_reverse : ∀ aLeads refA refB newA newB : Bool, decodeX4 aLeads refA refB newA newB = .reverse ↔
    if aLeads = true then ((newA, newB), (refA, refB)) ∈ forwardTurns else ((refA, refB), (newA, newB)) ∈ forwardTurns := by
  decide

/-- X4: both levels changed is illegal (R5). -/
theorem decodeX4_illegal : ∀ aLeads refA refB newA newB : Bool, decodeX4 aLeads refA refB newA newB = .illegal ↔
    newA ≠ refA ∧ newB ≠ refB := by decide

/-- X1 and X2: a rise of A counts, and in X2 a fall too, by B before it (R6). -/
theorem decodeA_forward : ∀ x2 aLeads refA refB newA : Bool, decodeA x2 aLeads refA refB newA = .forward ↔
    ((refA = false ∧ newA = true) ∧ refB ≠ aLeads) ∨ (x2 = true ∧ (refA = true ∧ newA = false) ∧ refB = aLeads) := by decide

theorem decodeA_reverse : ∀ x2 aLeads refA refB newA : Bool, decodeA x2 aLeads refA refB newA = .reverse ↔
    ((refA = false ∧ newA = true) ∧ refB = aLeads) ∨ (x2 = true ∧ (refA = true ∧ newA = false) ∧ refB ≠ aLeads) := by decide

/-- X1 and X2 know no illegal transition (R6). -/
theorem decodeA_legal : ∀ x2 aLeads refA refB newA : Bool, decodeA x2 aLeads refA refB newA ≠ .illegal := by decide

/-- The count of a sample instant in each mode. -/
theorem decodeCount_x4 {p : Params} (h : p.mode = .x4) (refA refB newA newB : Bool) :
    decodeCount p refA refB newA newB = decodeX4 p.aLeads refA refB newA newB := by unfold decodeCount; rw [h]

theorem decodeCount_x2 {p : Params} (h : p.mode = .x2) (refA refB newA newB : Bool) :
    decodeCount p refA refB newA newB = decodeA true p.aLeads refA refB newA := by unfold decodeCount; rw [h]

theorem decodeCount_x1 {p : Params} (h : p.mode = .x1) (refA refB newA newB : Bool) :
    decodeCount p refA refB newA newB = decodeA false p.aLeads refA refB newA := by unfold decodeCount; rw [h]

/-- An illegal transition is met in X4 alone (R5, R6). -/
theorem decodeCount_legal {p : Params} (h : p.mode ≠ .x4) (refA refB newA newB : Bool) :
    decodeCount p refA refB newA newB ≠ .illegal := by
  cases m : p.mode with
  | x1 => rw [decodeCount_x1 m]; exact decodeA_legal _ _ _ _ _
  | x2 => rw [decodeCount_x2 m]; exact decodeA_legal _ _ _ _ _
  | x4 => exact absurd m h

/-- Settles O15: mode by mode from the tables, and the two samples that count nothing in a run. -/
theorem illegalTransitionRaisesTheErrorCounter : Obligations.IllegalTransitionRaisesTheErrorCounter := by
  intro s a b run first q d turns before after rises falls
  refine ⟨fun x4 => ?_, fun x2 => ?_, fun x1 => ?_, fun mode => decodeCount_legal mode _ _ _ _, fun illegal => ?_, fun none => ?_⟩
  · have e : d = decodeX4 s.cfg.aLeads s.pos.refA s.pos.refB q.qualA q.qualB := decodeCount_x4 x4 ..
    rw [e]
    exact ⟨decodeX4_forward .., decodeX4_reverse .., decodeX4_illegal ..⟩
  · have e : d = decodeA true s.cfg.aLeads s.pos.refA s.pos.refB q.qualA := decodeCount_x2 x2 ..
    rw [e, decodeA_forward, decodeA_reverse]
    simp only [true_and, and_self, rises, falls]
  · have e : d = decodeA false s.cfg.aLeads s.pos.refA s.pos.refB q.qualA := decodeCount_x1 x1 ..
    rw [e, decodeA_forward, decodeA_reverse]
    simp only [Bool.false_eq_true, false_and, or_false, and_self, rises]
  · refine ⟨illegalTransition (s.setPos q), ?_, rfl, (keeps_setPos _ _).trans (keeps_setPos _ _)⟩
    rw [exec_sample_inRun a b run first, show decodeCount _ _ _ _ _ = _ from illegal]
  · refine ⟨s.setPos q, ?_, rfl, keeps_setPos _ _⟩
    rw [exec_sample_inRun a b run first, show decodeCount _ _ _ _ _ = _ from none]

end Sys2Proof.Machine
end

section
/-! SUPPORT. A forward count (R10 to R13): the ageing its frontier brings, and the state in which the step it reaches is taken. -/

namespace Sys2Proof.Machine

/-! ### The Correlation Unit does not read the position -/

theorem buildCall_setPos (n : Nat) (a : Indication) (b : Option Indication) (u e : Bool) (s : State) (q : Pos) :
    buildCall n a b u e (s.setPos q) = (buildCall n a b u e s).setPos q := by
  unfold buildCall
  dsimp only
  rw [apply_ite (State.setPos · q)]
  rfl

theorem leaveEffect_setPos (early : Bool) (s : State) (e : Entry) (q : Pos) :
    leaveEffect early (s.setPos q) e = (leaveEffect early s e).setPos q := by
  unfold leaveEffect
  rw [apply_ite (State.setPos · q), apply_ite (State.setPos · q), ← buildCall_setPos]
  rfl

theorem frontierIncrease_setPos (front : Int) (s : State) (q : Pos) :
    frontierIncrease front (s.setPos q) = (frontierIncrease front s).setPos q := by
  have fold : ∀ (es : List Entry) (s : State),
      es.foldl (leaveEffect false) (s.setPos q) = (es.foldl (leaveEffect false) s).setPos q := fun es s =>
    List.foldl_hom (State.setPos · q) fun s e => leaveEffect_setPos false s e q
  have comm : ∀ (s : State) (c : Correlation), (s.setPos q).setCorr c = (s.setCorr c).setPos q := fun _ _ => rfl
  unfold frontierIncrease
  simp only [State.setPos_corr, State.setPos_cfg, comm, fold]
  rfl

/-! ### A forward count up to the step (R10) -/

/-- The ageing that a frontier raised to P brings, where it rises (R10, R122, R127). -/
def ageing (p : Int) (s : State) : State := if s.pos.front < p then frontierIncrease p s else s

/-- A raised frontier is the ageing it brings and the new position (R10). -/
theorem raiseFrontier_eq {s : State} {q : Pos} (front : q.front = s.pos.front) :
    raiseFrontier (s.setPos q) = (ageing q.p s).setPos { q with front := max q.front q.p } := by
  unfold raiseFrontier ageing
  simp only [State.setPos_pos, front]
  split
  · rename_i rise
    rw [max_eq_right (Int.le_of_lt rise), frontierIncrease_setPos, frontierIncrease_setPos]
    rfl
  · rename_i stays
    rw [max_eq_left (not_lt.mp stays), ← front]

theorem ageing_keeps (p : Int) (s : State) : Keeps [.corr, .link] s (ageing p s) := by
  unfold ageing
  split
  · exact frontierIncrease_keeps _ _
  · exact Keeps.refl _ _

theorem ageing_hands (p : Int) (s : State) : Hands [.c1] s (ageing p s) := by
  unfold ageing
  split
  · exact frontierIncrease_hands _ _
  · exact .refl _ _

/-- P after a forward count (R7). -/
def forwardP (s : State) : Int := (posValue s.pos + s.cfg.s) / 256

/-- What a sample instant that decodes a forward count within the limit leaves before a step is issued (R7, R10). -/
def forwarded (a b : Bool) (s : State) : State := counted (s.setPos (sampled s.cfg.p s.cfg.n a b s.pos))

theorem forwarded_eq (a b : Bool) (s : State) : forwarded a b s = (ageing (forwardP s) s).setPos
    { withValue (sampled s.cfg.p s.cfg.n a b s.pos) (posValue s.pos + s.cfg.s) with
      front := max s.pos.front (forwardP s) } :=
  raiseFrontier_eq (q := withValue (sampled s.cfg.p s.cfg.n a b s.pos) (posValue s.pos + s.cfg.s)) rfl

theorem forwarded_keeps (a b : Bool) (s : State) : Keeps [.pos, .corr, .link] s (forwarded a b s) := by
  rw [forwarded_eq]
  exact ((ageing_keeps _ _).mono (by decide)).trans ((keeps_setPos _ _).mono (by decide))

theorem forwarded_hands (a b : Bool) (s : State) : Hands [.c1] s (forwarded a b s) := by
  rw [forwarded_eq]
  exact (ageing_hands _ _).trans (.kept (keeps_setPos _ _))

/-- The sample instant of a forward count within the limit issues the step it reaches. -/
theorem exec_sample_forward_within {s : State} {a b : Bool} (run : s.inRun = true) (first : s.pos.firstSample = false)
    (h : decodeCount s.cfg s.pos.refA s.pos.refB (sampled s.cfg.p s.cfg.n a b s.pos).qualA
      (sampled s.cfg.p s.cfg.n a b s.pos).qualB = .forward) (limit : forwardP s ≤ positionLimit) :
    exec (.encoderSampleInstant a b) s = .next (issueStep (forwarded a b s)) := by
  rw [exec_sample_forward run first h]
  rcases forwardCount_cases (s.setPos (sampled s.cfg.p s.cfg.n a b s.pos)) with ⟨_, beyond⟩ | ⟨e, _⟩
  · exact absurd beyond (not_lt.mpr limit)
  · rw [e]; rfl

theorem issueStep_forwarded_keeps (a b : Bool) (s : State) :
    Keeps [.pos, .seq, .zone, .acq, .cov, .trk, .corr, .link] s (issueStep (forwarded a b s)) :=
  ((forwarded_keeps a b s).mono (by decide)).trans ((issueStep_keeps _).mono (by decide))

theorem issueStep_forwarded_hands (a b : Bool) (s : State) : HandsTo s.own [.c1, .c3] s.link (issueStep (forwarded a b s)).link :=
  (((forwarded_hands a b s).mono (by decide)).trans ((issueStep_hands _).mono (by decide))).link

/-- A step issued changes the step index and next_step alone of the position (R12). -/
theorem issueStep_pos_eq (s : State) : (issueStep s).pos =
    { s.pos with sIdx := (issueStep s).pos.sIdx, nextStep := (issueStep s).pos.nextStep } := by
  by_cases h : s.rc.runState = .running ∧ s.pos.nextStep ≤ s.pos.p
  · rw [issueStep_pos h]
  · rw [issueStep_none h]

/-- STOPPING issues no step (R15). -/
theorem issueStep_stopping {s : State} (h : s.rc.runState = .stopping) : issueStep s = s :=
  issueStep_none (by rintro ⟨run, _⟩; rw [h] at run; cases run)

/-- The position after a forward count: P and f at the new value, the frontier raised; a step moves the steps alone (R7, R10). -/
theorem issueStep_forwarded_pos (a b : Bool) (s : State) : (issueStep (forwarded a b s)).pos =
    { withValue (sampled s.cfg.p s.cfg.n a b s.pos) (posValue s.pos + s.cfg.s) with
      front := max s.pos.front (forwardP s), sIdx := (issueStep (forwarded a b s)).pos.sIdx
      nextStep := (issueStep (forwarded a b s)).pos.nextStep } := by
  have pos := issueStep_pos_eq (forwarded a b s)
  have at_ : (forwarded a b s).pos = _ := congrArg State.pos (forwarded_eq a b s)
  rw [at_] at pos
  exact pos

/-- Settles O12: the position is that of the count with the frontier raised, the correlation and class 1 that of the ageing. -/
theorem forwardCountMovesPositionAndFrontier : Obligations.ForwardCountMovesPositionAndFrontier := by
  intro s a b run first q value decoded limit
  have pos := issueStep_forwarded_pos a b s
  have stops : s.rc.runState = .stopping → issueStep (forwarded a b s) = forwarded a b s := fun h =>
    issueStep_stopping (by rw [(forwarded_keeps a b s).rc (by decide), h])
  have p : (issueStep (forwarded a b s)).pos.p = forwardP s := by rw [pos]; rfl
  refine ⟨_, exec_sample_forward_within run first decoded limit, ?_, ?_, ?_, ?_, ?_, ?_, ?_, fun h => ?_, ?_,
    issueStep_forwarded_keeps a b s, issueStep_forwarded_hands a b s⟩
  · rw [pos]; exact withValue_value q value
  · rw [pos]; exact withValue_f_le q value
  · rw [pos]; rfl
  · rw [pos]; rfl
  · rw [pos]; rfl
  · rw [pos]; rfl
  · rw [pos]; rfl
  · rw [stops h]
    refine ⟨?_, ?_, (forwarded_keeps a b s).seq (by decide)⟩ <;> rw [forwarded_eq] <;> rfl
  · rw [p]
    obtain ⟨q1, drop1⟩ := (issueStep_hands (forwarded a b s)).link.c1 (by decide)
    refine ⟨?_, ?_, ?_, fun h => ?_⟩
    · rw [(issueStep_keeps _).corr (by decide), forwarded_eq]; rfl
    · rw [q1, forwarded_eq]; rfl
    · rw [drop1, forwarded_eq]; rfl
    · rw [stops h, forwarded_eq]; rfl

end Sys2Proof.Machine
end

section
/-! SUPPORT. The step that a forward count reaches (R12, R13), and what each sequencer state makes of it (R23, R28 to R32). -/

namespace Sys2Proof.Machine

/-! ### The state in which a step is taken -/

/-- From s to u a count has changed the position, and the ageing it brings the correlation and class 1: what the sequencer reads,
and class 3, are those of s. -/
structure AtStep (s u : State) : Prop where
  keeps : Keeps [.pos, .corr, .link] s u
  hands : Hands [.c1] s u

theorem atStep_forwarded (a b : Bool) (s : State) : AtStep s (forwarded a b s) := ⟨forwarded_keeps a b s, forwarded_hands a b s⟩

theorem AtStep.setPos {s u : State} (h : AtStep s u) (q : Pos) : AtStep s (u.setPos q) :=
  ⟨h.keeps.trans ((keeps_setPos _ _).mono (by decide)), h.hands.trans (.kept (keeps_setPos _ _))⟩

/-- Outcomes handed show in the coverage and the link alone. -/
theorem Took.congr {hs : List Handed} {s t u : State} (h : Took hs s t) (cov : u.cov = t.cov) (link : u.link = t.link) :
    Took hs s u := ⟨cov.trans h.cov, (congrArg Link.q3 link).trans h.sent, (congrArg Link.drop3 link).trans h.dropped⟩

section
variable {s u : State} (h : AtStep s u)
include h

theorem AtStep.cfg : u.cfg = s.cfg := h.keeps.cfg (by decide)
theorem AtStep.seq : u.seq = s.seq := h.keeps.seq (by decide)
theorem AtStep.zone : u.zone = s.zone := h.keeps.zone (by decide)
theorem AtStep.acq : u.acq = s.acq := h.keeps.acq (by decide)
theorem AtStep.rc : u.rc = s.rc := h.keeps.rc (by decide)
theorem AtStep.trk : u.trk = s.trk := h.keeps.trk (by decide)

/-- The outcomes of unfired entries are the same in both. -/
theorem AtStep.handed_unfired (hs : List Handed) (r : Reason) (i : Nat) (b : Int) (es : List PlanEntry) :
    unfiredDue (afterHanded hs u) r i b es = unfiredDue s r i b es :=
  unfiredDue_congr (by rw [afterHanded_cfg, h.cfg]) (by rw [afterHanded_seq, h.seq]) r i b es

/-- Outcomes handed at the step reach the coverage and class 3 as those of s (R78, R80). -/
theorem AtStep.took (hs : List Handed) : Took hs s (afterHanded hs u) := by
  obtain ⟨q3, drop3⟩ := h.hands.link.c3 (by decide)
  have start : Took [] s u := ⟨h.keeps.cov (by decide), q3, drop3⟩
  exact start.more h.rc h.cfg hs

/-- And the slots as those of s (R83). -/
theorem AtStep.handed_trk (hs : List Handed) : (afterHanded hs u).trk = (afterHanded hs s).trk :=
  afterHanded_trk_congr hs h.trk

end

/-- The outcomes of the steps skipped between two indices, in ascending index (R13, R32). -/
def skippedOutcomes (s : State) (old new : Nat) : List Handed :=
  (List.range' (old + 1) (new - (old + 1))).flatMap (fun j => unfiredDue s .missed j ((j : Int) * s.cfg.d) s.cfg.plan)

/-- The skipped steps follow outcomes handed before them (R32). -/
theorem AtStep.handed_skipped {s u : State} (h : AtStep s u) (before : List Handed) (old new : Nat) :
    skippedSteps (skippedBetween s.cfg.d old new) (afterHanded before u) =
      afterHanded (before ++ skippedOutcomes s old new) u := by
  rw [skippedSteps_eq, afterHanded_append]
  simp only [h.handed_unfired, afterHanded_cfg, h.cfg]
  unfold skippedBetween skippedOutcomes
  rw [List.flatMap_map]
  simp only [Nat.cast_mul]

/-- A step given up hands the outcomes of its due entries. -/
theorem AtStep.handed_giveUp {s u : State} (h : AtStep s u) (r : Reason) (i : Nat) (b : Int) (es : List PlanEntry) :
    giveUp r i b es u = afterHanded (unfiredDue s r i b es) u := by
  rw [giveUp_eq, unfiredDue_congr h.cfg (by rw [h.seq])]

/-! ### The sequencer waits for a step (R23) -/

/-- In SQ_WAIT_STEP the step's walk begins at entry 0 (R23, R24, R42, R52). -/
theorem AtStep.waitStep {s u : State} (h : AtStep s u) (sq : s.seq.sq = .waitStep) (here : StepRef) (old new : Nat) :
    let t := takeStep here (skippedBetween s.cfg.d old new) u
    Walked s s.zone here 0 (skippedOutcomes s old new) t ∧ t.trk = (afterHanded (skippedOutcomes s old new) s).trk ∧
      t.seq.waiting = none ∧ t.seq.mask = s.seq.mask ∧ (t.seq.sq ≠ .hold → t.acq = s.acq) := by
  have skips := h.handed_skipped [] old new
  rw [afterHanded_nil, List.nil_append] at skips
  unfold takeStep
  rw [h.seq, sq]
  dsimp only
  rw [skips]
  unfold startCycle
  set v := (afterHanded (skippedOutcomes s old new) u).setSeq _ with hv
  obtain ⟨mask, waiting, _, rest, trk⟩ := walkOn_rest here 0 v
  refine ⟨walkOn_walked ?_ ?_ ?_ ?_ rfl ((h.took _).congr rfl rfl), ?_, waiting, ?_, fun fires => ?_⟩
  · rw [hv, State.setSeq_zone, afterHanded_zone, h.zone]
  · rw [hv, State.setSeq_cfg, afterHanded_cfg, h.cfg]
  · rw [hv, State.setSeq_seq, afterHanded_seq, h.seq]
  · rw [hv, State.setSeq_rc, afterHanded_rc, h.rc]
  · rw [trk]; exact h.handed_trk _
  · rw [mask, hv, State.setSeq_seq, afterHanded_seq, h.seq]
  · rw [(rest fires).1, hv, State.setSeq_acq, afterHanded_acq, h.acq]

/-! ### A request stands (R29, R31, R49) -/

/-- The new walk takes over the standing request where it stops (R29). -/
theorem takeOver_stops {s v : State} {c : StepRef} {i : Nat} {e : PlanEntry} (cfg : v.cfg = s.cfg)
    (mask : v.seq.mask = s.seq.mask) (h : WalkStops s c.index 0 i e) :
    let w := afterHanded (unfiredDue s .missed c.index c.pos (s.cfg.plan.take i)) (v.setSeq { v.seq with cycle := some c })
    takeOver c v = w.setSeq { w.seq with pointer := some i } := by
  have walked := walk_stops (t := v.setSeq { v.seq with cycle := some c }) cfg mask h
  rw [List.drop_zero, List.drop_zero] at walked
  unfold takeOver
  rw [cfg, walked]

/-- The new walk withdraws the request where it finds nothing to fire (R29, R49). -/
theorem takeOver_ends {s v : State} {c : StepRef} (cfg : v.cfg = s.cfg) (mask : v.seq.mask = s.seq.mask)
    (h : WalkEnds s c.index 0) :
    let w := afterHanded (unfiredDue s .missed c.index c.pos s.cfg.plan) (v.setSeq { v.seq with cycle := some c })
    takeOver c v = finishCycle (w.setZone (zoneWithdraw w.zone)) := by
  have walked := walk_ends (t := v.setSeq { v.seq with cycle := some c }) cfg mask h
  rw [List.drop_zero] at walked
  unfold takeOver
  rw [cfg, walked]

/-- Taking over leaves the slots and the evaluation records (R29). -/
theorem takeOver_rest (c : StepRef) (v : State) : (takeOver c v).trk = v.trk ∧ (takeOver c v).acq = v.acq := by
  rcases walkEnds_or_stops v c.index 0 with h | ⟨i, e, h⟩
  · have marks := h.marks c.pos
    rw [List.drop_zero] at marks
    rw [takeOver_ends rfl rfl h]
    exact ⟨afterHanded_trk _ _ marks, afterHanded_acq _ _⟩
  · have marks := h.marks c.pos
    rw [List.drop_zero] at marks
    rw [takeOver_stops rfl rfl h]
    exact ⟨afterHanded_trk _ _ marks, afterHanded_acq _ _⟩

/-- In SQ_PENDING the pending entry and the later due ones are given up, and the new walk takes over the request or withdraws it
(R29, R31, R49). -/
theorem AtStep.pending {s u : State} (h : AtStep s u) (sq : s.seq.sq = .pending) {c : StepRef} {i : Nat}
    (cycle : s.seq.cycle = some c) (pointer : s.seq.pointer = some i) (here : StepRef) (old new : Nat) :
    let t := takeStep here (skippedBetween s.cfg.d old new) u
    let given := unfiredDue s (if s.zone.stuck = true then .blocked else .missed) c.index c.pos (s.cfg.plan.drop i) ++
      skippedOutcomes s old new
    t.trk = (afterHanded given s).trk ∧ t.acq = s.acq ∧
      (∀ i' e, WalkStops s here.index 0 i' e →
        Took (given ++ unfiredDue s .missed here.index here.pos (s.cfg.plan.take i')) s t ∧
        t.seq = { s.seq with cycle := some here, pointer := some i' } ∧ t.zone = s.zone) ∧
      (WalkEnds s here.index 0 →
        Took (given ++ unfiredDue s .missed here.index here.pos s.cfg.plan) s t ∧
        t.seq = { s.seq with sq := .waitStep, cycle := none, pointer := none } ∧ t.zone = zoneWithdraw s.zone) := by
  intro t given
  have taken : t = takeOver here (afterHanded given u) := by
    have gives : giveUpInPending u = afterHanded (unfiredDue s (if s.zone.stuck = true then .blocked else .missed)
        c.index c.pos (s.cfg.plan.drop i)) u := by
      unfold giveUpInPending
      rw [h.seq, cycle, pointer, h.zone, h.cfg]
      exact h.handed_giveUp ..
    show takeStep here _ u = _
    unfold takeStep
    rw [h.seq, sq]
    dsimp only
    rw [gives, h.handed_skipped]
  have cfg : (afterHanded given u).cfg = s.cfg := by rw [afterHanded_cfg, h.cfg]
  have seq : (afterHanded given u).seq = s.seq := by rw [afterHanded_seq, h.seq]
  have zone : (afterHanded given u).zone = s.zone := by rw [afterHanded_zone, h.zone]
  have start : Took given s ((afterHanded given u).setSeq { (afterHanded given u).seq with cycle := some here }) :=
    (h.took given).congr rfl rfl
  have rc : (afterHanded given u).rc = s.rc := by rw [afterHanded_rc, h.rc]
  obtain ⟨trk, acq⟩ := takeOver_rest here (afterHanded given u)
  refine ⟨?_, ?_, fun i' e stops => ?_, fun ends => ?_⟩
  · rw [taken, trk]; exact h.handed_trk _
  · rw [taken, acq, afterHanded_acq, h.acq]
  · rw [taken, takeOver_stops cfg (by rw [seq]) stops]
    refine ⟨(start.more rc cfg _).congr rfl rfl, ?_, ?_⟩
    · rw [State.setSeq_seq, afterHanded_seq, State.setSeq_seq, seq]
    · rw [State.setSeq_zone, afterHanded_zone, State.setSeq_zone, zone]
  · rw [taken, takeOver_ends cfg (by rw [seq]) ends]
    refine ⟨(start.more rc cfg _).congr rfl rfl, ?_, ?_⟩
    · unfold finishCycle
      rw [State.setSeq_seq, State.setZone_seq, afterHanded_seq, State.setSeq_seq, seq]
    · unfold finishCycle
      rw [State.setSeq_zone, State.setZone_zone, afterHanded_zone, State.setSeq_zone, zone]

theorem zoneWithdraw_wait {z : Zone} (h : z.ctl = .wait) : zoneWithdraw z = { z with ctl := .idle } := by
  unfold zoneWithdraw; rw [h]

theorem zoneWithdraw_claim {z : Zone} (h : z.ctl = .claim) : zoneWithdraw z = { z with orphaned := true } := by
  unfold zoneWithdraw; rw [h]

theorem zoneWithdraw_rest {z : Zone} (wait : z.ctl ≠ .wait) (claim : z.ctl ≠ .claim) : zoneWithdraw z = z := by
  unfold zoneWithdraw
  split
  · exact absurd ‹_› wait
  · exact absurd ‹_› claim
  all_goals rfl

/-! ### A volley in hold (R28, R30) -/

/-- In SQ_HOLD what is given up and the skipped steps hand their outcomes, and the step becomes the waiting cycle (R28, R30). -/
theorem AtStep.hold {s u : State} (h : AtStep s u) (sq : s.seq.sq = .hold) (here : StepRef) (old new : Nat) :
    let t := takeStep here (skippedBetween s.cfg.d old new) u
    (t.seq = { s.seq with waiting := some here, cycle := none, pointer := none } ∧ t.zone = s.zone ∧ t.acq = s.acq) ∧
    ∀ before, giveUpInHold u = afterHanded before u →
      Took (before ++ skippedOutcomes s old new) s t ∧ t.trk = (afterHanded (before ++ skippedOutcomes s old new) s).trk := by
  intro t
  have kept := (giveUpInHold_keeps u).trans (skippedSteps_keeps (skippedBetween s.cfg.d old new) _)
  have taken : t = (skippedSteps (skippedBetween s.cfg.d old new) (giveUpInHold u)).setSeq
      { s.seq with waiting := some here, cycle := none, pointer := none } := by
    show takeStep here _ u = _
    unfold takeStep
    rw [h.seq, sq]
    dsimp only
    rw [kept.seq (by decide), h.seq]
  rw [taken]
  refine ⟨⟨rfl, (kept.zone (by decide)).trans h.zone, (kept.acq (by decide)).trans h.acq⟩, fun before gives => ?_⟩
  rw [gives, h.handed_skipped]
  exact ⟨(h.took _).congr rfl rfl, h.handed_trk _⟩

/-- A waiting cycle is given up whole (R30). -/
theorem AtStep.giveUpInHold_waiting {s u : State} (h : AtStep s u) {w : StepRef} (waiting : s.seq.waiting = some w) :
    giveUpInHold u = afterHanded (unfiredDue s .missed w.index w.pos s.cfg.plan) u := by
  unfold giveUpInHold
  rw [h.seq, waiting, h.cfg]
  exact h.handed_giveUp ..

/-- With none waiting, the later entries of the old cycle are (R28). -/
theorem AtStep.giveUpInHold_cycle {s u : State} (h : AtStep s u) {c : StepRef} {v : Volley} (waiting : s.seq.waiting = none)
    (cycle : s.seq.cycle = some c) (volley : s.seq.volley = some v) : giveUpInHold u =
      afterHanded (unfiredDue s .missed c.index c.pos (s.cfg.plan.drop (v.entry + 1))) u := by
  unfold giveUpInHold
  rw [h.seq, waiting, cycle, volley, h.cfg]
  exact h.handed_giveUp ..

/-! ### The step reached -/

/-- The step issued where P has reached next_step, in the state with the steps moved (R12, R13). -/
theorem issueStep_taken {s : State} (h : s.rc.runState = .running ∧ s.pos.nextStep ≤ s.pos.p) : issueStep s =
    takeStep ⟨(issueStep s).pos.sIdx, ((issueStep s).pos.sIdx : Int) * s.cfg.d⟩
      (skippedBetween s.cfg.d s.pos.sIdx (issueStep s).pos.sIdx) (s.setPos (issueStep s).pos) := by
  rw [issueStep_pos h]
  unfold issueStep
  rw [if_pos h]
  simp only [Nat.cast_mul]

/-- The forward count that reaches next_step issues the step of index the floor of P/D, and next_step becomes the multiple of D
beyond P (R12, R13, R14). -/
theorem TravelLaw.step_reached {s : State} (law : TravelLaw s) (a b : Bool) (run : s.rc.runState = .running)
    (reached : s.pos.nextStep ≤ forwardP s) :
    let k := (issueStep (forwarded a b s)).pos.sIdx
    s.pos.sIdx < k ∧ (k : Int) = forwardP s / s.cfg.d ∧
      (issueStep (forwarded a b s)).pos.nextStep = ((k : Int) + 1) * s.cfg.d ∧
      ∃ u, AtStep s u ∧ issueStep (forwarded a b s) =
        takeStep ⟨k, (k : Int) * s.cfg.d⟩ (skippedBetween s.cfg.d s.pos.sIdx k) u := by
  have at_ := atStep_forwarded a b s
  have hd : 0 < s.cfg.d := by
    have := (law.size (operating_of_running run)).1
    omega
  obtain ⟨next, _⟩ := law.step run
  obtain ⟨index, beyond⟩ := step_issued hd next reached
  have old : (forwarded a b s).pos.sIdx = s.pos.sIdx := by rw [forwarded_eq]; rfl
  have running : (forwarded a b s).rc.runState = .running ∧ (forwarded a b s).pos.nextStep ≤ (forwarded a b s).pos.p := by
    rw [at_.rc, forwarded_eq]; exact ⟨run, reached⟩
  have taken := issueStep_taken running
  rw [old, at_.cfg] at taken
  have pos := issueStep_pos running
  have k : (issueStep (forwarded a b s)).pos.sIdx = s.pos.sIdx + stepsReached s.cfg.d s.pos.nextStep (forwardP s) := by
    rw [pos, at_.cfg, forwarded_eq]; rfl
  refine ⟨?_, ?_, ?_, _, at_.setPos _, taken⟩
  · rw [k]; exact Nat.lt_add_of_pos_right (Nat.succ_pos _)
  · rw [k]; exact index
  · rw [k, ← beyond, pos, at_.cfg, forwarded_eq]; rfl

/-- What a count that issues no step leaves of the sequencer, the zone line, the coverage and the slots: all of it. -/
theorem AtStep.stays {s u : State} (h : AtStep s u) : u.seq = s.seq ∧ u.zone = s.zone ∧ u.acq = s.acq ∧ u.cov = s.cov ∧
    u.trk = s.trk ∧ HandsTo s.own [.c1] s.link u.link :=
  ⟨h.seq, h.zone, h.acq, h.keeps.cov (by decide), h.trk, h.hands.link⟩

/-- A sequencer that is off takes no step (R36). -/
theorem takeStep_off {s : State} (h : s.seq.sq = .off) (step : StepRef) (skipped : List StepRef) :
    takeStep step skipped s = s := by
  unfold takeStep; rw [h]

/-- Settles O16: the step reached is taken in a state that the sequencer does not tell from s, in each of its states. -/
theorem stepIsIssuedAtNextStep : Obligations.StepIsIssuedAtNextStep := by
  intro s a b run first law q p stays decoded limit
  have at_ := atStep_forwarded a b s
  refine ⟨_, exec_sample_forward_within (inRun_of_running run) first decoded limit, issueStep_forwarded_hands a b s,
    fun short => ?_, fun reached => ?_⟩
  · have none : issueStep (forwarded a b s) = forwarded a b s := issueStep_none (by
      rintro ⟨_, r⟩; rw [forwarded_eq] at r; exact absurd r (not_le.mpr short))
    rw [none]
    refine ⟨?_, ?_, at_.stays⟩ <;> rw [forwarded_eq] <;> rfl
  · obtain ⟨after, index, next, u, hu, taken⟩ := law.step_reached a b run reached
    intro k here skipped
    refine ⟨after, index, next, fun off => ?_, fun waits => ?_, fun c i sq cycle pointer => ?_, fun sq => ?_⟩
    · rw [taken, takeStep_off (by rw [hu.seq, off])]
      exact hu.stays
    · rw [taken]
      exact hu.waitStep waits here s.pos.sIdx k
    · obtain ⟨trk, acq, takesOver, withdraws⟩ := hu.pending sq cycle pointer here s.pos.sIdx k
      rw [taken]
      refine ⟨trk, acq, takesOver, fun ends => ?_⟩
      obtain ⟨took, seq, zone⟩ := withdraws ends
      refine ⟨took, seq, fun wait => ?_, fun claim => ?_, fun wait claim => ?_⟩
      · exact zone.trans (zoneWithdraw_wait wait)
      · exact zone.trans (zoneWithdraw_claim claim)
      · exact zone.trans (zoneWithdraw_rest wait claim)
    · obtain ⟨⟨seq, zone, acq⟩, given⟩ := hu.hold sq here s.pos.sIdx k
      rw [taken]
      exact ⟨seq, zone, acq, fun w waiting => given _ (hu.giveUpInHold_waiting waiting),
        fun c v waiting cycle volley => given _ (hu.giveUpInHold_cycle waiting cycle volley)⟩

end Sys2Proof.Machine
end

section
/-! SUPPORT. What a load accepts (R147): each field as its rule corrects it, each warning where its correction was made, and the
ranges that the corrections give. -/

namespace Sys2Proof.Machine

/-! ### Corrected values -/

@[simp] theorem atLeast_value (lo n : Nat) : (atLeast lo n).value = max lo n := rfl
@[simp] theorem atMost_value (hi n : Nat) : (atMost hi n).value = min hi n := rfl
@[simp] theorem within_value (lo hi n : Nat) : (within lo hi n).value = min hi (max lo n) := rfl

@[simp] theorem atLeast_warned (lo n : Nat) : (atLeast lo n).warned = true ↔ n < lo := decide_eq_true_iff
@[simp] theorem atMost_warned (hi n : Nat) : (atMost hi n).warned = true ↔ hi < n := decide_eq_true_iff
@[simp] theorem within_warned (lo hi n : Nat) : (within lo hi n).warned = true ↔ n < lo ∨ hi < n := decide_eq_true_iff

@[simp] theorem fitDivider_warned (n : Nat) : (fitDivider n).warned = true ↔ (fitDivider n).value ≠ n := decide_eq_true_iff
@[simp] theorem fitQ_warned (n : Nat) : (fitQ n).warned = true ↔ (fitQ n).value ≠ n := decide_eq_true_iff
@[simp] theorem fitEnd_warned (h : Option Nat) (n : Nat) : (fitEnd h n).warned = true ↔ (fitEnd h n).value ≠ n := decide_eq_true_iff

/-- A value within its range is as given, and one outside is not. -/
theorem within_ne {lo hi : Nat} (h : lo ≤ hi) (n : Nat) : (within lo hi n).value ≠ n ↔ n < lo ∨ hi < n := by
  rw [within_value]; omega

/-- A set divider is at least 1. -/
theorem fitDivider_pos (n : Nat) : 0 < (fitDivider n).value := by
  have := (fitDivider_value n).2.2 1 (by simp)
  have := (fitDivider_value n).1
  revert this
  generalize (fitDivider n).value = v
  simp only [List.mem_cons, List.not_mem_nil, or_false]
  omega

/-- Bit b of a beam set is bit b of its field (R158). -/
theorem readBeams_getLsbD (im : List Byte) (off : Nat) {beam : Nat} (h : beam < 9) :
    (readBeams im off).getLsbD beam = (wordAt im off).testBit beam := by
  rw [readBeams, BitVec.getLsbD_ofNat, decide_eq_true h, Bool.true_and]

/-- The counting mode of a two-bit code (R1). -/
theorem readMode_eq : ∀ n < 4, readMode n = [CountMode.x1, .x2, .x4, .x4].getD n .x4 := by decide

/-! ### The firing plan (R19) -/

theorem planLength_range {im : List Byte} {len : Nat} (h : planLength im = some len) : 1 ≤ len ∧ len ≤ 32 := by
  obtain ⟨e, he, rfl⟩ := Option.map_eq_some_iff.1 h
  have := List.mem_range.1 (List.mem_of_find?_eq_some he)
  omega

/-- Past check 5 no entry is empty or overfull (R147). -/
theorem entryChans_of_noFault {im : List Byte} {len e : Nat} (h : entryFault im len = none) (he : e < len) :
    1 ≤ (chansOf (entryChans im e)).length ∧ (chansOf (entryChans im e)).length ≤ 4 := by
  have none_at := List.findSome?_eq_none_iff.1 h e (List.mem_range.2 he)
  split at none_at
  · cases none_at
  · split at none_at
    · cases none_at
    · omega

theorem readEntry_inRange {im : List Byte} {len e : Nat} (h : entryFault im len = none) (he : e < len) :
    EntryInRange (readEntry im e).1 where
  chans := entryChans_of_noFault h he
  hold := by
    show 10 ≤ (within 10 250 _).value ∧ (within 10 250 _).value ≤ 250
    rw [within_value]; omega
  divider := (fitDivider_value _).1
  phase := Nat.mod_lt _ (fitDivider_pos _)

/-- A plan entry is corrected, with a warning, where a field of it is not as given (R19). -/
theorem readEntry_warned (im : List Byte) (e : Nat) : (readEntry im e).2 = true ↔
    (readEntry im e).1.hold ≠ byteAt im (entryOffset e + 1) ∨ (readEntry im e).1.divider ≠ byteAt im (entryOffset e + 2) ∨
    (readEntry im e).1.phase ≠ byteAt im (entryOffset e + 3) % 128 := by
  have phase : ∀ {d : Nat} (n : Nat), 0 < d → (d ≤ n ↔ n % d ≠ n) := fun n hd => by
    rw [Ne, Nat.mod_eq_iff_lt hd.ne', not_lt]
  unfold readEntry
  dsimp only
  rw [Bool.or_eq_true, Bool.or_eq_true, within_warned, fitDivider_warned, decide_eq_true_iff, within_ne (by decide), or_assoc,
    phase _ (fitDivider_pos _)]

/-! ### Ports (R21) -/

/-- A port stays with the one channel that names it (R21). -/
theorem fitPort_iff (im : List Byte) (c : Chan) (port : Nat) : fitPort im c = some port ↔
    port < 12 ∧ byteAt im (chanOffset c) = port ∧ ∀ d, byteAt im (chanOffset d) = port → d = c := by
  unfold fitPort rawPort readPort
  by_cases known : byteAt im (chanOffset c) < 12
  · rw [if_pos known]
    dsimp only
    cases conflict : portConflict im (byteAt im (chanOffset c)) with
    | true =>
      obtain ⟨d, e, ne, hd, he⟩ := (portConflict_iff im known).1 conflict
      simp only [if_true, reduceCtorEq, false_iff, not_and]
      rintro _ rfl only
      exact ne ((only d hd).trans (only e he).symm)
    | false =>
      simp only [Bool.false_eq_true, if_false, Option.some.injEq]
      constructor
      · rintro rfl
        refine ⟨known, rfl, fun d hd => by_contra fun ne => ?_⟩
        rw [(portConflict_iff im known).2 ⟨d, c, ne, hd, rfl⟩] at conflict
        cases conflict
      · exact fun h => h.2.1
  · rw [if_neg known]
    simp only [reduceCtorEq, false_iff, not_and]
    omega

theorem rawPort_warned (im : List Byte) (c : Chan) : (rawPort im c).2 = true ↔
    12 ≤ byteAt im (chanOffset c) ∧ byteAt im (chanOffset c) ≠ 255 := by
  unfold rawPort readPort
  split
  · simp; omega
  · simp; omega

/-! ### A channel (R21, R55 to R58, R71, R85, R95) -/

/-- A gate end lies within 6143 and within the hold of every entry that names its channel (R55, R56). -/
theorem fitEnd_le (plan : List PlanEntry) (c : Chan) (given : Nat) : (fitEnd (shortestHold plan c) given).value ≤ 6143 ∧
    ∀ e ∈ plan, inSet e.chans c = true → (fitEnd (shortestHold plan c) given).value ≤ 25 * e.hold := by
  obtain ⟨_, least⟩ := fitEnd_value plan c given
  refine ⟨least _ (by simp), fun e he hc => least _ ?_⟩
  exact List.mem_cons_of_mem _ (List.mem_cons_of_mem _ (List.mem_map.2 ⟨e, List.mem_filter.2 ⟨he, hc⟩, rfl⟩))

/-- An M gate that the image enables is corrected as an F gate is, but for the wedge delay (R55, R56, R58). -/
theorem readM_read {im : List Byte} {off : Nat} (h : bitAt im (off + 0x0E) 0 = false) (hold : Option Nat) :
    readM im off hold =
      (⟨decide (wordAt im (off + 0x08) < (fitEnd hold (wordAt im (off + 0x0A))).value), wordAt im (off + 0x08),
        (fitEnd hold (wordAt im (off + 0x0A))).value, (fitThreshold (byteAt im (off + 0x0C))).value,
        (fitQ (byteAt im (off + 0x0D))).value⟩,
       (fitEnd hold (wordAt im (off + 0x0A))).warned || (fitThreshold (byteAt im (off + 0x0C))).warned ||
        (fitQ (byteAt im (off + 0x0D))).warned,
       !decide (wordAt im (off + 0x08) < (fitEnd hold (wordAt im (off + 0x0A))).value)) := by
  unfold readM; rw [h]; rfl

theorem readM_skipped {im : List Byte} {off : Nat} (h : bitAt im (off + 0x0E) 0 = true) (hold : Option Nat) :
    readM im off hold = (MGate.cleared, false, false) := by
  unfold readM; rw [h]; rfl

theorem fitThreshold_range (n : Nat) : 1 ≤ (fitThreshold n).value ∧ (fitThreshold n).value ≤ 254 := by
  unfold fitThreshold; rw [within_value]; omega

/-- An enabled M gate lies within its hold and its ranges (R55, R56, R58). -/
theorem readM_inRange (im : List Byte) (off : Nat) (plan : List PlanEntry) (c : Chan) :
    let m := (readM im off (shortestHold plan c)).1
    m.enabled = true → m.start < m.stop ∧ m.stop ≤ 6143 ∧ (1 ≤ m.threshold ∧ m.threshold ≤ 254 ∧ m.q ∈ [1, 2, 3, 4, 6, 8]) ∧
      ∀ e ∈ plan, inSet e.chans c = true → m.stop ≤ 25 * e.hold := by
  cases skipped : bitAt im (off + 0x0E) 0 with
  | true => rw [readM_skipped skipped]; intro m on; cases on
  | false =>
    rw [readM_read skipped]
    intro m on
    obtain ⟨top, holds⟩ := fitEnd_le plan c (wordAt im (off + 0x0A))
    obtain ⟨low, high⟩ := fitThreshold_range (byteAt im (off + 0x0C))
    exact ⟨of_decide_eq_true on, top, ⟨low, high, (fitQ_value _).1⟩, holds⟩

theorem readChan_inRange (im : List Byte) (plan : List PlanEntry) (c : Chan) : ChanInRange (readChan im plan c).1 where
  port p h := Nat.le_of_lt_succ ((fitPort_iff im c p).1 h).1
  fGate on := ⟨of_decide_eq_true on, (fitEnd_le ..).1, le_max_right ..⟩
  fLevel := ⟨(fitThreshold_range _).1, (fitThreshold_range _).2, (fitQ_value _).1⟩
  mGate on := by
    obtain ⟨below, top, _⟩ := readM_inRange im (chanOffset c) plan c on
    exact ⟨below, top⟩
  mLevel on := by
    obtain ⟨_, _, level, _⟩ := readM_inRange im (chanOffset c) plan c on
    exact level
  wedge := min_le_left ..
  runs := by
    have := byteAt_lt im (chanOffset c + 0x12)
    show (1 ≤ max 1 (byteAt im (chanOffset c + 0x12) % 16) ∧ max 1 (byteAt im (chanOffset c + 0x12) % 16) ≤ 15) ∧
      (1 ≤ max 1 (byteAt im (chanOffset c + 0x12) / 16) ∧ max 1 (byteAt im (chanOffset c + 0x12) / 16) ≤ 15) ∧
      (1 ≤ max 1 (byteAt im (chanOffset c + 0x13) % 16) ∧ max 1 (byteAt im (chanOffset c + 0x13) % 16) ≤ 15)
    omega
  beam := min_le_left ..
  path := by
    have := wordAt_lt im (chanOffset c + 0x15)
    show 1 ≤ max 1 (wordAt im (chanOffset c + 0x15)) ∧ max 1 (wordAt im (chanOffset c + 0x15)) ≤ 65535
    omega
  angle := ⟨min_le_left .., min_le_left ..⟩
  offset := by
    have value := signed16_eq (wordAt_lt im (chanOffset c + 0x1B))
    have := wordAt_lt im (chanOffset c + 0x1B)
    show -32767 ≤ max (-32767) (signed16 (wordAt im (chanOffset c + 0x1B))) ∧
      max (-32767) (signed16 (wordAt im (chanOffset c + 0x1B))) ≤ 32767
    rw [value]
    split <;> omega
  tolerance := ⟨Nat.le_of_lt_succ (byteAt_lt ..), Nat.le_of_lt_succ (byteAt_lt ..)⟩
  tracking := by
    show (1 ≤ max 1 (byteAt im (chanOffset c + 0x1F) % 16) ∧ max 1 (byteAt im (chanOffset c + 0x1F) % 16) ≤ 15) ∧
      (1 ≤ max 1 (byteAt im (chanOffset c + 0x20) % 32) ∧ max 1 (byteAt im (chanOffset c + 0x20) % 32) ≤ 31)
    omega

/-! ### The whole image -/

section
variable (im : List Byte) (len : Nat)

/-- The channel parameters and warnings of an image (R147). -/
theorem readImage_chan (c : Chan) : (readImage im len).1.chan.get c = (readChan im (readImage im len).1.plan c).1 ∧
    (readImage im len).2.chan.get c = (readChan im (readImage im len).1.plan c).2 := by
  cases c <;> exact ⟨rfl, rfl⟩

theorem readImage_plan : (readImage im len).1.plan = (List.range len).map (fun e => (readEntry im e).1) := by
  show (readPlan im len).map Prod.fst = _
  unfold readPlan
  rw [List.map_map]
  rfl

theorem readImage_plan_getElem? {e : Nat} {entry : PlanEntry} : (readImage im len).1.plan[e]? = some entry ↔
    e < len ∧ entry = (readEntry im e).1 := by
  rw [readImage_plan, List.getElem?_map]
  by_cases he : e < len
  · rw [List.getElem?_range he]; simp [he, eq_comm]
  · rw [List.getElem?_eq_none (by rw [List.length_range]; omega)]; simp [he]

theorem readImage_rules_getElem? {i : Nat} (h : i < byteAt im 0x193) :
    (readImage im len).1.rules[i]? = some (readRule im i).1 := by
  show ((List.range (byteAt im 0x193)).map _)[i]? = _
  rw [List.getElem?_map, List.getElem?_range h]
  rfl

theorem readImage_rules_length : (readImage im len).1.rules.length = byteAt im 0x193 := by
  show ((List.range (byteAt im 0x193)).map _).length = _
  rw [List.length_map, List.length_range]

end

theorem readRule_inRange (im : List Byte) (i : Nat) : RuleInRange (readRule im i).1 where
  dx := Nat.le_of_lt_succ (Nat.mod_lt _ (by decide))
  dz := Nat.le_of_lt_succ (byteAt_lt ..)
  cls := by
    show 1 ≤ max 1 (byteAt im (ruleOffset i + 7) % 4) ∧ max 1 (byteAt im (ruleOffset i + 7) % 4) ≤ 3
    omega

/-- The configuration of an image past its checks lies within its ranges (R1, R19, R21, R39, R55 to R58, R71, R85, R95, R112). -/
theorem readImage_inRange {im : List Byte} {len : Nat} (hl : planLength im = some len) (hf : entryFault im len = none)
    (hr : byteAt im 0x193 ≤ 8) : ParamsInRange (readImage im len).1 where
  encoder := by
    have := byteAt_lt im 0x003
    have := wordAt_lt im 0x005
    refine ⟨?_, ?_, ?_, ?_⟩
    · show 1 ≤ max 1 (byteAt im 0x003) ∧ max 1 (byteAt im 0x003) ≤ 255
      omega
    · show (if bitAt im 0x004 0 then 8 else 4) = 4 ∨ (if bitAt im 0x004 0 then 8 else 4) = 8
      split <;> simp
    · show 1 ≤ max 1 (wordAt im 0x005) ∧ max 1 (wordAt im 0x005) ≤ 65535
      omega
    · show 4 ≤ min 60 (max 4 (byteAt im 0x007)) ∧ min 60 (max 4 (byteAt im 0x007)) ≤ 60
      omega
  plan := by
    refine ⟨?_, fun e he => ?_⟩
    · rw [readImage_plan, List.length_map, List.length_range]; exact planLength_range hl
    · rw [readImage_plan] at he
      obtain ⟨i, hi, rfl⟩ := List.mem_map.1 he
      exact readEntry_inRange hf (List.mem_range.1 hi)
  stuck := by
    have := byteAt_lt im 0x088
    show 1 ≤ max 1 (byteAt im 0x088) ∧ max 1 (byteAt im 0x088) ≤ 255
    omega
  chan c := by rw [(readImage_chan im len c).1]; exact readChan_inRange ..
  ports c d n hc hd := by
    rw [(readImage_chan im len c).1] at hc
    rw [(readImage_chan im len d).1] at hd
    obtain ⟨_, atC, _⟩ := (fitPort_iff im c n).1 hc
    exact ((fitPort_iff im d n).1 hd).2.2 c atC
  fitted e he c hc := by
    rw [(readImage_chan im len c).1]
    refine ⟨fun _ => (fitEnd_le ..).2 e he hc, fun on => ?_⟩
    obtain ⟨_, _, _, holds⟩ := readM_inRange im (chanOffset c) (readImage im len).1.plan c on
    exact holds e he hc
  lmax := by
    show 16 ≤ max 16 (wordAt im 0x191 % 4096) ∧ max 16 (wordAt im 0x191 % 4096) ≤ 4095
    omega
  rules := by
    refine ⟨by rw [readImage_rules_length]; exact hr, fun r h => ?_⟩
    obtain ⟨i, _, rfl⟩ := List.mem_map.1 h
    exact readRule_inRange im i
  horizon := by
    show 2000 ≤ min 80000 (max 2000 (tripleAt im 0x1D4 % 131072)) ∧ min 80000 (max 2000 (tripleAt im 0x1D4 % 131072)) ≤ 80000
    omega
  drain := by
    have := byteAt_lt im 0x1DA
    show 1 ≤ max 1 (byteAt im 0x1DA) ∧ max 1 (byteAt im 0x1DA) ≤ 255
    omega

/-! ### Each warning where its correction was made (R149) -/

/-- The F gate of a channel and its warnings (R55 to R58). -/
theorem readF_warned (im : List Byte) (off : Nat) (hold : Option Nat) (wedge : Nat) :
    let f := readF im off hold wedge
    (f.1.enabled = true ↔ f.1.start < f.1.stop) ∧ (f.2.2 = true ↔ f.1.stop ≤ f.1.start) ∧
      (f.2.1 = true ↔ f.1.start ≠ wordAt im (off + 0x01) ∨ f.1.stop ≠ wordAt im (off + 0x03) ∨
        f.1.threshold ≠ byteAt im (off + 0x05) ∨ f.1.q ≠ byteAt im (off + 0x06)) := by
  have raised : ∀ start : Nat, start < wedge ↔ max start wedge ≠ start := by omega
  unfold readF fitThreshold
  dsimp only
  refine ⟨decide_eq_true_iff, ?_, ?_⟩
  · rw [Bool.not_eq_true', decide_eq_false_iff_not, not_lt]
  · rw [Bool.or_eq_true, Bool.or_eq_true, Bool.or_eq_true, fitEnd_warned, within_warned, ← within_ne (by decide), fitQ_warned,
      decide_eq_true_iff, raised]
    tauto

/-- The M gate of a channel that the image enables, and its warnings (R55, R56, R58). -/
theorem readM_warned {im : List Byte} {off : Nat} (h : bitAt im (off + 0x0E) 0 = false) (hold : Option Nat) :
    let m := readM im off hold
    (m.1.enabled = true ↔ m.1.start < m.1.stop) ∧ (m.2.2 = true ↔ m.1.stop ≤ m.1.start) ∧
      (m.2.1 = true ↔ m.1.stop ≠ wordAt im (off + 0x0A) ∨ m.1.threshold ≠ byteAt im (off + 0x0C) ∨
        m.1.q ≠ byteAt im (off + 0x0D)) := by
  rw [readM_read h]
  unfold fitThreshold
  dsimp only
  refine ⟨decide_eq_true_iff, ?_, ?_⟩
  · rw [Bool.not_eq_true', decide_eq_false_iff_not, not_lt]
  · rw [Bool.or_eq_true, Bool.or_eq_true, fitEnd_warned, within_warned, ← within_ne (by decide), fitQ_warned, or_assoc]

/-- Two channels name a port of the conflict list (R21). -/
theorem portConflicts_getElem? (im : List Byte) (len port : Nat) : (readImage im len).2.portConflict[port]? = some true ↔
    port < 12 ∧ ∃ c d : Chan, c ≠ d ∧ byteAt im (chanOffset c) = port ∧ byteAt im (chanOffset d) = port := by
  show ((List.range 12).map (portConflict im))[port]? = some true ↔ _
  rw [List.getElem?_map]
  by_cases h : port < 12
  · rw [List.getElem?_range h, ← portConflict_iff im h]; simp [h]
  · rw [List.getElem?_eq_none (by rw [List.length_range]; omega)]; simp [h]

/-- RULE_CLASS of a rule (R112). -/
theorem ruleClass_getElem? (im : List Byte) (len i : Nat) : (readImage im len).2.ruleClass[i]? = some true ↔
    i < 8 ∧ i < byteAt im 0x193 ∧ byteAt im (ruleOffset i + 7) % 4 = 0 := by
  show ((List.range 8).map (fun i => decide (i < byteAt im 0x193) && (readRule im i).2))[i]? = some true ↔ _
  have warned : (readRule im i).2 = true ↔ byteAt im (ruleOffset i + 7) % 4 = 0 :=
    (atLeast_warned _ _).trans Nat.lt_one_iff
  rw [List.getElem?_map]
  by_cases h : i < 8
  · rw [List.getElem?_range h]; simp [h, warned]
  · rw [List.getElem?_eq_none (by rw [List.length_range]; omega)]; simp [h]

/-- The plan warning stands where some entry was corrected (R19). -/
theorem planWarned_iff (im : List Byte) (len : Nat) : (readImage im len).2.plan = true ↔ ∃ e < len, (readEntry im e).2 = true := by
  show (readPlan im len).any Prod.snd = true ↔ _
  unfold readPlan
  simp only [List.any_map, List.any_eq_true, List.mem_range, Function.comp_apply]

/-- The encoder warning stands where a field of chapter 1 was corrected (R1). -/
theorem encoderWarned_iff (im : List Byte) (len : Nat) : (readImage im len).2.encoder = true ↔
    byteAt im 0x003 = 0 ∨ byteAt im 0x004 / 2 % 4 = 3 ∨ wordAt im 0x005 = 0 ∨ byteAt im 0x007 < 4 ∨ 60 < byteAt im 0x007 := by
  show ((atLeast 1 (byteAt im 0x003)).warned || (atLeast 1 (wordAt im 0x005)).warned ||
    (within 4 60 (byteAt im 0x007)).warned || decide (byteAt im 0x004 / 2 % 4 = 3)) = true ↔ _
  rw [Bool.or_eq_true, Bool.or_eq_true, Bool.or_eq_true, atLeast_warned, atLeast_warned, within_warned, decide_eq_true_iff]
  omega

/-- The coupling warning stands where a run length of 0 was corrected (R71). -/
theorem couplingWarned_iff (im : List Byte) (plan : List PlanEntry) (c : Chan) : (readChan im plan c).2.coupling = true ↔
    byteAt im (chanOffset c + 0x12) % 16 = 0 ∨ byteAt im (chanOffset c + 0x12) / 16 = 0 ∨
      byteAt im (chanOffset c + 0x13) % 16 = 0 := by
  show ((atLeast 1 (byteAt im (chanOffset c + 0x12) % 16)).warned || (atLeast 1 (byteAt im (chanOffset c + 0x12) / 16)).warned ||
    (atLeast 1 (byteAt im (chanOffset c + 0x13) % 16)).warned) = true ↔ _
  rw [Bool.or_eq_true, Bool.or_eq_true, atLeast_warned, atLeast_warned, atLeast_warned]
  omega

/-- The tracking warning stands where a gap tolerance or a least hit count of 0 was corrected (R95). -/
theorem trackingWarned_iff (im : List Byte) (plan : List PlanEntry) (c : Chan) : (readChan im plan c).2.tracking = true ↔
    byteAt im (chanOffset c + 0x1F) % 16 = 0 ∨ byteAt im (chanOffset c + 0x20) % 32 = 0 := by
  show ((atLeast 1 (byteAt im (chanOffset c + 0x1F) % 16)).warned ||
    (atLeast 1 (byteAt im (chanOffset c + 0x20) % 32)).warned) = true ↔ _
  rw [Bool.or_eq_true, atLeast_warned, atLeast_warned]
  omega

/-- The probe offset is the signed field, but for its least value (R85). -/
theorem readChan_offset (im : List Byte) (plan : List PlanEntry) (c : Chan) :
    let n := wordAt im (chanOffset c + 0x1B)
    let signed := if n < 32768 then (n : Int) else n - 65536
    (readChan im plan c).1.offset = max (-32767) signed ∧ ((readChan im plan c).2.offset = true ↔ signed = -32768) := by
  intro n signed
  have value : signed16 n = signed := signed16_eq (wordAt_lt ..)
  rw [← value]
  exact ⟨rfl, decide_eq_true_iff⟩

theorem Chan.num_ofNum {n : Nat} (h : n < 8) : (Chan.ofNum n).num = n := by interval_cases n <;> rfl

/-- Settles O8. -/
theorem acceptedConfigurationIsInRange : Obligations.AcceptedConfigurationIsInRange := by
  intro bytes p w accepted
  obtain ⟨len, length, entries, rules, read⟩ := judgeImage_accepted accepted
  obtain ⟨rfl, rfl⟩ : p = (readImage (imageBytes bytes) len).1 ∧ w = (readImage (imageBytes bytes) len).2 := by
    rw [read]; exact ⟨rfl, rfl⟩
  generalize imageBytes bytes = im at *
  intro b b2 rounded record
  have entry_at : ∀ e, 0x009 + 4 * e = entryOffset e + 1 ∧ 0x00A + 4 * e = entryOffset e + 2 ∧
      0x00B + 4 * e = entryOffset e + 3 := fun e => by unfold entryOffset; omega
  have rule_at : ∀ i, 0x196 + 8 * i = ruleOffset i + 2 ∧ 0x198 + 8 * i = ruleOffset i + 4 ∧
      0x19A + 8 * i = ruleOffset i + 6 ∧ 0x19B + 8 * i = ruleOffset i + 7 := fun i => by unfold ruleOffset; omega
  refine ⟨readImage_inRange length entries rules, ?_, ?_, fun e he => ?_, ?_, fun i hi => ?_, fun i hi => ?_,
    portConflicts_getElem? im len, fun c => ?_⟩
  · exact ⟨rfl, rfl, readMode_eq _ (Nat.mod_lt _ (by decide)), rfl, rfl, rfl, rfl, rfl, rfl,
      fun beam h => readBeams_getLsbD im _ h, rfl, rfl⟩
  · exact ⟨encoderWarned_iff im len, (atLeast_warned ..).trans Nat.lt_one_iff, atLeast_warned .., within_warned ..,
      (atLeast_warned ..).trans Nat.lt_one_iff⟩
  · rw [readImage_plan, List.length_map, List.length_range] at he
    obtain ⟨at1, at2, at3⟩ := entry_at e
    rw [at1, at2, at3]
    exact ⟨_, (readImage_plan_getElem? im len).2 ⟨he, rfl⟩, rfl, rfl, fitDivider_value _, rfl⟩
  · simp only [planWarned_iff, readImage_plan_getElem?, readEntry_warned, entry_at]
    exact ⟨fun ⟨e, he, h⟩ => ⟨e, _, ⟨he, rfl⟩, h⟩, fun ⟨e, _, ⟨he, rfl⟩, h⟩ => ⟨e, he, h⟩⟩
  · rw [readImage_rules_length] at hi
    obtain ⟨at2, at4, at6, at7⟩ := rule_at i
    rw [at2, at4, at6, at7, ruleClass_getElem?]
    refine ⟨⟨_, readImage_rules_getElem? im len hi, fun beam h => ⟨?_, ?_⟩, rfl, rfl, rfl⟩, ?_⟩
    · exact readBeams_getLsbD im _ h
    · exact readBeams_getLsbD im _ h
    · exact ⟨fun h => h.2.2, fun h => ⟨by omega, hi, h⟩⟩
  · rw [readImage_rules_length] at hi
    rw [Ne, ruleClass_getElem?]
    omega
  · rw [(readImage_chan im len c).1, (readImage_chan im len c).2]
    intro at_ at2 q v fitted signed
    obtain ⟨onF, offF, clampF⟩ := readF_warned im (chanOffset c) (shortestHold (readImage im len).1.plan c) q.wedge
    refine ⟨fitPort_iff im c, rawPort_warned im c, ⟨rfl, atMost_warned ..⟩,
      ⟨rfl, fitEnd_value _ c _, rfl, fitQ_value _, rfl, onF, offF, clampF⟩, ?_,
      ⟨Chan.num_ofNum (Nat.mod_lt _ (by decide)), rfl, rfl, rfl, couplingWarned_iff ..⟩, ⟨rfl, atMost_warned ..⟩,
      ⟨rfl, (atLeast_warned ..).trans Nat.lt_one_iff⟩, ⟨rfl, atMost_warned ..⟩, ⟨rfl, atMost_warned ..⟩,
      readChan_offset im _ c, ⟨rfl, rfl, rfl, rfl, trackingWarned_iff ..⟩⟩
    split
    · rename_i skipped
      have gate := readM_skipped skipped (shortestHold (readImage im len).1.plan c)
      exact ⟨congrArg (·.1.enabled) gate, congrArg (·.2.1) gate, congrArg (·.2.2) gate⟩
    · rename_i on
      have read : bitAt im (chanOffset c + 0x0E) 0 = false := Bool.eq_false_of_not_eq_true on
      have gate : q.m = _ := congrArg Prod.fst (readM_read read (shortestHold (readImage im len).1.plan c))
      obtain ⟨onM, offM, clampM⟩ := readM_warned read (shortestHold (readImage im len).1.plan c)
      exact ⟨by rw [gate]; rfl, by rw [gate]; exact fitEnd_value _ c _, by rw [gate]; rfl, by rw [gate]; exact fitQ_value _,
        onM, offM, clampM⟩

end Sys2Proof.Machine
end

section
/-! SUPPORT. The step on an empty queue (log entries 4 to 6): the one order of what the timers bring, and what a tick leaves of the zone
line and the link in the numbers of the chapters. -/

namespace Sys2Proof.Machine

/-! ### The order of what is due -/

/-- Nothing of the zone line is due. -/
structure ZoneRests (s : State) : Prop where
  claim : dueClaimEnd s = false
  quiet : quietDue s = false
  stuck : dueStuck s = false

/-- No bit, frame or reception of the link is due. -/
structure LinkRests (s : State) : Prop where
  zone : ZoneRests s
  mismatch : dueMismatch s = false
  complete : dueFrameComplete s = false
  reception : dueReception s = none

section
variable {s : State}

theorem due_claim (h : dueClaimEnd s = true) : due s = some .claimPeriodEnd := by unfold due; rw [if_pos h]

theorem due_quiet (claim : dueClaimEnd s = false) (h : quietDue s = true) : due s = some .quiet := by
  unfold due; rw [claim, h]; rfl

theorem due_stuck (claim : dueClaimEnd s = false) (quiet : quietDue s = false) (h : dueStuck s = true) :
    due s = some .stuckTimerExpiry := by
  unfold due; rw [claim, quiet, h]; rfl

theorem due_mismatch (z : ZoneRests s) (h : dueMismatch s = true) : due s = some .readbackMismatch := by
  unfold due; rw [z.claim, z.quiet, z.stuck, h]; rfl

theorem due_complete (z : ZoneRests s) (m : dueMismatch s = false) (h : dueFrameComplete s = true) :
    due s = some .frameComplete := by
  unfold due; rw [z.claim, z.quiet, z.stuck, m, h]; rfl

theorem due_reception (z : ZoneRests s) (m : dueMismatch s = false) (f : dueFrameComplete s = false) {c : Instr}
    (h : dueReception s = some c) : due s = some c := by
  unfold due; rw [z.claim, z.quiet, z.stuck, m, f, h]; rfl

/-- Past the receptions, the begin time, the idle instant, the service times, the drain and the receive queue follow. -/
theorem due_rest (r : LinkRests s) : due s =
    if dueBegin s then some .beginTime else if dueLinkIdle s then some .linkIdleInstant
    else ((serviceOver s.link).map Instr.serviceTimeEnd).or (if dueDrainEnd s then some .drainEnd else takeable s) := by
  unfold due
  rw [r.zone.claim, r.zone.quiet, r.zone.stuck, r.mismatch, r.complete, r.reception]
  cases serviceOver s.link <;> rfl

end

/-- The block whose service time is over, the Run Controller first (R144). -/
theorem serviceOver_none (l : Link) : serviceOver l = none ↔ ∀ b, busyOf l b ≠ some 0 := by
  unfold serviceOver
  constructor
  · intro h b
    split_ifs at h
    cases b <;> assumption
  · intro h
    exact (if_neg (h .runController)).trans ((if_neg (h .volleySequencer)).trans (if_neg (h .correlationUnit)))

/-- The transmitter sends nothing, so no bit and no frame of its own is due. -/
theorem linkRests_of_rest {s : State} (z : ZoneRests s) (tx : s.link.tx ≠ .send) (r : dueReception s = none) : LinkRests s :=
  ⟨z, Bool.eq_false_of_not_eq_true fun h => tx ((dueMismatch_iff s).1 h).1,
    Bool.eq_false_of_not_eq_true fun h => tx ((dueFrameComplete_iff s).1 h).1, r⟩

/-- Nothing of the zone line or the link is due: a service time, the drain or the receive queue may be. -/
theorem due_late {s : State} (r : LinkRests s) (begins : dueBegin s = false) (idle : dueLinkIdle s = false) : due s =
    ((serviceOver s.link).map Instr.serviceTimeEnd).or (if dueDrainEnd s then some .drainEnd else takeable s) := by
  rw [due_rest r, begins, idle]; rfl

/-! ### A tick of the zone line (R40, R44, R50) -/

/-- The level that a claimant drives n ticks after its start edge (3.1.1, R44). -/
def claimDrive (code : BitVec 5) (n : Nat) : LineLevel :=
  if n < 25 ∨ code.getLsbD (5 - min 5 (n / 25)) = false then .dominant else .recessive

theorem zoneDriven_at {z : Zone} {n : Nat} (ctl : z.ctl = .claim) (at_ : z.claimPeriod = some n) :
    zoneDriven z = claimDrive z.claimCode n := by
  rw [zoneDriven_claim ctl, at_, Option.getD_some]
  unfold claimDrive
  simp only [Nat.div_eq_zero_iff_lt (show 0 < 25 by decide)]

/-- Short of the end of a claim period the timers count it on. -/
theorem tickZoneTimers_claimPeriod {tw : Nat} {z : Zone} (h : ∀ n, z.claimPeriod = some n → n < 150) :
    (tickZoneTimers tw z).claimPeriod = z.claimPeriod.map (· + 1) := by
  show z.claimPeriod.map (countUp claimTicks) = _
  cases hp : z.claimPeriod with
  | none => rfl
  | some n => exact congrArg some (countUp_lt (h n hp))

/-- A tick of an observed line: its timers, and the line as the claim drives it. -/
theorem tickZone_eq (tw : Nat) (z : Zone) : tickZone true tw z =
    { tickZoneTimers tw z with line := (tickZone true tw z).line, recessiveTime := (tickZone true tw z).recessiveTime } :=
  followZoneDrive_eq _ _

theorem tickZone_stuckTimer (tw : Nat) (z : Zone) : (tickZone true tw z).stuckTimer = (tickZoneTimers tw z).stuckTimer := by
  rw [tickZone_eq]

/-- Short of the end of a claim period, what a tick leaves of the zone line but for its level and two timers. -/
theorem tickZone_frame {tw : Nat} {z : Zone} (h : ∀ n, z.claimPeriod = some n → n < 150) : tickZone true tw z = { z with
    line := (tickZone true tw z).line, recessiveTime := (tickZone true tw z).recessiveTime
    claimPeriod := z.claimPeriod.map (· + 1), stuckTimer := (tickZone true tw z).stuckTimer } := by
  rw [← tickZoneTimers_claimPeriod h (tw := tw), tickZone_stuckTimer]
  exact tickZone_eq tw z

/-- The recessive time counts on a recessive line outside a claim period, up to 3 µs (R40). -/
theorem tickZoneTimers_recessiveTime (tw : Nat) (z : Zone) :
    (z.line = .recessive → z.claimPeriod = none → z.recessiveTime < 75 →
      (tickZoneTimers tw z).recessiveTime = z.recessiveTime + 1) ∧
    (z.line = .dominant ∨ z.claimPeriod ≠ none ∨ 75 ≤ z.recessiveTime →
      (tickZoneTimers tw z).recessiveTime = z.recessiveTime) := by
  refine ⟨fun line period time => (if_pos ⟨line, period⟩).trans (countUp_lt time), fun h => ?_⟩
  show (if _ then _ else _) = _
  split
  · rename_i runs
    rcases h with line | period | time
    · rw [line] at runs; cases runs.1
    · exact absurd runs.2 period
    · exact countUp_ge time
  · rfl

/-- The stuck timer counts where it runs, up to Tw (R50). -/
theorem tickZoneTimers_stuckTimer (tw : Nat) (z : Zone) :
    (stuckRuns z = true → z.stuckTimer < tw * 25000 → (tickZoneTimers tw z).stuckTimer = z.stuckTimer + 1) ∧
    (¬stuckRuns z = true → (tickZoneTimers tw z).stuckTimer = z.stuckTimer) :=
  ⟨fun runs time => (if_pos runs).trans (countUp_lt time), fun rests => if_neg rests⟩

/-- Outside a claim period in progress the line stays, and its timers alone move. -/
theorem tickZone_still {tw : Nat} {z : Zone} (h : z.ctl ≠ .claim ∨ z.claimPeriod = none) :
    tickZone true tw z = tickZoneTimers tw z := by
  by_cases c : z.ctl = .claim
  · have none : z.claimPeriod = none := h.resolve_left (not_not.mpr c)
    refine followZoneDrive_same ?_
    rw [zoneDriven_claim c, zoneDriven_claim (z := tickZoneTimers tw z) c, tickZoneTimers_claimPeriod (by simp [none]), none]
    rfl
  · exact tickZone_rest c

/-- A tick in a slot of the claim, and one that begins a slot driven at the other level (R44; log entry 5). -/
theorem tickZone_claim {tw : Nat} {z : Zone} {n : Nat} (ctl : z.ctl = .claim) (at_ : z.claimPeriod = some n) (short : n < 150) :
    (claimDrive z.claimCode (n + 1) = claimDrive z.claimCode n →
      (tickZone true tw z).line = z.line ∧ (tickZone true tw z).recessiveTime = z.recessiveTime) ∧
    (claimDrive z.claimCode (n + 1) ≠ claimDrive z.claimCode n →
      (tickZone true tw z).line = claimDrive z.claimCode (n + 1) ∧ (tickZone true tw z).recessiveTime =
        if claimDrive z.claimCode (n + 1) = .dominant then 0 else z.recessiveTime) := by
  have before := zoneDriven_at ctl at_
  have next : (tickZoneTimers tw z).claimPeriod = some (n + 1) := by
    rw [tickZoneTimers_claimPeriod (by rw [at_]; rintro _ ⟨⟩; exact short), at_]; rfl
  have after : zoneDriven (tickZoneTimers tw z) = claimDrive z.claimCode (n + 1) := zoneDriven_at (z := tickZoneTimers tw z) ctl next
  have time : (tickZoneTimers tw z).recessiveTime = z.recessiveTime := if_neg (by rw [at_]; exact fun h => by cases h.2)
  have tick : tickZone true tw z = followZoneDrive (zoneDriven z) (tickZoneTimers tw z) := rfl
  rw [tick, before, ← after]
  refine ⟨fun same => ?_, fun change => ?_⟩
  · rw [followZoneDrive_same same]; exact ⟨rfl, time⟩
  · obtain ⟨line, dominant, recessive⟩ := followZoneDrive_change change
    refine ⟨line, ?_⟩
    split
    · exact dominant ‹_›
    · refine (recessive ?_).trans time
      cases d : zoneDriven (tickZoneTimers tw z) with
      | dominant => exact absurd d ‹_›
      | recessive => rfl

/-! ### A tick of the link (R133, R134, R138) -/

/-- The link after its timers and the receiver's tick, before the bits of the frame in flight. -/
def linkTicked (on : Bool) (l : Link) : Link := tickReceiver (tickLinkTimers on l)

theorem tickLink_eq (on : Bool) (l : Link) : tickLink on l = followDrive (driven l) (linkTicked on l) := rfl

theorem linkTicked_eq (on : Bool) (l : Link) : linkTicked on l = { tickLinkTimers on l with
    gather := (linkTicked on l).gather
    recessiveTime := if l.rx = .frame ∧ 124 ≤ l.gather.since.getD 0 then 0 else (tickLinkTimers on l).recessiveTime } :=
  tickReceiver_eq _

theorem linkTicked_gathers (on : Bool) (l : Link) : Gathers l (linkTicked on l).gather := by
  obtain ⟨rests, counts, ends⟩ := tickReceiver_gathers (tickLinkTimers on l)
  exact ⟨rests, counts, ends⟩

/-- The recessive time after a tick: from 0 at the end of a character, else on while the link is judged and recessive (R134; log
entry 6). -/
theorem linkTicked_recessiveTime (on : Bool) (l : Link) :
    let charEnds := l.rx = .frame ∧ 124 ≤ l.gather.since.getD 0
    (charEnds → (linkTicked on l).recessiveTime = 0) ∧
    (¬charEnds → on = true → l.level = .recessive → l.recessiveTime < 150 →
      (linkTicked on l).recessiveTime = l.recessiveTime + 1) ∧
    (¬charEnds → l.level = .dominant → (linkTicked on l).recessiveTime = l.recessiveTime) := by
  intro charEnds
  rw [linkTicked_eq]
  refine ⟨fun h => if_pos h, fun h on level time => ?_, fun h level => ?_⟩
  · refine (if_neg h).trans ((if_pos ⟨on, level⟩).trans (countUp_lt time))
  · refine (if_neg h).trans (if_neg ?_)
    rw [level]
    exact fun r => by cases r.2

/-- What a tick leaves of the link but for its level, its idle mark and its receiver. -/
theorem tickLink_rest_eq (on : Bool) (l : Link) : tickLink on l = { tickLinkTimers on l with
    level := (tickLink on l).level, idle := (tickLink on l).idle, recessiveTime := (tickLink on l).recessiveTime
    rx := (tickLink on l).rx, gather := (tickLink on l).gather } := by
  have ticked := linkTicked_eq on l
  have follows := followDrive_eq (driven l) (linkTicked on l)
  rw [← tickLink_eq] at follows
  rw [ticked] at follows
  exact follows

theorem tickLink_sinceIdle (on : Bool) (l : Link) : (tickLink on l).sinceIdle = (tickLinkTimers on l).sinceIdle := by
  rw [tickLink_rest_eq]

theorem tickLink_frame (on : Bool) (l : Link) : tickLink on l = { l with
    level := (tickLink on l).level, idle := (tickLink on l).idle, recessiveTime := (tickLink on l).recessiveTime
    rx := (tickLink on l).rx, gather := (tickLink on l).gather, sinceIdle := (tickLink on l).sinceIdle
    beginIn := l.beginIn - 1, sendLeft := l.sendLeft - 1, busyRun := l.busyRun.map (· - 1)
    busySeq := l.busySeq.map (· - 1), busyCorr := l.busyCorr.map (· - 1) } := by
  rw [tickLink_sinceIdle]
  exact tickLink_rest_eq on l

/-- Where the station sends nothing, the link's level, its idle mark and its receiver's state stay (R133). -/
theorem tickLink_quiet {on : Bool} {l : Link} (tx : l.tx ≠ .send) : (tickLink on l).level = l.level ∧
    (tickLink on l).idle = l.idle ∧ (tickLink on l).rx = l.rx ∧ (tickLink on l).gather = (linkTicked on l).gather := by
  have ticked : tickLink on l = linkTicked on l := tickLink_rest tx
  rw [ticked, linkTicked_eq]
  exact ⟨rfl, rfl, rfl, rfl⟩

/-- The level of the frame's bit with some ticks left of it (R133). -/
def bitWithLeft (chars : List Byte) (left : Nat) : LineLevel :=
  (chars.flatMap charLevels).getD ((125 * chars.length - left) * 2 / 25) .recessive

/-- A tick within a bit of the frame in flight, and one that begins a bit of the other level (R133, R134, R141; log entry 5). -/
theorem tickLink_send {on : Bool} {l : Link} {fl : InFlight} (tx : l.tx = .send) (flies : l.inFlight = some fl) :
    let g := (linkTicked on l).gather
    let next := bitWithLeft fl.chars (l.sendLeft - 1)
    (next = bitWithLeft fl.chars l.sendLeft → (tickLink on l).level = l.level ∧ (tickLink on l).idle = l.idle ∧
      (tickLink on l).rx = l.rx ∧ (tickLink on l).gather = g) ∧
    (next ≠ bitWithLeft fl.chars l.sendLeft → (tickLink on l).level = next ∧ (tickLink on l).recessiveTime = 0 ∧
      (next = .recessive → (tickLink on l).idle = l.idle ∧ (tickLink on l).rx = l.rx ∧ (tickLink on l).gather = g) ∧
      (next = .dominant → (tickLink on l).idle = false ∧ (tickLink on l).rx = (if l.rx = .hunt then .frame else l.rx) ∧
        (tickLink on l).gather = if l.rx = .hunt then ⟨some 0, [], []⟩
          else if l.rx = .frame ∧ l.level = .recessive ∧ g.since = none then ⟨some 0, [], g.chars⟩ else g)) := by
  intro g next
  have ticked := linkTicked_eq on l
  have before : driven l = bitWithLeft fl.chars l.sendLeft := driven_send tx flies
  have after : driven (linkTicked on l) = next := by rw [ticked]; exact driven_send tx flies
  rw [tickLink_eq, before, ← after]
  refine ⟨fun same => ?_, fun change => ?_⟩
  · rw [followDrive_same same, ticked]; exact ⟨rfl, rfl, rfl, rfl⟩
  · cases d : driven (linkTicked on l) with
    | recessive =>
      rw [followDrive_recessive change d, ticked]
      exact ⟨rfl, rfl, fun _ => ⟨rfl, rfl, rfl⟩, nofun⟩
    | dominant =>
      rw [followDrive_dominant change d, linkDominant_eq]
      have rx : (linkTicked on l).rx = l.rx := by rw [ticked]; rfl
      have level : (linkTicked on l).level = l.level := by rw [ticked]; rfl
      rw [rx, level]
      exact ⟨rfl, rfl, nofun, fun _ => ⟨rfl, rfl, rfl⟩⟩

/-! ### The step -/

/-- Settles O3. -/
theorem emptyQueueStepIsTime : Obligations.EmptyQueueStepIsTime := by
  intro s empty z l claimEnd quiet stuckRuns stuck sent mismatch judged begins idle served drained zoneDue linkDue takes timed
    awaits
  have not_of : ∀ {b : Bool} {p : Prop}, (b = true ↔ p) → ¬p → b = false := fun e h =>
    Bool.eq_false_of_not_eq_true fun x => h (e.1 x)
  have zoneRests : ¬zoneDue → ZoneRests s := fun h =>
    ⟨not_of (dueClaimEnd_iff s) fun x => h (.inl x), not_of (quietDue_iff s) fun x => h (.inr (.inl x)),
      not_of (dueStuck_iff s) fun x => h (.inr (.inr x))⟩
  have noReception : (∀ c, ¬judged c) → dueReception s = none := fun h =>
    Option.eq_none_iff_forall_ne_some.2 fun c e => h c ((dueReception_iff s c).1 e)
  have late : ¬zoneDue → ¬linkDue → due s =
      ((serviceOver l).map Instr.serviceTimeEnd).or (if dueDrainEnd s then some .drainEnd else takeable s) := fun hz hl =>
    due_late ⟨zoneRests hz, not_of (dueMismatch_iff s) fun x => hl (.inl x),
      not_of (dueFrameComplete_iff s) fun x => hl (.inr (.inl x)),
      noReception fun c x => hl (.inr (.inr (.inl ⟨c, x⟩)))⟩
      (not_of (dueBegin_iff s) fun x => hl (.inr (.inr (.inr (.inl x)))))
      (not_of (dueLinkIdle_iff s) fun x => hl (.inr (.inr (.inr (.inr x)))))
  have unserved : (∀ b, ¬served b) → serviceOver l = none := (serviceOver_none l).2
  have last : ¬timed → due s = takeable s := fun h => by
    rw [late (fun x => h (.inl x)) (fun x => h (.inr (.inl x))), unserved (fun b x => h (.inr (.inr (.inl ⟨b, x⟩)))),
      not_of (dueDrainEnd_iff s) fun x => h (.inr (.inr (.inr x)))]
    rfl
  have nothing : ¬timed → (∀ c, ¬takes c) → due s = none := fun h ht => by
    rw [last h]
    exact Option.eq_none_iff_forall_ne_some.2 fun c e => ht c ((takeable_iff s c).1 e)
  refine ⟨fun h => ?_, fun hc h => ?_, fun hc hq h => ?_, fun hz h => ?_, fun hz hm h => ?_, fun hz hm hs c h => ?_,
    fun hz hj h => ?_, fun hz hj hb h => ?_, fun hz hl h => ?_, fun hz hl hr h => ?_, fun hz hl hr hq h => ?_,
    fun hz hl hv h => ?_, fun ht c h => ?_, fun ht hn h => ?_, fun ht hn ha => ?_⟩
  · exact step_due empty (due_claim ((dueClaimEnd_iff s).2 h))
  · exact step_due empty (due_quiet (not_of (dueClaimEnd_iff s) hc) ((quietDue_iff s).2 h))
  · exact step_due empty (due_stuck (not_of (dueClaimEnd_iff s) hc) (not_of (quietDue_iff s) hq) ((dueStuck_iff s).2 h))
  · exact step_due empty (due_mismatch (zoneRests hz) ((dueMismatch_iff s).2 h))
  · exact step_due empty (due_complete (zoneRests hz) (not_of (dueMismatch_iff s) hm) ((dueFrameComplete_iff s).2 h))
  · exact step_due empty (due_reception (zoneRests hz) (not_of (dueMismatch_iff s) hm) (not_of (dueFrameComplete_iff s) hs)
      ((dueReception_iff s c).2 h))
  · have rests := linkRests_of_rest (zoneRests hz) (by rw [h.1]; decide) (noReception hj)
    exact step_due empty ((due_rest rests).trans (if_pos ((dueBegin_iff s).2 h)))
  · have rests := linkRests_of_rest (zoneRests hz) h.2.1 (noReception hj)
    refine step_due empty ((due_rest rests).trans ?_)
    rw [not_of (dueBegin_iff s) hb, (dueLinkIdle_iff s).2 h]; rfl
  · refine step_due empty ((late hz hl).trans ?_)
    rw [show serviceOver l = some .runController from if_pos h]; rfl
  · refine step_due empty ((late hz hl).trans ?_)
    rw [show serviceOver l = some .volleySequencer from (if_neg hr).trans (if_pos h)]; rfl
  · refine step_due empty ((late hz hl).trans ?_)
    rw [show serviceOver l = some .correlationUnit from (if_neg hr).trans ((if_neg hq).trans (if_pos h))]; rfl
  · refine step_due empty ((late hz hl).trans ?_)
    rw [unserved hv, (dueDrainEnd_iff s).2 h]; rfl
  · exact step_due empty ((last ht).trans ((takeable_iff s c).2 h))
  · rw [step_time empty (nothing ht hn), if_pos ((awaitsOutside_iff s).2 h)]
  · have passes : step s = .next (tick s) := by
      rw [step_time empty (nothing ht hn), not_of (awaitsOutside_iff s) ha]; rfl
    refine ⟨tick s, passes, tick_keeps s, rfl, rfl, rfl, fun rests => ?_, fun observes => ?_, ?_, fun idle time => ?_,
      (linkTicked s.linkOn l).gather, linkTicked_gathers .., fun tx => ?_, fun fl tx flies => tickLink_send tx flies⟩
    · show tickZone s.observing s.cfg.tw z = z
      rw [rests]; rfl
    · have zone : (tick s).zone = tickZone true s.cfg.tw z := by
        show tickZone s.observing s.cfg.tw z = _
        rw [observes]
      have short : ∀ n, z.claimPeriod = some n → n < 150 := fun n at_ =>
        not_le.1 fun ended => ht (.inl (.inl ⟨observes, n, at_, ended⟩))
      obtain ⟨counts, stays⟩ := tickZoneTimers_stuckTimer s.cfg.tw z
      obtain ⟨recesses, keeps⟩ := tickZoneTimers_recessiveTime s.cfg.tw z
      rw [zone]
      refine ⟨tickZone_frame short, fun runs => ?_, fun rests => ?_, fun line period time => ?_, fun ctl => ?_,
        fun n ctl at_ => tickZone_claim ctl at_ (short n at_)⟩
      · rw [tickZone_stuckTimer]
        exact counts ((stuckRuns_iff z).2 runs) (not_le.1 fun ended => ht (.inl (.inr (.inr ⟨runs, ended⟩))))
      · rw [tickZone_stuckTimer]
        exact stays fun runs => rests ((stuckRuns_iff z).1 runs)
      · rw [tickZone_still (.inr period)]
        exact recesses line period time
      · rw [tickZone_still (.inl ctl)]
        exact ⟨rfl, keeps⟩
    · exact tickLink_frame s.linkOn l
    · exact (tickLink_sinceIdle ..).trans ((if_pos idle).trans (countUp_lt time))
    · obtain ⟨level, idle, rx, gather⟩ := tickLink_quiet (on := s.linkOn) tx
      have ticked : tickLink s.linkOn l = linkTicked s.linkOn l := tickLink_rest tx
      have time := linkTicked_recessiveTime s.linkOn l
      rw [← ticked] at time
      exact ⟨level, idle, rx, gather, time⟩

end Sys2Proof.Machine
end

section
/-! SUPPORT. The end of a claim period (R25, R40, R46 to R48): what a claim won leaves, where its entry can fire and where every channel
of it has been muted meanwhile, and the end at a station that is no claimant. -/

namespace Sys2Proof.Machine

/-- An operation that may reach the slots, and has left them, touches the other blocks alone. -/
theorem Keeps.of_trk {l m : List Part} {s t : State} (h : Keeps l s t) (trk : t.trk = s.trk)
    (sub : ∀ b ∈ l, b ≠ .trk → b ∈ m) : Keeps m s t where
  rc n := h.rc fun x => n (sub _ x nofun)
  cfg n := h.cfg fun x => n (sub _ x nofun)
  pos n := h.pos fun x => n (sub _ x nofun)
  seq n := h.seq fun x => n (sub _ x nofun)
  zone n := h.zone fun x => n (sub _ x nofun)
  acq n := h.acq fun x => n (sub _ x nofun)
  coup n := h.coup fun x => n (sub _ x nofun)
  cov n := h.cov fun x => n (sub _ x nofun)
  trk _ := trk
  corr n := h.corr fun x => n (sub _ x nofun)
  link n := h.link fun x => n (sub _ x nofun)
  pending n := h.pending fun x => n (sub _ x nofun)

/-! ### The grant (R25) -/

section
variable {s : State} {i : Nat} {c : StepRef} {e : PlanEntry} (pointer : s.seq.pointer = some i) (cycle : s.seq.cycle = some c)
  (entry : s.cfg.plan[i]? = some e)
include pointer cycle entry

/-- The pending entry, judged again, has something to fire: it fires, and the line is held (R25, R47). -/
theorem takeGrant_fires (fires : CanFire s e) :
    takeGrant s = (fireVolley i e s).setZone { s.zone with ctl := .hold, line := .dominant } := by
  have some_fires : ¬fireable s e = 0 := fun z => (fireable_eq_zero s e).1 z fires
  unfold takeGrant
  rw [pointer, cycle]
  dsimp only
  rw [entry]
  exact if_neg some_fires

/-- Every channel of the pending entry has been muted: it hands its outcomes, the line is released and the walk goes on (R25, R48). -/
theorem takeGrant_passes (fires : ¬CanFire s e) : takeGrant s =
    let u := afterHanded (unfiredEntry s .missed c.pos e) s
    walkOn c (i + 1) (u.setZone (zoneRelease true s.zone)) := by
  unfold takeGrant
  rw [pointer, cycle]
  dsimp only
  rw [entry]
  dsimp only
  rw [if_pos ((fireable_eq_zero s e).2 fires), handUnfired_eq, afterHanded_zone]

end

/-! ### The end of slot 5 (R40, R46) -/

/-- The zone line once a claim has won: the loss count is cleared, and the line is as the other parties leave it (R46; log entry 5). -/
def wonZone (z : Zone) : Zone :=
  { z with claimPeriod := none, recessiveTime := 0, losses := 0, line := levelUndriven (zoneDriven z) z.line }

theorem claimEnded_won {s : State} (ctl : s.zone.ctl = .claim) (stands : s.zone.orphaned = false) :
    claimEnded s = takeGrant (s.setZone (wonZone s.zone)) := by
  unfold claimEnded
  dsimp only
  rw [if_pos ctl, if_neg (by rw [stands]; decide)]
  rfl

theorem claimEnded_orphaned {s : State} (ctl : s.zone.ctl = .claim) (withdrawn : s.zone.orphaned = true) :
    claimEnded s = s.setZone (zoneRelease (decide (s.rc.runState = .running)) (wonZone s.zone)) := by
  unfold claimEnded
  dsimp only
  rw [if_pos ctl, if_pos withdrawn]
  rfl

theorem claimEnded_observed {s : State} (ctl : s.zone.ctl ≠ .claim) :
    claimEnded s = s.setZone { s.zone with claimPeriod := none, recessiveTime := 0 } := if_neg ctl

/-- The end of the claim period in progress on an observed line. -/
theorem exec_claimPeriodEnd_observed {s : State} (observes : s.observing = true) (period : s.zone.claimPeriod ≠ none) :
    exec .claimPeriodEnd s = .next (claimEnded s) := by
  rw [exec_claimPeriodEnd, if_pos]
  rw [observes, Option.isSome_iff_ne_none.2 period]; rfl

/-- The released line after a win: recessive where slot 5 was driven dominant, else as it stands (R48). -/
theorem zoneRelease_wonZone {z : Zone} (ctl : z.ctl = .claim) (stands : z.orphaned = false) :
    zoneRelease true (wonZone z) = { z with
      ctl := .idle, claimPeriod := none, recessiveTime := 0, losses := 0
      line := if z.claimPeriod.getD 0 / 25 = 0 ∨ z.claimCode.getLsbD (5 - min 5 (z.claimPeriod.getD 0 / 25)) = false
        then .recessive else z.line } := by
  rw [← levelUndriven_claim ctl]
  have unheld : ¬z.ctl = .hold := by rw [ctl]; nofun
  unfold zoneRelease zoneRest wonZone
  dsimp only
  rw [if_pos rfl, if_neg unheld, stands]

/-- Settles O18. -/
theorem grantFiresTheFireableChannels : Obligations.GrantFiresTheFireableChannels := by
  intro s observes period slot drives
  refine ⟨fun i c e ctl stands pointer cycle entry => ?_, fun ctl => ?_⟩
  · set u := s.setZone (wonZone s.zone) with hu
    have won : exec .claimPeriodEnd s = .next (takeGrant u) := by
      rw [exec_claimPeriodEnd_observed observes period, claimEnded_won ctl stands]
    refine ⟨fun fires => ?_, fun mute => ?_⟩
    · rw [won, takeGrant_fires (s := u) pointer cycle entry fires]
      have fired := fireVolley_fires s i e u rfl rfl
      have seq : (fireVolley i e u).seq = { s.seq with
          sq := .hold, holdTimer := 25 * e.hold,
          volley := some ⟨i, fireable u e, s.pos.p,
            (Chan.all.filter (inSet (fireable u e))).filterMap (fun ch => (s.cfg.chan.get ch).port)⟩ } := by
        rw [Nat.mul_comm]; rfl
      refine ⟨_, fireable u e, rfl, inSet_fireable u e, fired, seq, rfl, ?_⟩
      exact ((keeps_setZone s _).mono (by decide)).trans
        (((fireVolley_keeps i e u).mono (by decide)).trans ((keeps_setZone _ _).mono (by decide)))
    · have released := zoneRelease_wonZone ctl stands
      have grant := takeGrant_passes (s := u) pointer cycle entry mute
      set handed := unfiredEntry u .missed c.pos e with hh
      have outcomes : handed = unfiredEntry s .missed c.pos e := unfiredEntry_congr rfl rfl _ _ _
      set w := (afterHanded handed u).setZone (zoneRelease true u.zone) with hw
      have kept : Keeps [.zone, .cov, .trk, .link] s w := ((keeps_setZone s _).mono (by decide)).trans
        (((afterHanded_keeps handed u).mono (by decide)).trans ((keeps_setZone _ _).mono (by decide)))
      have took : Took (unfiredEntry s .missed c.pos e) s w := by
        have start : Took [] s u := ⟨rfl, rfl, rfl⟩
        have more := start.more rfl rfl handed
        rw [outcomes] at more
        exact more.congr (by rw [hw, outcomes]; rfl) (by rw [hw, outcomes]; rfl)
      have trk : w.trk = s.trk := afterHanded_trk handed u (unfiredEntry_marks mute _ _)
      have seq : w.seq = s.seq := kept.seq (by decide)
      obtain ⟨mask, _, _, rest, slots⟩ := walkOn_rest c (i + 1) w
      rw [won, grant]
      refine ⟨_, rfl, walkOn_walked released (kept.cfg (by decide)) (by rw [seq]) (kept.rc (by decide)) (by rw [seq, cycle]) took,
        fun idle => (rest idle).1.trans (kept.acq (by decide)), slots.trans trk, by rw [mask, seq], ?_, ?_⟩
      · exact ((kept.mono (by decide)).trans (walkOn_keeps c (i + 1) w)).of_trk (slots.trans trk) (by decide)
      · have hands := claimEnded_hands s
        rw [claimEnded_won ctl stands, grant] at hands
        exact hands.link
  · rw [exec_claimPeriodEnd_observed observes period, claimEnded_observed ctl]
    exact ⟨_, rfl, rfl, keeps_setZone _ _⟩

end Sys2Proof.Machine
end

section
/-! SUPPORT. The firing law (law 2, R36, R37, R41, R46 to R54, R152) by blocks: which sequencer and zone line
states go with which run state, and which changes keep that. -/

namespace Sys2Proof.Machine

/-! ### The law by blocks -/

/-- The Run Controller by itself: a reset is a LOADING, a drain and a pending start are of STOPPING. -/
structure RunFit (r : RunCtl) : Prop where
  reset : r.inReset = true → r.runState = .loading
  draining : r.draining = true → r.runState = .stopping
  pendingStart : r.pendingStart ≠ none → r.runState = .stopping

theorem RunFit.not_reset {r : RunCtl} (h : RunFit r) (run : r.runState ≠ .loading) : r.inReset = false :=
  Bool.eq_false_of_not_eq_true fun x => run (h.reset x)

theorem RunFit.not_draining {r : RunCtl} (h : RunFit r) (run : r.runState ≠ .stopping) : r.draining = false :=
  Bool.eq_false_of_not_eq_true fun x => run (h.draining x)

/-- The Volley Sequencer by itself: what stands in each of its states. -/
structure SeqFit (plan : List PlanEntry) (q : Seq) : Prop where
  rests : q.sq = .off ∨ q.sq = .waitStep → q.cycle = none ∧ q.pointer = none ∧ q.waiting = none ∧ q.volley = none
  pending : q.sq = .pending → q.waiting = none ∧ q.volley = none ∧ q.cycle ≠ none ∧
    ∃ i e, q.pointer = some i ∧ plan[i]? = some e
  hold : q.sq = .hold → ∃ v e, q.volley = some v ∧ plan[v.entry]? = some e

/-- The sequencer states that go with a run state and a drain. -/
inductive SqAt (run : RunState) (draining : Bool) : SqState → Prop where
  | off : run ≠ .running → (run = .stopping → draining = true) → SqAt run draining .off
  | waitStep : run = .running → SqAt run draining .waitStep
  | pending : run = .running → SqAt run draining .pending
  | hold : run = .running ∨ run = .stopping → draining = false → SqAt run draining .hold

/-- The Zone Line Controller by itself. -/
structure ZoneFit (z : Zone) : Prop where
  driving : z.ctl = .claim ∨ z.ctl = .hold → z.quiet = false
  stuck : z.stuck = true → z.ctl = .idle ∨ z.ctl = .wait
  timer : z.ctl ≠ .idle → z.ctl ≠ .wait → z.stuckTimer = 0
  losses : z.losses ≤ 255

/-- The run states in which the station operates (R3, R40, R145). -/
def Serves (run : RunState) : Prop := run ≠ .loading ∧ run ≠ .faulted

/-- The controller states, and orphaned flags, that go with a line enabled or not, a run state and a sequencer state (law 2). -/
inductive ZoneAt (enabled : Bool) (run : RunState) (sq : SqState) : ZlState → Bool → Prop where
  | off {b : Bool} : (enabled = true → run ≠ .running ∧ sq ≠ .pending ∧ sq ≠ .hold) → ZoneAt enabled run sq .off b
  | idle {b : Bool} : enabled = true → run = .running → sq ≠ .pending → sq ≠ .hold → ZoneAt enabled run sq .idle b
  | wait {b : Bool} : enabled = true → run = .running → sq = .pending → ZoneAt enabled run sq .wait b
  | claim : enabled = true → run = .running → sq = .pending → ZoneAt enabled run sq .claim false
  | orphan : enabled = true → Serves run → sq ≠ .pending → sq ≠ .hold → ZoneAt enabled run sq .claim true
  | hold {b : Bool} : enabled = true → Serves run → sq = .hold → ZoneAt enabled run sq .hold b

/-- The firing law, block by block and pair by pair. -/
structure FiringFit (s : State) : Prop where
  rc : RunFit s.rc
  seq : SeqFit s.cfg.plan s.seq
  serving : SqAt s.rc.runState s.rc.draining s.seq.sq
  zone : ZoneFit s.zone
  line : ZoneAt s.zoneEnabled s.rc.runState s.seq.sq s.zone.ctl s.zone.orphaned

theorem operating_iff (s : State) : s.operating = true ↔ Serves s.rc.runState := by
  unfold State.operating Serves
  cases s.rc.runState <;> simp

theorem inRun_iff (s : State) : s.inRun = true ↔ s.rc.runState = .running ∨ s.rc.runState = .stopping := by
  unfold State.inRun
  cases s.rc.runState <;> simp

theorem serves_of_running {run : RunState} (h : run = .running) : Serves run := by subst h; exact ⟨nofun, nofun⟩

theorem serves_of_stopping {run : RunState} (h : run = .stopping) : Serves run := by subst h; exact ⟨nofun, nofun⟩

/-! ### The run law -/

theorem RunLaw.sqAt {s : State} (h : RunLaw s) : SqAt s.rc.runState s.rc.draining s.seq.sq := by
  have works : s.seq.sq ≠ .off → s.seq.sq ≠ .hold → s.rc.runState = .running := fun off hold =>
    ((inRun_iff s).1 (h.serving off)).resolve_right fun stops =>
      hold (h.stopping stops (Bool.eq_false_of_not_eq_true fun drains => off (h.draining drains).2))
  cases hq : s.seq.sq with
  | off =>
    refine .off (fun run => h.running run hq) fun stops => ?_
    by_contra drains
    exact absurd ((h.stopping stops (Bool.eq_false_of_not_eq_true drains)).symm.trans hq) nofun
  | waitStep => exact .waitStep (works (by rw [hq]; nofun) (by rw [hq]; nofun))
  | pending => exact .pending (works (by rw [hq]; nofun) (by rw [hq]; nofun))
  | hold =>
    refine .hold ((inRun_iff s).1 (h.serving (by rw [hq]; nofun))) (Bool.eq_false_of_not_eq_true fun drains => ?_)
    exact absurd (hq.symm.trans (h.draining drains).2) nofun

/-- A drain is of STOPPING with the sequencer off. -/
theorem SqAt.draining {run : RunState} {sq : SqState} (h : SqAt run true sq) (r : run = .stopping) : sq = .off := by
  subst r
  cases h with
  | off => rfl
  | waitStep run | pending run => cases run
  | hold _ drains => cases drains

/-- STOPPING before its drain is a volley in hold (R37). -/
theorem SqAt.stopping {sq : SqState} (h : SqAt .stopping false sq) : sq = .hold := by
  cases h with
  | off _ drains => cases drains rfl
  | waitStep run | pending run => cases run
  | hold => rfl

theorem SqAt.running {d : Bool} {sq : SqState} (h : SqAt .running d sq) : sq ≠ .off := by
  rintro rfl
  cases h with
  | off rests => exact rests rfl

theorem SqAt.serving {run : RunState} {d : Bool} {sq : SqState} (h : SqAt run d sq) (work : sq ≠ .off) :
    run = .running ∨ run = .stopping := by
  cases h with
  | off => exact absurd rfl work
  | waitStep run | pending run => exact .inl run
  | hold run => exact run

theorem runLaw_iff (s : State) : RunLaw s ↔
    RunFit s.rc ∧ SeqFit s.cfg.plan s.seq ∧ SqAt s.rc.runState s.rc.draining s.seq.sq := by
  refine ⟨fun h => ⟨⟨h.reset, fun d => (h.draining d).1, h.pendingStart⟩,
    ⟨fun r => r.elim h.off h.waitStep, h.pending, h.hold⟩, h.sqAt⟩, fun ⟨rc, seq, goes⟩ => ?_⟩
  exact
    { reset := rc.reset
      draining := fun d => ⟨rc.draining d, SqAt.draining (d ▸ goes) (rc.draining d)⟩
      stopping := fun r d => SqAt.stopping (r ▸ d ▸ goes)
      running := fun r => SqAt.running (r ▸ goes)
      serving := fun work => (inRun_iff s).2 (goes.serving work)
      off := fun h => seq.rests (.inl h)
      waitStep := fun h => seq.rests (.inr h)
      pending := seq.pending
      hold := seq.hold
      pendingStart := rc.pendingStart }

/-! ### The zone law -/

section
variable {en b : Bool} {run : RunState} {sq : SqState} {ctl : ZlState}

/-- A disabled line has its controller off (R39). -/
theorem ZoneAt.disabled (h : ZoneAt false run sq ctl b) : ctl = .off := by
  cases h with
  | off => rfl
  | idle e | wait e | claim e | orphan e | hold e => cases e

theorem ZoneAt.enabled (h : ZoneAt en run sq ctl b) (on : ctl ≠ .off) : en = true := by
  cases h with
  | off => exact absurd rfl on
  | idle e | wait e | claim e | orphan e | hold e => exact e

/-- The line is held exactly while a volley is in hold (law 2). -/
theorem ZoneAt.holds (h : ZoneAt true run sq ctl b) : ctl = .hold ↔ sq = .hold := by
  cases h with
  | off rests => exact ⟨nofun, fun h => absurd h (rests rfl).2.2⟩
  | idle _ _ _ hold | orphan _ _ _ hold => exact ⟨nofun, fun h => absurd h hold⟩
  | wait _ _ p | claim _ _ p => subst p; exact ⟨nofun, nofun⟩
  | hold _ _ h => exact ⟨fun _ => h, fun _ => rfl⟩

theorem ZoneAt.idle_running (h : ZoneAt en run sq .idle b) : run = .running := by
  cases h with
  | idle _ r => exact r

theorem ZoneAt.waits (h : ZoneAt en run sq .wait b) : run = .running ∧ sq = .pending := by
  cases h with
  | wait _ r p => exact ⟨r, p⟩

theorem ZoneAt.claims (h : ZoneAt en run sq .claim false) : run = .running ∧ sq = .pending := by
  cases h with
  | claim _ r p => exact ⟨r, p⟩

/-- An orphaned claim serves no request (R49). -/
theorem ZoneAt.orphaned (h : ZoneAt en run sq .claim true) : Serves run ∧ sq ≠ .pending ∧ sq ≠ .hold := by
  cases h with
  | orphan _ r p hold => exact ⟨r, p, hold⟩

/-- A pending sequencer has its request standing (R42). -/
theorem ZoneAt.requested (h : ZoneAt true run .pending ctl b) : ctl = .wait ∨ ctl = .claim ∧ b = false := by
  cases h with
  | off rests => exact absurd rfl (rests rfl).2.1
  | idle _ _ p | orphan _ _ p => exact absurd rfl p
  | wait => exact .inl rfl
  | claim => exact .inr ⟨rfl, rfl⟩
  | hold _ _ h => cases h

theorem ZoneAt.runs (h : ZoneAt true .running sq ctl b) : ctl ≠ .off := by
  rintro rfl
  cases h with
  | off rests => exact (rests rfl).1 rfl

theorem ZoneAt.resting (h : ZoneAt en run sq ctl b) (rest : ¬Serves run) : ctl = .off := by
  cases h with
  | off => rfl
  | idle _ r | wait _ r | claim _ r => exact absurd (serves_of_running r) rest
  | orphan _ r | hold _ r => exact absurd r rest

end

/-- The six places of the controller, from the law. -/
theorem ZoneLaw.zoneAt {s : State} (h : ZoneLaw s) :
    ZoneAt s.zoneEnabled s.rc.runState s.seq.sq s.zone.ctl s.zone.orphaned := by
  have on : s.zone.ctl ≠ .off → s.zoneEnabled = true ∧ Serves s.rc.runState := fun on =>
    ⟨Bool.eq_true_of_not_eq_false fun e => on (h.disabled e),
      (operating_iff s).1 (Bool.eq_true_of_not_eq_false fun e => on (h.resting e))⟩
  cases hc : s.zone.ctl with
  | off =>
    refine .off fun en => ⟨fun run => h.runs en run hc, fun p => ?_, fun v => ?_⟩
    · rcases h.requested en p with w | ⟨c, _⟩
      · exact absurd (hc.symm.trans w) nofun
      · exact absurd (hc.symm.trans c) nofun
    · exact absurd (hc.symm.trans ((h.holds en).2 v)) nofun
  | idle =>
    have en := (on (by rw [hc]; nofun)).1
    refine .idle en (h.idle hc) (fun p => ?_) fun v => absurd (hc.symm.trans ((h.holds en).2 v)) nofun
    rcases h.requested en p with w | ⟨c, _⟩
    · exact absurd (hc.symm.trans w) nofun
    · exact absurd (hc.symm.trans c) nofun
  | wait => exact .wait (on (by rw [hc]; nofun)).1 (h.waits hc).1 (h.waits hc).2
  | claim =>
    obtain ⟨en, serves⟩ := on (by rw [hc]; nofun)
    cases ho : s.zone.orphaned with
    | false => exact .claim en (h.claims hc ho).1 (h.claims hc ho).2
    | true =>
      refine .orphan en serves (fun p => ?_) fun v => absurd (hc.symm.trans ((h.holds en).2 v)) nofun
      rcases h.requested en p with w | ⟨_, o⟩
      · exact absurd (hc.symm.trans w) nofun
      · exact absurd (ho.symm.trans o) nofun
  | hold =>
    obtain ⟨en, serves⟩ := on (by rw [hc]; nofun)
    exact .hold en serves ((h.holds en).1 hc)

theorem zoneLaw_iff (s : State) : ZoneLaw s ↔
    ZoneFit s.zone ∧ ZoneAt s.zoneEnabled s.rc.runState s.seq.sq s.zone.ctl s.zone.orphaned := by
  refine ⟨fun h => ⟨⟨h.driving, h.stuck, h.timer, h.losses⟩, h.zoneAt⟩, fun ⟨fit, goes⟩ => ?_⟩
  exact
    { disabled := fun e => ZoneAt.disabled (e ▸ goes)
      holds := fun e => ZoneAt.holds (e ▸ goes)
      idle := fun c => ZoneAt.idle_running (c ▸ goes)
      waits := fun c => ZoneAt.waits (c ▸ goes)
      claims := fun c o => ZoneAt.claims (c ▸ o ▸ goes)
      requested := fun e p => ZoneAt.requested (run := s.rc.runState) (e ▸ p ▸ goes)
      runs := fun e r => ZoneAt.runs (sq := s.seq.sq) (b := s.zone.orphaned) (e ▸ r ▸ goes)
      resting := fun o => goes.resting fun serves => by rw [(operating_iff s).2 serves] at o; cases o
      driving := fit.driving
      stuck := fit.stuck
      timer := fit.timer
      losses := fit.losses }

theorem firingLaw_iff (s : State) : FiringLaw s ↔ FiringFit s := by
  refine ⟨fun h => ?_, fun h => ⟨(runLaw_iff s).2 ⟨h.rc, h.seq, h.serving⟩, (zoneLaw_iff s).2 ⟨h.zone, h.line⟩⟩⟩
  obtain ⟨rc, seq, serving⟩ := (runLaw_iff s).1 h.run
  obtain ⟨zone, line⟩ := (zoneLaw_iff s).1 h.zone
  exact ⟨rc, seq, serving, zone, line⟩

/-! ### Changes that keep the law -/

/-- The two Run Controllers agree in what the law reads. -/
structure SameRun (q r : RunCtl) : Prop where
  inReset : r.inReset = q.inReset
  runState : r.runState = q.runState
  draining : r.draining = q.draining
  pendingStart : r.pendingStart = q.pendingStart
  straps : r.straps = q.straps

/-- The two sequencers agree in what the law reads. -/
structure SameSeq (p q : Seq) : Prop where
  sq : q.sq = p.sq
  cycle : q.cycle = p.cycle
  pointer : q.pointer = p.pointer
  waiting : q.waiting = p.waiting
  volley : q.volley = p.volley

theorem SameRun.of_eq {q r : RunCtl} (h : r = q) : SameRun q r := by subst h; exact ⟨rfl, rfl, rfl, rfl, rfl⟩

theorem SameSeq.of_eq {p q : Seq} (h : q = p) : SameSeq p q := by subst h; exact ⟨rfl, rfl, rfl, rfl, rfl⟩

theorem RunFit.of_same {q r : RunCtl} (h : RunFit q) (same : SameRun q r) : RunFit r where
  reset := by rw [same.inReset, same.runState]; exact h.reset
  draining := by rw [same.draining, same.runState]; exact h.draining
  pendingStart := by rw [same.pendingStart, same.runState]; exact h.pendingStart

theorem SeqFit.of_same {plan : List PlanEntry} {p q : Seq} (h : SeqFit plan p) (same : SameSeq p q) : SeqFit plan q where
  rests := by rw [same.sq, same.cycle, same.pointer, same.waiting, same.volley]; exact h.rests
  pending := by rw [same.sq, same.cycle, same.pointer, same.waiting, same.volley]; exact h.pending
  hold := by rw [same.sq, same.volley]; exact h.hold

/-- Of the Run Controller and the sequencer nothing has changed that the law reads, and the zone line goes with them. -/
theorem FiringFit.of_same {s t : State} (h : FiringFit s) (rc : SameRun s.rc t.rc) (seq : SameSeq s.seq t.seq)
    (cfg : t.cfg = s.cfg) (zone : ZoneFit t.zone)
    (line : ZoneAt s.zoneEnabled s.rc.runState s.seq.sq t.zone.ctl t.zone.orphaned) : FiringFit t where
  rc := h.rc.of_same rc
  seq := by rw [cfg]; exact h.seq.of_same seq
  serving := by rw [rc.runState, rc.draining, seq.sq]; exact h.serving
  zone := zone
  line := by
    have en : t.zoneEnabled = s.zoneEnabled := congrArg Straps.zoneEnable rc.straps
    rw [en, rc.runState, seq.sq]; exact line

/-- A change of blocks that the law does not read keeps it. -/
theorem FiringFit.of_keeps {l : List Part} {s t : State} (h : FiringFit s) (k : Keeps l s t)
    (rc : Part.rc ∉ l := by decide) (seq : Part.seq ∉ l := by decide) (cfg : Part.cfg ∉ l := by decide)
    (zone : Part.zone ∉ l := by decide) : FiringFit t := by
  refine h.of_same (.of_eq (k.rc rc)) (.of_eq (k.seq seq)) (k.cfg cfg) ?_ ?_ <;> rw [k.zone zone]
  exacts [h.zone, h.line]

/-- A change of the Run Controller that the law does not read keeps it. -/
theorem FiringFit.of_run {l : List Part} {s t : State} (h : FiringFit s) (rc : SameRun s.rc t.rc) (k : Keeps l s t)
    (seq : Part.seq ∉ l := by decide) (cfg : Part.cfg ∉ l := by decide) (zone : Part.zone ∉ l := by decide) :
    FiringFit t := by
  refine h.of_same rc (.of_eq (k.seq seq)) (k.cfg cfg) ?_ ?_ <;> rw [k.zone zone]
  exacts [h.zone, h.line]

/-- A change of the zone line that fits its surroundings keeps the law. -/
theorem FiringFit.of_zone {l : List Part} {s t : State} (h : FiringFit s) (k : Keeps l s t) (zone : ZoneFit t.zone)
    (line : ZoneAt s.zoneEnabled s.rc.runState s.seq.sq t.zone.ctl t.zone.orphaned)
    (rc : Part.rc ∉ l := by decide) (seq : Part.seq ∉ l := by decide) (cfg : Part.cfg ∉ l := by decide) : FiringFit t :=
  h.of_same (.of_eq (k.rc rc)) (.of_eq (k.seq seq)) (k.cfg cfg) zone line

end Sys2Proof.Machine
end

section
/-! SUPPORT. The firing law at the line and the sequencer: the zone line's own events, the walks, the steps and the
grants keep it (R40 to R54). -/

namespace Sys2Proof.Machine

/-! ### The zone line's own events -/

theorem zoneFit_enterClaim {z : Zone} (h : ZoneFit z) (a : BitVec 4) : ZoneFit (enterClaim a z) where
  driving _ := rfl
  stuck := nofun
  timer _ _ := rfl
  losses := h.losses

theorem zoneFit_idle {z : Zone} (ctl : z.ctl = .idle) (losses : z.losses ≤ 255) : ZoneFit z where
  driving h := by rw [ctl] at h; exact h.elim nofun nofun
  stuck _ := .inl ctl
  timer h := absurd ctl h
  losses := losses

theorem zoneFit_wait {z : Zone} (ctl : z.ctl = .wait) (losses : z.losses ≤ 255) : ZoneFit z where
  driving h := by rw [ctl] at h; exact h.elim nofun nofun
  stuck _ := .inr ctl
  timer _ h := absurd ctl h
  losses := losses

theorem zoneFit_zoneOff {z : Zone} (h : z.losses ≤ 255) : ZoneFit (zoneOff z) where
  driving h := h.elim nofun nofun
  stuck := nofun
  timer _ _ := rfl
  losses := h

/-- The state a claim or hold ends in fits whatever it was before. -/
theorem zoneFit_zoneRest (running : Bool) {z : Zone} (h : z.losses ≤ 255) : ZoneFit (zoneRest running z) := by
  cases running with
  | false => exact zoneFit_zoneOff h
  | true => exact zoneFit_idle rfl h

/-- With no request and no volley the controller rests in ZL_IDLE in RUNNING and in ZL_OFF outside it (R45, R48, R54). -/
theorem zoneAt_zoneRest {enabled : Bool} {run : RunState} {sq : SqState} (en : enabled = true) (pending : sq ≠ .pending)
    (hold : sq ≠ .hold) (z : Zone) : ZoneAt enabled run sq (zoneRest (decide (run = .running)) z).ctl
      (zoneRest (decide (run = .running)) z).orphaned := by
  by_cases r : run = .running
  · rw [decide_eq_true r]; exact .idle en r pending hold
  · rw [decide_eq_false r]; exact .off fun _ => ⟨r, pending, hold⟩

/-- A waiting request becomes a claim of its own (R43). -/
theorem ZoneAt.wait_claim {enabled b : Bool} {run : RunState} {sq : SqState} (h : ZoneAt enabled run sq .wait b) :
    ZoneAt enabled run sq .claim false := by
  cases h with
  | wait en r p => exact .claim en r p

/-- A line that becomes quiet keeps the law (R40, R43, R51). -/
theorem firingFit_quietReached {s : State} (h : FiringFit s) (q : canBecomeQuiet s = true) : FiringFit (quietReached s) := by
  obtain ⟨claim, hold⟩ : s.zone.ctl ≠ .claim ∧ s.zone.ctl ≠ .hold := by
    unfold canBecomeQuiet at q
    rw [Bool.and_eq_true, decide_eq_true_iff] at q
    exact ⟨q.2.2.1, q.2.2.2.1⟩
  have fit : ZoneFit { s.zone with
      quiet := true, line := .recessive, recessiveTime := 75, stuckTimer := 0, stuck := false } :=
    ⟨fun c => (c.elim claim hold).elim, nofun, fun _ _ => rfl, h.zone.losses⟩
  obtain ⟨zone, _⟩ := quietReached_spec s
  have line := h.line
  refine h.of_zone (quietReached_keeps s) ?_ ?_ <;> rw [zone] <;> dsimp only <;> split
  · exact zoneFit_enterClaim fit _
  · exact fit
  · rename_i w
    rw [w] at line
    exact line.wait_claim
  · exact line

theorem canBecomeQuiet_of_due {s : State} (h : quietDue s = true) : canBecomeQuiet s = true := by
  unfold quietDue at h
  exact (Bool.and_eq_true_iff.1 h).1

/-- The observed line goes dominant: a waiting request claims on a start edge, and nothing else of the controller moves (R40,
R43). -/
theorem firingFit_lineDominant {s : State} (h : FiringFit s) :
    FiringFit (s.setZone (lineDominant s.rc.straps.address s.zone)) := by
  have fit := h.zone
  have line := h.line
  refine h.of_zone (keeps_setZone _ _) ?_ ?_ <;> rw [State.setZone_zone] <;> unfold lineDominant <;> dsimp only <;>
    split
  · split
    · exact ⟨fun _ => rfl, nofun, fun _ _ => rfl, fit.losses⟩
    · exact ⟨fun _ => rfl, fit.stuck, fit.timer, fit.losses⟩
  · exact ⟨fit.driving, fit.stuck, fit.timer, fit.losses⟩
  · split
    · rename_i w
      rw [w] at line
      exact line.wait_claim
    · exact line
  · exact line

theorem firingFit_edgeDominant {s : State} (h : FiringFit s) : FiringFit (edgeDominant s) := by
  unfold edgeDominant
  dsimp only
  split
  · exact firingFit_lineDominant (firingFit_quietReached h (canBecomeQuiet_of_due ‹_›))
  · exact firingFit_lineDominant h

/-- A level change keeps the law (R40, R50). -/
theorem firingFit_lineLevelChange {s : State} (h : FiringFit s) (level : LineLevel) : FiringFit (lineLevelChange level s) := by
  obtain ⟨driving, stuck, timer, losses⟩ := h.zone
  unfold lineLevelChange
  split
  · exact h
  · split
    · cases level with
      | dominant => exact firingFit_edgeDominant h
      | recessive =>
        dsimp only
        split
        · exact h
        · exact h.of_zone (keeps_setZone _ _) ⟨driving, stuck, fun _ _ => rfl, losses⟩ h.line
    · exact h.of_zone (keeps_setZone _ _) ⟨driving, stuck, timer, losses⟩ h.line

/-- A claim lost waits again, or is gone with its withdrawn request (R45, R54). -/
theorem claimLost_fits {z : Zone} {enabled : Bool} {run : RunState} {sq : SqState} (ctl : z.ctl = .claim)
    (line : ZoneAt enabled run sq z.ctl z.orphaned) :
    let y := claimLost (decide (run = .running)) z
    ZoneFit y ∧ ZoneAt enabled run sq y.ctl y.orphaned := by
  intro y
  have losses : satSucc 255 z.losses ≤ 255 := min_le_right ..
  have en := line.enabled (by rw [ctl]; nofun)
  rw [ctl] at line
  unfold y claimLost
  dsimp only
  split
  · rename_i o
    rw [o] at line
    obtain ⟨_, pending, hold⟩ := line.orphaned
    exact ⟨zoneFit_zoneRest _ losses, zoneAt_zoneRest en pending hold _⟩
  · rename_i o
    rw [Bool.eq_false_of_not_eq_true o] at line
    obtain ⟨r, p⟩ := line.claims
    exact ⟨zoneFit_wait rfl losses, .wait en r p⟩

/-- A code slot read keeps the law (R44, R45). -/
theorem firingFit_slotReading {s : State} (h : FiringFit s) (ctl : s.zone.ctl = .claim) (slot : CodeSlot) (level : LineLevel) :
    FiringFit (s.setZone (slotReading (decide (s.rc.runState = .running)) slot level s.zone)) := by
  obtain ⟨driving, stuck, timer, losses⟩ := h.zone
  refine h.of_zone (keeps_setZone _ _) ?_ ?_ <;> rw [State.setZone_zone] <;> unfold slotReading <;> dsimp only <;>
    split
  · exact ⟨driving, stuck, timer, losses⟩
  · split
    · exact (claimLost_fits (z := { s.zone with line := .dominant, claimPeriod := _, slotRead := _ }) ctl h.line).1
    · exact ⟨driving, stuck, timer, losses⟩
  · exact h.line
  · split
    · exact (claimLost_fits (z := { s.zone with line := .dominant, claimPeriod := _, slotRead := _ }) ctl h.line).2
    · exact h.line

/-- The stuck timer runs out in ZL_IDLE or ZL_WAIT (R50). -/
theorem firingFit_stuckReached {s : State} (h : FiringFit s) (runs : stuckRuns s.zone = true) : FiringFit (stuckReached s) := by
  have waits := ((stuckRuns_iff _).1 runs).1
  exact h.of_zone (stuckReached_keeps s)
    ⟨h.zone.driving, fun _ => waits, fun idle wait => (waits.elim idle wait).elim, h.zone.losses⟩ h.line

/-! ### Walks and requests -/

theorem seqFit_pending {plan : List PlanEntry} {q : Seq} (sq : q.sq = .pending) (waiting : q.waiting = none)
    (volley : q.volley = none) (cycle : q.cycle ≠ none) {i : Nat} {e : PlanEntry} (pointer : q.pointer = some i)
    (entry : plan[i]? = some e) : SeqFit plan q where
  rests h := by rw [sq] at h; exact h.elim nofun nofun
  pending _ := ⟨waiting, volley, cycle, i, e, pointer, entry⟩
  hold h := absurd (sq.symm.trans h) nofun

theorem seqFit_hold {plan : List PlanEntry} {q : Seq} (sq : q.sq = .hold) {v : Volley} {e : PlanEntry}
    (volley : q.volley = some v) (entry : plan[v.entry]? = some e) : SeqFit plan q where
  rests h := by rw [sq] at h; exact h.elim nofun nofun
  pending h := absurd (sq.symm.trans h) nofun
  hold _ := ⟨v, e, volley, entry⟩

/-- In RUNNING, with the line free for a request: no claim of this station's stands but an orphaned one. -/
structure LineFree (s : State) : Prop where
  rc : RunFit s.rc
  run : s.rc.runState = .running
  zone : ZoneFit s.zone
  line : ZoneAt s.zoneEnabled .running .waitStep s.zone.ctl s.zone.orphaned

theorem LineFree.of_keeps {l : List Part} {s t : State} (h : LineFree s) (k : Keeps l s t)
    (rc : Part.rc ∉ l := by decide) (zone : Part.zone ∉ l := by decide) : LineFree t where
  rc := by rw [k.rc rc]; exact h.rc
  run := by rw [k.rc rc]; exact h.run
  zone := by rw [k.zone zone]; exact h.zone
  line := by
    have en : t.zoneEnabled = s.zoneEnabled := by unfold State.zoneEnabled; rw [k.rc rc]
    rw [en, k.zone zone]; exact h.line

/-- A request with the line enabled and free waits or claims (R42, R49). -/
theorem zoneRequest_fits {z : Zone} (fit : ZoneFit z) (line : ZoneAt true .running .waitStep z.ctl z.orphaned) (a : BitVec 4) :
    ZoneFit (zoneRequest a z) ∧ ZoneAt true .running .pending (zoneRequest a z).ctl (zoneRequest a z).orphaned := by
  cases hc : z.ctl with
  | off => rw [hc] at line; exact absurd rfl line.runs
  | idle =>
    have e : zoneRequest a z = if z.quiet || joinWindow z then enterClaim a z else { z with ctl := .wait } := by
      unfold zoneRequest; rw [hc]
    rw [e]
    split
    · exact ⟨zoneFit_enterClaim fit a, .claim rfl rfl rfl⟩
    · exact ⟨zoneFit_wait rfl fit.losses, .wait rfl rfl rfl⟩
  | wait => rw [hc] at line; cases line.waits.2
  | claim =>
    have e : zoneRequest a z = { z with orphaned := false } := by unfold zoneRequest; rw [hc]
    rw [e]
    exact ⟨⟨fit.driving, fit.stuck, fit.timer, fit.losses⟩, by dsimp only; rw [hc]; exact .claim rfl rfl rfl⟩
  | hold => rw [hc] at line; cases line.holds.1 rfl

/-- The cycle is finished: the sequencer waits for a step, and the line stays free (R23). -/
theorem firingFit_finishCycle {s : State} (h : LineFree s) (waiting : s.seq.waiting = none) (volley : s.seq.volley = none) :
    FiringFit (finishCycle s) where
  rc := h.rc
  seq := ⟨fun _ => ⟨rfl, rfl, waiting, volley⟩, nofun, nofun⟩
  serving := .waitStep h.run
  zone := h.zone
  line := by
    show ZoneAt s.zoneEnabled s.rc.runState .waitStep _ _
    rw [h.run]; exact h.line

/-- A request for an entry of the plan: the sequencer is pending with the request standing, or with the line disabled the volley is
in hold (R42, R52). -/
theorem firingFit_makeRequest {s : State} (h : LineFree s) (waiting : s.seq.waiting = none) (volley : s.seq.volley = none)
    (cycle : s.seq.cycle ≠ none) {i : Nat} {e : PlanEntry} (entry : s.cfg.plan[i]? = some e) :
    FiringFit (makeRequest i e s) := by
  have line := h.line
  unfold makeRequest
  dsimp only
  split
  · rename_i en
    rw [en] at line
    obtain ⟨fit, goes⟩ := zoneRequest_fits h.zone line s.rc.straps.address
    exact
      { rc := h.rc
        seq := seqFit_pending rfl waiting volley cycle rfl entry
        serving := .pending h.run
        zone := fit
        line := by
          show ZoneAt s.zoneEnabled s.rc.runState .pending _ _
          rw [en, h.run]; exact goes }
  · rename_i en
    have off : s.zone.ctl = .off := by
      rw [Bool.eq_false_of_not_eq_true en] at line; exact line.disabled
    exact
      { rc := h.rc
        seq := seqFit_hold rfl rfl entry
        serving := .hold (.inl h.run) (h.rc.not_draining (by rw [h.run]; nofun))
        zone := h.zone
        line := by
          show ZoneAt s.zoneEnabled s.rc.runState .hold s.zone.ctl _
          rw [off]; exact .off fun x => absurd x en }

/-- A walk hands outcomes and then finishes the cycle, or requests for an entry of the plan (R23). -/
theorem walkOn_cases (c : StepRef) (i : Nat) (s : State) : ∃ hs, walkOn c i s = finishCycle (afterHanded hs s) ∨
    ∃ j e, s.cfg.plan[j]? = some e ∧ walkOn c i s = makeRequest j e (afterHanded hs s) := by
  unfold walkOn
  rcases walkEnds_or_stops s c.index i with h | ⟨j, e, h⟩
  · rw [walk_ends rfl rfl h]; exact ⟨_, .inl rfl⟩
  · rw [walk_stops rfl rfl h]; exact ⟨_, .inr ⟨j, e, h.entry, rfl⟩⟩

/-- A walk that goes on, with nothing waiting and no volley, brings the law (R23, R27). -/
theorem firingFit_walkOn {s : State} (h : LineFree s) (waiting : s.seq.waiting = none) (volley : s.seq.volley = none)
    {c : StepRef} (cycle : s.seq.cycle = some c) (i : Nat) : FiringFit (walkOn c i s) := by
  obtain ⟨hs, ends | ⟨j, e, entry, stops⟩⟩ := walkOn_cases c i s
  · rw [ends]
    exact firingFit_finishCycle (h.of_keeps (afterHanded_keeps hs s)) (by rw [afterHanded_seq, waiting])
      (by rw [afterHanded_seq, volley])
  · rw [stops]
    exact firingFit_makeRequest (h.of_keeps (afterHanded_keeps hs s)) (by rw [afterHanded_seq, waiting])
      (by rw [afterHanded_seq, volley]) (by rw [afterHanded_seq, cycle]; nofun) (by rw [afterHanded_cfg]; exact entry)

theorem firingFit_startCycle {s : State} (h : LineFree s) (volley : s.seq.volley = none) (c : StepRef) :
    FiringFit (startCycle c s) :=
  firingFit_walkOn (s := s.setSeq { s.seq with cycle := some c, waiting := none }) (h.of_keeps (keeps_setSeq _ _)) rfl
    volley rfl 0

/-! ### Steps -/

/-- A sequencer that waits for a step leaves the line free. -/
theorem FiringFit.lineFree {s : State} (h : FiringFit s) (sq : s.seq.sq = .waitStep) : LineFree s := by
  have serving := h.serving
  have line := h.line
  rw [sq] at serving line
  have run : s.rc.runState = .running := by
    cases serving with
    | waitStep run => exact run
  exact ⟨h.rc, run, h.zone, run ▸ line⟩

/-- A withdrawn request leaves the line free (R49). -/
theorem zoneWithdraw_fits {z : Zone} {enabled : Bool} (fit : ZoneFit z)
    (line : ZoneAt enabled .running .pending z.ctl z.orphaned) :
    ZoneFit (zoneWithdraw z) ∧ ZoneAt enabled .running .waitStep (zoneWithdraw z).ctl (zoneWithdraw z).orphaned := by
  cases hc : z.ctl with
  | off =>
    rw [zoneWithdraw_rest (by rw [hc]; nofun) (by rw [hc]; nofun)]
    rw [hc] at line ⊢
    exact ⟨fit, .off fun en => absurd rfl (ZoneAt.runs (en ▸ line))⟩
  | idle => rw [hc] at line; cases line with | idle _ _ p => exact absurd rfl p
  | wait =>
    rw [zoneWithdraw_wait hc]
    rw [hc] at line
    exact ⟨zoneFit_idle rfl fit.losses, .idle (line.enabled nofun) rfl nofun nofun⟩
  | claim =>
    rw [zoneWithdraw_claim hc]
    rw [hc] at line
    refine ⟨⟨fit.driving, fit.stuck, fit.timer, fit.losses⟩, ?_⟩
    dsimp only
    rw [hc]
    exact .orphan (line.enabled nofun) (serves_of_running rfl) nofun nofun
  | hold => rw [hc] at line; cases line with | hold _ _ p => cases p

/-- A new walk takes over the standing request, or withdraws it (R29). -/
theorem firingFit_takeOver {s : State} (h : FiringFit s) (sq : s.seq.sq = .pending) (c : StepRef) : FiringFit (takeOver c s) := by
  have serving := h.serving
  have line := h.line
  rw [sq] at serving line
  have run : s.rc.runState = .running := by
    cases serving with
    | pending run => exact run
  obtain ⟨waiting, volley, _⟩ := h.seq.pending sq
  rcases walkEnds_or_stops s c.index 0 with ends | ⟨i, e, stops⟩
  · rw [takeOver_ends rfl rfl ends]
    generalize unfiredDue s .missed c.index c.pos s.cfg.plan = hs
    have k := ((keeps_setSeq s { s.seq with cycle := some c }).mono (m := [.seq, .cov, .trk, .link]) (by decide)).trans
      ((afterHanded_keeps hs _).mono (by decide))
    obtain ⟨fit, goes⟩ := zoneWithdraw_fits h.zone (run ▸ line)
    set w := afterHanded hs (s.setSeq { s.seq with cycle := some c }) with hw
    have en : w.zoneEnabled = s.zoneEnabled := by unfold State.zoneEnabled; rw [k.rc (by decide)]
    refine firingFit_finishCycle (s := w.setZone (zoneWithdraw w.zone)) ⟨?_, ?_, ?_, ?_⟩ ?_ ?_
    · show RunFit w.rc; rw [k.rc (by decide)]; exact h.rc
    · show w.rc.runState = _; rw [k.rc (by decide)]; exact run
    · rw [State.setZone_zone, k.zone (by decide)]; exact fit
    · show ZoneAt w.zoneEnabled _ _ _ _; rw [en, State.setZone_zone, k.zone (by decide)]; exact goes
    · rw [State.setZone_seq, hw, afterHanded_seq]; exact waiting
    · rw [State.setZone_seq, hw, afterHanded_seq]; exact volley
  · rw [takeOver_stops rfl rfl stops]
    generalize unfiredDue s .missed c.index c.pos (s.cfg.plan.take i) = hs
    have k := afterHanded_keeps hs (s.setSeq { s.seq with cycle := some c })
    set w := afterHanded hs (s.setSeq { s.seq with cycle := some c })
    have seq : w.seq = { s.seq with cycle := some c } := k.seq (by decide)
    have moved : FiringFit (s.setSeq { s.seq with cycle := some c, pointer := some i }) :=
      { rc := h.rc
        seq := seqFit_pending sq waiting volley nofun rfl stops.entry
        serving := h.serving
        zone := h.zone
        line := h.line }
    refine moved.of_same (.of_eq (k.rc (by decide))) (.of_eq ?_) (k.cfg (by decide)) ?_ ?_
    · rw [State.setSeq_seq, seq]; rfl
    · rw [State.setSeq_zone, k.zone (by decide)]; exact h.zone
    · rw [State.setSeq_zone, k.zone (by decide)]; exact h.line

/-- A step taken keeps the law, whatever the sequencer's state (R12, R23, R28 to R32). -/
theorem firingFit_takeStep {s : State} (h : FiringFit s) (step : StepRef) (skipped : List StepRef) :
    FiringFit (takeStep step skipped s) := by
  unfold takeStep
  cases hq : s.seq.sq with
  | off => exact h
  | waitStep =>
    have k := skippedSteps_keeps skipped s
    exact firingFit_startCycle ((h.lineFree hq).of_keeps k)
      (by rw [k.seq (by decide)]; exact (h.seq.rests (.inr hq)).2.2.2) step
  | pending =>
    have k := (giveUpInPending_keeps s).trans (skippedSteps_keeps skipped _)
    exact firingFit_takeOver (h.of_keeps k) (by rw [k.seq (by decide), hq]) step
  | hold =>
    have k := (giveUpInHold_keeps s).trans (skippedSteps_keeps skipped _)
    have g := h.of_keeps k
    have sq := (congrArg Seq.sq (k.seq (by decide))).trans hq
    obtain ⟨v, e, volley, entry⟩ := g.seq.hold sq
    exact ⟨g.rc, seqFit_hold sq volley entry, g.serving, g.zone, g.line⟩

/-- A sample instant keeps the law: of what it brings, the step alone reaches the sequencer (R2 to R13). -/
theorem firingFit_sampleInstant {s : State} (h : FiringFit s) (a b : Bool) : FiringFit (sampleInstant a b s) := by
  have forward : ∀ {s : State}, FiringFit s → FiringFit (forwardCount s) := by
    intro s h
    rcases forwardCount_cases s with ⟨e, _⟩ | ⟨e, _⟩
    · rw [e]; exact h.of_keeps (countDiscarded_keeps _ _)
    · rw [e]
      have counted := h.of_keeps (counted_keeps s)
      unfold issueStep
      split
      · exact firingFit_takeStep (counted.of_keeps (keeps_setPos _ _)) _ _
      · exact counted
  have reverse : ∀ {s : State}, FiringFit s → FiringFit (reverseCount s) := by
    intro s h
    rcases reverseCount_cases s with ⟨e, _⟩ | ⟨e, _⟩
    · rw [e]; exact h.of_keeps (countDiscarded_keeps _ _)
    · rw [e]; exact h.of_keeps (keeps_setPos _ _)
  have sampled : ∀ q, FiringFit (s.setPos q) := fun q => h.of_keeps (keeps_setPos s q)
  unfold sampleInstant applyDecoded
  dsimp only
  split
  · exact sampled _
  · split
    · split
      · exact sampled _
      · exact forward (sampled _)
      · exact reverse (sampled _)
      · exact (sampled _).of_keeps (keeps_setPos _ _)
    · exact sampled _

/-! ### Grants -/

/-- A claim won for a standing request fires its entry, or walks on with the line released (R25, R46 to R48). -/
theorem firingFit_takeGrant {s : State} (h : FiringFit s) (ctl : s.zone.ctl = .claim) (stands : s.zone.orphaned = false) :
    FiringFit (takeGrant s) := by
  have line := h.line
  rw [ctl, stands] at line
  obtain ⟨run, sq⟩ := line.claims
  have en := line.enabled nofun
  obtain ⟨waiting, volley, cycle, i, e, pointer, entry⟩ := h.seq.pending sq
  obtain ⟨c, hc⟩ := Option.ne_none_iff_exists'.1 cycle
  by_cases fires : CanFire s e
  · rw [takeGrant_fires pointer hc entry fires]
    exact
      { rc := h.rc
        seq := seqFit_hold rfl rfl entry
        serving := .hold (.inl run) (h.rc.not_draining (by rw [run]; nofun))
        zone := ⟨fun _ => h.zone.driving (.inl ctl), fun x => by
            rcases h.zone.stuck x with c | c <;> exact absurd (ctl.symm.trans c) nofun,
          fun _ _ => h.zone.timer (by rw [ctl]; nofun) (by rw [ctl]; nofun), h.zone.losses⟩
        line := .hold en (serves_of_running run) rfl }
  · rw [takeGrant_passes pointer hc entry fires]
    have k := afterHanded_keeps (unfiredEntry s .missed c.pos e) s
    set u := afterHanded (unfiredEntry s .missed c.pos e) s
    have seq := k.seq (by decide)
    have rc := k.rc (by decide)
    refine firingFit_walkOn (s := u.setZone (zoneRelease true s.zone)) ⟨?_, ?_, ?_, ?_⟩ ?_ ?_ (c := c) ?_ _
    · rw [State.setZone_rc, rc]; exact h.rc
    · rw [State.setZone_rc, rc]; exact run
    · exact zoneFit_idle rfl h.zone.losses
    · exact .idle ((congrArg (fun r => r.straps.zoneEnable) rc).trans en) rfl nofun nofun
    · rw [State.setZone_seq, seq]; exact waiting
    · rw [State.setZone_seq, seq]; exact volley
    · rw [State.setZone_seq, seq]; exact hc

/-- The end of a claim period keeps the law (R40, R46, R48). -/
theorem firingFit_claimEnded {s : State} (h : FiringFit s) : FiringFit (claimEnded s) := by
  obtain ⟨driving, stuck, timer, losses⟩ := h.zone
  by_cases ctl : s.zone.ctl = .claim
  · cases o : s.zone.orphaned with
    | true =>
      have line := h.line
      rw [ctl, o] at line
      obtain ⟨_, pending, hold⟩ := line.orphaned
      rw [claimEnded_orphaned ctl o]
      exact h.of_zone (keeps_setZone _ _) (zoneFit_zoneRest _ (Nat.zero_le _))
        (zoneAt_zoneRest (line.enabled nofun) pending hold _)
    | false =>
      rw [claimEnded_won ctl o]
      have won := h.of_zone (keeps_setZone s (wonZone s.zone)) ⟨driving, stuck, timer, Nat.zero_le _⟩ h.line
      exact firingFit_takeGrant won ctl o
  · rw [claimEnded_observed ctl]
    exact h.of_zone (keeps_setZone _ _) ⟨driving, stuck, timer, losses⟩ h.line

end Sys2Proof.Machine
end

section
/-! SUPPORT. The firing law at the run: its start and end, the completion of a volley, the load and the reset keep it,
and so does every step (R36, R37, R151, R152). -/

namespace Sys2Proof.Machine

/-! ### The run -/

/-- A run starts with the sequencer waiting and the controller at rest (R36, R41, R151). -/
theorem firingFit_startRun {s : State} (reset : s.rc.inReset = false) (drains : s.rc.draining = false)
    (losses : s.zone.losses ≤ 255) (r : Byte) : FiringFit (startRun r s) where
  rc := ⟨fun x => absurd (reset.symm.trans x) nofun, fun x => absurd (drains.symm.trans x) nofun, fun x => absurd rfl x⟩
  seq := ⟨fun _ => ⟨rfl, rfl, rfl, rfl⟩, nofun, nofun⟩
  serving := .waitStep rfl
  zone := by
    show ZoneFit (zoneRunStart s.zoneEnabled s.zone)
    unfold zoneRunStart
    cases s.zoneEnabled with
    | true => exact zoneFit_idle rfl losses
    | false => exact ⟨fun x => x.elim nofun nofun, nofun, fun _ _ => rfl, losses⟩
  line := by
    show ZoneAt s.zoneEnabled .running .waitStep (zoneRunStart s.zoneEnabled s.zone).ctl _
    unfold zoneRunStart
    cases s.zoneEnabled with
    | true => exact .idle rfl rfl nofun nofun
    | false => exact .off nofun

theorem zoneStop_claim {z : Zone} (h : z.ctl = .claim) : zoneStop z = { z with orphaned := true } := by
  unfold zoneStop; rw [h]

theorem zoneStop_hold {z : Zone} (h : z.ctl = .hold) : zoneStop z = z := by
  unfold zoneStop; rw [h]

theorem zoneStop_rest {z : Zone} (claim : z.ctl ≠ .claim) (hold : z.ctl ≠ .hold) : zoneStop z = zoneOff z := by
  unfold zoneStop
  split
  · rfl
  · rfl
  · rfl
  · exact absurd ‹_› claim
  · exact absurd ‹_› hold

/-- STOPPING entry leaves the controller off, in an orphaned claim, or in its hold (R54). -/
theorem zoneStop_fits {z : Zone} {en : Bool} {sq : SqState} (fit : ZoneFit z) (line : ZoneAt en .running sq z.ctl z.orphaned) :
    ZoneFit (zoneStop z) ∧
    ZoneAt en .stopping (if sq = .hold then .hold else .off) (zoneStop z).ctl (zoneStop z).orphaned := by
  have unheld : z.ctl ≠ .hold → en = true → sq ≠ .hold := fun c x v => c ((ZoneAt.holds (x ▸ line)).2 v)
  by_cases claim : z.ctl = .claim
  · have x := line.enabled (by rw [claim]; nofun)
    rw [zoneStop_claim claim, if_neg (unheld (by rw [claim]; nofun) x)]
    refine ⟨⟨fit.driving, fit.stuck, fit.timer, fit.losses⟩, ?_⟩
    dsimp only
    rw [claim]
    exact .orphan x (serves_of_stopping rfl) nofun nofun
  · by_cases hold : z.ctl = .hold
    · have x := line.enabled (by rw [hold]; nofun)
      rw [zoneStop_hold hold, if_pos ((ZoneAt.holds (x ▸ line)).1 hold), hold]
      exact ⟨fit, .hold x (serves_of_stopping rfl) rfl⟩
    · rw [zoneStop_rest claim hold]
      refine ⟨zoneFit_zoneOff fit.losses, .off fun x => ?_⟩
      rw [if_neg (unheld hold x)]
      exact ⟨nofun, nofun, nofun⟩

/-- STOPPING is entered from RUNNING, with a start pending or not (R37, R54, R150, R152). -/
theorem firingFit_enterStopping {s : State} (h : FiringFit s) (run : s.rc.runState = .running) (start : Option Byte) :
    FiringFit (enterStopping (s.setRc { s.rc with pendingStart := start })) := by
  have reset := h.rc.not_reset (by rw [run]; nofun)
  have drains := h.rc.not_draining (by rw [run]; nofun)
  have line := h.line
  rw [run] at line
  obtain ⟨fit, goes⟩ := zoneStop_fits h.zone line
  set u := s.setRc { s.rc with pendingStart := start } with hu
  have rc := enterStopping_rc u
  have seq := enterStopping_seq u
  have zone := enterStopping_zone u
  rw [seqStop_eq] at seq
  have straps : (enterStopping u).rc.straps = s.rc.straps := by rw [rc]; split <;> rfl
  have runState : (enterStopping u).rc.runState = .stopping := by rw [rc]; split <;> rfl
  refine ⟨⟨fun x => ?_, fun _ => runState, fun _ => runState⟩, ?_, ?_, by rw [zone]; exact fit, ?_⟩
  · have same : (enterStopping u).rc.inReset = s.rc.inReset := by rw [rc]; split <;> rfl
    exact absurd (x.symm.trans (same.trans reset)) nofun
  · rw [(enterStopping_keeps u).cfg (by decide), seq]
    by_cases hold : s.seq.sq = .hold
    · obtain ⟨v, e, volley, entry⟩ := h.seq.hold hold
      exact seqFit_hold (if_pos hold) volley entry
    · have volley : s.seq.volley = none := by
        cases hq : s.seq.sq with
        | off => exact (h.seq.rests (.inl hq)).2.2.2
        | waitStep => exact (h.seq.rests (.inr hq)).2.2.2
        | pending => exact (h.seq.pending hq).2.1
        | hold => exact absurd hq hold
      have off : (if u.seq.sq = .hold then SqState.hold else .off) = .off := if_neg hold
      rw [off]
      exact ⟨fun _ => ⟨rfl, rfl, rfl, volley⟩, nofun, nofun⟩
  · rw [runState, seq]
    dsimp only
    rw [rc]
    by_cases hold : u.seq.sq = .hold
    · rw [if_pos hold, if_pos hold]; exact .hold (.inr rfl) drains
    · rw [if_neg hold, if_neg hold]; exact .off nofun fun _ => rfl
  · have en : (enterStopping u).zoneEnabled = s.zoneEnabled := congrArg Straps.zoneEnable straps
    rw [en, runState, zone, seq]; exact goes

/-- A RUNSTART frame keeps the law (R150). -/
theorem firingFit_runstartTaken {s : State} (h : FiringFit s) (r : Byte) : FiringFit (runstartTaken r s) := by
  unfold runstartTaken
  split
  · exact h
  · split
    · rename_i standby
      exact firingFit_startRun (h.rc.not_reset (by rw [standby]; nofun)) (h.rc.not_draining (by rw [standby]; nofun))
        h.zone.losses r
    · split
      · exact h
      · exact firingFit_enterStopping h ‹_› (some r)
    · rename_i stops
      split
      · exact h
      · exact ⟨⟨h.rc.reset, h.rc.draining, fun _ => stops⟩, h.seq, h.serving, h.zone, h.line⟩
    · exact h
    · exact h

/-- A RUNSTOP frame keeps the law (R152). -/
theorem firingFit_runstopTaken {s : State} (h : FiringFit s) (r : Byte) : FiringFit (runstopTaken r s) := by
  unfold runstopTaken
  split
  · exact firingFit_enterStopping h (And.left ‹_›) s.rc.pendingStart
  · exact h

/-- The end of the drain keeps the law (R153). -/
theorem firingFit_drainEnded {s : State} (h : FiringFit s) (stops : s.rc.runState = .stopping) (drains : s.rc.draining = true) :
    FiringFit (drainEnded s) := by
  have k := (correlationDrainEnd_keeps s).trans ((queueSummary_keeps (correlationDrainEnd s)).mono (by decide))
  have rc := k.rc (by decide)
  have g := h.of_keeps k
  unfold drainEnded
  set u := queueSummary (correlationDrainEnd s)
  have reset : u.rc.inReset = false := g.rc.not_reset (by rw [rc, stops]; nofun)
  dsimp only
  split
  · rename_i none
    have serving := g.serving
    have line := g.line
    rw [congrArg RunCtl.draining rc, drains] at serving
    have off := SqAt.draining serving ((congrArg RunCtl.runState rc).trans stops)
    rw [off, congrArg RunCtl.runState rc, stops] at line
    refine ⟨⟨fun x => absurd (reset.symm.trans x) nofun, nofun, fun x => absurd none x⟩, g.seq, ?_, g.zone, ?_⟩
    · show SqAt .standby false u.seq.sq
      rw [off]; exact .off nofun nofun
    · show ZoneAt u.zoneEnabled .standby u.seq.sq u.zone.ctl u.zone.orphaned
      rw [off]
      generalize u.zone.ctl = ctl, u.zone.orphaned = b at line
      cases line with
      | off => exact .off fun _ => ⟨nofun, nofun, nofun⟩
      | idle _ r | wait _ r | claim _ r => cases r
      | orphan en _ p v => exact .orphan en ⟨nofun, nofun⟩ p v
      | hold _ _ v => cases v
  · exact firingFit_startRun (s := u.setRc { u.rc with runState := .standby, draining := false, drainTimer := 0 }) reset rfl
      g.zone.losses _

/-! ### Volley completion -/

/-- The volley is cleared: nothing is in hold, and in RUNNING the line is free (R27, R47, R54). -/
theorem volleyCleared_spec (s : State) : (volleyCleared s).rc = s.rc ∧ (volleyCleared s).cfg = s.cfg ∧
    (volleyCleared s).acq = [] ∧ (volleyCleared s).seq = { s.seq with volley := none, holdTimer := 0, held := 0 } ∧
    (volleyCleared s).zone = if s.zone.ctl = .hold then zoneRelease (decide (s.rc.runState = .running)) s.zone else s.zone := by
  unfold volleyCleared
  dsimp only
  split <;> exact ⟨rfl, rfl, rfl, rfl, rfl⟩

/-- The controller after a hold ends (R48, R54). -/
theorem released_fits {z : Zone} {en : Bool} {run : RunState} {sq : SqState} (fit : ZoneFit z)
    (line : ZoneAt en run .hold z.ctl z.orphaned) (pending : sq ≠ .pending) (hold : sq ≠ .hold) :
    let y := if z.ctl = .hold then zoneRelease (decide (run = .running)) z else z
    ZoneFit y ∧ ZoneAt en run sq y.ctl y.orphaned := by
  dsimp only
  split
  · rename_i c
    exact ⟨zoneFit_zoneRest _ fit.losses, zoneAt_zoneRest (line.enabled (by rw [c]; nofun)) pending hold _⟩
  · rename_i c
    have disabled : en = false := Bool.eq_false_of_not_eq_true fun x => c ((ZoneAt.holds (x ▸ line)).2 rfl)
    subst disabled
    refine ⟨fit, ?_⟩
    rw [line.disabled]; exact .off nofun

/-- The completion of a volley in hold keeps the law (R27, R37). -/
theorem firingFit_volleyCompleted {s : State} (h : FiringFit s) (sq : s.seq.sq = .hold) (x : PortEchoes) (v : Volley)
    (e : PlanEntry) : FiringFit (volleyCompleted x v e s) := by
  have k := completeVolley_keeps v e x s
  unfold volleyCompleted
  obtain ⟨rc, cfg, _, seq, zone⟩ := volleyCleared_spec (completeVolley v e x s)
  rw [k.rc (by decide)] at rc
  rw [k.cfg (by decide)] at cfg
  rw [k.seq (by decide)] at seq
  rw [k.zone (by decide), k.rc (by decide)] at zone
  set u := volleyCleared (completeVolley v e x s)
  have line := h.line
  rw [sq] at line
  have en : u.zoneEnabled = s.zoneEnabled := by unfold State.zoneEnabled; rw [rc]
  have volley : u.seq.volley = none := by rw [seq]
  unfold afterCompletion
  split
  · rename_i run
    have free : LineFree u := by
      have fits := released_fits (sq := .waitStep) h.zone line nofun nofun
      rw [← zone, ← rc, run, ← en] at fits
      exact ⟨by rw [rc]; exact h.rc, run, fits.1, fits.2⟩
    split
    · exact firingFit_startCycle free volley _
    · exact firingFit_walkOn free ‹_› volley ‹_› _
    · exact firingFit_finishCycle free ‹_› volley
  · rename_i run
    rw [rc] at run
    have stops : s.rc.runState = .stopping := (h.serving.serving (by rw [sq]; nofun)).resolve_left run
    have fits := released_fits (sq := .off) h.zone line nofun nofun
    rw [← zone, ← en] at fits
    set w := u.setSeq { u.seq with sq := .off, cycle := none, pointer := none, waiting := none }
    have c := stoppingClose_keeps w
    have crc := stoppingClose_rc w
    have state : (stoppingClose w).rc.runState = s.rc.runState := by
      rw [crc]; show u.rc.runState = _; rw [rc]
    have cen : (stoppingClose w).zoneEnabled = u.zoneEnabled := by unfold State.zoneEnabled; rw [crc]; rfl
    refine ⟨⟨fun x => ?_, fun _ => state.trans stops, fun _ => state.trans stops⟩, ?_, ?_, ?_, ?_⟩
    · have same : (stoppingClose w).rc.inReset = s.rc.inReset := by
        rw [crc]; show u.rc.inReset = _; rw [rc]
      exact absurd ((same.symm.trans x).symm.trans (h.rc.not_reset (by rw [stops]; nofun))) nofun
    · rw [c.seq (by decide)]; exact ⟨fun _ => ⟨rfl, rfl, rfl, volley⟩, nofun, nofun⟩
    · rw [c.seq (by decide), state, stops]; exact .off nofun fun _ => by rw [crc]
    · rw [c.zone (by decide)]; exact fits.1
    · rw [c.seq (by decide), c.zone (by decide), state, cen]; exact fits.2

/-! ### The load and the reset -/

/-- After a reset the station is in LOADING with the sequencer and the controller off (R38, R54, R146). -/
theorem firingFit_takeReset (cause : ResetCause) (s : State) : FiringFit (takeReset cause s) where
  rc := ⟨fun _ => rfl, nofun, fun h => absurd rfl h⟩
  seq := ⟨fun _ => ⟨rfl, rfl, rfl, rfl⟩, nofun, nofun⟩
  serving := .off nofun nofun
  zone := ⟨fun h => h.elim nofun nofun, nofun, fun _ _ => rfl, Nat.zero_le _⟩
  line := .off nofun

/-- In LOADING the sequencer and the controller are off, and no drain or start is left. -/
theorem FiringFit.loading {s : State} (h : FiringFit s) (load : s.rc.runState = .loading) :
    s.seq.sq = .off ∧ s.zone.ctl = .off ∧ s.rc.draining = false ∧ s.rc.pendingStart = none := by
  have line := h.line
  rw [load] at line
  refine ⟨?_, line.resting fun r => r.1 rfl, ?_, ?_⟩
  · by_contra work
    rcases h.serving.serving work with r | r <;> exact absurd (load.symm.trans r) nofun
  · exact h.rc.not_draining (by rw [load]; nofun)
  · by_contra p
    exact absurd ((h.rc.pendingStart p).symm.trans load) nofun

/-- The release of the reset, with any straps (R146, R147). -/
theorem firingFit_releaseReset {s : State} (h : FiringFit s) (reset : s.rc.inReset = true) (st : Straps) :
    FiringFit (releaseReset st s) := by
  obtain ⟨sq, ctl, _⟩ := h.loading (h.rc.reset reset)
  refine ⟨⟨nofun, h.rc.draining, h.rc.pendingStart⟩, h.seq, h.serving, h.zone, ?_⟩
  show ZoneAt _ s.rc.runState s.seq.sq s.zone.ctl _
  rw [sq, ctl, h.rc.reset reset]
  exact .off fun _ => ⟨nofun, nofun, nofun⟩

/-- The end of a load, good or refused (R147 to R149). -/
theorem firingFit_loadEnded {s : State} (h : FiringFit s) (reset : s.rc.inReset = false) (load : s.rc.runState = .loading)
    (im : List Byte) : FiringFit (loadEnded im s) := by
  obtain ⟨sq, ctl, drains, start⟩ := h.loading load
  have rc : ∀ r : RunCtl, r.inReset = s.rc.inReset → r.draining = s.rc.draining → r.pendingStart = s.rc.pendingStart →
      RunFit r :=
    fun r hr hd hp => ⟨fun x => absurd (reset.symm.trans (hr.symm.trans x)) nofun,
      fun x => absurd (drains.symm.trans (hd.symm.trans x)) nofun, fun x => absurd (hp.trans start) x⟩
  have seq : ∀ plan, SeqFit plan s.seq := fun plan =>
    ⟨fun _ => h.seq.rests (.inl sq), fun x => absurd (sq.symm.trans x) nofun, fun x => absurd (sq.symm.trans x) nofun⟩
  have serving : ∀ run, run ≠ .running → run ≠ .stopping → SqAt run s.rc.draining s.seq.sq := fun run r r' => by
    rw [sq]; exact .off r fun x => absurd x r'
  have line : ∀ en run b, run ≠ .running → ZoneAt en run s.seq.sq s.zone.ctl b := fun en run b r => by
    rw [sq, ctl]; exact .off fun _ => ⟨r, nofun, nofun⟩
  unfold loadEnded
  split
  · exact ⟨rc _ rfl rfl rfl, seq _, serving .faulted nofun nofun, h.zone, line _ .faulted _ nofun⟩
  · exact ⟨rc _ rfl rfl rfl, seq _, serving .standby nofun nofun, ⟨fun _ => rfl, h.zone.stuck, h.zone.timer, h.zone.losses⟩,
      line _ .standby _ nofun⟩

/-! ### Every step -/

/-- A taken frame, its block's act and the discards behind it keep the law where the act does. -/
theorem firingFit_taken {b : Block} {c : Instr} {n : Nat} {s u v : State} (h : FiringFit s) (taken : takeFrame b c n s = some u)
    (keeps : FiringFit u → FiringFit v) : FiringFit (dispatchDiscards v) :=
  (keeps (h.of_keeps (takeFrame_keeps taken))).of_keeps (dispatchDiscards_keeps _)

/-- A frame received or an INDICATION taken changes the conflict flag alone of the Run Controller. -/
theorem SameRun.conflict {q r : RunCtl} {b : Bool} (h : r = { q with conflict := b }) : SameRun q r := by
  subst h; exact ⟨rfl, rfl, rfl, rfl, rfl⟩

/-- A MASK frame reaches neither the walk nor the volley (R33, R35). -/
theorem firingFit_applyMask {s : State} (h : FiringFit s) (p : MaskPayload) : FiringFit (applyMask p s) := by
  have masked : ∀ mask held, FiringFit (s.setSeq { s.seq with mask := mask, held := held }) := fun _ _ =>
    h.of_same (.of_eq rfl) ⟨rfl, rfl, rfl, rfl, rfl⟩ rfl h.zone h.line
  exact (masked _ _).of_keeps (closureRequests_keeps _ _)

/-- Every command keeps the law. -/
theorem firingFit_exec {c : Instr} {s t : State} (h : FiringFit s) (e : exec c s = .next t) : FiringFit t := by
  have k := exec_touches e
  have ite_fit : ∀ {p : Prop} [Decidable p] {u : State}, (p → FiringFit u) → FiringFit (if p then u else s) := by
    intro p _ u g; split
    · exact g ‹_›
    · exact h
  cases c with
  | powerOn => cases e; exact firingFit_takeReset ..
  | supplyLow => cases e; exact firingFit_takeReset ..
  | resetPin => cases e; exact firingFit_takeReset ..
  | resetRelease st => cases e; exact ite_fit fun reset => firingFit_releaseReset h reset st
  | loadEnd im => cases e; exact ite_fit fun g => firingFit_loadEnded h g.1 g.2 im
  | encoderSampleInstant a b => cases e; exact ite_fit fun _ => firingFit_sampleInstant h a b
  | zoneLineLevelChange level => cases e; exact firingFit_lineLevelChange h level
  | quiet => cases e; exact ite_fit fun q => firingFit_quietReached h q
  | codeSlotRead slot level => cases e; exact ite_fit fun ctl => firingFit_slotReading h ctl slot level
  | claimPeriodEnd => cases e; exact ite_fit fun _ => firingFit_claimEnded h
  | stuckTimerExpiry => cases e; exact ite_fit fun runs => firingFit_stuckReached h runs
  | volleyCompletion x =>
    rw [exec_volleyCompletion] at e; injection e with e; subst e
    split
    · exact h
    · rename_i held
      unfold holding at held
      split at held
      · exact firingFit_volleyCompleted h ‹_› x _ _
      · cases held
  | frameReceived x =>
    refine h.of_run ?_ k (by simp [touched]) (by simp [touched]) (by simp [touched])
    rw [exec_frameReceived] at e; injection e with e; subst e
    split
    · obtain ⟨b, hb⟩ := frameEnds_rc x s; exact .conflict hb
    · exact .of_eq rfl
  | indication r p =>
    rw [exec_indication] at e; injection e with e; subst e
    split
    · exact h
    · obtain ⟨b, hb⟩ := indicationTaken_rc r p _
      exact firingFit_taken h ‹_› fun g => g.of_run (.conflict hb) (indicationTaken_keeps r p _)
  | runstart r =>
    rw [exec_runstart] at e; injection e with e; subst e
    split
    · exact h
    · exact firingFit_taken h ‹_› fun g => firingFit_runstartTaken g r
  | runstop r =>
    rw [exec_runstop] at e; injection e with e; subst e
    split
    · exact h
    · exact firingFit_taken h ‹_› fun g => firingFit_runstopTaken g r
  | mask p =>
    rw [exec_mask] at e; injection e with e; subst e
    refine ite_fit fun _ => ?_
    split
    · exact h
    · exact firingFit_taken h ‹_› fun g => firingFit_applyMask g p
  | drainEnd => cases e; exact ite_fit fun g => firingFit_drainEnded h g.1 g.2
  | suppress | linkIdleInstant | beginTime | frameComplete | readbackMismatch | receiveError | serviceTimeEnd
  | linkLevelChange =>
    exact h.of_keeps k (by simp [touched]) (by simp [touched]) (by simp [touched]) (by simp [touched])

/-- A tick moves timers, which the law reads of the stuck timer alone, and that one runs in ZL_IDLE and ZL_WAIT (R50). -/
theorem firingFit_tick {s : State} (h : FiringFit s) : FiringFit (tick s) := by
  obtain ⟨driving, stuck, timer, losses⟩ := h.zone
  have rest : ∀ z : Zone, s.zone.ctl ≠ .idle → s.zone.ctl ≠ .wait → z = s.zone → ¬stuckRuns z = true := by
    rintro z idle wait rfl runs
    exact (((stuckRuns_iff _).1 runs).1.elim idle wait)
  have zone : ZoneFit (tickZone s.observing s.cfg.tw s.zone) ∧ (tickZone s.observing s.cfg.tw s.zone).ctl = s.zone.ctl ∧
      (tickZone s.observing s.cfg.tw s.zone).orphaned = s.zone.orphaned := by
    cases s.observing with
    | false => exact ⟨h.zone, rfl, rfl⟩
    | true =>
      rw [tickZone_eq]
      refine ⟨⟨driving, stuck, fun idle wait => ?_, losses⟩, rfl, rfl⟩
      exact ((tickZoneTimers_stuckTimer s.cfg.tw s.zone).2 (rest _ idle wait rfl)).trans (timer idle wait)
  obtain ⟨fit, ctl, orphaned⟩ := zone
  refine h.of_same ?_ ?_ rfl fit ?_
  · show SameRun s.rc (tickRun s.rc)
    unfold tickRun; split <;> exact ⟨rfl, rfl, rfl, rfl, rfl⟩
  · show SameSeq s.seq (tickSeq s.seq)
    unfold tickSeq; split <;> exact ⟨rfl, rfl, rfl, rfl, rfl⟩
  · show ZoneAt _ _ _ (tickZone s.observing s.cfg.tw s.zone).ctl (tickZone s.observing s.cfg.tw s.zone).orphaned
    rw [ctl, orphaned]; exact h.line

/-- Settles O22: the law block by block is kept by every command, a tick and a change of the queue, so by every step. -/
theorem everyStepKeepsTheFiringLaw : Obligations.EveryStepKeepsTheFiringLaw := by
  intro s t h e
  rw [firingLaw_iff] at h ⊢
  exact step_keeps_of (inv := FiringFit) (fun _ _ _ h e => firingFit_exec h e) (fun _ h => firingFit_tick h)
    (fun _ _ h => ⟨h.rc, h.seq, h.serving, h.zone, h.line⟩) s t h e

end Sys2Proof.Machine
end

section
/-! SUPPORT. The channel mask (R33, R34): its sets bit by bit, and the slots that a MASK frame cuts. -/

namespace Sys2Proof.Machine

/-! ### Channel sets (R158) -/

theorem inSet_or (a b : ChanSet) (c : Chan) : inSet (a ||| b) c = (inSet a c || inSet b c) := BitVec.getLsbD_or

theorem inSet_and (a b : ChanSet) (c : Chan) : inSet (a &&& b) c = (inSet a c && inSet b c) := BitVec.getLsbD_and

theorem inSet_not (a : ChanSet) (c : Chan) : inSet (~~~a) c = !inSet a c := by
  unfold inSet
  rw [BitVec.getLsbD_not, decide_eq_true (Chan.num_lt c), Bool.true_and]

/-- The clear list first, then the set list (R33). -/
theorem inSet_maskAfter (p : MaskPayload) (m : ChanSet) (c : Chan) :
    inSet (maskAfter p m) c = (inSet p.setList c || (inSet m c && !inSet p.clearList c)) := by
  unfold maskAfter
  rw [inSet_or, inSet_and, inSet_not, Bool.or_comm]

theorem inSet_newlyMuted (p : MaskPayload) (m : ChanSet) (c : Chan) :
    inSet (newlyMuted p m) c = (inSet (maskAfter p m) c && !inSet m c) := by
  unfold newlyMuted
  rw [inSet_and, inSet_not]

/-! ### What a mask leaves (R33, R34) -/

/-- The newly muted channels whose slots are cut at once: those not of the volley in hold (R34). -/
def cutAtOnce (p : MaskPayload) (q : Seq) : List Chan :=
  Chan.all.filter (fun c => inSet (maskAfter p q.mask) c && !inSet q.mask c && !inSet (firedInHold q) c)

/-- The sequencer after a mask: the muted channels, and the requests held (R33, R34). -/
def seqMasked (p : MaskPayload) (q : Seq) : Seq :=
  { q with mask := maskAfter p q.mask, held := q.held ||| (newlyMuted p q.mask &&& firedInHold q) }

theorem applyMask_eq (p : MaskPayload) (s : State) :
    applyMask p s = closureRequests (cutAtOnce p s.seq) (s.setSeq (seqMasked p s.seq)) := by
  have cuts : chansOf (newlyMuted p s.seq.mask &&& ~~~firedInHold s.seq) = cutAtOnce p s.seq := by
    refine List.filter_congr fun c _ => ?_
    rw [inSet_and, inSet_newlyMuted, inSet_not]
  unfold applyMask
  dsimp only
  rw [cuts]
  rfl

theorem applyMask_seq (p : MaskPayload) (s : State) : (applyMask p s).seq = seqMasked p s.seq := by
  rw [applyMask_eq, (closureRequests_keeps _ _).seq (by decide)]; rfl

/-- The frames discarded next leave what a cut leaves. -/
theorem CutFor.discards {s t : State} {cs : List Chan} (h : CutFor s cs t) : CutFor s cs (dispatchDiscards t) := by
  obtain ⟨freed, counts, ⟨seq, sparse, sent, dropped, entered, inserted⟩⟩ := h
  exact ⟨freed, counts, ⟨seq, sparse, sent, dropped, entered, inserted⟩⟩

/-- The slots cut by a MASK frame taken in place of s's receive queue and busy times (R34, R104). -/
theorem applyMask_cut (p : MaskPayload) {s u : State} (k : Keeps [.link] s u) (q1 : u.link.q1 = s.link.q1)
    (q2 : u.link.q2 = s.link.q2) (drop1 : u.link.drop1 = s.link.drop1) (drop2 : u.link.drop2 = s.link.drop2) :
    CutFor s (cutAtOnce p s.seq) (applyMask p u) := by
  have rc := k.rc (by decide)
  have cut : CutFor (u.setSeq (seqMasked p u.seq)) (cutAtOnce p u.seq) (applyMask p u) := by
    rw [applyMask_eq]
    exact closureRequests_cut (Chan.all_nodup.filter _) _
  have same : SameTable s (u.setSeq (seqMasked p u.seq)) :=
    ⟨congrArg RunCtl.run rc, congrArg RunCtl.straps rc, k.cfg (by decide), k.corr (by decide), q1, drop1⟩
  rw [← k.seq (by decide)]
  exact cut.of_same same (k.trk (by decide)) q2 drop2

/-- Settles O20. -/
theorem maskClearsThenSets : Obligations.MaskClearsThenSets := by
  intro s p
  refine ⟨fun own offered => ?_, fun other => ?_⟩
  · set u := s.setLink (setBusy { s.link with rxQueue := s.link.rxQueue.drop 1 } .volleySequencer (some maskService)) with hu
    have taken : takeFrame .volleySequencer (.mask p) maskService s = some u := takeFrame_offered maskService offered
    have acts : exec (.mask p) s = .next (dispatchDiscards (applyMask p u)) := by rw [exec_mask, if_pos own, taken]
    have k : Keeps [.link] s u := keeps_setLink _ _
    have seq : (dispatchDiscards (applyMask p u)).seq = seqMasked p s.seq := applyMask_seq p u
    have cut : CutFor s (cutAtOnce p s.seq) (dispatchDiscards (applyMask p u)) := (applyMask_cut p k rfl rfl rfl rfl).discards
    have hands := Hands.taken (b := .volleySequencer) (n := maskService) (s := s) (applyMask_hands p u)
    refine ⟨_, acts, fun c => ?_, fun c => ?_, ?_, fun c => ?_, ?_, ?_, hands⟩
    · rw [seq]; exact inSet_maskAfter p s.seq.mask c
    · rw [seq]
      unfold seqMasked
      dsimp only
      rw [inSet_or, inSet_and, inSet_newlyMuted]
    · rw [seq]; rfl
    · rw [seq, cut.freed c]
      simp only [cutAtOnce, List.mem_filter, Chan.mem_all, true_and]
      rfl
    · rw [seq]; exact cut
    · exact Machine.taken taken (by decide) (applyMask_keeps p u)
  · rw [exec_mask, if_neg other]

end Sys2Proof.Machine
end

section
/-! SUPPORT. The completion of a volley in hold (R27, R28, R37, R67 to R69): what the hand-over leaves of the machines and of each
channel's slots, the state it leaves for what follows, and what follows in RUNNING and in STOPPING. -/

namespace Sys2Proof.Machine

/-! ### Results (R59 to R66) -/

theorem endFRun_chan (g : FGate) (r : EvalRecord) : (endFRun g r).chan = r.chan := by
  unfold endFRun
  split <;> rfl

theorem takeF_chan (g : FGate) (t v : Nat) (r : EvalRecord) : (takeF g t v r).chan = r.chan := by
  have run : (if g.threshold ≤ v then { r with fRun := some (extendRun t v r.fRun) } else endFRun g r).chan = r.chan := by
    split
    · rfl
    · exact endFRun_chan g r
  unfold takeF
  dsimp only
  split
  · split
    · exact (endFRun_chan g _).trans run
    · exact run
  · rfl

theorem takeM_chan (g : MGate) (t v : Nat) (r : EvalRecord) : (takeM g t v r).chan = r.chan := by
  unfold takeM
  dsimp only
  repeat' split
  all_goals rfl

theorem takeSamples_chan (c : ChanParams) : ∀ (vs : List Byte) (t : Nat) (r : EvalRecord),
    (takeSamples c t vs r).chan = r.chan
  | [], _, _ => rfl
  | v :: vs, t, r =>
    (takeSamples_chan c vs (t + 1) _).trans ((takeM_chan c.m t v.toNat _).trans (takeF_chan c.f t v.toNat r))

/-- A record's results are its own channel's. -/
theorem resultOf_chan (p : Params) (h : Nat) (echoes : PortEchoes) (r : EvalRecord) : (resultOf p h echoes r).chan = r.chan :=
  (endFRun_chan _ _).trans (takeSamples_chan _ _ _ _)

/-- A channel acquires its own port's samples, and none without a port (R22, R59). -/
theorem echoOf_eq (echoes : PortEchoes) (port : Option Nat) :
    echoOf echoes port = (port.map (fun n => echoes.getD n [])).getD [] := by
  cases port <;> rfl

theorem resultOf_chans (p : Params) (h : Nat) (echoes : PortEchoes) (rs : List EvalRecord) :
    (rs.map (resultOf p h echoes)).map (·.chan) = rs.map (·.chan) := by
  rw [List.map_map]
  exact List.map_congr_left fun r _ => resultOf_chan p h echoes r

/-! ### The hand-over of M results and hits (R67, R68) -/

/-- The state once the results of a volley's records have been handed, before its outcomes (R67, R68). -/
def resultsHanded (v : Volley) (e : PlanEntry) (echoes : PortEchoes) (s : State) : State :=
  let records := s.acq.map (resultOf s.cfg e.hold echoes)
  records.foldl (handF v.pv) (records.foldl handM s)

/-- The slots a channel has left once the M results are handed: none where its source has entered LOST (R73). -/
def keptSlots (s t : State) (c : Chan) : ChanSlots :=
  if (t.coup.get (s.cfg.chan.get c).source).state = .lost ∧ (s.coup.get (s.cfg.chan.get c).source).state ≠ .lost then
    ⟨none, none⟩
  else s.trk.chan.get c

section
variable (v : Volley) (e : PlanEntry) (echoes : PortEchoes) (s : State)

theorem resultsHanded_keeps : Keeps [.coup, .trk, .corr, .link] s (resultsHanded v e echoes s) :=
  (foldM_keeps _ s).trans ((foldF_keeps v.pv _ _).mono (by decide))

theorem resultsHanded_hands : Hands [.c1, .c2] s (resultsHanded v e echoes s) := handed_hands v.pv _ s

/-- The hits reach no machine. -/
theorem resultsHanded_machines : (resultsHanded v e echoes s).coup =
    ((s.acq.map (resultOf s.cfg e.hold echoes)).foldl handM s).coup := (foldF_keeps v.pv _ _).coup (by decide)

variable {v e echoes s} (nd : (s.acq.map (·.chan)).Nodup)
include nd

/-- The machine of a fired channel with its M gate enabled is advanced by its own result (R67, R72). -/
theorem resultsHanded_coup_fired {r : EvalRecord} (hr : r ∈ s.acq) (gate : (s.cfg.chan.get r.chan).m.enabled = true) :
    (resultsHanded v e echoes s).coup.get r.chan =
      couplingAfter (s.cfg.chan.get r.chan) (s.coup.get r.chan) (resultOf s.cfg e.hold echoes r).mPresent := by
  have own := (foldM_coup _ s ((resultOf_chans s.cfg e.hold echoes s.acq).symm ▸ nd)).1 _ (List.mem_map_of_mem hr)
  unfold coupledBy at own
  rw [resultOf_chan, if_pos gate] at own
  rw [resultsHanded_machines]
  exact own

/-- Every other machine stays (R67). -/
theorem resultsHanded_coup_rest {c : Chan} (rest : ∀ r ∈ s.acq, r.chan = c → (s.cfg.chan.get c).m.enabled = false) :
    (resultsHanded v e echoes s).coup.get c = s.coup.get c := by
  obtain ⟨own, others⟩ := foldM_coup _ s ((resultOf_chans s.cfg e.hold echoes s.acq).symm ▸ nd)
  rw [resultsHanded_machines]
  by_cases fired : ∃ r ∈ s.acq, r.chan = c
  · obtain ⟨r, hr, rfl⟩ := fired
    have stays := own _ (List.mem_map_of_mem hr)
    unfold coupledBy at stays
    rw [resultOf_chan, rest r hr rfl] at stays
    exact stays
  · refine others c fun x hx hc => fired ?_
    obtain ⟨r, hr, rfl⟩ := List.mem_map.1 hx
    exact ⟨r, hr, (resultOf_chan ..).symm.trans hc⟩

/-- The slots after the M results alone (R73). -/
theorem foldM_keptSlots (c : Chan) : ((s.acq.map (resultOf s.cfg e.hold echoes)).foldl handM s).trk.chan.get c =
    keptSlots s (resultsHanded v e echoes s) c := by
  unfold keptSlots
  rw [foldM_slots c _ s ((resultOf_chans s.cfg e.hold echoes s.acq).symm ▸ nd), resultsHanded_machines]

/-- A channel that did not fire has no result to reach its slots. -/
theorem resultsHanded_unfired {c : Chan} (unfired : ∀ r ∈ s.acq, r.chan ≠ c) :
    (resultsHanded v e echoes s).trk.chan.get c = keptSlots s (resultsHanded v e echoes s) c := by
  rw [← foldM_keptSlots nd c]
  refine foldF_get v.pv c _ _ fun x hx => ?_
  obtain ⟨r, hr, rfl⟩ := List.mem_map.1 hx
  rw [resultOf_chan]
  exact unfired r hr

/-- A fired channel's slots are as its own result leaves them, from those that the M results left. -/
theorem resultsHanded_fired {r : EvalRecord} (hr : r ∈ s.acq) : ∃ u, u.cfg = s.cfg ∧
    u.coup = (resultsHanded v e echoes s).coup ∧ u.seq = s.seq ∧
    u.trk.chan.get r.chan = keptSlots s (resultsHanded v e echoes s) r.chan ∧
    (resultsHanded v e echoes s).trk.chan.get r.chan =
      (handF v.pv u (resultOf s.cfg e.hold echoes r)).trk.chan.get r.chan := by
  have kept := foldM_keptSlots (v := v) (e := e) (echoes := echoes) nd r.chan
  have k := foldM_keeps (s.acq.map (resultOf s.cfg e.hold echoes)) s
  obtain ⟨u, ku, slots, handed⟩ := foldF_own v.pv _ ((s.acq.map (resultOf s.cfg e.hold echoes)).foldl handM s)
    ((resultOf_chans s.cfg e.hold echoes s.acq).symm ▸ nd) _ (List.mem_map_of_mem hr)
  rw [resultOf_chan] at slots handed
  refine ⟨u, (ku.cfg (by decide)).trans (k.cfg (by decide)), ?_, (ku.seq (by decide)).trans (k.seq (by decide)),
    slots.trans kept, handed⟩
  rw [resultsHanded_machines, ku.coup (by decide)]

end

/-! ### One record's hand-over (R68, R34) -/

section
variable {pv : Int} {s : State} {r : EvalRecord}

/-- A held request cuts what the hit has left (R34). -/
theorem handF_held (held : inSet s.seq.held r.chan = true) : (handF pv s r).trk.chan.get r.chan = ⟨none, none⟩ := by
  have seq : (judgeHit pv s r).seq = s.seq := (judgeHit_keeps pv s r).seq (by decide)
  unfold handF
  dsimp only
  rw [seq, if_pos held, closureRequest_get, if_pos rfl]

theorem handF_unheld (held : inSet s.seq.held r.chan = false) : handF pv s r = judgeHit pv s r := by
  have seq : (judgeHit pv s r).seq = s.seq := (judgeHit_keeps pv s r).seq (by decide)
  unfold handF
  dsimp only
  rw [seq, held]
  rfl

/-- A LOST source's hit or empty firing reaches no slot (law 11, R68). -/
theorem judgeHit_lost (lost : sourceState s r.chan = .lost) : judgeHit pv s r = s := by
  unfold judgeHit; rw [lost]

theorem judgeHit_empty (lost : sourceState s r.chan ≠ .lost) (empty : r.fHit = none) :
    judgeHit pv s r = firingNoHit r.chan s := by
  unfold judgeHit
  rw [empty]
  cases h : sourceState s r.chan with
  | lost => exact absurd h lost
  | doubtful | coupled => rfl

theorem judgeHit_hit {hit : Hit} (lost : sourceState s r.chan ≠ .lost) (found : r.fHit = some hit) : judgeHit pv s r =
    hitRecord (project (s.cfg.chan.get r.chan) r.chan pv hit (decide (sourceState s r.chan = .doubtful))) s := by
  unfold judgeHit
  rw [found]
  cases h : sourceState s r.chan with
  | lost => exact absurd h lost
  | doubtful | coupled => rfl

end

/-- What the slots of a fired channel come to, from those that the M results left and the machines of t, which are those they left
(R68, R34). -/
theorem resultsHanded_slots {v : Volley} {e : PlanEntry} {echoes : PortEchoes} {s t : State}
    (nd : (s.acq.map (·.chan)).Nodup) (machines : t.coup = (resultsHanded v e echoes s).coup) {r : EvalRecord}
    (hr : r ∈ s.acq) :
    let c := r.chan
    let slots := (resultsHanded v e echoes s).trk.chan.get c
    let source := (t.coup.get (s.cfg.chan.get c).source).state
    let result := resultOf s.cfg e.hold echoes r
    let before := fun (order : Nat) =>
      { s with trk := { s.trk with chan := s.trk.chan.set c (keptSlots s t c), openOrder := order } }
    (inSet s.seq.held c = true → slots = ⟨none, none⟩) ∧
    (inSet s.seq.held c = false →
      (source = .lost → slots = keptSlots s t c) ∧
      (source ≠ .lost → result.fHit = none → slots = (firingNoHit c (before s.trk.openOrder)).trk.chan.get c) ∧
      (∀ hit, source ≠ .lost → result.fHit = some hit → ∃ order, slots =
        (hitRecord (project (s.cfg.chan.get c) c v.pv hit (decide (source = .doubtful))) (before order)).trk.chan.get c)) := by
  intro c slots source result before
  obtain ⟨u, cfg, coup, seq, kept, handed⟩ := resultsHanded_fired (v := v) (e := e) (echoes := echoes) nd hr
  have same : keptSlots s (resultsHanded v e echoes s) c = keptSlots s t c := by unfold keptSlots; rw [machines]
  have chan : result.chan = c := resultOf_chan ..
  have reads : sourceState u result.chan = source := by unfold sourceState; rw [chan, cfg, coup, ← machines]
  have own : u.trk.chan.get c = (before u.trk.openOrder).trk.chan.get c :=
    (kept.trans same).trans (PerChan.get_set_self ..).symm
  refine ⟨fun held => ?_, fun held => ?_⟩
  · have cut := handF_held (pv := v.pv) (s := u) (r := result) (by rw [chan, seq]; exact held)
    rw [chan] at cut
    exact handed.trans cut
  · rw [handF_unheld (by rw [resultOf_chan, seq]; exact held)] at handed
    refine ⟨fun lost => ?_, fun lost empty => ?_, fun hit lost found => ⟨u.trk.openOrder, ?_⟩⟩
    · rw [judgeHit_lost (reads.trans lost)] at handed
      exact handed.trans (kept.trans same)
    · rw [judgeHit_empty (by rw [reads]; exact lost) empty, resultOf_chan] at handed
      exact handed.trans (firingNoHit_congr c cfg own)
    · rw [judgeHit_hit (by rw [reads]; exact lost) found, reads, resultOf_chan, cfg] at handed
      exact handed.trans (hitRecord_congr (project _ c v.pv hit _) (t := u) (s := before u.trk.openOrder) cfg own rfl)

/-! ### Outcomes (R69) -/

/-- The outcomes of a completed entry, with the machines as in s (R69). -/
def entryOutcomes (s : State) (v : Volley) (e : PlanEntry) : List Handed :=
  (chansOf e.chans).map (fun c => ⟨c, completionOutcome s v.fired c, v.pv⟩)

theorem completionOutcome_eq (s : State) (fired : ChanSet) (c : Chan) : completionOutcome s fired c =
    if inSet fired c = true then (if sourceState s c = .lost then .bad .uncoupled else .good)
    else if (s.cfg.chan.get c).port = none then .bad .unassigned else .bad .muted := by
  unfold completionOutcome
  cases sourceState s c <;> rfl

theorem entryOutcomes_marks (s : State) (v : Volley) (e : PlanEntry) :
    ∀ x ∈ entryOutcomes s v e, marksCoverage x.outcome = false := by
  intro x hx
  obtain ⟨c, _, rfl⟩ := List.mem_map.1 hx
  exact completionOutcome_marks s v.fired c

/-- The hand-over: M results, hits and held requests, then the outcomes (R67 to R69). -/
theorem completeVolley_eq (v : Volley) (e : PlanEntry) (echoes : PortEchoes) (s : State) : completeVolley v e echoes s =
    let handed := resultsHanded v e echoes s
    afterHanded (entryOutcomes handed v e) handed := foldOutcome_eq v _ _

/-! ### The state for what follows -/

/-- The state once the volley has been handed over and cleared, and its line released (R27, R47, R69). -/
structure Completed (s : State) (v : Volley) (e : PlanEntry) (echoes : PortEchoes) (u : State) : Prop where
  rc : u.rc = s.rc
  cfg : u.cfg = s.cfg
  seq : u.seq = { s.seq with volley := none, holdTimer := 0, held := 0 }
  acq : u.acq = []
  zone : u.zone = if s.zone.ctl = .hold then zoneRelease (decide (s.rc.runState = .running)) s.zone else s.zone
  trk : u.trk = (resultsHanded v e echoes s).trk
  corr : u.corr = (resultsHanded v e echoes s).corr
  hands : Hands [.c3] (resultsHanded v e echoes s) u
  took : Took (entryOutcomes (resultsHanded v e echoes s) v e) s u

theorem volleyCleared_completed (v : Volley) (e : PlanEntry) (echoes : PortEchoes) (s : State) :
    Completed s v e echoes (volleyCleared (completeVolley v e echoes s)) := by
  obtain ⟨rc, cfg, acq, seq, zone⟩ := volleyCleared_spec (completeVolley v e echoes s)
  have k := completeVolley_keeps v e echoes s
  have c := volleyCleared_keeps (completeVolley v e echoes s)
  have h := resultsHanded_keeps v e echoes s
  have hands := resultsHanded_hands v e echoes s
  have handed := completeVolley_eq v e echoes s
  set hs := entryOutcomes (resultsHanded v e echoes s) v e with hhs
  have o := afterHanded_keeps hs (resultsHanded v e echoes s)
  refine ⟨rc.trans (k.rc (by decide)), cfg.trans (k.cfg (by decide)), ?_, acq, ?_, ?_, ?_, ?_, ?_⟩
  · rw [seq, k.seq (by decide)]
  · rw [zone, k.zone (by decide), k.rc (by decide)]
  · rw [c.trk (by decide), handed]
    exact afterHanded_trk _ _ (entryOutcomes_marks _ v e)
  · rw [c.corr (by decide), handed]
    exact o.corr (by decide)
  · have outcomes : Hands [.c3] (resultsHanded v e echoes s) (completeVolley v e echoes s) := by
      rw [handed]; exact afterHanded_hands hs _
    exact outcomes.trans (.kept c)
  · obtain ⟨q3, drop3⟩ := hands.link.c3 (by decide)
    have start : Took [] s (resultsHanded v e echoes s) := ⟨h.cov (by decide), q3, drop3⟩
    have more := start.more (h.rc (by decide)) (h.cfg (by decide)) hs
    rw [List.nil_append] at more
    refine Took.congr more ?_ ?_
    · rw [c.cov (by decide), handed]
    · rw [c.link (by decide), handed]

/-- The zone line in RUNNING once its hold is over (R47, R48; log entry 5). -/
theorem zoneRelease_hold {z : Zone} (h : z.ctl = .hold) : zoneRelease true z =
    { z with ctl := .idle, line := .recessive, recessiveTime := 0, orphaned := false } := by
  unfold zoneRelease zoneRest
  rw [if_pos rfl, if_pos h]

section
variable {s u : State} {v : Volley} {e : PlanEntry} {echoes : PortEchoes} (done : Completed s v e echoes u)
include done

/-- In RUNNING a held line is released to ZL_IDLE (R47, R48; log entry 5). -/
theorem Completed.zone_running (run : s.rc.runState = .running) : u.zone = if s.zone.ctl = .hold then
    { s.zone with ctl := .idle, line := .recessive, recessiveTime := 0, orphaned := false } else s.zone := by
  rw [done.zone, decide_eq_true run]
  split
  · exact zoneRelease_hold ‹_›
  · rfl

/-- Outside RUNNING it is released to ZL_OFF, so no line is held any more (R54). -/
theorem Completed.zone_stopping (rest : s.rc.runState ≠ .running) : u.zone.ctl ≠ .hold := by
  rw [done.zone, decide_eq_false rest]
  split
  · exact nofun
  · assumption

end

/-! ### What follows (R27, R28, R37) -/

/-- What a walk that goes on leaves: records and a volley only where it fires at once, and GAP records handed on. -/
structure WalkLeaves (s t : State) : Prop where
  keeps : Keeps [.seq, .zone, .acq, .cov, .link] s t
  hands : Hands [.c3] s t
  mask : t.seq.mask = s.seq.mask
  held : t.seq.held = s.seq.held
  rests : t.seq.sq ≠ .hold → t.acq = s.acq ∧ t.seq.volley = s.seq.volley

theorem walkOn_leaves (c : StepRef) (i : Nat) (s : State) : WalkLeaves s (walkOn c i s) := by
  obtain ⟨mask, _, held, rests, trk⟩ := walkOn_rest c i s
  exact ⟨(walkOn_keeps c i s).of_trk trk (by decide), walkOn_hands c i s, mask, held, rests⟩

theorem startCycle_leaves (c : StepRef) (s : State) : WalkLeaves s (startCycle c s) := by
  obtain ⟨keeps, hands, mask, held, rests⟩ := walkOn_leaves c 0 (s.setSeq { s.seq with cycle := some c, waiting := none })
  exact ⟨((keeps_setSeq s _).mono (by decide)).trans keeps, (Hands.kept (keeps_setSeq s _)).trans hands, mask, held, rests⟩

section
variable {s : State} (v : Volley) (run : s.rc.runState = .running)
include run

theorem afterCompletion_waiting {w : StepRef} (waiting : s.seq.waiting = some w) : afterCompletion v s = startCycle w s := by
  unfold afterCompletion
  rw [if_pos run, waiting]

theorem afterCompletion_cycle {c : StepRef} (waiting : s.seq.waiting = none) (cycle : s.seq.cycle = some c) :
    afterCompletion v s = walkOn c (v.entry + 1) s := by
  unfold afterCompletion
  rw [if_pos run, waiting, cycle]

theorem afterCompletion_finish (waiting : s.seq.waiting = none) (cycle : s.seq.cycle = none) :
    afterCompletion v s = finishCycle s := by
  unfold afterCompletion
  rw [if_pos run, waiting, cycle]

theorem afterCompletion_leaves : WalkLeaves s (afterCompletion v s) := by
  cases waiting : s.seq.waiting with
  | some w => rw [afterCompletion_waiting v run waiting]; exact startCycle_leaves w s
  | none =>
    cases cycle : s.seq.cycle with
    | some c => rw [afterCompletion_cycle v run waiting cycle]; exact walkOn_leaves c _ s
    | none =>
      rw [afterCompletion_finish v run waiting cycle]
      exact ⟨(finishCycle_keeps s).mono (by decide), .kept (finishCycle_keeps s), rfl, rfl, fun _ => ⟨rfl, rfl⟩⟩

end

/-- The sequencer once a volley has completed in STOPPING (R37). -/
def seqDone (q : Seq) : Seq := { q with sq := .off, cycle := none, pointer := none, waiting := none }

theorem afterCompletion_stopping {s : State} (v : Volley) (stops : s.rc.runState ≠ .running) :
    afterCompletion v s = stoppingClose (s.setSeq (seqDone s.seq)) := if_neg stops

/-- Whatever follows, the mask stays, no request is held any more, and the machines are as the M results left them. -/
theorem volleyCompleted_rest (v : Volley) (e : PlanEntry) (echoes : PortEchoes) (s : State) :
    let t := volleyCompleted echoes v e s
    t.seq.mask = s.seq.mask ∧ t.seq.held = 0 ∧ t.coup = (resultsHanded v e echoes s).coup := by
  have done := volleyCleared_completed v e echoes s
  have coup : (volleyCleared (completeVolley v e echoes s)).coup = (resultsHanded v e echoes s).coup := by
    rw [(volleyCleared_keeps _).coup (by decide), completeVolley_eq]
    exact (afterHanded_keeps _ _).coup (by decide)
  unfold volleyCompleted
  set u := volleyCleared (completeVolley v e echoes s)
  refine ⟨?_, ?_, ((afterCompletion_keeps v u).coup (by decide)).trans coup⟩ <;>
    by_cases run : u.rc.runState = .running
  · rw [(afterCompletion_leaves v run).mask, done.seq]
  · rw [afterCompletion_stopping v run, (stoppingClose_keeps _).seq (by decide), State.setSeq_seq, done.seq]; rfl
  · rw [(afterCompletion_leaves v run).held, done.seq]
  · rw [afterCompletion_stopping v run, (stoppingClose_keeps _).seq (by decide), State.setSeq_seq, done.seq]; rfl

/-- In RUNNING the waiting cycle's walk follows, or the rest of the old cycle's, or a wait for a step (R23, R27, R28). -/
theorem Completed.walks {s u : State} {v : Volley} {e : PlanEntry} {echoes : PortEchoes} {z : Zone}
    (done : Completed s v e echoes u) (run : s.rc.runState = .running) (zone : u.zone = z) :
    let outcomes := entryOutcomes (resultsHanded v e echoes s) v e
    (∀ w, s.seq.waiting = some w → Walked s z w 0 outcomes (afterCompletion v u)) ∧
    (∀ c, s.seq.waiting = none → s.seq.cycle = some c → Walked s z c (v.entry + 1) outcomes (afterCompletion v u)) ∧
    (s.seq.waiting = none → s.seq.cycle = none → (afterCompletion v u).zone = z ∧
      (afterCompletion v u).seq.sq = .waitStep ∧ Took outcomes s (afterCompletion v u)) := by
  have running : u.rc.runState = .running := by rw [done.rc, run]
  have mask : u.seq.mask = s.seq.mask := by rw [done.seq]
  have waits : u.seq.waiting = s.seq.waiting := by rw [done.seq]
  have cycles : u.seq.cycle = s.seq.cycle := by rw [done.seq]
  refine ⟨fun w waiting => ?_, fun c waiting cycle => ?_, fun waiting cycle => ?_⟩
  · rw [afterCompletion_waiting v running (waits.trans waiting)]
    exact walkOn_walked (t := u.setSeq { u.seq with cycle := some w, waiting := none }) zone done.cfg mask done.rc rfl
      (done.took.congr rfl rfl)
  · rw [afterCompletion_cycle v running (waits.trans waiting) (cycles.trans cycle)]
    exact walkOn_walked zone done.cfg mask done.rc (cycles.trans cycle) done.took
  · rw [afterCompletion_finish v running (waits.trans waiting) (cycles.trans cycle)]
    exact ⟨zone, rfl, done.took.congr rfl rfl⟩

/-- In STOPPING the slots that the hand-over left close with CUT, and the gaps that the outcomes left with STOPPED (R37, R81,
R109). -/
theorem Completed.closes {s u : State} {v : Volley} {e : PlanEntry} {echoes : PortEchoes} (done : Completed s v e echoes u) :
    let t := stoppingClose (u.setSeq (seqDone u.seq))
    CutFor (resultsHanded v e echoes s) Chan.all t ∧
      GapsStopped (afterHanded (entryOutcomes (resultsHanded v e echoes s) v e) s) t := by
  have h := resultsHanded_keeps v e echoes s
  have rc : u.rc = (resultsHanded v e echoes s).rc := done.rc.trans (h.rc (by decide)).symm
  have q1 := done.hands.link.c1 (by decide)
  have q2 := done.hands.link.c2 (by decide)
  obtain ⟨cut, stopped⟩ := stoppingClose_closes (u.setSeq (seqDone u.seq))
  refine ⟨cut.of_same (u := u.setSeq (seqDone u.seq)) ⟨congrArg RunCtl.run rc, congrArg RunCtl.straps rc,
      done.cfg.trans (h.cfg (by decide)).symm, done.corr,
    q1.1, q1.2⟩ done.trk q2.1 q2.2, ?_⟩
  refine stopped.of_same (u := u.setSeq (seqDone u.seq)) ?_ ?_ ?_ done.took.cov done.took.sent done.took.dropped
  · rw [afterHanded_rc]; exact congrArg RunCtl.run done.rc
  · rw [afterHanded_rc]; exact congrArg RunCtl.straps done.rc
  · rw [afterHanded_cfg]; exact done.cfg

/-- A request on an enabled line that cannot be claimed now waits, so no volley is in hold after the walk (R42). -/
theorem Walked.waits {s t : State} {z : Zone} {c : StepRef} {first : Nat} {before : List Handed}
    (h : Walked s z c first before t) (en : s.zoneEnabled = true) (idle : z.ctl = .idle) (busy : ¬ClaimableNow z) :
    t.seq.sq ≠ .hold ∧ (t.zone = z ∨ t.zone = { z with ctl := .wait }) := by
  rcases walkEnds_or_stops s c.index first with ends | ⟨i, e, stops⟩
  · obtain ⟨_, sq, _, _, zone⟩ := h.ends ends
    exact ⟨by rw [sq]; nofun, .inl zone⟩
  · obtain ⟨_, _, requested⟩ := h.stops i e stops
    exact ⟨by rw [(requested.pends en).1]; nofun, .inr (requested.waits en idle busy)⟩

/-- The command, with its volley and entry. -/
theorem exec_volleyCompletion_holding {s : State} {v : Volley} {e : PlanEntry} (echoes : PortEchoes) (sq : s.seq.sq = .hold)
    (volley : s.seq.volley = some v) (entry : s.cfg.plan[v.entry]? = some e) :
    exec (.volleyCompletion echoes) s = .next (volleyCompleted echoes v e s) := by
  have holds : holding s = some (v, e) := by
    unfold holding
    rw [if_pos sq, volley]
    dsimp only
    rw [entry]
    rfl
  rw [exec_volleyCompletion, holds]

/-- Settles O21. -/
theorem completionHandsOnAndEnds : Obligations.CompletionHandsOnAndEnds := by
  intro s echoes v e sq volley entry nd result
  have results : result = resultOf s.cfg e.hold echoes := by
    funext r
    show evaluate _ _ _ r = evaluate _ _ _ r
    rw [echoOf_eq]
  clear_value result
  subst results
  have k := volleyCompleted_keeps echoes v e s
  have h := resultsHanded_keeps v e echoes s
  have done := volleyCleared_completed v e echoes s
  obtain ⟨mask, held, coup⟩ := volleyCompleted_rest v e echoes s
  refine ⟨_, exec_volleyCompletion_holding echoes sq volley entry, ?_⟩
  intro source kept open_ outcomes handed
  set t := volleyCompleted echoes v e s with ht
  have left : ∀ c, keptSlots s (resultsHanded v e echoes s) c = kept c := fun c => by unfold keptSlots; rw [← coup]
  have listed : entryOutcomes (resultsHanded v e echoes s) v e = outcomes := by
    refine List.map_congr_left fun c _ => ?_
    have reads : sourceState (resultsHanded v e echoes s) c = source c := by
      unfold sourceState; rw [h.cfg (by decide), ← coup]
    rw [completionOutcome_eq, reads, h.cfg (by decide)]
  set u := volleyCleared (completeVolley v e echoes s) with hu
  have follows : t = afterCompletion v u := rfl
  have running : s.rc.runState = .running → u.rc.runState = .running ∧ t.rc = s.rc := fun run =>
    ⟨by rw [done.rc, run], by rw [volleyCompleted_rc, if_pos run]⟩
  have rests : s.rc.runState = .running → t.seq.sq ≠ .hold → t.acq = [] ∧ t.seq.volley = none := fun run idle => by
    obtain ⟨acq, volley⟩ := (afterCompletion_leaves v (running run).1).rests idle
    exact ⟨acq.trans done.acq, volley.trans (by rw [done.seq])⟩
  refine ⟨fun r hr gate => ?_, fun c rest => ?_, k.cfg (by decide), k.pos (by decide), mask, held,
    (volleyCompleted_hands echoes v e s).link, fun c unfired => ?_, fun r hr => resultsHanded_slots nd coup hr, fun run => ?_,
    fun stops => ?_, fun run en hold quiet period => ?_⟩
  · rw [coup]; exact resultsHanded_coup_fired nd hr gate
  · rw [coup]; exact resultsHanded_coup_rest nd rest
  · rw [← left]; exact resultsHanded_unfired nd unfired
  · have leaves := afterCompletion_leaves v (running run).1
    have q1 := (done.hands.trans leaves.hands).link.c1 (by decide)
    have q2 := (done.hands.trans leaves.hands).link.c2 (by decide)
    refine ⟨(running run).2, rests run, ⟨(leaves.keeps.trk (by decide)).trans done.trk,
      (leaves.keeps.corr (by decide)).trans done.corr, q1.1, q2.1, q1.2, q2.2⟩, ?_⟩
    intro z
    have walks := done.walks run (done.zone_running run)
    rw [listed] at walks
    exact walks
  · have idle : u.rc.runState ≠ .running := by rw [done.rc, stops]; nofun
    obtain ⟨cut, stopped⟩ := done.closes
    rw [← afterCompletion_stopping v idle, ← follows] at cut stopped
    rw [listed] at stopped
    have c := stoppingClose_keeps (u.setSeq (seqDone u.seq))
    rw [← afterCompletion_stopping v idle, ← follows] at c
    have seq : t.seq = seqDone u.seq := c.seq (by decide)
    refine ⟨?_, by rw [seq]; rfl, ?_, (c.acq (by decide)).trans done.acq, ?_, cut, stopped⟩
    · rw [volleyCompleted_rc, if_neg (by rw [stops]; nofun)]; rfl
    · rw [seq]; show u.seq.volley = none; rw [done.seq]
    · rw [c.zone (by decide)]; exact done.zone_stopping (by rw [stops]; nofun)
  · have released := done.zone_running run
    rw [if_pos hold] at released
    obtain ⟨waits, cycles, finishes⟩ := done.walks run released
    rw [← follows] at waits cycles finishes
    have busy : ¬ClaimableNow { s.zone with ctl := .idle, line := .recessive, recessiveTime := 0, orphaned := false } := by
      rintro (q | ⟨n, p, _⟩)
      · exact absurd (quiet.symm.trans q) nofun
      · exact absurd (period.symm.trans p) nofun
    obtain ⟨idle, zone⟩ : t.seq.sq ≠ .hold ∧
        (t.zone = { s.zone with ctl := .idle, line := .recessive, recessiveTime := 0, orphaned := false } ∨
          t.zone = { s.zone with ctl := .wait, line := .recessive, recessiveTime := 0, orphaned := false }) := by
      cases waiting : s.seq.waiting with
      | some w => exact (waits w waiting).waits en rfl busy
      | none =>
        cases cycle : s.seq.cycle with
        | some c => exact (cycles c waiting cycle).waits en rfl busy
        | none =>
          obtain ⟨zone, sq, _⟩ := finishes waiting cycle
          exact ⟨by rw [sq]; nofun, .inl zone⟩
    obtain ⟨acq, volley⟩ := rests run idle
    refine ⟨(running run).2, idle, volley, acq, ?_, ?_⟩
    · rcases zone with z | z <;> rw [z]
    · rcases zone with z | z <;> rw [z]
      exacts [.inl rfl, .inr rfl]

end Sys2Proof.Machine
end

section
/-! SUPPORT. Claim codes (3.1.1, R44, R45): their value, and the first slot in which two of them are driven apart. -/

namespace Sys2Proof.Machine

/-- Of two words of one width the smaller has a 0, and the larger a 1, in the highest bit where they differ. -/
theorem exists_highest_difference {w : Nat} {a b : BitVec w} (less : a.toNat < b.toNat) :
    ∃ i < w, a.getLsbD i = false ∧ b.getLsbD i = true ∧ ∀ j, i < j → a.getLsbD j = b.getLsbD j := by
  simp only [← BitVec.testBit_toNat]
  obtain ⟨i, differ, above⟩ := Nat.exists_most_significant_bit (Nat.xor_ne_zero_iff.2 less.ne)
  simp only [Nat.testBit_xor, bne_iff_ne, bne_eq_false_iff_eq] at differ above
  cases low : a.toNat.testBit i with
  | true =>
    have greater : b.toNat < a.toNat :=
      Nat.lt_of_testBit i (by simpa [low] using differ) low fun j h => (above j h).symm
    exact absurd less greater.asymm
  | false =>
    have high : b.toNat.testBit i = true := by simpa [low] using differ
    exact ⟨i, BitVec.lt_of_getLsbD high, low, high, above⟩

theorem claimCodeOf_toNat (address : BitVec 4) (losses : Nat) :
    (claimCodeOf address losses).toNat = if 3 ≤ losses then address.toNat else 16 + address.toNat := by
  have fits := address.isLt
  unfold claimCodeOf urgent
  rw [BitVec.toNat_ofNat, Nat.mod_eq_of_lt (by split <;> omega)]
  simp only [decide_eq_true_eq]
  split <;> omega

theorem slotDrive_dominant_iff (code : BitVec 5) (slot : CodeSlot) :
    slotDrive code slot = .dominant ↔ code.getLsbD (5 - slot.num) = false := by
  unfold slotDrive; cases code.getLsbD (5 - slot.num) <;> simp

theorem slotDrive_recessive_iff (code : BitVec 5) (slot : CodeSlot) :
    slotDrive code slot = .recessive ↔ code.getLsbD (5 - slot.num) = true := by
  unfold slotDrive; cases code.getLsbD (5 - slot.num) <;> simp

theorem slotDrive_congr {a b : BitVec 5} {slot : CodeSlot} (bit : a.getLsbD (5 - slot.num) = b.getLsbD (5 - slot.num)) :
    slotDrive a slot = slotDrive b slot := by
  unfold slotDrive; rw [bit]

/-- Every bit of a claim code has its slot: bit 4 is slot 1, bit 0 slot 5 (3.1.1). -/
theorem exists_slot_of_bit {i : Nat} (h : i < 5) : ∃ slot : CodeSlot, slot.num = 5 - i :=
  match i, h with
  | 0, _ => ⟨.slot5, rfl⟩
  | 1, _ => ⟨.slot4, rfl⟩
  | 2, _ => ⟨.slot3, rfl⟩
  | 3, _ => ⟨.slot2, rfl⟩
  | 4, _ => ⟨.slot1, rfl⟩

/-- Settles O23: the codes go out highest bit first, so the first slot that differs is that of the highest bit that differs. -/
theorem lowerClaimCodeWins : Obligations.LowerClaimCodeWins := by
  refine ⟨claimCodeOf_toNat, fun a b less => ?_⟩
  obtain ⟨i, fits, low, high, above⟩ := exists_highest_difference less
  obtain ⟨slot, num⟩ := exists_slot_of_bit fits
  have bit : 5 - slot.num = i := by omega
  refine ⟨slot, (slotDrive_dominant_iff a slot).2 (bit ▸ low), (slotDrive_recessive_iff b slot).2 (bit ▸ high), ?_⟩
  intro earlier before
  exact slotDrive_congr (above _ (by omega))

end Sys2Proof.Machine
end

section
/-! SUPPORT. A claim's end (R44 to R46, R48, R54): what a withdrawn claim that has won leaves, and what a code slot read does. -/

namespace Sys2Proof.Machine

/-- The state that a claim or hold ends in, field by field: ZL_OFF alone clears STUCK and its timer (R45, R48, R51, R54). -/
theorem zoneRest_eq (running : Bool) (z : Zone) : zoneRest running z = { z with
    ctl := if running then .idle else .off
    stuckTimer := if running then z.stuckTimer else 0
    stuck := if running then z.stuck else false } := by
  cases running <;> rfl

/-- A claim that has won keeps the level that the end of slot 5 left on the line (R48). -/
theorem zoneRelease_claim {z : Zone} (ctl : z.ctl = .claim) (running : Bool) :
    zoneRelease running z = zoneRest running { z with recessiveTime := 0, orphaned := false } := by
  have unheld : ¬z.ctl = .hold := by rw [ctl]; nofun
  unfold zoneRelease
  rw [if_neg unheld]

/-- Settles O19: the end of slot 5 gives up the line, and the release leaves the controller at rest. -/
theorem orphanedWinReleasesTheLine : Obligations.OrphanedWinReleasesTheLine := by
  intro s observes period ctl withdrawn slot drives
  have ends : exec .claimPeriodEnd s = .next (s.setZone (zoneRest (decide (s.rc.runState = .running))
      { wonZone s.zone with recessiveTime := 0, orphaned := false })) := by
    rw [exec_claimPeriodEnd_observed observes period, claimEnded_orphaned ctl withdrawn,
      zoneRelease_claim (z := wonZone s.zone) ctl]
  have line : (wonZone s.zone).line = if drives then .recessive else s.zone.line := levelUndriven_claim ctl
  refine ⟨_, ends, keeps_setZone _ _, ?_⟩
  rw [State.setZone_zone, zoneRest_eq]
  refine ⟨by simp only [decide_eq_true_eq], fun d => ?_, fun d => ?_, rfl, rfl, rfl, rfl⟩
  · exact line.trans (if_pos d)
  · exact line.trans (if_neg d)

/-! ### A code slot read (R44, R45) -/

theorem recessive_of_ne {l : LineLevel} (h : l ≠ .dominant) : l = .recessive := by
  cases l with
  | recessive => rfl
  | dominant => exact absurd rfl h

theorem dominant_of_ne {l : LineLevel} (h : l ≠ .recessive) : l = .dominant := by
  cases l with
  | recessive => exact absurd rfl h
  | dominant => rfl

/-- The line as a reading leaves it: the place the claim has reached in its period, and the level (R44). -/
def zoneRead (slot : CodeSlot) (line : LineLevel) (z : Zone) : Zone :=
  { z with
    claimPeriod := some (max (z.claimPeriod.getD 0) (slotMiddle slot.num)), slotRead := slot.num, line := line }

/-- A claim is lost by a dominant reading against a recessive drive (R45). -/
theorem slotReading_lost {running : Bool} {slot : CodeSlot} {z : Zone} (drive : slotDrive z.claimCode slot = .recessive) :
    slotReading running slot .dominant z = claimLost running (zoneRead slot .dominant z) := by
  unfold slotReading
  dsimp only
  rw [drive, if_neg nofun, if_pos rfl]
  rfl

/-- Every other reading leaves a claim that goes on (R44). -/
theorem slotReading_goes_on {running : Bool} {slot : CodeSlot} {level : LineLevel} {z : Zone}
    (won : slotDrive z.claimCode slot = .dominant ∨ level = .recessive) :
    ∃ line, slotReading running slot level z = zoneRead slot line z := by
  unfold slotReading
  dsimp only
  by_cases drive : slotDrive z.claimCode slot = .dominant
  · exact ⟨.dominant, if_pos drive⟩
  · obtain rfl := won.resolve_left drive
    exact ⟨.recessive, by rw [if_neg drive, if_neg nofun]; rfl⟩

/-- A lost claim, field by field: the loss counts to 255, and a withdrawn request is gone (R45, R54). -/
theorem claimLost_spec (running : Bool) (z : Zone) :
    (claimLost running z).claimCode = z.claimCode ∧ (claimLost running z).losses = min (z.losses + 1) 255 ∧
    (claimLost running z).orphaned = false ∧
    (claimLost running z).ctl = if z.orphaned = false then .wait else if running then .idle else .off := by
  unfold claimLost
  dsimp only
  cases z.orphaned with
  | false => exact ⟨rfl, rfl, rfl, rfl⟩
  | true => rw [if_pos rfl, zoneRest_eq]; exact ⟨rfl, rfl, rfl, rfl⟩

/-- Settles O26, by whether the station is a claimant, then by what it drives and reads. -/
theorem claimIsLostOnADominantReading : Obligations.ClaimIsLostOnADominantReading := by
  intro s slot level
  refine ⟨fun ctl => by rw [exec_codeSlotRead, if_neg ctl], fun ctl => ?_⟩
  rw [exec_codeSlotRead, if_pos ctl]
  refine ⟨_, rfl, keeps_setZone _ _, ?_⟩
  rw [State.setZone_zone]
  by_cases won : slotDrive s.zone.claimCode slot = .dominant ∨ level = .recessive
  · obtain ⟨line, goes_on⟩ := slotReading_goes_on (running := decide (s.rc.runState = .running)) won
    rw [goes_on]
    refine ⟨rfl, fun drive read => ?_, fun _ => ⟨ctl, rfl, rfl⟩⟩
    rcases won with d | l
    · exact absurd (drive.symm.trans d) nofun
    · exact absurd (read.symm.trans l) nofun
  · obtain ⟨drive, read⟩ := not_or.1 won
    obtain rfl := dominant_of_ne read
    rw [slotReading_lost (recessive_of_ne drive)]
    obtain ⟨code, losses, orphaned, rests⟩ :=
      claimLost_spec (decide (s.rc.runState = .running)) (zoneRead slot .dominant s.zone)
    refine ⟨code, fun _ _ => ⟨losses, orphaned, ?_⟩, fun w => (won w).elim⟩
    rw [rests]
    simp only [decide_eq_true_eq]
    rfl

end Sys2Proof.Machine
end

section
/-! SUPPORT. Quiet, start edges and the stuck line (R40, R43, R44, R47, R50, R51): the events that STUCK brings, the line that becomes
quiet, and the edges of the observed line. -/

namespace Sys2Proof.Machine

/-! ### STUCK and its events (R50, R51) -/

/-- STUCK, once its timer has run out, stands with its event handed to class 0 (R50). -/
theorem stuckReached_handed (s : State) : EventHanded s.own s.rc.run .zoneStuck s.link (stuckReached s).link :=
  offer0_handed s.own s.rc.run .zoneStuck s.link

/-- Settles O27: the command has an effect exactly where the stuck timer runs. -/
theorem stuckTimerExpirySetsStuck : Obligations.StuckTimerExpirySetsStuck := by
  intro s
  constructor
  · intro rests line unstuck
    rw [exec_stuckTimerExpiry, if_pos ((stuckRuns_iff s.zone).2 ⟨rests, line, unstuck⟩)]
    exact ⟨_, rfl, stuckReached_keeps s, rfl, stuckReached_handed s⟩
  · intro stays
    rw [exec_stuckTimerExpiry, if_neg]
    intro runs
    obtain ⟨rests, _, unstuck⟩ := (stuckRuns_iff s.zone).1 runs
    rcases stays with stuck | ⟨idle, wait⟩
    · rw [unstuck] at stuck; cases stuck
    · exact rests.elim idle wait

/-- STUCK cleared hands its event to class 0; where it was clear, nothing goes out (R51). -/
theorem clearStuck_link (s : State) : (clearStuck s).link =
    if s.zone.stuck = true then offer0 s.own ⟨s.rc.run, .zoneClear⟩ s.link else s.link := by
  unfold clearStuck
  split <;> rfl

/-! ### The line becomes quiet (R40, R43, R51) -/

theorem quietReached_link (s : State) : (quietReached s).link =
    if s.zone.stuck = true then offer0 s.own ⟨s.rc.run, .zoneClear⟩ s.link else s.link := by
  unfold quietReached
  dsimp only
  split
  · exact clearStuck_link _
  · exact clearStuck_link _

theorem quietReached_unstuck {s : State} (unstuck : s.zone.stuck = false) : (quietReached s).link = s.link := by
  rw [quietReached_link, unstuck]; rfl

theorem quietReached_handed {s : State} (stuck : s.zone.stuck = true) :
    EventHanded s.own s.rc.run .zoneClear s.link (quietReached s).link := by
  rw [quietReached_link, if_pos stuck]; exact offer0_handed ..

/-- The line quiet, at a station that makes no request (R40, R51). -/
theorem quietReached_rests {s : State} (idle : s.zone.ctl ≠ .wait) : (quietReached s).zone =
    { s.zone with quiet := true, line := .recessive, recessiveTime := 75, stuckTimer := 0, stuck := false } := by
  rw [(quietReached_spec s).1]; exact if_neg idle

/-- A waiting request makes the quiet line its own start slot (R43). -/
theorem quietReached_claims {s : State} (waits : s.zone.ctl = .wait) :
    (quietReached s).zone = enterClaim s.rc.straps.address s.zone := by
  rw [(quietReached_spec s).1]; exact if_pos waits

theorem quietReached_stuck (s : State) : (quietReached s).zone.stuck = false := by
  by_cases waits : s.zone.ctl = .wait
  · rw [quietReached_claims waits]; rfl
  · rw [quietReached_rests waits]

theorem canBecomeQuiet_iff (s : State) : canBecomeQuiet s = true ↔ s.observing = true ∧ s.zone.claimPeriod = none ∧
    s.zone.ctl ≠ .claim ∧ s.zone.ctl ≠ .hold ∧ s.zone.quiet = false := by
  unfold canBecomeQuiet
  rw [Bool.and_eq_true, decide_eq_true_iff]

/-- Settles O25, by whether a request waits. -/
theorem quietClearsStuckAndClaims : Obligations.QuietClearsStuckAndClaims := by
  intro s observes period busy claim hold
  rw [exec_quiet, if_pos ((canBecomeQuiet_iff s).2 ⟨observes, period, claim, hold, busy⟩)]
  refine ⟨_, rfl, quietReached_keeps s, ?_⟩
  by_cases waits : s.zone.ctl = .wait
  · have start : s.zone.claimPeriod.getD 0 = 0 := by rw [period]; rfl
    rw [quietReached_claims waits]
    exact ⟨rfl, rfl, rfl, fun idle => (idle waits).elim, fun _ => ⟨rfl, rfl, congrArg some start, rfl, rfl, rfl⟩,
      quietReached_unstuck, quietReached_handed⟩
  · rw [quietReached_rests waits]
    exact ⟨rfl, rfl, rfl, fun _ => ⟨rfl, rfl, period, rfl⟩, fun w => (waits w).elim,
      quietReached_unstuck, quietReached_handed⟩

/-! ### An edge to dominant (R40, R43) -/

/-- A busy line that goes dominant begins no claim period (R40). -/
theorem lineDominant_busy {z : Zone} (busy : z.quiet = false) (address : BitVec 4) :
    lineDominant address z = { z with line := .dominant, recessiveTime := 0 } := by
  unfold lineDominant
  rw [busy]; rfl

/-- What a start edge leaves of the line z: a claim period at its first tick, and a waiting request in its claim (R40, R43, R44). -/
structure Started (address : BitVec 4) (z y : Zone) : Prop where
  line : y.line = .dominant
  recessiveTime : y.recessiveTime = 0
  quiet : y.quiet = false
  losses : y.losses = z.losses
  period : y.claimPeriod = some 0
  claims : z.ctl = .wait → y.ctl = .claim ∧ y.orphaned = false ∧ y.stuck = false ∧ y.claimCode = claimCodeOf address z.losses
  rests : z.ctl ≠ .wait → y.ctl = z.ctl

/-- A line z, quiet in y, that goes dominant has a start edge (R40, R43). -/
theorem lineDominant_started {z y : Zone} (quiet : y.quiet = true) (ctl : y.ctl = z.ctl) (losses : y.losses = z.losses)
    (address : BitVec 4) : Started address z (lineDominant address y) := by
  unfold lineDominant
  dsimp only
  rw [if_pos quiet, ctl]
  split
  · exact ⟨rfl, rfl, rfl, losses, rfl, fun _ => ⟨rfl, rfl, rfl, congrArg (claimCodeOf address) losses⟩, fun idle => absurd ‹_› idle⟩
  · exact ⟨rfl, rfl, rfl, losses, rfl, fun waits => absurd waits ‹_›, fun _ => rfl⟩

theorem lineDominant_unstuck {z : Zone} (unstuck : z.stuck = false) (address : BitVec 4) :
    (lineDominant address z).stuck = false := by
  unfold lineDominant
  dsimp only
  split
  · split
    · rfl
    · exact unstuck
  · exact unstuck

theorem edgeDominant_due {s : State} (due : quietDue s = true) : edgeDominant s =
    (quietReached s).setZone (lineDominant (quietReached s).rc.straps.address (quietReached s).zone) := by
  unfold edgeDominant
  rw [if_pos due]

theorem edgeDominant_early {s : State} (early : quietDue s = false) :
    edgeDominant s = s.setZone (lineDominant s.rc.straps.address s.zone) := by
  unfold edgeDominant
  rw [early]; rfl

/-- A quiet still due at an edge is taken first, so the edge is a start edge (R40, R43). -/
theorem edgeDominant_due_started {s : State} (due : quietDue s = true) :
    Started s.rc.straps.address s.zone (edgeDominant s).zone := by
  obtain ⟨_, period, _⟩ := (quietDue_iff s).1 due
  have start : s.zone.claimPeriod.getD 0 = 0 := by rw [period]; rfl
  rw [edgeDominant_due due, State.setZone_zone, (quietReached_spec s).2.1]
  by_cases waits : s.zone.ctl = .wait
  · rw [quietReached_claims waits, lineDominant_busy rfl]
    exact ⟨rfl, rfl, rfl, rfl, congrArg some start, fun _ => ⟨rfl, rfl, rfl, rfl⟩, fun idle => absurd waits idle⟩
  · rw [quietReached_rests waits]
    exact lineDominant_started (by rfl) (by rfl) (by rfl) _

/-- The quiet taken at the edge clears STUCK (R51). -/
theorem edgeDominant_due_unstuck {s : State} (due : quietDue s = true) : (edgeDominant s).zone.stuck = false := by
  rw [edgeDominant_due due]
  exact lineDominant_unstuck (quietReached_stuck s) _

/-- An edge to dominant is a start edge on a line quiet or due to be, and else leaves the line busy (R40). -/
theorem edgeDominant_cases (s : State) :
    ((s.zone.quiet = true ∨ quietDue s = true) ∧ Started s.rc.straps.address s.zone (edgeDominant s).zone) ∨
    (s.zone.quiet = false ∧ quietDue s = false ∧
      (edgeDominant s).zone = { s.zone with line := .dominant, recessiveTime := 0 }) := by
  cases due : quietDue s with
  | true => exact .inl ⟨.inr rfl, edgeDominant_due_started due⟩
  | false =>
    rw [edgeDominant_early due, State.setZone_zone]
    cases quiet : s.zone.quiet with
    | true => exact .inl ⟨.inl rfl, lineDominant_started quiet rfl rfl _⟩
    | false => exact .inr ⟨rfl, rfl, lineDominant_busy quiet _⟩

/-- An edge hands on the one event of a STUCK that it clears, and nothing else (R51). -/
theorem edgeDominant_link (s : State) :
    (¬(quietDue s = true ∧ s.zone.stuck = true) → (edgeDominant s).link = s.link) ∧
    (quietDue s = true → s.zone.stuck = true → EventHanded s.own s.rc.run .zoneClear s.link (edgeDominant s).link) := by
  cases due : quietDue s with
  | true =>
    rw [edgeDominant_due due, State.setZone_link]
    exact ⟨fun clear => quietReached_unstuck (Bool.eq_false_of_not_eq_true fun stuck => clear ⟨rfl, stuck⟩),
      fun _ => quietReached_handed⟩
  | false => rw [edgeDominant_early due]; exact ⟨fun _ => rfl, nofun⟩

/-! ### The level of the observed line (R40, R44, R47) -/

theorem lineLevelChange_hold {s : State} (hold : s.zone.ctl = .hold) (level : LineLevel) : lineLevelChange level s = s :=
  if_pos hold

theorem lineLevelChange_dominant {s : State} (observes : s.observing = true) (free : s.zone.ctl ≠ .hold) :
    lineLevelChange .dominant s = edgeDominant s := by
  unfold lineLevelChange
  rw [if_neg free, if_pos observes]

theorem lineLevelChange_recessive {s : State} (observes : s.observing = true) (free : s.zone.ctl ≠ .hold) :
    lineLevelChange .recessive s = if zoneDriven s.zone = .dominant then s else s.setZone (lineRecessive s.zone) := by
  unfold lineLevelChange
  rw [if_neg free, if_pos observes]

/-- Out of a hold the station drives dominant in the dominant slots of its claim alone (R44, R47). -/
theorem zoneDriven_dominant_iff {z : Zone} (free : z.ctl ≠ .hold) : zoneDriven z = .dominant ↔ z.ctl = .claim ∧
    (z.claimPeriod.getD 0 / 25 = 0 ∨ z.claimCode.getLsbD (5 - min 5 (z.claimPeriod.getD 0 / 25)) = false) := by
  by_cases ctl : z.ctl = .claim
  · rw [zoneDriven_claim ctl, and_iff_right ctl]
    simp only [ite_eq_left_iff, reduceCtorEq, imp_false, not_not]
  · rw [zoneDriven_rest ctl free]
    exact ⟨nofun, fun claims => absurd claims.1 ctl⟩

/-- Settles O24: a level change in a hold, an edge to dominant, and a change to recessive by what the station drives. -/
theorem startEdgeBeginsAClaimPeriod : Obligations.StartEdgeBeginsAClaimPeriod := by
  intro s observes z due
  refine ⟨fun level hold => ?_, fun free => ?_, fun drives => ?_, fun free lets => ?_⟩
  · rw [exec_zoneLineLevelChange, lineLevelChange_hold hold]
  · have due_iff : quietDue s = true ↔ due := by
      rw [quietDue_iff]
      exact ⟨fun ⟨_, period, claim, _, rest⟩ => ⟨period, claim, rest⟩,
        fun ⟨period, claim, rest⟩ => ⟨observes, period, claim, free, rest⟩⟩
    obtain ⟨silent, handed⟩ := edgeDominant_link s
    have cleared : due → z.stuck = true →
        (edgeDominant s).zone.stuck = false ∧ EventHanded s.own s.rc.run .zoneClear s.link (edgeDominant s).link :=
      fun d stuck => ⟨edgeDominant_due_unstuck (due_iff.2 d), handed (due_iff.2 d) stuck⟩
    rw [due_iff] at silent
    rw [exec_zoneLineLevelChange, lineLevelChange_dominant observes free]
    refine ⟨_, rfl, edgeDominant_keeps s, ?_⟩
    rcases edgeDominant_cases s with ⟨start, started⟩ | ⟨busy, early, zone⟩
    · refine ⟨started.line, started.recessiveTime, started.quiet, started.losses, fun busy early => ?_,
        fun _ => ⟨started.period, started.claims, started.rests⟩, silent, cleared⟩
      rcases start with quiet | d
      · exact absurd (quiet.symm.trans busy) nofun
      · exact absurd (due_iff.1 d) early
    · have undue : ¬due := fun d => absurd (early.symm.trans (due_iff.2 d)) nofun
      rw [zone] at cleared ⊢
      refine ⟨rfl, rfl, busy, rfl, fun _ _ => rfl, fun start => ?_, silent, cleared⟩
      rcases start with quiet | d
      · exact absurd (busy.symm.trans quiet) nofun
      · exact absurd d undue
  · have free : s.zone.ctl ≠ .hold := by rw [drives.1]; nofun
    rw [exec_zoneLineLevelChange, lineLevelChange_recessive observes free, if_pos ((zoneDriven_dominant_iff free).2 drives)]
  · rw [exec_zoneLineLevelChange, lineLevelChange_recessive observes free,
      if_neg fun driven => lets ((zoneDriven_dominant_iff free).1 driven)]
    exact ⟨_, rfl, keeps_setZone _ _, rfl⟩

end Sys2Proof.Machine
end

section
/-! SUPPORT. Gates (R60 to R66): what a gate makes of each sample, the qualified runs before a tick, the hit that an F gate has
settled on by then, and the M gate as an F gate in FIRST mode that only tells whether it has a hit. -/

namespace Sys2Proof.Machine

/-! ### Taking a sample (R61) -/

theorem endFRun_closed {g : FGate} {r : EvalRecord} (closed : r.fRun = none) : endFRun g r = r := by
  unfold endFRun
  rw [closed]

theorem endFRun_open {g : FGate} {r : EvalRecord} {run : GateRun} (opened : r.fRun = some run) :
    endFRun g r = { r with fRun := none, fHit := hitAfterRun g r.fHit run } := by
  unfold endFRun
  rw [opened]

@[simp] theorem endFRun_fRun (g : FGate) (r : EvalRecord) : (endFRun g r).fRun = none := by
  cases run : r.fRun with
  | none => rw [endFRun_closed run, run]
  | some run' => rw [endFRun_open run]

@[simp] theorem endFRun_mRun (g : FGate) (r : EvalRecord) : (endFRun g r).mRun = r.mRun := by
  unfold endFRun
  split <;> rfl

@[simp] theorem endFRun_mPresent (g : FGate) (r : EvalRecord) : (endFRun g r).mPresent = r.mPresent := by
  unfold endFRun
  split <;> rfl

theorem takeF_outside {g : FGate} {t : Nat} (outside : ¬(g.enabled = true ∧ g.start ≤ t ∧ t < g.stop)) (v : Nat)
    (r : EvalRecord) : takeF g t v r = r :=
  if_neg outside

/-- A sample below the threshold ends the open run, so the cut at the gate end finds none. -/
theorem takeF_below {g : FGate} {t v : Nat} (inside : g.enabled = true ∧ g.start ≤ t ∧ t < g.stop)
    (below : ¬g.threshold ≤ v) (r : EvalRecord) : takeF g t v r = endFRun g r := by
  unfold takeF
  simp only [if_pos inside, if_neg below, endFRun_closed (endFRun_fRun g r), ite_self]

theorem takeF_above {g : FGate} {t v : Nat} (inside : g.enabled = true ∧ g.start ≤ t ∧ t < g.stop)
    (above : g.threshold ≤ v) (r : EvalRecord) : takeF g t v r =
      if t + 1 = g.stop then endFRun g { r with fRun := some (extendRun t v r.fRun) }
      else { r with fRun := some (extendRun t v r.fRun) } := by
  unfold takeF
  simp only [if_pos inside, if_pos above]

theorem takeM_outside {g : MGate} {t : Nat} (outside : ¬(g.enabled = true ∧ g.start ≤ t ∧ t < g.stop)) (v : Nat)
    (r : EvalRecord) : takeM g t v r = r :=
  if_neg outside

theorem endMRun_twice (g : MGate) (r : EvalRecord) : endMRun g (endMRun g r) = endMRun g r := by
  simp [endMRun]

theorem takeM_below {g : MGate} {t v : Nat} (inside : g.enabled = true ∧ g.start ≤ t ∧ t < g.stop)
    (below : ¬g.threshold ≤ v) (r : EvalRecord) : takeM g t v r = endMRun g r := by
  unfold takeM
  simp only [if_pos inside, if_neg below, endMRun_twice, ite_self]

theorem takeM_above {g : MGate} {t v : Nat} (inside : g.enabled = true ∧ g.start ≤ t ∧ t < g.stop)
    (above : g.threshold ≤ v) (r : EvalRecord) : takeM g t v r =
      if t + 1 = g.stop then endMRun g { r with mRun := min (r.mRun + 1) g.q }
      else { r with mRun := min (r.mRun + 1) g.q } := by
  unfold takeM
  simp only [if_pos inside, if_pos above]

/-- A run of one gate has no bearing on the other gate (R61). -/
theorem takeF_frame (g : FGate) (t v : Nat) (r : EvalRecord) :
    (takeF g t v r).mRun = r.mRun ∧ (takeF g t v r).mPresent = r.mPresent := by
  by_cases inside : g.enabled = true ∧ g.start ≤ t ∧ t < g.stop
  · by_cases above : g.threshold ≤ v
    · rw [takeF_above inside above]
      split <;> simp
    · simp [takeF_below inside above]
  · simp [takeF_outside inside]

theorem takeM_frame (g : MGate) (t v : Nat) (r : EvalRecord) :
    (takeM g t v r).fRun = r.fRun ∧ (takeM g t v r).fHit = r.fHit := by
  by_cases inside : g.enabled = true ∧ g.start ≤ t ∧ t < g.stop
  · by_cases above : g.threshold ≤ v
    · rw [takeM_above inside above]
      split <;> exact ⟨rfl, rfl⟩
    · rw [takeM_below inside above]
      exact ⟨rfl, rfl⟩
  · rw [takeM_outside inside]
    exact ⟨rfl, rfl⟩

/-! ### Runs and windows (R61, R62) -/

section
variable {g : FGate} {sample : Nat → Nat} {u t : Nat}

/-- The Q samples from tick t on lie in the gate, before tick u, at or above the threshold. -/
def Qualifies (g : FGate) (sample : Nat → Nat) (u t : Nat) : Prop :=
  g.start ≤ t ∧ t + g.q ≤ u ∧ ∀ i < g.q, g.threshold ≤ sample (t + i)

/-- Ticks before the gate, or below its threshold, bring no new window. -/
theorem Qualifies.of_quiet {u' : Nat} (q : 1 ≤ g.q)
    (quiet : ∀ w, u ≤ w → w < u' → w < g.start ∨ sample w < g.threshold) (h : Qualifies g sample u' t) :
    Qualifies g sample u t := by
  obtain ⟨start, stop, above⟩ := h
  refine ⟨start, ?_, above⟩
  by_contra late
  have last := above (g.q - 1) (by omega)
  rcases quiet (t + (g.q - 1)) (by omega) (by omega) with early | below <;> omega

/-- What the gate knows of a run: its first tick is the gate start or follows a sample below the threshold, and it holds the
greatest of its samples and whether one is saturated (R61). -/
structure RunOver (g : FGate) (sample : Nat → Nat) (run : GateRun) : Prop where
  inside : g.start ≤ run.first
  begins : run.first ≤ g.start ∨ sample (run.first - 1) < g.threshold
  above : ∀ i < run.length, g.threshold ≤ sample (run.first + i)
  reached : ∃ i < run.length, sample (run.first + i) = run.greatest
  greatest : ∀ i < run.length, sample (run.first + i) ≤ run.greatest
  saturated : run.saturated = true ↔ ∃ i < run.length, sample (run.first + i) = 255

theorem RunOver.opened (inside : g.start ≤ t) (begins : t ≤ g.start ∨ sample (t - 1) < g.threshold)
    (above : g.threshold ≤ sample t) : RunOver g sample (extendRun t (sample t) none) where
  inside := inside
  begins := begins
  above := by simpa [extendRun] using above
  reached := ⟨0, Nat.one_pos, rfl⟩
  greatest := by simp [extendRun]
  saturated := by simp [extendRun]

theorem RunOver.extended {run : GateRun} (h : RunOver g sample run) (next : run.first + run.length = t)
    (above : g.threshold ≤ sample t) : RunOver g sample (extendRun t (sample t) (some run)) where
  inside := h.inside
  begins := h.begins
  above := Nat.forall_lt_succ_right.2 ⟨h.above, next ▸ above⟩
  reached := by
    obtain ⟨i, lt, eq⟩ := h.reached
    rcases Nat.le_total run.greatest (sample t) with le | le
    · exact ⟨run.length, Nat.lt_succ_self _, by simp [extendRun, next, le]⟩
    · exact ⟨i, Nat.lt_succ_of_lt lt, by simp [extendRun, eq, le]⟩
  greatest := Nat.forall_lt_succ_right.2
    ⟨fun i lt => (h.greatest i lt).trans (Nat.le_max_left ..), next ▸ Nat.le_max_right ..⟩
  saturated := by
    simp only [extendRun, Bool.or_eq_true, decide_eq_true_eq, h.saturated, Nat.exists_lt_succ_right, next]

/-- A window that ends by the end of a run ends before the run or lies in it: it cannot hold the sample before the run. -/
theorem RunOver.split {run : GateRun} (h : RunOver g sample run) (w : Qualifies g sample (run.first + run.length) t) :
    Qualifies g sample run.first t ∨ (run.first ≤ t ∧ t + g.q ≤ run.first + run.length) := by
  obtain ⟨start, stop, above⟩ := w
  by_cases early : t + g.q ≤ run.first
  · exact .inl ⟨start, early, above⟩
  · refine .inr ⟨?_, stop⟩
    by_contra before
    have held := above (run.first - 1 - t) (by omega)
    rw [show t + (run.first - 1 - t) = run.first - 1 by omega] at held
    rcases h.begins with first | below <;> omega

/-! ### The hit settled on (R62 to R65) -/

/-- Against the window from tick t on the hit is the earlier one in FIRST mode, and the higher, or as high and no later, in PEAK
mode. -/
def Outranks (g : FGate) (sample : Nat → Nat) (hit : Hit) (t : Nat) : Prop :=
  (g.peak = false → hit.tof ≤ t) ∧
  (g.peak = true → ∀ i < g.q, sample (t + i) ≤ hit.amplitude ∧ (t < hit.tof → sample (t + i) < hit.amplitude))

/-- A hit no later than a run, and in PEAK mode no lower, outranks every window of the run. -/
theorem RunOver.outranked {run : GateRun} {hit : Hit} (h : RunOver g sample run) (tof : hit.tof ≤ run.first)
    (amplitude : g.peak = true → run.greatest ≤ hit.amplitude) (first : run.first ≤ t)
    (last : t + g.q ≤ run.first + run.length) : Outranks g sample hit t := by
  refine ⟨fun _ => tof.trans first, fun peak i lt => ⟨?_, fun before => by omega⟩⟩
  have greatest := h.greatest (t + i - run.first) (by omega)
  rw [show run.first + (t + i - run.first) = t + i by omega] at greatest
  exact greatest.trans (amplitude peak)

/-- The hit an F gate holds once the runs that end by tick u have been judged: none without a window before u, else a whole
qualified run that outranks every such window. -/
inductive HitSettled (g : FGate) (sample : Nat → Nat) (u : Nat) : Option Hit → Prop
  | empty (free : ∀ t, ¬Qualifies g sample u t) : HitSettled g sample u none
  | hit {run : GateRun} (isRun : RunOver g sample run) (long : g.q ≤ run.length) (before : run.first + run.length ≤ u)
      (ends : run.first + run.length = g.stop ∨ sample (run.first + run.length) < g.threshold)
      (best : ∀ t, Qualifies g sample u t → Outranks g sample (hitOfRun run) t) :
      HitSettled g sample u (some (hitOfRun run))

theorem HitSettled.mono {held : Option Hit} {u' : Nat} (h : HitSettled g sample u held) (le : u ≤ u')
    (same : ∀ t, Qualifies g sample u' t → Qualifies g sample u t) : HitSettled g sample u' held := by
  cases h with
  | empty free => exact .empty fun t w => free t (same t w)
  | hit isRun long before ends best => exact .hit isRun long (before.trans le) ends fun t w => best t (same t w)

/-- The end of a run settles the hit up to the run's end (R62 to R64). -/
theorem HitSettled.judge {held : Option Hit} {run : GateRun} (h : HitSettled g sample run.first held)
    (isRun : RunOver g sample run) (ends : run.first + run.length = g.stop ∨ sample (run.first + run.length) < g.threshold) :
    HitSettled g sample (run.first + run.length) (hitAfterRun g held run) := by
  unfold hitAfterRun
  by_cases short : run.length < g.q
  · rw [if_pos short]
    exact h.mono (Nat.le_add_right ..) fun t w => (isRun.split w).resolve_right fun ⟨_, _⟩ => by omega
  have long : g.q ≤ run.length := Nat.le_of_not_lt short
  have own : ∀ t, run.first ≤ t ∧ t + g.q ≤ run.first + run.length → Outranks g sample (hitOfRun run) t :=
    fun t ⟨first, last⟩ => isRun.outranked (hit := hitOfRun run) le_rfl (fun _ => le_rfl) first last
  rw [if_neg short]
  cases h with
  | empty free => exact .hit isRun long le_rfl ends fun t w => own t ((isRun.split w).resolve_left (free t))
  | @hit old oldRun oldLong before oldEnds best =>
    dsimp only
    split
    · rename_i higher
      obtain ⟨peak, higher⟩ := higher
      refine .hit isRun long le_rfl ends fun t w => (isRun.split w).elim (fun earlier => ?_) (own t)
      have old_top := (best t earlier).2 peak
      exact ⟨fun first => absurd (peak.symm.trans first) nofun, fun _ i lt =>
        ⟨((old_top i lt).1.trans_lt higher).le, fun _ => (old_top i lt).1.trans_lt higher⟩⟩
    · rename_i kept
      have tof : (hitOfRun old).tof ≤ run.first := (Nat.le_add_right ..).trans before
      refine .hit oldRun oldLong (before.trans (Nat.le_add_right ..)) oldEnds fun t w =>
        (isRun.split w).elim (best t) fun ⟨first, last⟩ => ?_
      exact isRun.outranked tof (fun peak => Nat.le_of_not_lt fun higher => kept ⟨peak, higher⟩) first last

/-! ### The record as the samples come (R60, R61) -/

/-- The run and the hit of an enabled F gate once the samples before tick u have been taken. -/
inductive Scanned (g : FGate) (sample : Nat → Nat) (u : Nat) : Option GateRun → Option Hit → Prop
  | closed {held : Option Hit} (edge : u ≤ g.start ∨ g.stop ≤ u ∨ sample (u - 1) < g.threshold)
      (settled : HitSettled g sample u held) : Scanned g sample u none held
  | opened {held : Option Hit} {run : GateRun} (isRun : RunOver g sample run) (reaches : run.first + run.length = u)
      (settled : HitSettled g sample run.first held) : Scanned g sample u (some run) held

/-- A run that ends at tick u leaves the hit settled up to there. -/
theorem Scanned.judge {r : EvalRecord} (h : Scanned g sample u r.fRun r.fHit) (ends : u = g.stop ∨ sample u < g.threshold) :
    HitSettled g sample u (endFRun g r).fHit := by
  generalize opened : r.fRun = run at h
  cases h with
  | closed _ settled => rwa [endFRun_closed opened]
  | opened isRun reaches settled =>
    subst reaches
    rw [endFRun_open opened]
    exact settled.judge isRun ends

/-- A sample of the gate at or above the threshold opens a run or extends the open one (R61). -/
theorem Scanned.extend {run : Option GateRun} {held : Option Hit} (h : Scanned g sample t run held)
    (start : g.start ≤ t) (stop : t < g.stop) (above : g.threshold ≤ sample t) :
    Scanned g sample (t + 1) (some (extendRun t (sample t) run)) held := by
  cases h with
  | closed edge settled =>
    refine .opened (.opened start ?_ above) rfl settled
    exact edge.imp_right fun late => late.resolve_left (Nat.not_le_of_lt stop)
  | opened isRun reaches settled =>
    refine .opened (isRun.extended reaches above) ?_ settled
    exact congrArg Nat.succ reaches

/-- An open run holds a sample of the gate, so none is open before its start. -/
theorem Scanned.closed_before_start {run : Option GateRun} {held : Option Hit} (h : Scanned g sample u run held)
    (before : u ≤ g.start) : run = none := by
  cases h with
  | closed => rfl
  | opened isRun reaches _ =>
    obtain ⟨i, lt, _⟩ := isRun.reached
    have := isRun.inside
    omega

/-- Each sample of a tick before the gate end is taken as R61 says. -/
theorem Scanned.taken {r : EvalRecord} (h : Scanned g sample t r.fRun r.fHit) (enabled : g.enabled = true) (q : 1 ≤ g.q)
    (stop : t < g.stop) : Scanned g sample (t + 1) (takeF g t (sample t) r).fRun (takeF g t (sample t) r).fHit := by
  have quiet : ∀ {held}, t < g.start ∨ sample t < g.threshold → HitSettled g sample t held →
      HitSettled g sample (t + 1) held := fun silent settled =>
    settled.mono (Nat.le_succ t) fun _ => Qualifies.of_quiet q fun w le lt => (show w = t by omega) ▸ silent
  by_cases start : g.start ≤ t
  · by_cases above : g.threshold ≤ sample t
    · have extended := h.extend start stop above
      rw [takeF_above ⟨enabled, start, stop⟩ above]
      split
      · rename_i last
        rw [endFRun_fRun]
        refine .closed (.inr (.inl last.ge)) ?_
        exact Scanned.judge (r := { r with fRun := some (extendRun t (sample t) r.fRun) }) extended (.inl last)
      · exact extended
    · have below : sample t < g.threshold := Nat.lt_of_not_le above
      rw [takeF_below ⟨enabled, start, stop⟩ above, endFRun_fRun]
      exact .closed (.inr (.inr below)) (quiet (.inr below) (h.judge (.inr below)))
  · have early : t < g.start := Nat.lt_of_not_le start
    rw [takeF_outside fun inside => start inside.2.1]
    have closed := h.closed_before_start early.le
    rw [closed] at h ⊢
    cases h with
    | closed _ settled => exact .closed (.inl early) (quiet (.inl early) settled)

end

/-- The sample of a tick in a volley's echo; a missing one counts as 0 (log entry 8). -/
def sampleAt (samples : List Byte) (t : Nat) : Nat := (samples.getD t 0).toNat

theorem sampleAt_le (samples : List Byte) (t : Nat) : sampleAt samples t ≤ 255 :=
  Nat.le_of_lt_succ (samples.getD t 0).isLt

theorem sampleAt_missing {samples : List Byte} {t : Nat} (missing : samples.length ≤ t) : sampleAt samples t = 0 := by
  rw [sampleAt, List.getD_eq_default _ _ missing]
  rfl

theorem sampleAt_take {samples : List Byte} {n t : Nat} (taken : t < (samples.take n).length) :
    sampleAt (samples.take n) t = sampleAt samples t := by
  have lt : t < n := taken.trans_le (List.length_take_le ..)
  rw [sampleAt, sampleAt, List.getD_eq_getElem?_getD, List.getD_eq_getElem?_getD, List.getElem?_take_of_lt lt]

/-- The samples from tick t on leave what the gate has scanned by their end, or by its own. -/
theorem takeSamples_scanned {c : ChanParams} {sample : Nat → Nat} (enabled : c.f.enabled = true) (q : 1 ≤ c.f.q) :
    ∀ (vs : List Byte) (t : Nat) (r : EvalRecord), (∀ i < vs.length, sampleAt vs i = sample (t + i)) →
      Scanned c.f sample (min t c.f.stop) r.fRun r.fHit →
      Scanned c.f sample (min (t + vs.length) c.f.stop) (takeSamples c t vs r).fRun (takeSamples c t vs r).fHit
  | [], _, _, _, h => h
  | v :: vs, t, r, read, h => by
    have value : v.toNat = sample t := read 0 (Nat.succ_pos _)
    have later : ∀ i < vs.length, sampleAt vs i = sample (t + 1 + i) := fun i lt => by
      rw [Nat.add_right_comm, Nat.add_assoc]
      exact read (i + 1) (Nat.succ_lt_succ lt)
    have taken : Scanned c.f sample (min (t + 1) c.f.stop) (takeF c.f t (sample t) r).fRun (takeF c.f t (sample t) r).fHit := by
      by_cases stop : t < c.f.stop
      · rw [min_eq_left stop.le] at h
        rw [min_eq_left stop]
        exact h.taken enabled q stop
      · rw [takeF_outside fun inside => stop inside.2.2]
        rwa [min_eq_right (by omega)] at h ⊢
    obtain ⟨fRun, fHit⟩ := takeM_frame c.m t v.toNat (takeF c.f t v.toNat r)
    rw [← value, ← fRun, ← fHit] at taken
    have all := takeSamples_scanned enabled q vs (t + 1) _ later taken
    rwa [Nat.add_right_comm, Nat.add_assoc] at all

theorem endMRun_fHit (g : MGate) (r : EvalRecord) : (endMRun g r).fHit = r.fHit := rfl

/-- At a completion the hit of an enabled F gate is settled up to the gate end (R61 to R65). -/
theorem evaluate_settled {c : ChanParams} {h : Nat} {samples : List Byte} (chan : Chan) (enabled : c.f.enabled = true)
    (q : 1 ≤ c.f.q) (threshold : 1 ≤ c.f.threshold) (stop : c.f.stop ≤ 25 * h) :
    HitSettled c.f (sampleAt samples) c.f.stop (evaluate c h samples (freshRecord chan)).fHit := by
  set vs := samples.take (microsecond * h)
  have length : vs.length = min (25 * h) samples.length := List.length_take
  have read : ∀ i < vs.length, sampleAt vs i = sampleAt samples (0 + i) := fun i lt => by
    rw [Nat.zero_add]
    exact sampleAt_take lt
  have fresh : Scanned c.f (sampleAt samples) (min 0 c.f.stop) none none := by
    rw [Nat.zero_min]
    exact .closed (.inl (Nat.zero_le _)) (.empty fun t ⟨_, window, _⟩ => by omega)
  have scanned := takeSamples_scanned enabled q vs 0 (freshRecord chan) read fresh
  rw [Nat.zero_add] at scanned
  have missing : ∀ w, vs.length ≤ w → w < c.f.stop → sampleAt samples w < c.f.threshold := fun w le lt => by
    rw [sampleAt_missing (by omega)]
    exact threshold
  have ends : min vs.length c.f.stop = c.f.stop ∨ sampleAt samples (min vs.length c.f.stop) < c.f.threshold := by
    rcases Nat.lt_or_ge vs.length c.f.stop with short | full
    · rw [min_eq_left short.le]
      exact .inr (missing _ le_rfl short)
    · exact .inl (min_eq_right full)
  rw [evaluate, endMRun_fHit]
  exact (scanned.judge ends).mono (min_le_right ..) fun t =>
    Qualifies.of_quiet q fun w le lt => .inr (missing w (by omega) lt)

/-- Settles O28: the settled hit is there exactly with a window, and starts one. -/
theorem fHitExistsForAQualifiedRun : Obligations.FHitExistsForAQualifiedRun := by
  intro c h samples chan enabled q threshold stop at_ r
  have settled : HitSettled c.f at_ c.f.stop r.fHit := evaluate_settled chan enabled q threshold stop
  generalize r.fHit = held at settled ⊢
  cases settled with
  | empty free => exact ⟨⟨fun none => absurd rfl none, fun ⟨t, w⟩ => absurd w (free t)⟩, nofun⟩
  | @hit run isRun long before ends best =>
    have window : ∀ i < c.f.q, c.f.threshold ≤ at_ (run.first + i) := fun i lt => isRun.above i (lt.trans_le long)
    obtain ⟨peak, peak_lt, reached⟩ := isRun.reached
    have highest : run.greatest ≤ 255 := reached ▸ sampleAt_le samples _
    refine ⟨⟨fun _ => ⟨run.first, isRun.inside, by omega, window⟩, fun _ => nofun⟩, ?_⟩
    rintro _ ⟨⟩
    have tof : run.first < c.f.stop := by omega
    refine ⟨isRun.inside, tof, (isRun.above peak peak_lt).trans_eq reached, highest, fun full => ?_, window⟩
    obtain ⟨i, lt, value⟩ := isRun.saturated.1 full
    exact highest.antisymm (value ▸ isRun.greatest i lt)

/-- Settles O29: the settled hit is a whole run that outranks every window of the gate. -/
theorem fHitIsTheFirstOrTheHighest : Obligations.FHitIsTheFirstOrTheHighest := by
  intro c h samples chan hit enabled q threshold stop found at_ qualified
  have settled : HitSettled c.f at_ c.f.stop (some hit) := found ▸ evaluate_settled chan enabled q threshold stop
  cases settled with
  | @hit run isRun long before ends best =>
    have begins : run.first = c.f.start ∨ (c.f.start < run.first ∧ at_ (run.first - 1) < c.f.threshold) := by
      rcases isRun.inside.eq_or_lt with start | later
      · exact .inl start.symm
      · exact .inr ⟨later, isRun.begins.resolve_left (Nat.not_le_of_lt later)⟩
    exact ⟨⟨run.length, long, before, isRun.above, ends, begins, isRun.reached, isRun.greatest, isRun.saturated⟩, best⟩

/-! ### The M gate (R66) -/

/-- The M gate read as an F gate in FIRST mode (R66). -/
def firstGate (g : MGate) : FGate := ⟨g.enabled, g.start, g.stop, g.threshold, g.q, false⟩

/-- The M side of the record m tells of the F side of f the length of its run, counted up to Q, and whether there is a hit. -/
structure Mirrors (g : MGate) (m f : EvalRecord) : Prop where
  run : m.mRun = min ((f.fRun.map (·.length)).getD 0) g.q
  present : m.mPresent = f.fHit.isSome

theorem hitAfterRun_isSome (g : FGate) (held : Option Hit) (run : GateRun) :
    (hitAfterRun g held run).isSome = (held.isSome || decide (g.q ≤ run.length)) := by
  unfold hitAfterRun
  by_cases short : run.length < g.q
  · simp [short]
  · rw [if_neg short, decide_eq_true (Nat.le_of_not_lt short), Bool.or_true]
    cases held with
    | none => rfl
    | some hit => dsimp only; split <;> rfl

section
variable {g : MGate} {m f : EvalRecord}

theorem Mirrors.ended (h : Mirrors g m f) (q : 1 ≤ g.q) : Mirrors g (endMRun g m) (endFRun (firstGate g) f) := by
  refine ⟨by simp [endMRun], ?_⟩
  have count := h.run
  cases opened : f.fRun with
  | none =>
    rw [endFRun_closed opened, ← h.present]
    simp [endMRun, count, opened]
  | some run =>
    rw [opened] at count
    rw [endFRun_open opened, hitAfterRun_isSome, ← h.present]
    have long : (0 < m.mRun ∧ g.q ≤ m.mRun) ↔ g.q ≤ run.length := by
      rw [count]
      simp only [Option.map_some, Option.getD_some]
      omega
    simp only [endMRun, long]
    rfl

theorem Mirrors.extended (h : Mirrors g m f) (t v : Nat) :
    Mirrors g { m with mRun := min (m.mRun + 1) g.q } { f with fRun := some (extendRun t v f.fRun) } := by
  refine ⟨?_, h.present⟩
  have count := h.run
  cases opened : f.fRun with
  | none =>
    rw [show m.mRun = 0 by simpa [opened] using count]
    rfl
  | some run =>
    rw [show m.mRun = min run.length g.q by simpa [opened] using count]
    show min (min run.length g.q + 1) g.q = min (run.length + 1) g.q
    omega

theorem Mirrors.taken (h : Mirrors g m f) (q : 1 ≤ g.q) (t v : Nat) :
    Mirrors g (takeM g t v m) (takeF (firstGate g) t v f) := by
  by_cases inside : g.enabled = true ∧ g.start ≤ t ∧ t < g.stop
  · by_cases above : g.threshold ≤ v
    · rw [takeM_above inside above, takeF_above (g := firstGate g) inside above]
      by_cases last : t + 1 = g.stop
      · rw [if_pos last, if_pos (show t + 1 = (firstGate g).stop from last)]
        exact (h.extended t v).ended q
      · rw [if_neg last, if_neg (show ¬t + 1 = (firstGate g).stop from last)]
        exact h.extended t v
    · rw [takeM_below inside above, takeF_below (g := firstGate g) inside above]
      exact h.ended q
  · rw [takeM_outside inside, takeF_outside (g := firstGate g) inside]
    exact h

end

theorem Mirrors.samples {c : ChanParams} {m f : EvalRecord} (h : Mirrors c.m m f) (q : 1 ≤ c.m.q) (vs : List Byte) (t : Nat) :
    Mirrors c.m (takeSamples c t vs m) (takeSamples { c with f := firstGate c.m } t vs f) := by
  induction vs generalizing t m f with
  | nil => exact h
  | cons v vs ih =>
    refine ih ?_ (t + 1)
    obtain ⟨mRun, mPresent⟩ := takeF_frame c.f t v.toNat m
    obtain ⟨fRun, fHit⟩ := takeM_frame c.m t v.toNat (takeF (firstGate c.m) t v.toNat f)
    have same : Mirrors c.m (takeF c.f t v.toNat m) f := ⟨mRun.trans h.run, mPresent.trans h.present⟩
    have both := same.taken q t v.toNat
    exact ⟨both.run.trans (by rw [fRun]), both.present.trans (by rw [fHit])⟩

/-- The M result of a completion is present exactly where its gate, as an F gate, has a hit (R66). -/
theorem evaluate_mPresent {c : ChanParams} (q : 1 ≤ c.m.q) (h : Nat) (samples : List Byte) (chan : Chan) :
    (evaluate c h samples (freshRecord chan)).mPresent =
      (evaluate { c with f := firstGate c.m } h samples (freshRecord chan)).fHit.isSome := by
  have fresh : Mirrors c.m (freshRecord chan) (freshRecord chan) := ⟨(Nat.zero_min _).symm, rfl⟩
  have taken := fresh.samples q (samples.take (microsecond * h)) 0
  have same : Mirrors c.m (endFRun c.f (takeSamples c 0 (samples.take (microsecond * h)) (freshRecord chan))) _ :=
    ⟨(endFRun_mRun ..).trans taken.run, (endFRun_mPresent ..).trans taken.present⟩
  exact (same.ended q).present

/-- Settles O30: the M gate has its result exactly where an F gate in its place has a hit. -/
theorem mResultIsPresentForAQualifiedRun : Obligations.MResultIsPresentForAQualifiedRun := by
  intro c h samples chan enabled q threshold stop
  rw [← freshRecord, evaluate_mPresent q, Option.isSome_iff_ne_none]
  exact (fHitExistsForAQualifiedRun { c with f := firstGate c.m } h samples chan enabled q threshold stop).1

end Sys2Proof.Machine
end

section
/-! SUPPORT. The coverage law (law 8): it speaks of the coverage alone, an outcome and a close of one channel keep every channel's, and
a run start and a reset clear it. -/

namespace Sys2Proof.Machine

/-- The law speaks of the coverage alone. -/
theorem CoverageLaw.of_keeps {touched : List Part} {s t : State} (h : CoverageLaw s) (k : Keeps touched s t)
    (untouched : Part.cov ∉ touched) : CoverageLaw t := by
  intro c
  rw [k.cov untouched]
  exact h c

/-- An outcome keeps its own channel's law and leaves the other channels (R77 to R80). -/
theorem coverageLaw_takeOutcome {s : State} (h : CoverageLaw s) (c : Chan) (o : ChanOutcome) (basis : Int) :
    CoverageLaw (takeOutcome c o basis s) := by
  intro d
  by_cases own : d = c
  · subst own
    exact takeOutcome_law o basis (h d)
  · rw [takeOutcome_get_of_ne o basis s own]
    exact h d

/-- The close of a channel's gap at STOPPING keeps its law and leaves the other channels (R81). -/
theorem coverageLaw_stopGap {s : State} (h : CoverageLaw s) (c : Chan) : CoverageLaw (stopGap s c) := by
  intro d
  by_cases own : d = c
  · subst own
    unfold stopGap
    split
    · exact h d
    · exact closeGap_law (h d) ‹_›
  · rw [stopGap_get_of_ne s own]
    exact h d

/-- With no gap, reach or last gap end the law holds (R82). -/
theorem coverageLaw_cleared {s : State} (cleared : s.cov = Coverage.cleared) : CoverageLaw s := by
  intro c
  rw [cleared, Coverage.cleared, PerChan.get_ofFn]
  exact ⟨nofun, nofun, nofun, nofun⟩

theorem coverageLaw_stable : Stable CoverageLaw where
  frame _ _ k h := h.of_keeps k (by decide)
  outcome c o b _ h := coverageLaw_takeOutcome h c o b
  mark c s h := h.of_keeps (coverageMark_keeps c s) (by decide)
  cut c s h := h.of_keeps (closureRequest_keeps c s) (by decide)
  gap _ c h := coverageLaw_stopGap h c
  frontier f s h := h.of_keeps (frontierIncrease_keeps f s) (by decide)
  event e s h := h.of_keeps (queueEvent_keeps e s) (by decide)
  runCtl s x h _ := h.of_keeps (keeps_setRc s x) (by decide)
  release st s h := h.of_keeps (keeps_setRc s { s.rc with inReset := false, straps := st }) (by decide)
  taken _ _ _ _ _ taken h := h.of_keeps (takeFrame_keeps taken) (by decide)
  discards s h := h.of_keeps (dispatchDiscards_keeps s) (by decide)
  received x s _ h := h.of_keeps (frameEnds_keeps x s) (by decide)
  peer r p s h := h.of_keeps (indicationTaken_keeps r p s) (by decide)
  span r p s h := h.of_keeps (suppressTaken_keeps r p s) (by decide)
  drained s h := h.of_keeps (correlationDrainEnd_keeps s) (by decide)
  start _ _ _ _ := coverageLaw_cleared rfl
  load im s h _ _ := h.of_keeps (loadEnded_keeps im s) (by decide)
  reset _ _ := coverageLaw_cleared rfl
  link c _ _ touches e h := h.of_keeps (exec_touches e) (by rw [touches]; decide)
  time s h := h.of_keeps (tick_keeps s) (by decide)

/-- Settles O35: the law is stable, and a completion's hits and empty firings leave the coverage. -/
theorem everyStepKeepsTheCoverageLaw : Obligations.EveryStepKeepsTheCoverageLaw :=
  coverageLaw_stable.step_keeps fun x v e _ h => coverageLaw_stable.volleyCompleted
    (fun r s g => g.of_keeps (hitRecord_keeps r s) (by decide))
    (fun c s g => g.of_keeps (firingNoHit_keeps c s) (by decide)) x v e h

end Sys2Proof.Machine
end

section
/-! SUPPORT. The coupling machine (R72): what one M result does in each state, short of a threshold and at it, and what a run of like
results comes to. -/

namespace Sys2Proof.Machine

/-! ### One M result -/

section
variable {p : ChanParams} {n q : Nat}

theorem couplingAfter_coupled_absent (h : n + 1 < p.kd) : couplingAfter p ⟨.coupled, n, q⟩ false = ⟨.coupled, n + 1, q⟩ :=
  if_neg (Nat.not_le.2 h)

theorem couplingAfter_coupled_last (h : p.kd ≤ n + 1) : couplingAfter p ⟨.coupled, n, q⟩ false = ⟨.doubtful, 0, q⟩ := if_pos h

theorem couplingAfter_doubtful_absent (h : n + 1 < p.kl) : couplingAfter p ⟨.doubtful, n, q⟩ false = ⟨.doubtful, n + 1, q⟩ :=
  if_neg (Nat.not_le.2 h)

theorem couplingAfter_doubtful_last (h : p.kl ≤ n + 1) : couplingAfter p ⟨.doubtful, n, q⟩ false = ⟨.lost, 0, 0⟩ := if_pos h

theorem couplingAfter_lost_present (h : n + 1 < p.kr) : couplingAfter p ⟨.lost, q, n⟩ true = ⟨.lost, q, n + 1⟩ :=
  if_neg (Nat.not_le.2 h)

theorem couplingAfter_lost_last (h : p.kr ≤ n + 1) : couplingAfter p ⟨.lost, q, n⟩ true = ⟨.coupled, 0, 0⟩ := if_pos h

end

/-! ### A run of like results -/

/-- The machine after k like M results (R72). -/
def coupledAfter (p : ChanParams) (present : Bool) (m : Coupling) (k : Nat) : Coupling :=
  (List.replicate k present).foldl (couplingAfter p) m

section
variable {p : ChanParams} {present : Bool} {m : Coupling}

theorem coupledAfter_zero : coupledAfter p present m 0 = m := rfl

theorem coupledAfter_add (i k : Nat) :
    coupledAfter p present m (i + k) = coupledAfter p present (coupledAfter p present m i) k := by
  unfold coupledAfter
  rw [List.replicate_add, List.foldl_append]

theorem coupledAfter_succ (k : Nat) :
    coupledAfter p present m (k + 1) = couplingAfter p (coupledAfter p present m k) present := coupledAfter_add k 1

/-- Results that each take the machine from one stage to the next bring it to the stage of their number. -/
theorem coupledAfter_counts (stage : Nat → Coupling) {k : Nat}
    (next : ∀ i < k, couplingAfter p (stage i) present = stage (i + 1)) : coupledAfter p present (stage 0) k = stage k := by
  induction k with
  | zero => rfl
  | succ k ih => rw [coupledAfter_succ, ih fun i lt => next i (by omega), next k (Nat.lt_succ_self k)]

end

section
variable {p : ChanParams}

theorem coupled_short {k : Nat} (h : k < p.kd) : coupledAfter p false ⟨.coupled, 0, 0⟩ k = ⟨.coupled, k, 0⟩ :=
  coupledAfter_counts (⟨.coupled, ·, 0⟩) fun _ lt => couplingAfter_coupled_absent (by omega)

theorem doubtful_short {k : Nat} (h : k < p.kl) : coupledAfter p false ⟨.doubtful, 0, 0⟩ k = ⟨.doubtful, k, 0⟩ :=
  coupledAfter_counts (⟨.doubtful, ·, 0⟩) fun _ lt => couplingAfter_doubtful_absent (by omega)

theorem lost_short {k : Nat} (h : k < p.kr) : coupledAfter p true ⟨.lost, 0, 0⟩ k = ⟨.lost, 0, k⟩ :=
  coupledAfter_counts (⟨.lost, 0, ·⟩) fun _ lt => couplingAfter_lost_present (by omega)

theorem lost_absent (k : Nat) : coupledAfter p false ⟨.lost, 0, 0⟩ k = ⟨.lost, 0, 0⟩ :=
  coupledAfter_counts (fun _ => ⟨.lost, 0, 0⟩) fun _ _ => rfl

/-- The Kd-th absence in a row ends COUPLED (R72). -/
theorem coupled_to_doubtful (h : 1 ≤ p.kd) : coupledAfter p false ⟨.coupled, 0, 0⟩ p.kd = ⟨.doubtful, 0, 0⟩ := by
  obtain ⟨n, hn⟩ := Nat.exists_eq_add_of_le' h
  rw [hn, coupledAfter_succ, coupled_short (by omega), couplingAfter_coupled_last hn.le]

/-- The Kl-th absence in a row ends DOUBTFUL (R72). -/
theorem doubtful_to_lost (h : 1 ≤ p.kl) : coupledAfter p false ⟨.doubtful, 0, 0⟩ p.kl = ⟨.lost, 0, 0⟩ := by
  obtain ⟨n, hn⟩ := Nat.exists_eq_add_of_le' h
  rw [hn, coupledAfter_succ, doubtful_short (by omega), couplingAfter_doubtful_last hn.le]

/-- The Kr-th presence in a row ends LOST (R72). -/
theorem lost_to_coupled (h : 1 ≤ p.kr) : coupledAfter p true ⟨.lost, 0, 0⟩ p.kr = ⟨.coupled, 0, 0⟩ := by
  obtain ⟨n, hn⟩ := Nat.exists_eq_add_of_le' h
  rw [hn, coupledAfter_succ, lost_short (by omega), couplingAfter_lost_last hn.le]

end

/-- Settles O31: the absences pass through COUPLED and DOUBTFUL in turn, each up to its threshold. -/
theorem couplingIsLostAfterKdPlusKlAbsences : Obligations.CouplingIsLostAfterKdPlusKlAbsences := by
  intro p hd hl hr
  have doubtful : ∀ k, coupledAfter p false ⟨.coupled, 0, 0⟩ (p.kd + k) = coupledAfter p false ⟨.doubtful, 0, 0⟩ k := fun k => by
    rw [coupledAfter_add, coupled_to_doubtful hd]
  have lost : ∀ k, coupledAfter p false ⟨.coupled, 0, 0⟩ (p.kd + p.kl + k) = ⟨.lost, 0, 0⟩ := fun k => by
    rw [Nat.add_assoc, doubtful, coupledAfter_add, doubtful_to_lost hl, lost_absent]
  exact ⟨fun k h => coupled_short h, fun k h => (doubtful k).trans (doubtful_short h), lost, fun k h => lost_short h,
    lost_to_coupled hr, fun _ _ => rfl, fun _ _ => rfl, fun _ _ => rfl⟩

end Sys2Proof.Machine
end

section
/-! SUPPORT. An M result's entry to LOST (R72, R73): the dependants' slots are cut, and no other result reaches a slot. -/

namespace Sys2Proof.Machine

section
variable {s : State} {c : Chan} {present : Bool}

/-- The M result is an entry to LOST of its channel's machine (R72). -/
def EntersLost (s : State) (c : Chan) (present : Bool) : Prop :=
  (couplingAfter (s.cfg.chan.get c) (s.coup.get c) present).state = .lost ∧ (s.coup.get c).state ≠ .lost

/-- The station with the machine of a channel after its M result, and no slot cut yet (R72). -/
def machineMoved (s : State) (c : Chan) (present : Bool) : State :=
  s.setCoup (s.coup.set c (couplingAfter (s.cfg.chan.get c) (s.coup.get c) present))

/-- An entry to LOST cuts the dependants in ascending channel number once the machine has moved (R73). -/
theorem mResult_entry (h : EntersLost s c present) :
    mResult c present s = closureRequests (dependants s c) (machineMoved s c present) := if_pos h

/-- Any other M result moves the machine alone (R72). -/
theorem mResult_other (h : ¬EntersLost s c present) : mResult c present s = machineMoved s c present := if_neg h

theorem mResult_cut (h : EntersLost s c present) : CutFor s (dependants s c) (mResult c present s) := by
  have same : SameTable s (machineMoved s c present) := ⟨rfl, rfl, rfl, rfl, rfl, rfl⟩
  have cut : CutFor (machineMoved s c present) (dependants s c) (mResult c present s) := by
    rw [mResult_entry h]
    exact closureRequests_cut (Chan.all_nodup.filter _) _
  exact cut.of_same same rfl rfl rfl

end

/-- Settles O32, by whether the result is an entry to LOST. -/
theorem entryToLostCutsTheDependants : Obligations.EntryToLostCutsTheDependants := by
  intro s c d present
  dsimp only
  refine ⟨?_, fun other => ?_, fun lost old source => ?_, fun lost old => ?_, fun source => ?_, fun stays => ?_⟩
  · rw [mResult_coup, PerChan.get_set_self]
  · rw [mResult_coup, PerChan.get_set_of_ne _ _ other]
  · rw [mResult_slots, if_pos ⟨lost, old, source⟩]
  · exact ⟨mResult_cut ⟨lost, old⟩, mResult_keeps c present s, (mResult_hands c present s).link⟩
  · rw [mResult_slots, if_neg fun h => source h.2.2]
  · exact mResult_other fun h => stays.elim (· h.1) h.2

end Sys2Proof.Machine
end

section
/-! SUPPORT. An outcome taken (R77 to R80): the effective positions, the operation it comes to for each gap it finds, and the GAP record
that a close hands to class 3. -/

namespace Sys2Proof.Machine

/-! ### Effective positions (R77) -/

theorem heldToReach_some (r x : Int) : heldToReach (some r) x = max x r := rfl

theorem raisedPast_some (e x : Int) : raisedPast (some e) x = max x (e + 1) := by
  unfold raisedPast
  dsimp only
  split <;> omega

/-- The nominal position of an outcome: its basis and the channel's offset (R77). -/
def nominalAt (s : State) (c : Chan) (basis : Int) : Int := basis + (s.cfg.chan.get c).offset

/-- The effective position of an outcome before any raise past the last gap end (R77). -/
def effectiveAt (s : State) (c : Chan) (basis : Int) : Int := heldToReach (s.cov.chan.get c).reach (nominalAt s c basis)

section
variable {s : State} {c : Chan} {g : OpenGap} {r : Reason} {basis : Int}

/-- The reach of a channel with an open gap is that gap's end, so positions are held to it. -/
theorem ChanCoverageLaw.effective (law : ChanCoverageLaw (s.cov.chan.get c)) (opened : (s.cov.chan.get c).gap = some g) :
    effectiveAt s c basis = max (nominalAt s c basis) g.xEnd := by
  unfold effectiveAt
  rw [(law.span g opened).2, heldToReach_some]

/-- A channel with no reach has closed no gap. -/
theorem ChanCoverageLaw.no_end {v : ChanCoverage} (law : ChanCoverageLaw v) (reach : v.reach = none) : v.lastEnd = none := by
  cases last : v.lastEnd with
  | none => rfl
  | some e =>
    obtain ⟨_, reached, _⟩ := law.reached e last
    exact absurd (reach.symm.trans reached) nofun

/-! ### What an outcome comes to (R78, R79) -/

theorem takeOutcome_good_free (free : (s.cov.chan.get c).gap = none) : takeOutcome c .good basis s =
    setCoverage c ⟨none, some (effectiveAt s c basis), (s.cov.chan.get c).lastEnd⟩ s := by
  unfold takeOutcome
  dsimp only
  rw [free]
  rfl

theorem takeOutcome_bad_free (free : (s.cov.chan.get c).gap = none) :
    takeOutcome c (.bad r) basis s = openGap c r (effectiveAt s c basis) s := by
  unfold takeOutcome
  dsimp only
  rw [free]
  rfl

theorem takeOutcome_resumes (opened : (s.cov.chan.get c).gap = some g) : takeOutcome c .good basis s =
    closeGap c g .resumed (setCoverage c { s.cov.chan.get c with reach := some (effectiveAt s c basis) } s) := by
  unfold takeOutcome
  dsimp only
  rw [opened]
  rfl

theorem takeOutcome_same_reason (opened : (s.cov.chan.get c).gap = some g) :
    takeOutcome c (.bad g.reason) basis s = extendGap c g (effectiveAt s c basis) s := by
  unfold takeOutcome
  dsimp only
  rw [opened]
  exact if_pos rfl

theorem takeOutcome_changes (opened : (s.cov.chan.get c).gap = some g) (changed : g.reason ≠ r) :
    takeOutcome c (.bad r) basis s = openGap c r (effectiveAt s c basis) (closeGap c g .changed s) := by
  unfold takeOutcome
  dsimp only
  rw [opened]
  exact if_neg changed

/-- A gap with one more firing, now ending at x (R78). -/
def OpenGap.extended (g : OpenGap) (x : Int) : OpenGap := { g with xEnd := x, firings := g.firings + 1 }

theorem extendGap_short {x : Int} (short : g.firings + 1 < 65535) : extendGap c g x s =
    setCoverage c { s.cov.chan.get c with gap := some (g.extended x), reach := some x } s := if_neg (Nat.not_le.2 short)

theorem extendGap_full {x : Int} (full : 65535 ≤ g.firings + 1) : extendGap c g x s = closeGap c (g.extended x) .full
    (setCoverage c { s.cov.chan.get c with gap := some (g.extended x), reach := some x } s) := if_pos full

end

/-! ### The GAP record of a close (R80, R135) -/

/-- A close of a channel's gap has handed its GAP record: with the gap sequence and last on class 3, or counted as dropped there; the
other channels and every block but the coverage and the link stay (R80, R135). -/
structure GapHanded (s : State) (c : Chan) (g : OpenGap) (how : Closure) (t : State) : Prop where
  seq : t.cov.gapSeq = (s.cov.gapSeq + 1) % 65536
  others : ∀ d, d ≠ c → t.cov.chan.get d = s.cov.chan.get d
  keeps : Keeps [.cov, .link] s t
  sent : s.link.q3.length < 16 →
    t.link.q3 = s.link.q3 ++ [⟨s.rc.run, gapRecord s c g how⟩] ∧ t.link.drop3 = s.link.drop3
  hands : HandsTo s.own [.c3] s.link t.link
  full : ¬ s.link.q3.length < 16 → t.link = { s.link with drop3 := min (s.link.drop3 + 1) 65535 }

/-- An outcome hands the record of the gap it closes where its link is that of the record's offer (R80, R135). -/
theorem GapHanded.of_outcome {s : State} {c : Chan} {g : OpenGap} {how : Closure} {o : ChanOutcome} {basis : Int}
    (seq : (takeOutcome c o basis s).cov.gapSeq = nextSeq s.cov.gapSeq)
    (link : (takeOutcome c o basis s).link = offer3 s.own ⟨s.rc.run, gapRecord s c g how⟩ s.link) :
    GapHanded s c g how (takeOutcome c o basis s) where
  seq := seq
  others _ other := takeOutcome_get_of_ne o basis s other
  keeps := takeOutcome_keeps c o basis s
  sent room := by
    rw [link, offer3_room _ _ room]
    exact ⟨recordArrived_q3 .., recordArrived_drop3 ..⟩
  hands := (takeOutcome_hands c o basis s).link
  full full := by
    rw [link, offer3_full _ _ full]
    rfl

section
variable {s : State} {c : Chan} {g : OpenGap} {basis : Int}

theorem takeOutcome_changes_hands {r : Reason} (opened : (s.cov.chan.get c).gap = some g) (changed : g.reason ≠ r) :
    GapHanded s c g .changed (takeOutcome c (.bad r) basis s) := by
  have acts := takeOutcome_changes (basis := basis) opened changed
  exact .of_outcome (by rw [acts]; rfl) (by rw [acts]; rfl)

theorem takeOutcome_resumes_hands (opened : (s.cov.chan.get c).gap = some g) :
    GapHanded s c g .resumed (takeOutcome c .good basis s) := by
  have acts := takeOutcome_resumes (basis := basis) opened
  exact .of_outcome (by rw [acts]; rfl) (by rw [acts]; rfl)

theorem takeOutcome_full_hands (opened : (s.cov.chan.get c).gap = some g) (full : 65535 ≤ g.firings + 1) :
    GapHanded s c (g.extended (effectiveAt s c basis)) .full (takeOutcome c (.bad g.reason) basis s) := by
  have acts := (takeOutcome_same_reason (basis := basis) opened).trans (extendGap_full full)
  exact .of_outcome (by rw [acts]; rfl) (by rw [acts]; rfl)

end

/-- Settles O33: the close hands its record, and the new gap opens past the end it leaves. -/
theorem changedReasonClosesAndOpensAGap : Obligations.ChangedReasonClosesAndOpensAGap := by
  intro s c g r basis opened changed law
  have handed : GapHanded s c g .changed (takeOutcome c (.bad r) basis s) := takeOutcome_changes_hands opened changed
  have beyond : raisedPast (some g.xEnd) (effectiveAt s c basis) = max (nominalAt s c basis) (g.xEnd + 1) := by
    rw [law.effective opened, raisedPast_some]
    omega
  refine ⟨?_, handed.others, handed.seq, fun room => (handed.sent room).1, handed.full, handed.keeps,
    fun room => (handed.sent room).2, handed.hands⟩
  rw [takeOutcome_changes opened changed, openGap_cov, PerChan.get_set_self, closeGap_cov, PerChan.get_set_self]
  dsimp only
  rw [beyond]
  rfl

/-- Settles O34, by the gap the outcome finds, its kind and the gap's firings. -/
theorem sameReasonExtendsAndGoodResumes : Obligations.SameReasonExtendsAndGoodResumes := by
  intro s c g basis law nominal old recorded
  have held : old.gap = some g → effectiveAt s c basis = max nominal g.xEnd := law.effective
  refine ⟨fun opened short => ⟨_, rfl, ?_⟩, fun opened full => ?_, fun opened => ?_, fun free r reach => ?_,
    fun free reach => ?_, fun reason free => ⟨_, takeOutcome_bad_free free, fun reach => ?_, fun r reach last => ?_,
    fun r e reach last => ?_⟩⟩
  · rw [takeOutcome_same_reason opened, extendGap_short short, held opened]
    rfl
  · have handed := takeOutcome_full_hands (basis := basis) opened full.ge
    rw [held opened, OpenGap.extended, full] at handed
    obtain ⟨seq, others, keeps, sent, hands, drops⟩ := handed
    refine ⟨?_, seq, others, keeps, sent, hands, drops⟩
    rw [takeOutcome_same_reason opened, extendGap_full full.ge, closeGap_cov, setCoverage_cov, held opened]
    simp [OpenGap.extended]
  · obtain ⟨seq, others, keeps, sent, hands, drops⟩ := takeOutcome_resumes_hands (basis := basis) opened
    refine ⟨?_, seq, others, keeps, sent, hands, drops⟩
    rw [takeOutcome_resumes opened, closeGap_cov, setCoverage_cov, held opened]
    simp
  · rw [takeOutcome_good_free free, effectiveAt, reach, heldToReach_some]
    rfl
  · rw [takeOutcome_good_free free, effectiveAt, reach]
    rfl
  · rw [law.no_end reach, effectiveAt, reach]
    rfl
  · rw [last, effectiveAt, reach]
    rfl
  · rw [last, effectiveAt, reach, raisedPast_some]
    rfl

end Sys2Proof.Machine
end

section
/-! SUPPORT. The coverage mark (R102) and the outcomes that hand it (R83). -/

namespace Sys2Proof

theorem PerChan.set_get {α : Type} (v : PerChan α) (c : Chan) : v.set c (v.get c) = v :=
  PerChan.ext_get fun d => by
    rw [PerChan.get_set]
    split
    · subst d; rfl
    · rfl

namespace Machine

/-- The slots of a channel with every open one GAPPED (R102). -/
def ChanSlots.gapped (sl : ChanSlots) : ChanSlots :=
  ⟨sl.slot0.map (fun x => { x with gapped := true }), sl.slot1.map (fun x => { x with gapped := true })⟩

theorem ChanSlots.gapped_gapped (sl : ChanSlots) : sl.gapped.gapped = sl.gapped := by
  obtain ⟨a, b⟩ := sl
  cases a <;> cases b <;> rfl

theorem coverageMark_get_self (c : Chan) (s : State) :
    (coverageMark c s).trk.chan.get c = (s.trk.chan.get c).gapped := by
  rw [coverageMark_chan, PerChan.get_set_self]
  rfl

theorem coverageMark_get_of_ne {c d : Chan} (s : State) (h : d ≠ c) :
    (coverageMark c s).trk.chan.get d = s.trk.chan.get d := by
  rw [coverageMark_chan, PerChan.get_set_of_ne _ _ h]

/-- A mark that finds nothing to set changes nothing (R102). -/
theorem coverageMark_of_gapped {c : Chan} {s : State} (h : (s.trk.chan.get c).gapped = s.trk.chan.get c) :
    coverageMark c s = s := by
  have same : s.trk.chan.set c (s.trk.chan.get c).gapped = s.trk.chan := by rw [h, PerChan.set_get]
  show s.setTrk { s.trk with chan := s.trk.chan.set c (s.trk.chan.get c).gapped } = s
  rw [same]
  rfl

theorem coverageMark_none {c : Chan} {s : State} (h : s.trk.chan.get c = ⟨none, none⟩) : coverageMark c s = s :=
  coverageMark_of_gapped (by rw [h]; rfl)

theorem coverageMark_idem (c : Chan) (s : State) : coverageMark c (coverageMark c s) = coverageMark c s :=
  coverageMark_of_gapped (by rw [coverageMark_get_self, ChanSlots.gapped_gapped])

theorem marksCoverage_iff (o : ChanOutcome) : marksCoverage o = true ↔ o = .bad .missed ∨ o = .bad .blocked := by
  cases o with
  | good => simp [marksCoverage]
  | bad r => cases r <;> simp [marksCoverage]

/-- Settles O42, through the slots of the channel with every open one GAPPED. -/
theorem coverageMarkSetsGappedOnly : Obligations.CoverageMarkSetsGappedOnly := by
  intro s c d
  have self := coverageMark_get_self c s
  refine ⟨coverageMark_keeps c s, congrArg ChanSlots.slot0 self, congrArg ChanSlots.slot1 self, coverageMark_get_of_ne s, rfl,
    coverageMark_none, coverageMark_idem c s, fun o basis => ⟨fun marks => ?_, fun missed blocked => ?_⟩⟩
  · exact if_pos ((marksCoverage_iff o).2 marks)
  · exact if_neg fun marks => ((marksCoverage_iff o).1 marks).elim missed blocked

end Machine
end Sys2Proof
end

section
/-! SUPPORT. The projection of a hit (chapter 6): the rounding of R89 and R90, the beam's sign, and the bounds of law 12. -/

namespace Sys2Proof.Machine

/-! ### Rounding -/

/-- The quotient of R89 and R90 is the whole qmm nearest to path × frac / 2^31, halves up. -/
theorem roundQ15_nearest (path frac : Nat) :
    roundQ15 path frac * 2 ^ 31 ≤ path * frac + 2 ^ 30 ∧ path * frac + 2 ^ 30 < (roundQ15 path frac + 1) * 2 ^ 31 :=
  ⟨Nat.div_mul_le_self _ _, Nat.lt_mul_of_div_lt (Nat.lt_succ_self _) (by decide)⟩

/-- R92: the longest path inside the rail times the largest Q15 fraction rounds to 6143 qmm. -/
theorem roundQ15_le {d k frac : Nat} (hd : d ≤ 6143) (hk : k ≤ 65535) (hfrac : frac ≤ 32767) : roundQ15 (d * k) frac ≤ 6143 := by
  have product : d * k * frac ≤ 6143 * 65535 * 32767 := Nat.mul_le_mul (Nat.mul_le_mul hd hk) hfrac
  have nearest := (roundQ15_nearest (d * k) frac).1
  omega

/-! ### The sign of the beam -/

theorem beamDir_ahead : ∀ beam ∈ [1, 3, 5], beamDir beam = 1 := by decide

theorem beamDir_behind : ∀ beam ∈ [2, 4, 6], beamDir beam = -1 := by decide

theorem beamDir_under : ∀ beam ∈ [0, 7, 8], beamDir beam = 0 := by decide

theorem beamDir_cases (beam : Nat) : beamDir beam = 1 ∨ beamDir beam = -1 ∨ beamDir beam = 0 := by
  unfold beamDir
  split
  · exact .inl rfl
  · split
    · exact .inr (.inl rfl)
    · exact .inr (.inr rfl)

/-- Whatever the beam, the reflector lies at most a from the probe (R91). -/
theorem reflectorX_within (c : ChanParams) (pv : Int) (t : Nat) :
    pv + c.offset - trackPart c t ≤ reflectorX c pv t ∧ reflectorX c pv t ≤ pv + c.offset + trackPart c t := by
  unfold reflectorX
  obtain ahead | behind | under := beamDir_cases c.beam
  · rw [ahead]; omega
  · rw [behind]; omega
  · rw [under]; omega

/-! ### The hit record -/

theorem project_z (c : ChanParams) (chan : Chan) (pv : Int) (h : Hit) (doubtful : Bool) :
    (project c chan pv h doubtful).z = roundQ15 ((h.tof - c.wedge) * c.k) c.cQ := rfl

theorem project_x (c : ChanParams) (chan : Chan) (pv : Int) (h : Hit) (doubtful : Bool) :
    (project c chan pv h doubtful).x = reflectorX c pv h.tof := rfl

/-- The beam enters X by its sign alone: a is formed and rounded without it (R91). -/
theorem project_x_of_beam (c : ChanParams) (beam : Nat) (chan : Chan) (pv : Int) (h : Hit) (doubtful : Bool) :
    (project { c with beam := beam } chan pv h doubtful).x = pv + c.offset + beamDir beam * trackPart c h.tof := rfl

/-- Settles O36, by the nearest-qmm reading of the rounding; the beam is not read. -/
theorem depthIsTheNearestQmm : Obligations.DepthIsTheNearestQmm := by
  intro c chan pv h doubtful beam
  obtain ⟨below, above⟩ := roundQ15_nearest ((h.tof - c.wedge) * c.k) c.cQ
  exact ⟨below, above, rfl⟩

/-- Settles O37, with the rounded magnitude a = `trackPart` and the three values of the beam's sign. -/
theorem reflectorLiesEitherSideOfTheProbe : Obligations.ReflectorLiesEitherSideOfTheProbe := by
  intro c chan pv h doubtful
  obtain ⟨below, above⟩ := roundQ15_nearest ((h.tof - c.wedge) * c.k) c.sQ
  refine ⟨trackPart c h.tof, below, above, fun beam ahead => ?_, fun beam behind => ?_, fun beam under => ?_⟩
  · rw [project_x_of_beam, beamDir_ahead beam ahead, one_mul]
  · rw [project_x_of_beam, beamDir_behind beam behind, neg_one_mul, sub_eq_add_neg]
  · rw [project_x_of_beam, beamDir_under beam under, zero_mul, add_zero]

/-- Settles O38: both magnitudes by the bound on the rounding, and X by its distance from the probe. -/
theorem projectionStaysWithinItsBounds : Obligations.ProjectionStaysWithinItsBounds := by
  intro c chan pv h doubtful hd hk hsin hcos offsetLow offsetHigh pvLow pvHigh
  have track : trackPart c h.tof ≤ 6143 := roundQ15_le hd hk hsin
  have depth : (project c chan pv h doubtful).z ≤ 6143 := by
    rw [project_z]
    exact roundQ15_le hd hk hcos
  obtain ⟨low, high⟩ := reflectorX_within c pv h.tof
  rw [project_x]
  refine ⟨track, depth, ?_, ?_⟩ <;> omega

end Sys2Proof.Machine
end

section
/-! SUPPORT. The tracker law (law 4, law 5 in part): an event of one channel keeps its slots within their bounds and leaves the other
channels; hits open slots while the station operates alone, and a completion outside RUNNING ends with every slot closed. -/

namespace Sys2Proof.Machine

/-! ### The law by channel -/

/-- Every slot that one channel has open meets its bounds. -/
def ChanSlotsLaw (lmax g : Nat) (slots : ChanSlots) : Prop :=
  ∀ x, slots.slot0 = some x ∨ slots.slot1 = some x → SlotLaw lmax g x

theorem chanSlotsLaw_mk {lmax g : Nat} {o p : Option Slot} (h0 : ∀ x, o = some x → SlotLaw lmax g x)
    (h1 : ∀ x, p = some x → SlotLaw lmax g x) : ChanSlotsLaw lmax g ⟨o, p⟩ :=
  fun x e => e.elim (h0 x) (h1 x)

/-- With no slot open the law asks for the gap tolerances of a loaded station alone (R95, R111). -/
theorem TrackerLaw.of_closed {s : State} (closed : ∀ c, s.trk.chan.get c = ⟨none, none⟩)
    (tolerance : s.operating = true → ∀ c, 1 ≤ (s.cfg.chan.get c).g) : TrackerLaw s where
  slots c x e := by rw [closed] at e; exact e.elim nofun nofun
  free _ := closed
  tolerance := tolerance

/-- The law speaks of the slots, the configuration and whether the station operates. -/
theorem TrackerLaw.of_same {s t : State} (h : TrackerLaw s) (chan : t.trk.chan = s.trk.chan) (cfg : t.cfg = s.cfg)
    (op : t.operating = s.operating) : TrackerLaw t where
  slots c x e := by rw [chan] at e; rw [cfg]; exact h.slots c x e
  free off c := by rw [chan]; exact h.free (op ▸ off) c
  tolerance on c := by rw [cfg]; exact h.tolerance (op ▸ on) c

theorem TrackerLaw.of_keeps {l : List Part} {s t : State} (h : TrackerLaw s) (k : Keeps l s t)
    (trk : Part.trk ∉ l := by decide) (cfg : Part.cfg ∉ l := by decide) (rc : Part.rc ∉ l := by decide) : TrackerLaw t :=
  h.of_same (by rw [k.trk trk]) (k.cfg cfg) (operating_congr (by rw [k.rc rc]))

/-- New slots of one channel that meet their bounds keep the law, where none is open outside the operation. -/
theorem TrackerLaw.of_set {s t : State} (h : TrackerLaw s) {c : Chan} {slots : ChanSlots}
    (chan : t.trk.chan = s.trk.chan.set c slots) (k : Keeps [.trk, .corr, .link] s t)
    (law : ChanSlotsLaw s.cfg.lmax (s.cfg.chan.get c).g slots) (free : s.operating = false → slots = ⟨none, none⟩) :
    TrackerLaw t := by
  have cfg := k.cfg (by decide)
  have op : t.operating = s.operating := operating_congr (by rw [k.rc (by decide)])
  refine ⟨fun d x e => ?_, fun off d => ?_, fun on d => by rw [cfg]; exact h.tolerance (op ▸ on) d⟩
  · rw [chan, PerChan.get_set] at e
    rw [cfg]
    by_cases own : d = c
    · subst own; rw [if_pos rfl] at e; exact law x e
    · rw [if_neg own] at e; exact h.slots d x e
  · rw [op] at off
    rw [chan, PerChan.get_set, free off, h.free off, ite_self]

/-! ### The events of the tracker -/

/-- GAPPED is no part of a slot's bounds (R102). -/
theorem SlotLaw.gapped {lmax g : Nat} {x : Slot} (h : SlotLaw lmax g x) : SlotLaw lmax g { x with gapped := true } :=
  ⟨h.hits, h.spanned, h.extent, h.last, h.misses⟩

theorem trackerLaw_coverageMark {s : State} (h : TrackerLaw s) (c : Chan) : TrackerLaw (coverageMark c s) := by
  refine h.of_set (coverageMark_chan c s) ((coverageMark_keeps c s).mono (by decide)) (chanSlotsLaw_mk ?_ ?_) fun off => ?_
  · intro x e
    obtain ⟨y, hy, rfl⟩ := Option.map_eq_some_iff.1 e
    exact (h.slots c y (.inl hy)).gapped
  · intro x e
    obtain ⟨y, hy, rfl⟩ := Option.map_eq_some_iff.1 e
    exact (h.slots c y (.inr hy)).gapped
  · rw [h.free off]; rfl

theorem trackerLaw_closureRequest {s : State} (h : TrackerLaw s) (c : Chan) : TrackerLaw (closureRequest c s) :=
  h.of_set (closureRequest_chan c s) (closureRequest_keeps c s) (chanSlotsLaw_mk nofun nofun) fun _ => rfl

/-- A slot that remains after a miss meets its bounds (R101). -/
theorem remaining_miss_law {lmax g : Nat} {o : Option Slot} (h : ∀ x, o = some x → SlotLaw lmax g x) {y : Slot}
    (e : remaining (o.map (missSlot g)) = some y) : SlotLaw lmax g y := by
  obtain ⟨x, hx, stays⟩ := Option.map_eq_some_iff.1 (remaining_stays e)
  exact missSlot_law (h x hx) stays

/-- A slot that remains after the hit it takes meets its bounds (R98). -/
theorem remaining_offer_law {lmax g : Nat} (hg : 1 ≤ g) {hit : HitRecord} {o : Option Slot}
    (h : ∀ x, o = some x → SlotLaw lmax g x) {y : Slot} (e : remaining (o.map (offerHit lmax hit)) = some y) :
    SlotLaw lmax g y := by
  obtain ⟨x, hx, stays⟩ := Option.map_eq_some_iff.1 (remaining_stays e)
  exact offerHit_law (h x hx) hg stays

theorem trackerLaw_firingNoHit {s : State} (h : TrackerLaw s) (c : Chan) : TrackerLaw (firingNoHit c s) := by
  refine h.of_set (firingNoHit_chan c s) (firingNoHit_keeps c s) (chanSlotsLaw_mk ?_ ?_) fun off => ?_
  · exact fun _ => remaining_miss_law fun x e => h.slots c x (.inl e)
  · exact fun _ => remaining_miss_law fun x e => h.slots c x (.inr e)
  · rw [h.free off]; rfl

/-- Whatever the fates are, the slots that remain and the one that opens meet their bounds (R96). -/
theorem slotsAfterHit_law {lmax g order : Nat} {hit : HitRecord} {e : HitEffect} (hg : 1 ≤ g)
    (h0 : ∀ x, remaining e.fate0 = some x → SlotLaw lmax g x) (h1 : ∀ x, remaining e.fate1 = some x → SlotLaw lmax g x) :
    ChanSlotsLaw lmax g (slotsAfterHit e order hit) := by
  have opened : ∀ x, some (openSlot order hit) = some x → SlotLaw lmax g x := by
    rintro _ ⟨⟩; exact openSlot_law order lmax hg hit
  unfold slotsAfterHit
  split
  · exact chanSlotsLaw_mk opened h1
  · exact chanSlotsLaw_mk h0 opened
  · exact chanSlotsLaw_mk h0 h1

theorem hitEffect_law {p : ChanParams} {lmax order : Nat} {slots : ChanSlots} (hg : 1 ≤ p.g)
    (law : ChanSlotsLaw lmax p.g slots) (hit : HitRecord) :
    ChanSlotsLaw lmax p.g (slotsAfterHit (hitEffect p lmax hit slots) order hit) := by
  have law0 : ∀ x, slots.slot0 = some x → SlotLaw lmax p.g x := fun x e => law x (.inl e)
  have law1 : ∀ x, slots.slot1 = some x → SlotLaw lmax p.g x := fun x e => law x (.inr e)
  unfold hitEffect
  split
  · exact slotsAfterHit_law hg (fun _ => remaining_offer_law hg law0) fun _ => remaining_miss_law law1
  · exact slotsAfterHit_law hg (fun _ => remaining_miss_law law0) fun _ => remaining_offer_law hg law1
  · exact slotsAfterHit_law hg (fun _ => remaining_miss_law law0) fun _ => remaining_miss_law law1

/-- A hit keeps the law while the station operates: G is then at least 1, so a slot that takes it or opens is within G (R95). -/
theorem trackerLaw_hitRecord {s : State} (h : TrackerLaw s) (op : s.operating = true) (hit : HitRecord) :
    TrackerLaw (hitRecord hit s) :=
  h.of_set (hitRecord_chan hit s) (hitRecord_keeps hit s) (hitEffect_law (h.tolerance op _) (h.slots hit.chan) hit)
    fun off => absurd (op.symm.trans off) (by decide)

/-! ### The run, the load and the reset -/

/-- A run start closes every slot without evaluation (R110). -/
theorem trackerLaw_startRun {s : State} (h : TrackerLaw s) (op : s.operating = true) (r : Byte) : TrackerLaw (startRun r s) :=
  .of_closed (fun c => PerChan.get_ofFn _ c) fun _ => h.tolerance op

theorem trackerLaw_takeReset (cause : ResetCause) (s : State) : TrackerLaw (takeReset cause s) :=
  .of_closed (fun c => PerChan.get_ofFn _ c) nofun

/-- A good load brings G to at least 1 (R95). -/
theorem accepted_tolerance {im : List Byte} {p : Params} {w : Warnings} (h : judgeImage im = .accepted p w) (c : Chan) :
    1 ≤ (p.chan.get c).g := by
  obtain ⟨len, planned, whole, rules, e⟩ := judgeImage_accepted h
  have range := readImage_inRange planned whole rules
  rw [e] at range
  exact (range.chan c).tracking.1.1

/-- The end of a load finds every slot free (R111). -/
theorem trackerLaw_loadEnded {s : State} (h : TrackerLaw s) (off : s.operating = false) (im : List Byte) :
    TrackerLaw (loadEnded im s) := by
  have trk := (loadEnded_keeps im s).trk (by decide)
  refine .of_closed (fun c => by rw [trk]; exact h.free off c) ?_
  unfold loadEnded
  split
  · nofun
  · rename_i accepted
    exact fun _ => accepted_tolerance accepted

/-! ### Completions -/

/-- The law while the station operates. -/
def OperatingTracker (s : State) : Prop := TrackerLaw s ∧ s.operating = true

theorem OperatingTracker.of_keeps {l : List Part} {s t : State} (h : OperatingTracker s) (k : Keeps l s t)
    (law : TrackerLaw t) (rc : Part.rc ∉ l := by decide) : OperatingTracker t :=
  ⟨law, (operating_congr (by rw [k.rc rc])).trans h.2⟩

theorem operatingTracker_serving : Serving OperatingTracker where
  frame _ _ k h := h.of_keeps k (h.1.of_keeps k)
  outcome c o b s h := h.of_keeps (takeOutcome_keeps c o b s) (h.1.of_keeps (takeOutcome_keeps c o b s))
  mark c s h := h.of_keeps (coverageMark_keeps c s) (trackerLaw_coverageMark h.1 c)
  cut c s h := h.of_keeps (closureRequest_keeps c s) (trackerLaw_closureRequest h.1 c)

/-- A completion outside RUNNING closes the run, whatever its hits have opened (R37). -/
theorem volleyCompleted_slots {s : State} (stopped : s.rc.runState ≠ .running) (x : PortEchoes) (v : Volley) (e : PlanEntry)
    (c : Chan) : (volleyCompleted x v e s).trk.chan.get c = ⟨none, none⟩ := by
  have run : ¬(volleyCleared (completeVolley v e x s)).rc.runState = .running := by
    rwa [(volleyCleared_keeps _).rc (by decide), (completeVolley_keeps _ _ _ _).rc (by decide)]
  unfold volleyCompleted afterCompletion
  rw [if_neg run, stoppingClose_slots]

theorem trackerLaw_volleyCompleted {s : State} (h : TrackerLaw s) (x : PortEchoes) (v : Volley) (e : PlanEntry) :
    TrackerLaw (volleyCompleted x v e s) := by
  by_cases run : s.rc.runState = .running
  · exact (operatingTracker_serving.volleyCompleted
      (fun hit t g => g.of_keeps (hitRecord_keeps hit t) (trackerLaw_hitRecord g.1 g.2 hit))
      (fun c t g => g.of_keeps (firingNoHit_keeps c t) (trackerLaw_firingNoHit g.1 c))
      x v e ⟨h, operating_of_running run⟩ run).1
  · refine .of_closed (volleyCompleted_slots run x v e) ?_
    have op : (volleyCompleted x v e s).operating = s.operating := operating_congr (by rw [volleyCompleted_rc, if_neg run])
    rw [(volleyCompleted_keeps x v e s).cfg (by decide), op]
    exact h.tolerance

/-! ### Every step -/

theorem trackerLaw_stable : Stable TrackerLaw where
  frame _ _ k h := h.of_keeps k
  outcome c o b s h := h.of_keeps (takeOutcome_keeps c o b s)
  mark c _ h := trackerLaw_coverageMark h c
  cut c _ h := trackerLaw_closureRequest h c
  gap s c h := h.of_keeps (stopGap_keeps s c)
  frontier f s h := h.of_keeps (frontierIncrease_keeps f s)
  event e s h := h.of_keeps (queueEvent_keeps e s)
  runCtl s x h run := h.of_same rfl rfl (run.elim (fun same => operating_congr same.1) fun on => on.2.trans on.1.symm)
  release _ _ h := h.of_same rfl rfl rfl
  taken _ _ _ _ _ taken h := h.of_keeps (takeFrame_keeps taken)
  discards s h := h.of_keeps (dispatchDiscards_keeps s)
  received x s _ h := by
    have k := frameEnds_keeps x s
    obtain ⟨_, rc⟩ := frameEnds_rc x s
    exact h.of_same (by rw [k.trk (by decide)]) (k.cfg (by decide)) (operating_congr (by rw [rc]))
  peer r p s h := by
    have k := indicationTaken_keeps r p s
    obtain ⟨_, rc⟩ := indicationTaken_rc r p s
    exact h.of_same (by rw [k.trk (by decide)]) (k.cfg (by decide)) (operating_congr (by rw [rc]))
  span r p s h := h.of_keeps (suppressTaken_keeps r p s)
  drained s h := h.of_keeps (correlationDrainEnd_keeps s)
  start r _ h op := trackerLaw_startRun h op r
  load im s h _ loading := trackerLaw_loadEnded h (by unfold State.operating; rw [loading]) im
  reset cause s := trackerLaw_takeReset cause s
  link c _ _ touches e h := by
    have k := exec_touches e
    rw [touches] at k
    exact h.of_keeps k
  time s h := by
    have run : (tickRun s.rc).runState = s.rc.runState := by unfold tickRun; split <;> rfl
    exact h.of_same (by rw [(tick_keeps s).trk (by decide)]) ((tick_keeps s).cfg (by decide)) (operating_congr run)

/-- Settles O44: the law is stable, and a completion keeps it in RUNNING by its hits' bounds and elsewhere by the close of the run. -/
theorem everyStepKeepsTheTrackerLaw : Obligations.EveryStepKeepsTheTrackerLaw :=
  trackerLaw_stable.step_keeps fun x v e _ h => trackerLaw_volleyCompleted h x v e

end Sys2Proof.Machine
end

section
/-! SUPPORT. Misses and hits of one channel's slots (R96 to R101, R103, R105): what a miss leaves of a slot, the place that takes a hit,
and what the event settles. -/

namespace Sys2Proof.Machine

/-! ### One slot (R98, R101, R103) -/

/-- A slot with a miss counted (R101). -/
def missed (x : Slot) : Slot := { x with missRun := x.missRun + 1, spanned := satSucc 4095 x.spanned }

/-- The slot that a miss leaves: none once its miss run reaches G (R101, R103). -/
def afterMiss (g : Nat) (x : Slot) : Option Slot := if x.missRun + 1 < g then some (missed x) else none

/-- The slot with the hit it takes (R98). -/
def withHit (h : HitRecord) (x : Slot) : Slot :=
  { x with
    lastX := h.x, lastZ := h.z, xMin := min x.xMin h.x, xMax := max x.xMax h.x, zMin := min x.zMin h.z,
    zMax := max x.zMax h.z, peak := max x.peak h.amplitude, hits := satSucc 255 x.hits,
    spanned := satSucc 4095 x.spanned, missRun := 0, saturated := x.saturated || h.saturated,
    doubtful := x.doubtful || h.doubtful }

theorem missSlot_stays {g : Nat} {x : Slot} (h : x.missRun + 1 < g) : missSlot g x = .stays (missed x) :=
  if_neg (Nat.not_le_of_lt h)

theorem missSlot_closes {g : Nat} {x : Slot} (h : g ≤ x.missRun + 1) : missSlot g x = .closes (missed x) .plain := if_pos h

theorem afterMiss_stays {g : Nat} {x : Slot} (h : x.missRun + 1 < g) : afterMiss g x = some (missed x) := if_pos h

theorem afterMiss_closes {g : Nat} {x : Slot} (h : g ≤ x.missRun + 1) : afterMiss g x = none := if_neg (Nat.not_lt_of_le h)

theorem remaining_missSlot (g : Nat) (x : Slot) : remaining (some (missSlot g x)) = afterMiss g x := by
  by_cases last : g ≤ x.missRun + 1
  · rw [missSlot_closes last, afterMiss_closes last]; rfl
  · rw [missSlot_stays (Nat.lt_of_not_le last), afterMiss_stays (Nat.lt_of_not_le last)]; rfl

theorem remaining_map_missSlot (g : Nat) (o : Option Slot) : remaining (o.map (missSlot g)) = o.bind (afterMiss g) := by
  cases o with
  | none => rfl
  | some x => exact remaining_missSlot g x

theorem offerHit_stays {lmax : Nat} {h : HitRecord} {x : Slot} (within : max x.xMax h.x - min x.xMin h.x ≤ (lmax : Int)) :
    offerHit lmax h x = .stays (withHit h x) := if_pos within

theorem offerHit_closes {lmax : Nat} {h : HitRecord} {x : Slot} (beyond : (lmax : Int) < max x.xMax h.x - min x.xMin h.x) :
    offerHit lmax h x = .closes x .long := if_neg (not_le_of_gt beyond)

theorem slotMatches_iff (p : ChanParams) (h : HitRecord) (x : Slot) :
    slotMatches p h x = true ↔ distX h.x x.lastX ≤ p.tx ∧ distZ h.z x.lastZ ≤ p.tz := by
  unfold slotMatches; rw [Bool.and_eq_true, decide_eq_true_iff, decide_eq_true_iff]

/-- An unmatched slot, by the numbers of R97. -/
theorem slotMatches_false {p : ChanParams} {h : HitRecord} {x : Slot}
    (unmatched : ¬(distX h.x x.lastX ≤ p.tx ∧ distZ h.z x.lastZ ≤ p.tz)) : slotMatches p h x = false :=
  Bool.eq_false_iff.2 fun m => unmatched ((slotMatches_iff p h x).1 m)

/-! ### Two slots in either order of their places -/

/-- Two slots of a channel, the one named first in slot 0 or, where the flag is clear, in slot 1. -/
def placed (first : Bool) (x y : Option Slot) : ChanSlots := if first then ⟨x, y⟩ else ⟨y, x⟩

/-- The place of the slot named first. -/
def placeOf (first : Bool) : Place := if first then .p0 else .p1

/-- The closes of the slot named first and of the other. -/
def closesPlaced (first : Bool) (f g : Option SlotFate) : List (Slot × CloseMark) := if first then closesOf f g else closesOf g f

/-- The one slot is the older of the two, and the other is not: their orders are not 2^31 apart (R96). -/
structure OlderSlot (x y : Slot) : Prop where
  before : olderThan x y = true
  notAfter : olderThan y x = false

theorem olderSlot_of {x y : Slot} (h : (y.order + 4294967296 - x.order) % 4294967296 < 2147483648 ∧
    2147483648 ≤ (x.order + 4294967296 - y.order) % 4294967296) : OlderSlot x y :=
  ⟨decide_eq_true h.1, decide_eq_false (Nat.not_lt_of_le h.2)⟩

/-- A miss leaves the open order (R101). -/
theorem OlderSlot.missed_right {x y : Slot} (h : OlderSlot x y) : OlderSlot x (missed y) := ⟨h.before, h.notAfter⟩

theorem OlderSlot.missed_left {x y : Slot} (h : OlderSlot x y) : OlderSlot (missed x) y := ⟨h.before, h.notAfter⟩

/-- Of two slots that close at one event the older closes first, in either place (R105). -/
theorem closesPlaced_older {x y : Slot} (h : OlderSlot x y) (first : Bool) (m n : CloseMark) :
    closesPlaced first (some (.closes x m)) (some (.closes y n)) = [(x, m), (y, n)] := by
  cases first with
  | true => simp only [closesPlaced, closesOf, h.before, if_true]
  | false => simp only [closesPlaced, closesOf, h.notAfter, Bool.false_eq_true, if_false]

theorem closesPlaced_comm (first : Bool) (f g : Option SlotFate) : closesPlaced first f g = closesPlaced (!first) g f := by
  cases first <;> rfl

/-- Where the first slot stays, what closes is the other. -/
theorem closesPlaced_stays (first : Bool) (x : Slot) (f : Option SlotFate) :
    closesPlaced first (some (.stays x)) f = closesOf none f := by
  rcases f with _ | (_ | _) <;> cases first <;> rfl

theorem closesPlaced_lone (first : Bool) (x : Slot) (m : CloseMark) :
    closesPlaced first (some (.closes x m)) none = [(x, m)] := by cases first <;> rfl

theorem closesPlaced_other_stays (first : Bool) (x y : Slot) (m : CloseMark) :
    closesPlaced first (some (.closes x m)) (some (.stays y)) = [(x, m)] := by cases first <;> rfl

/-! ### The place that takes a hit (R97) -/

section
variable {p : ChanParams} {h : HitRecord} {x y : Slot}

/-- A channel's one open slot takes the hit that it matches. -/
theorem takingPlace_lone (matched : slotMatches p h x = true) (first : Bool) :
    takingPlace p h (placed first (some x) none) = some (placeOf first) := by
  cases first <;> exact if_pos matched

/-- Of two slots the one that matches alone, lies nearer, or is the older of two equally near takes the hit, in either place. -/
theorem takingPlace_pair (matched : slotMatches p h x = true) (first : Bool)
    (preferred : slotMatches p h y = false ∨ distX h.x x.lastX < distX h.x y.lastX ∨
      (distX h.x x.lastX = distX h.x y.lastX ∧ OlderSlot x y)) :
    takingPlace p h (placed first (some x) (some y)) = some (placeOf first) := by
  obtain alone | both := Bool.eq_false_or_eq_true (slotMatches p h y) |>.symm
  · cases first <;> simp [takingPlace, placed, placeOf, matched, alone]
  · obtain alone | nearer | ⟨equal, older⟩ := preferred
    · exact absurd (alone.symm.trans both) (by decide)
    · cases first <;> simp [takingPlace, placed, placeOf, matched, both, nearer, Nat.lt_asymm nearer]
    · cases first <;> simp [takingPlace, placed, placeOf, matched, both, equal, older.before, older.notAfter]

/-- A hit that matches no open slot finds no place. -/
theorem takingPlace_unmatched {slots : ChanSlots}
    (unmatched : ∀ x, slots.slot0 = some x ∨ slots.slot1 = some x → slotMatches p h x = false) :
    takingPlace p h slots = none := by
  obtain ⟨_ | a, _ | b⟩ := slots
  · rfl
  · have hb := unmatched b (.inr rfl)
    simp [takingPlace, hb]
  · have ha := unmatched a (.inl rfl)
    simp [takingPlace, ha]
  · have ha := unmatched a (.inl rfl)
    have hb := unmatched b (.inr rfl)
    simp [takingPlace, ha, hb]

end

/-! ### What an event settles -/

/-- The closes of two fates, the older slot's first where both close (R105). -/
theorem closesOf_pair {f k : SlotFate} {older : Bool}
    (order : ∀ x m y n, f = .closes x m → k = .closes y n → olderThan x y = older) :
    closesOf (some f) (some k) =
      if older then closesOf none (some f) ++ closesOf none (some k) else closesOf none (some k) ++ closesOf none (some f) := by
  cases f with
  | stays x => cases k <;> cases older <;> rfl
  | closes x m =>
    cases k with
    | stays y => cases older <;> rfl
    | closes y n => rw [← order x m y n rfl rfl]; rfl

/-- The closes that misses bring to some slots in their order (R103). -/
def ended (c : Chan) (g : Nat) (xs : List Slot) : List ClosedSlot :=
  (xs.filter (fun x => decide (g ≤ x.missRun + 1))).map (fun x => ⟨c, missed x, false, false⟩)

theorem ended_append (c : Chan) (g : Nat) (xs ys : List Slot) : ended c g (xs ++ ys) = ended c g xs ++ ended c g ys := by
  unfold ended; rw [List.filter_append, List.map_append]

theorem ended_stays {g : Nat} {x : Slot} (h : x.missRun + 1 < g) (c : Chan) : ended c g [x] = [] := by
  simp [ended, Nat.not_le_of_lt h]

theorem ended_closes {g : Nat} {x : Slot} (h : g ≤ x.missRun + 1) (c : Chan) :
    ended c g [x] = [⟨c, missed x, false, false⟩] := by simp [ended, h]

theorem closesOf_missSlot (c : Chan) (g : Nat) (x : Slot) :
    (closesOf none (some (missSlot g x))).map (closedAs c) = ended c g [x] := by
  by_cases last : g ≤ x.missRun + 1
  · rw [missSlot_closes last]; simp [closesOf, closedAs, ended, last]
  · rw [missSlot_stays (Nat.lt_of_not_le last)]; simp [closesOf, ended, last]

theorem missSlot_eq_closes {g : Nat} {x y : Slot} {m : CloseMark} (h : missSlot g x = .closes y m) : y = missed x := by
  by_cases last : g ≤ x.missRun + 1
  · rw [missSlot_closes last] at h; cases h; rfl
  · rw [missSlot_stays (Nat.lt_of_not_le last)] at h; cases h

theorem openSlots_pair (a b : Slot) : openSlots ⟨some a, some b⟩ = if olderThan a b then [a] ++ [b] else [b] ++ [a] := by
  simp [openSlots, olderThan]

/-- An event that is a miss for every open slot closes those at their last miss, the older first (R101, R103, R105). -/
theorem closesOf_missed (c : Chan) (g : Nat) (slots : ChanSlots) :
    (closesOf (slots.slot0.map (missSlot g)) (slots.slot1.map (missSlot g))).map (closedAs c) = ended c g (openSlots slots) := by
  obtain ⟨_ | a, _ | b⟩ := slots
  · rfl
  · exact closesOf_missSlot c g b
  · have alone : closesOf (some (missSlot g a)) none = closesOf none (some (missSlot g a)) := by cases missSlot g a <;> rfl
    exact (congrArg _ alone).trans (closesOf_missSlot c g a)
  · have pair := closesOf_pair (f := missSlot g a) (k := missSlot g b) (older := olderThan a b) fun x m y n hx hy => by
      rw [missSlot_eq_closes hx, missSlot_eq_closes hy]; rfl
    show (closesOf (some (missSlot g a)) (some (missSlot g b))).map (closedAs c) = _
    rw [pair, openSlots_pair]
    split <;> rw [List.map_append, closesOf_missSlot, closesOf_missSlot, ended_append]

/-- An empty firing leaves what its misses leave of the slots, and evaluates those they end (R101, R103, R105). -/
theorem firingNoHit_settled (c : Chan) (s : State) :
    let g := (s.cfg.chan.get c).g
    let slots := s.trk.chan.get c
    Settled s c ⟨slots.slot0.bind (afterMiss g), slots.slot1.bind (afterMiss g)⟩ s.trk.openOrder s.trk.overflow
      (ended c g (openSlots slots)) (firingNoHit c s) := by
  dsimp only
  rw [← closesOf_missed, ← remaining_map_missSlot, ← remaining_map_missSlot]
  exact settleSlots_settled s c _ s.trk.openOrder s.trk.overflow _

section
variable {s : State} {h : HitRecord}

/-- A hit settles the slots by its effect on them (R97 to R100, R105). -/
theorem hitRecord_settled {e : HitEffect}
    (effect : hitEffect (s.cfg.chan.get h.chan) s.cfg.lmax h (s.trk.chan.get h.chan) = e) :
    Settled s h.chan (slotsAfterHit e s.trk.openOrder h)
      (if e.opens = none then s.trk.openOrder else nextOrder s.trk.openOrder)
      (if e.discarded then satAdd s.trk.overflow 1 else s.trk.overflow)
      ((closesOf e.fate0 e.fate1).map (closedAs h.chan)) (hitRecord h s) := by
  subst effect
  exact settleSlots_settled s h.chan _ _ _ _

variable {first : Bool} {x : Slot} {o : Option Slot}

/-- The slot named first is offered a hit: where it stays the other counts a miss; where it closes, a new slot opens in its place as
well (R98, R99, R101). -/
theorem hitRecord_offered (slots : s.trk.chan.get h.chan = placed first (some x) o)
    (takes : takingPlace (s.cfg.chan.get h.chan) h (placed first (some x) o) = some (placeOf first))
    {fate : SlotFate} (offered : offerHit s.cfg.lmax h x = fate) :
    Settled s h.chan
      (placed first (some ((remaining (some fate)).getD (openSlot s.trk.openOrder h))) (o.bind (afterMiss (s.cfg.chan.get h.chan).g)))
      (if remaining (some fate) = none then nextOrder s.trk.openOrder else s.trk.openOrder) s.trk.overflow
      ((closesPlaced first (some fate) (o.map (missSlot (s.cfg.chan.get h.chan).g))).map (closedAs h.chan)) (hitRecord h s) := by
  have settled := hitRecord_settled (s := s) (h := h) rfl
  rw [slots] at settled
  unfold hitEffect at settled
  rw [takes] at settled
  rw [← remaining_map_missSlot]
  cases fate with
  | _ => cases first <;> simpa [placed, placeOf, closesPlaced, offered, slotsAfterHit, remaining] using settled

/-- A hit that a slot takes within Lmax opens no slot: the taking slot stays with it, and the other counts a miss (R98, R101). -/
theorem hitRecord_taken (slots : s.trk.chan.get h.chan = placed first (some x) o)
    (takes : takingPlace (s.cfg.chan.get h.chan) h (placed first (some x) o) = some (placeOf first))
    (within : max x.xMax h.x - min x.xMin h.x ≤ (s.cfg.lmax : Int)) :
    Settled s h.chan (placed first (some (withHit h x)) (o.bind (afterMiss (s.cfg.chan.get h.chan).g)))
      s.trk.openOrder s.trk.overflow
      ((closesOf none (o.map (missSlot (s.cfg.chan.get h.chan).g))).map (closedAs h.chan)) (hitRecord h s) := by
  have settled := hitRecord_offered slots takes (offerHit_stays within)
  rw [closesPlaced_stays] at settled
  exact settled

/-- A hit that would widen the slot it goes to beyond Lmax closes that slot with LONG as it stood and opens a new one in its place;
the other counts a miss (R99, R101). -/
theorem hitRecord_long (slots : s.trk.chan.get h.chan = placed first (some x) o)
    (takes : takingPlace (s.cfg.chan.get h.chan) h (placed first (some x) o) = some (placeOf first))
    (beyond : (s.cfg.lmax : Int) < max x.xMax h.x - min x.xMin h.x) :
    Settled s h.chan (placed first (some (openSlot s.trk.openOrder h)) (o.bind (afterMiss (s.cfg.chan.get h.chan).g)))
      (nextOrder s.trk.openOrder) s.trk.overflow
      ((closesPlaced first (some (.closes x .long)) (o.map (missSlot (s.cfg.chan.get h.chan).g))).map (closedAs h.chan))
      (hitRecord h s) := hitRecord_offered slots takes (offerHit_closes beyond)

/-- What a hit that matches no open slot does: a miss for each of them, and a slot opened in a free place or the hit discarded
(R100). -/
def unmatchedEffect (g : Nat) (slots : ChanSlots) : HitEffect :=
  { fate0 := slots.slot0.map (missSlot g), fate1 := slots.slot1.map (missSlot g)
    opens := if slots.slot0 = none then some .p0 else if slots.slot1 = none then some .p1 else none
    discarded := decide (slots.slot0 ≠ none ∧ slots.slot1 ≠ none) }

theorem hitRecord_unmatched {slots : ChanSlots} (held : s.trk.chan.get h.chan = slots)
    (unmatched : ∀ x, slots.slot0 = some x ∨ slots.slot1 = some x → slotMatches (s.cfg.chan.get h.chan) h x = false) :
    let e := unmatchedEffect (s.cfg.chan.get h.chan).g slots
    Settled s h.chan (slotsAfterHit e s.trk.openOrder h)
      (if e.opens = none then s.trk.openOrder else nextOrder s.trk.openOrder)
      (if e.discarded then satAdd s.trk.overflow 1 else s.trk.overflow)
      (ended h.chan (s.cfg.chan.get h.chan).g (openSlots slots)) (hitRecord h s) := by
  dsimp only
  rw [← closesOf_missed]
  refine hitRecord_settled (e := unmatchedEffect _ slots) ?_
  unfold hitEffect
  rw [held, takingPlace_unmatched unmatched]
  rfl

end

end Sys2Proof.Machine
end

section
/-! SUPPORT. What the tracker's events come to (R96 to R107): a hit taken, a hit too far along the track, a hit that matches no slot, and a
closure request. -/

namespace Sys2Proof.Machine

/-! ### Hits that a slot takes (R97 to R99) -/

section
variable {s : State} {h : HitRecord} {first : Bool} {x y : Slot}

/-- Of two slots, the one that takes a hit within Lmax stays with it, and the other's miss is settled (R97, R98, R101, R103). -/
theorem hitRecord_taken_pair (slots : s.trk.chan.get h.chan = placed first (some x) (some y))
    (takes : takingPlace (s.cfg.chan.get h.chan) h (placed first (some x) (some y)) = some (placeOf first))
    (within : max x.xMax h.x - min x.xMin h.x ≤ (s.cfg.lmax : Int)) :
    Settled s h.chan (placed first (some (withHit h x)) (afterMiss (s.cfg.chan.get h.chan).g y))
      s.trk.openOrder s.trk.overflow (ended h.chan (s.cfg.chan.get h.chan).g [y]) (hitRecord h s) := by
  rw [← closesOf_missSlot]
  exact hitRecord_taken slots takes within

/-- Of two slots, the one that would grow beyond Lmax closes LONG, alone while the other's miss is not its last (R99, R101). -/
theorem hitRecord_long_stays (slots : s.trk.chan.get h.chan = placed first (some x) (some y))
    (takes : takingPlace (s.cfg.chan.get h.chan) h (placed first (some x) (some y)) = some (placeOf first))
    (beyond : (s.cfg.lmax : Int) < max x.xMax h.x - min x.xMin h.x) (stays : y.missRun + 1 < (s.cfg.chan.get h.chan).g) :
    Settled s h.chan (placed first (some (openSlot s.trk.openOrder h)) (some (missed y)))
      (nextOrder s.trk.openOrder) s.trk.overflow [⟨h.chan, x, true, false⟩] (hitRecord h s) := by
  have settled := hitRecord_long slots takes beyond
  rwa [Option.map_some, missSlot_stays stays, closesPlaced_other_stays, Option.bind_some, afterMiss_stays stays] at settled

/-- Where the other slot's miss is its last, both close, the older first (R99, R103, R105). -/
theorem hitRecord_long_closes (slots : s.trk.chan.get h.chan = placed first (some x) (some y))
    (takes : takingPlace (s.cfg.chan.get h.chan) h (placed first (some x) (some y)) = some (placeOf first))
    (beyond : (s.cfg.lmax : Int) < max x.xMax h.x - min x.xMin h.x) (last : (s.cfg.chan.get h.chan).g ≤ y.missRun + 1) :
    Settled s h.chan (placed first (some (openSlot s.trk.openOrder h)) none) (nextOrder s.trk.openOrder) s.trk.overflow
      ((closesPlaced first (some (.closes x .long)) (some (.closes (missed y) .plain))).map (closedAs h.chan))
      (hitRecord h s) := by
  have settled := hitRecord_long slots takes beyond
  rwa [Option.map_some, missSlot_closes last, Option.bind_some, afterMiss_closes last] at settled

end

/-- Settles O39, by the place that takes the hit and whether the other slot's miss is its last. -/
theorem nearerSlotTakesTheHit : Obligations.NearerSlotTakesTheHit := by
  intro s h near far first c slots matched older taken after hmatch within
  have takesHit : slotMatches c h near = true := (slotMatches_iff c h near).2 hmatch
  refine ⟨fun lone => ?_, fun pair preferred => ?_⟩
  · exact (hitRecord_taken lone (takingPlace_lone takesHit first) within).rests rfl
  · have takes := takingPlace_pair takesHit first (preferred.imp slotMatches_false (.imp_right (.imp_right olderSlot_of)))
    have settled := hitRecord_taken_pair pair takes within
    refine ⟨fun stays => ?_, fun last => ?_⟩
    · rw [afterMiss_stays stays, ended_stays stays] at settled
      exact settled.rests rfl
    · rwa [afterMiss_closes last, ended_closes last] at settled

/-- Settles O40, by the place that takes the hit, whether the other slot's miss is its last, and which of the two is the older. -/
theorem longSlotBecomesAnIndication : Obligations.LongSlotBecomesAnIndication := by
  intro s h old first c slots matched before opened after long hmatch beyond
  have takesHit : slotMatches c h old = true := (slotMatches_iff c h old).2 hmatch
  refine ⟨fun lone => ?_, fun other pair preferred => ?_⟩
  · have settled := hitRecord_long lone (takingPlace_lone takesHit first) beyond
    rwa [Option.map_none, closesPlaced_lone] at settled
  · have takes := takingPlace_pair takesHit first (preferred.imp slotMatches_false (.imp_right (.imp_right olderSlot_of)))
    refine ⟨hitRecord_long_stays pair takes beyond, fun last oldFirst => ?_, fun last otherFirst => ?_⟩
    · have settled := hitRecord_long_closes pair takes beyond last
      rwa [closesPlaced_older (olderSlot_of oldFirst).missed_right] at settled
    · have settled := hitRecord_long_closes pair takes beyond last
      rwa [closesPlaced_comm, closesPlaced_older (olderSlot_of otherFirst).missed_left] at settled

/-! ### Events that miss (R100, R101) -/

section
variable {s : State} {h : HitRecord} {a b : Slot}

/-- An unmatched hit beside two open slots is discarded, and is a miss for both (R100, R101). -/
theorem hitRecord_discarded (slots : s.trk.chan.get h.chan = ⟨some a, some b⟩)
    (missesA : slotMatches (s.cfg.chan.get h.chan) h a = false) (missesB : slotMatches (s.cfg.chan.get h.chan) h b = false) :
    let g := (s.cfg.chan.get h.chan).g
    Settled s h.chan ⟨afterMiss g a, afterMiss g b⟩ s.trk.openOrder (satAdd s.trk.overflow 1)
      (ended h.chan g (openSlots ⟨some a, some b⟩)) (hitRecord h s) := by
  have settled := hitRecord_unmatched slots fun x e =>
    e.elim (fun e => Option.some.inj e ▸ missesA) fun e => Option.some.inj e ▸ missesB
  simpa [unmatchedEffect, slotsAfterHit, remaining_missSlot] using settled

/-- An unmatched hit beside an open slot 0 opens slot 1, and is a miss for the other (R96, R101). -/
theorem hitRecord_opens_slot1 (slots : s.trk.chan.get h.chan = ⟨some a, none⟩)
    (misses : slotMatches (s.cfg.chan.get h.chan) h a = false) :
    let g := (s.cfg.chan.get h.chan).g
    Settled s h.chan ⟨afterMiss g a, some (openSlot s.trk.openOrder h)⟩ (nextOrder s.trk.openOrder) s.trk.overflow
      (ended h.chan g [a]) (hitRecord h s) := by
  have settled := hitRecord_unmatched slots fun x e => e.elim (fun e => Option.some.inj e ▸ misses) nofun
  simpa [unmatchedEffect, slotsAfterHit, remaining_missSlot, openSlots] using settled

/-- An unmatched hit beside an open slot 1 opens slot 0, and is a miss for the other (R96, R101). -/
theorem hitRecord_opens_slot0 (slots : s.trk.chan.get h.chan = ⟨none, some a⟩)
    (misses : slotMatches (s.cfg.chan.get h.chan) h a = false) :
    let g := (s.cfg.chan.get h.chan).g
    Settled s h.chan ⟨some (openSlot s.trk.openOrder h), afterMiss g a⟩ (nextOrder s.trk.openOrder) s.trk.overflow
      (ended h.chan g [a]) (hitRecord h s) := by
  have settled := hitRecord_unmatched slots fun x e => e.elim nofun fun e => Option.some.inj e ▸ misses
  simpa [unmatchedEffect, slotsAfterHit, remaining_missSlot, openSlots] using settled

end

/-- Settles O41: each event is a miss for every open slot, and what a hit opens goes by the places that are free. -/
theorem unmatchedHitIsAnOverflow : Obligations.UnmatchedHitIsAnOverflow := by
  intro s missed stays closing
  refine ⟨fun c => firingNoHit_settled c s, fun h => ?_⟩
  intro p unmatched opened opens
  refine ⟨fun a b slots missesA missesB => ?_, fun slots => ?_, fun a misses => ⟨fun slots => ?_, fun slots => ?_⟩⟩
  · exact hitRecord_discarded slots (slotMatches_false missesA) (slotMatches_false missesB)
  · exact hitRecord_unmatched slots fun x e => e.elim nofun nofun
  · exact hitRecord_opens_slot1 slots (slotMatches_false misses)
  · exact hitRecord_opens_slot0 slots (slotMatches_false misses)

/-! ### Closure requests (R104, R105) -/

theorem closureRequest_cut (c : Chan) (s : State) : CutFor s [c] (closureRequest c s) :=
  closureRequests_cut (List.nodup_singleton c) s

/-- Two open slots in either order of their places, the older first (R105). -/
theorem openSlots_placed {x y : Slot} (h : OlderSlot x y) (first : Bool) :
    openSlots (placed first (some x) (some y)) = [x, y] := by
  cases first with
  | true => exact (openSlots_pair x y).trans (if_pos h.before)
  | false => exact (openSlots_pair y x).trans (if_neg (by rw [h.notAfter]; decide))

/-- A request for a channel with two open slots closes both with CUT, the older first whichever place it holds (R104, R105). -/
theorem closureRequest_closes_pair {s : State} {c : Chan} {x y : Slot} {first : Bool}
    (slots : s.trk.chan.get c = placed first (some x) (some y)) (older : OlderSlot x y) :
    SlotsClosed s [⟨c, x, false, true⟩, ⟨c, y, false, true⟩] (closureRequest c s) := by
  have closed := (closureRequest_evaluated c s).closed
  rw [slots, openSlots_placed older] at closed
  exact closed

/-- Two closed slots with hits enough give two records, with successive sequence numbers (R106, R107). -/
theorem closedIndications_pair {s : State} {x y : ClosedSlot} (hx : (s.cfg.chan.get x.chan).nmin ≤ x.slot.hits)
    (hy : (s.cfg.chan.get y.chan).nmin ≤ y.slot.hits) : reportable s [x, y] = [x, y] ∧
    closedIndications s [x, y] = [closedIndication s s.trk.seq x, closedIndication s (nextSeq s.trk.seq) y] := by
  have both : reportable s [x, y] = [x, y] := by simp [reportable, hx, hy]
  refine ⟨both, ?_⟩
  unfold closedIndications
  rw [both]
  rfl

/-- Settles O43: a request is a cut of its channel's open slots in their order, and class 2 has room for both records. -/
theorem closureRequestCutsOldestFirst : Obligations.ClosureRequestCutsOldestFirst := by
  refine ⟨fun s c => ⟨closureRequest_cut c s, closureRequest_keeps c s, (closureRequest_hands c s).link⟩, ?_⟩
  intro s c older newer first slots before notAfter nminOlder nminNewer room
  have closed := closureRequest_closes_pair (slots : _ = placed first _ _) (olderSlot_of ⟨before, notAfter⟩)
  obtain ⟨both, records⟩ := closedIndications_pair (s := s) (x := ⟨c, older, false, true⟩) (y := ⟨c, newer, false, true⟩)
    nminOlder nminNewer
  refine ⟨closureRequest_chan c s, ?_, ?_, closureRequest_keeps c s⟩
  · have sent := closed.sent
    rw [records, List.take_of_length_le (by simp; omega)] at sent
    exact sent
  · have seq := closed.seq
    rw [both] at seq
    have wraps : (s.trk.seq + 2) % 65536 = ((s.trk.seq + 1) % 65536 + 1) % 65536 := by omega
    exact seq.trans wraps

end Sys2Proof.Machine
end

section
/-! SUPPORT. The suppression list (R126, law 9): a merge covers what the list and the new span cover, and keeps the list sorted, disjoint
and non-adjacent. -/

namespace Sys2Proof.Machine

/-! ### One span -/

/-- The two spans neither overlap nor are adjacent (R126). -/
def SpansApart (x y : Span) : Prop := x.b + 1 < y.a ∨ y.b + 1 < x.a

/-- A span of the list holds the place. -/
def CoveredBy (spans : List Span) (place : Int) : Prop := ∃ sp ∈ spans, sp.a ≤ place ∧ place ≤ sp.b

theorem touches_iff (x sp : Span) : touches x sp = true ↔ sp.a ≤ x.b + 1 ∧ x.a ≤ sp.b + 1 := by simp [touches]

theorem not_touches_iff (x sp : Span) : (!touches x sp) = true ↔ SpansApart x sp := by
  simp only [touches, SpansApart, Bool.not_eq_true', decide_eq_false_iff_not]
  omega

/-- Of two spans of the list, one lies before the other with a place between them (law 9). -/
theorem SpansLaw.apart_of_ne {spans : List Span} (law : SpansLaw spans) {x y : Span} (hx : x ∈ spans) (hy : y ∈ spans)
    (ne : x ≠ y) : SpansApart x y := by
  have : Std.Symm SpansApart := ⟨fun _ _ => Or.symm⟩
  exact (law.apart.imp (S := SpansApart) .inl).forall hx hy ne

theorem SpansLaw.sublist {l m : List Span} (law : SpansLaw m) (sub : l.Sublist m) : SpansLaw l :=
  ⟨sub.length_le.trans law.count, fun sp h => law.ordered sp (sub.subset h), law.apart.sublist sub⟩

theorem spansLaw_nil : SpansLaw [] := ⟨by decide, nofun, .nil⟩

/-! ### The hull of the new span and those it touches -/

theorem hullSpan_cons (x sp : Span) (taken : List Span) :
    hullSpan x (sp :: taken) = hullSpan ⟨min x.a sp.a, max x.b sp.b⟩ taken := rfl

theorem hullSpan_ordered : ∀ {taken : List Span} {x : Span}, x.a ≤ x.b → (hullSpan x taken).a ≤ (hullSpan x taken).b
  | [], _, h => h
  | sp :: taken, x, h => by
    rw [hullSpan_cons]
    exact hullSpan_ordered (taken := taken) ((min_le_left _ _).trans (h.trans (le_max_left _ _)))

/-- A hull ends before a place where the new span and each span taken do. -/
theorem hullSpan_before {place : Int} : ∀ {taken : List Span} {x : Span}, x.b < place → (∀ sp ∈ taken, sp.b < place) →
    (hullSpan x taken).b < place
  | [], _, hx, _ => hx
  | sp :: taken, x, hx, h => by
    rw [hullSpan_cons]
    exact hullSpan_before (max_lt hx (h sp (List.mem_cons_self ..))) fun y hy => h y (List.mem_cons_of_mem _ hy)

theorem hullSpan_after {place : Int} : ∀ {taken : List Span} {x : Span}, place < x.a → (∀ sp ∈ taken, place < sp.a) →
    place < (hullSpan x taken).a
  | [], _, hx, _ => hx
  | sp :: taken, x, hx, h => by
    rw [hullSpan_cons]
    exact hullSpan_after (lt_min hx (h sp (List.mem_cons_self ..))) fun y hy => h y (List.mem_cons_of_mem _ hy)

/-- The hull holds no place but those of the spans that make it: each touches the new span, so no place lies between. -/
theorem hullSpan_covers {place : Int} : ∀ {taken : List Span} {x : Span}, x.a ≤ x.b → (∀ sp ∈ taken, sp.a ≤ sp.b) →
    (∀ sp ∈ taken, touches x sp = true) →
    ((hullSpan x taken).a ≤ place ∧ place ≤ (hullSpan x taken).b ↔
      (x.a ≤ place ∧ place ≤ x.b) ∨ CoveredBy taken place)
  | [], _, _, _, _ => by simp [hullSpan, CoveredBy]
  | sp :: taken, x, hx, ordered, touching => by
    have first := (touches_iff x sp).1 (touching sp (List.mem_cons_self ..))
    have long := ordered sp (List.mem_cons_self ..)
    have rest : ∀ y ∈ taken, touches ⟨min x.a sp.a, max x.b sp.b⟩ y = true := fun y hy => by
      have near := (touches_iff x y).1 (touching y (List.mem_cons_of_mem _ hy))
      rw [touches_iff]; dsimp only; omega
    rw [hullSpan_cons, hullSpan_covers (x := ⟨min x.a sp.a, max x.b sp.b⟩) (by dsimp only; omega)
      (fun y hy => ordered y (List.mem_cons_of_mem _ hy)) rest]
    simp only [CoveredBy, List.exists_mem_cons_iff, ← or_assoc]
    refine or_congr_left ?_
    omega

/-! ### Insertion in order -/

theorem mem_insertSpan {x y : Span} : ∀ {l : List Span}, y ∈ insertSpan x l ↔ y = x ∨ y ∈ l
  | [] => by simp [insertSpan]
  | sp :: rest => by
    unfold insertSpan
    split
    · simp
    · rw [List.mem_cons, mem_insertSpan, List.mem_cons, or_left_comm]

theorem length_insertSpan (x : Span) : ∀ l : List Span, (insertSpan x l).length = l.length + 1
  | [] => rfl
  | sp :: rest => by
    unfold insertSpan
    split
    · rfl
    · rw [List.length_cons, length_insertSpan x rest, List.length_cons]

/-- A span apart from every span of a sorted list takes its place among them. -/
theorem insertSpan_apart {x : Span} (hx : x.a ≤ x.b) : ∀ {l : List Span}, l.Pairwise (fun y z => y.b + 1 < z.a) →
    (∀ sp ∈ l, sp.a ≤ sp.b) → (∀ sp ∈ l, SpansApart x sp) → (insertSpan x l).Pairwise (fun y z => y.b + 1 < z.a)
  | [], _, _, _ => List.pairwise_singleton _ _
  | sp :: rest, sorted, ordered, apart => by
    obtain ⟨before, tail⟩ := List.pairwise_cons.1 sorted
    obtain ⟨long, longs⟩ := List.forall_mem_cons.1 ordered
    obtain ⟨first, others⟩ := List.forall_mem_cons.1 apart
    unfold SpansApart at first
    unfold insertSpan
    split
    · refine List.pairwise_cons.2 ⟨List.forall_mem_cons.2 ⟨by omega, fun z hz => ?_⟩, sorted⟩
      have := before z hz
      omega
    · refine List.pairwise_cons.2 ⟨fun z hz => ?_, insertSpan_apart hx tail longs others⟩
      rcases mem_insertSpan.1 hz with rfl | hz
      · omega
      · exact before z hz

/-! ### The merge (R126) -/

section
variable {x : Span} {spans : List Span} (law : SpansLaw spans)
include law

/-- The hull of the new span is apart from every span that the new span does not touch. -/
theorem hullSpan_apart {sp : Span} (hsp : sp ∈ spans) (away : SpansApart x sp) :
    SpansApart (hullSpan x (spans.filter (touches x))) sp := by
  have long := law.ordered sp hsp
  have taken : ∀ y ∈ spans.filter (touches x), (y.a ≤ x.b + 1 ∧ x.a ≤ y.b + 1) ∧ SpansApart y sp := fun y hy => by
    obtain ⟨mem, near⟩ := List.mem_filter.1 hy
    have near := (touches_iff x y).1 near
    refine ⟨near, law.apart_of_ne mem hsp ?_⟩
    rintro rfl
    unfold SpansApart at away
    omega
  unfold SpansApart at taken away ⊢
  rcases away with left | right
  · have := hullSpan_before (place := sp.a - 1) (x := x) (by omega) fun y hy => by have := taken y hy; omega
    omega
  · have := hullSpan_after (place := sp.b + 1) (x := x) (by omega) fun y hy => by have := taken y hy; omega
    exact .inr this

variable (hx : x.a ≤ x.b)
include hx

theorem mergeSpan_ordered : ∀ sp ∈ mergeSpan x spans, sp.a ≤ sp.b := by
  intro sp h
  rcases mem_insertSpan.1 h with rfl | h
  · exact hullSpan_ordered hx
  · exact law.ordered sp (List.mem_filter.1 h).1

theorem mergeSpan_apart : (mergeSpan x spans).Pairwise (fun y z => y.b + 1 < z.a) := by
  refine insertSpan_apart (hullSpan_ordered hx) (law.apart.filter _) (fun sp h => law.ordered sp (List.mem_filter.1 h).1) ?_
  intro sp h
  obtain ⟨mem, away⟩ := List.mem_filter.1 h
  exact hullSpan_apart law mem ((not_touches_iff x sp).1 away)

/-- A merge within the list's capacity keeps the law (law 9). -/
theorem mergeSpan_law (room : (mergeSpan x spans).length ≤ 8) : SpansLaw (mergeSpan x spans) :=
  ⟨room, mergeSpan_ordered law hx, mergeSpan_apart law hx⟩

/-- The merged list covers what the list covered and the new span. -/
theorem mergeSpan_covers (place : Int) :
    CoveredBy (mergeSpan x spans) place ↔ CoveredBy spans place ∨ (x.a ≤ place ∧ place ≤ x.b) := by
  have hull := hullSpan_covers (place := place) (x := x) (taken := spans.filter (touches x)) hx
    (fun sp h => law.ordered sp (List.mem_filter.1 h).1) fun sp h => (List.mem_filter.1 h).2
  have parts : CoveredBy spans place ↔
      CoveredBy (spans.filter (touches x)) place ∨ CoveredBy (spans.filter (fun sp => !touches x sp)) place := by
    simp only [CoveredBy, List.mem_filter, ← exists_or]
    refine exists_congr fun sp => ?_
    cases touches x sp <;> simp
  have merged : CoveredBy (mergeSpan x spans) place ↔
      ((hullSpan x (spans.filter (touches x))).a ≤ place ∧ place ≤ (hullSpan x (spans.filter (touches x))).b) ∨
      CoveredBy (spans.filter (fun sp => !touches x sp)) place := by
    simp only [CoveredBy, mergeSpan, mem_insertSpan, or_and_right, exists_or, exists_eq_left]
  rw [merged, hull, parts]
  tauto

end

theorem length_mergeSpan (x : Span) (spans : List Span) :
    (mergeSpan x spans).length = (spans.filter (fun sp => !touches x sp)).length + 1 := length_insertSpan _ _

/-- A span that touches none makes the list one longer. -/
theorem length_mergeSpan_of_apart {x : Span} {spans : List Span} (apart : ∀ sp ∈ spans, SpansApart x sp) :
    (mergeSpan x spans).length = spans.length + 1 := by
  rw [length_mergeSpan, List.filter_eq_self.2 fun sp h => (not_touches_iff x sp).2 (apart sp h)]

/-- A span that touches one does not. -/
theorem length_mergeSpan_of_touching {x sp : Span} {spans : List Span} (mem : sp ∈ spans) (near : ¬SpansApart x sp) :
    (mergeSpan x spans).length ≤ spans.length := by
  rw [length_mergeSpan]
  exact List.length_filter_lt_length_iff_exists.2 ⟨sp, mem, fun away => near ((not_touches_iff x sp).1 away)⟩

end Sys2Proof.Machine
end

section
/-! SUPPORT. The correlation law (law 6 in part, law 9): the calls of an insertion and of the entries that leave touch neither the spans,
nor the peers, nor the epoch; the table grows by an insertion alone, which makes room first. -/

namespace Sys2Proof.Machine

/-! ### What the unit's operations leave -/

/-- Entries that leave touch neither the table that stays nor the spans (R123). -/
theorem leaving_rest (early : Bool) : ∀ (es : List Entry) (s : State),
    (es.foldl (leaveEffect early) s).corr.table = s.corr.table ∧ (es.foldl (leaveEffect early) s).corr.spans = s.corr.spans
  | [], _ => ⟨rfl, rfl⟩
  | e :: es, s => by
    obtain ⟨table, spans⟩ := leaving_rest early es (leaveEffect early s e)
    rw [List.foldl_cons, table, spans, leaveEffect_corr]
    exact ⟨rfl, rfl⟩

/-- Entries leave a table that already stands without them as they would leave the whole one. -/
theorem leaving_left_of_table (early : Bool) (gone table : List Entry) (s : State) :
    EntriesLeft early s gone (gone.foldl (leaveEffect early) (s.setCorr { s.corr with table := table })) :=
  (leaving_left early gone _).of_same rfl rfl rfl rfl

/-- What entries leave does not depend on the spans that stay after them. -/
theorem EntriesLeft.with_spans {early : Bool} {s t : State} {gone : List Entry} (h : EntriesLeft early s gone t)
    (spans : List Span) : EntriesLeft early s gone (t.setCorr { t.corr with spans := spans }) :=
  ⟨⟨h.calls.seq, h.calls.suppressed, h.calls.queued, h.calls.dropped, h.calls.hands⟩, h.dropped, h.others⟩

theorem forceOut_frame (s : State) : (forceOut s).corr =
    { s.corr with
      table := s.corr.table.tail, callSeq := (forceOut s).corr.callSeq
      unpairedDrop := (forceOut s).corr.unpairedDrop, suppressed := (forceOut s).corr.suppressed } := by
  unfold forceOut
  split
  · rename_i empty; rw [empty, List.tail_nil, ← empty]
  · rename_i e es table; rw [leaveEffect_corr, table]; rfl

/-- An insertion leaves the spans, the peers and the epoch (R113, R117). -/
theorem insertRecord_frame (n : Indication) (s : State) : (insertRecord n s).corr.spans = s.corr.spans ∧
    (insertRecord n s).corr.peers = s.corr.peers ∧ (insertRecord n s).corr.epoch = s.corr.epoch := by
  unfold insertRecord
  rw [insertPaired_corr]
  split
  · rw [forceOut_frame]; exact ⟨rfl, rfl, rfl⟩
  · exact ⟨rfl, rfl, rfl⟩

theorem frontierIncrease_table (front : Int) (s : State) :
    (frontierIncrease front s).corr.table = s.corr.table.filter (fun e => !aged s.cfg.horizon front e) :=
  (leaving_rest false _ _).1

theorem frontierIncrease_spans (front : Int) (s : State) : (frontierIncrease front s).corr.spans =
    s.corr.spans.filter (fun sp => !decide (sp.b + s.cfg.horizon < front)) :=
  congrArg (List.filter _) (leaving_rest false _ _).2

/-- The aged entries leave as the table stood, before the spans age (R122, R123, R127). -/
theorem frontierIncrease_left (front : Int) (s : State) :
    EntriesLeft false s (s.corr.table.filter (aged s.cfg.horizon front)) (frontierIncrease front s) :=
  (leaving_left_of_table false _ (s.corr.table.filter (fun e => !aged s.cfg.horizon front e)) s).with_spans _

/-- At the end of the drain every entry leaves, and then the spans (R131). -/
theorem correlationDrainEnd_left (s : State) : EntriesLeft false s s.corr.table (correlationDrainEnd s) :=
  (leaving_left_of_table false _ [] s).with_spans _

theorem correlationDrainEnd_table (s : State) : (correlationDrainEnd s).corr.table = [] := (leaving_rest false _ _).1

theorem correlationDrainEnd_spans (s : State) : (correlationDrainEnd s).corr.spans = [] := rfl

theorem nextEpoch_le (n : Nat) : nextEpoch n ≤ 4294967295 := Nat.min_le_right _ _

/-- A frame's end leaves the unit, or raises the epoch for an overflow of the receive queue (R116, R143). -/
theorem frameEnds_corr (chars : List Byte) (s : State) : (frameEnds chars s).corr = s.corr ∨
    (frameEnds chars s).corr = { s.corr with epoch := nextEpoch s.corr.epoch } := by
  unfold frameEnds acceptFrame enterReceiveQueue
  dsimp only
  split
  · exact .inl rfl
  · split
    · exact .inl rfl
    · split
      · exact .inl ((reportConflict_keeps _ _).corr (by decide))
      · split
        · exact .inl rfl
        · exact .inr rfl

/-! ### The law -/

/-- The law speaks of the table's size, the spans, the number of peers and the epoch. -/
theorem CorrelationLaw.of_parts {s t : State} (h : CorrelationLaw s) (table : t.corr.table.length ≤ 48)
    (spans : t.corr.spans = s.corr.spans) (peers : t.corr.peers.length = s.corr.peers.length)
    (epoch : t.corr.epoch ≤ 4294967295) : CorrelationLaw t :=
  ⟨table, spans ▸ h.spans, peers.trans h.peers, epoch⟩

theorem CorrelationLaw.of_corr {s t : State} (h : CorrelationLaw s) (same : t.corr = s.corr) : CorrelationLaw t := by
  obtain ⟨capacity, spans, peers, epoch⟩ := h
  rw [← same] at capacity spans peers epoch
  exact ⟨capacity, spans, peers, epoch⟩

theorem CorrelationLaw.of_keeps {l : List Part} {s t : State} (h : CorrelationLaw s) (k : Keeps l s t)
    (corr : Part.corr ∉ l := by decide) : CorrelationLaw t := h.of_corr (k.corr corr)

/-- An insertion makes room before it adds its entry (R117). -/
theorem correlationLaw_insertRecord {s : State} (h : CorrelationLaw s) (n : Indication) : CorrelationLaw (insertRecord n s) := by
  obtain ⟨spans, peers, epoch⟩ := insertRecord_frame n s
  refine h.of_parts ?_ spans (congrArg List.length peers) (epoch ▸ h.epoch)
  have entries := congrArg List.length (insertRecord_inds n h.capacity)
  simp only [List.length_map, List.length_drop, List.length_append, List.length_singleton] at entries
  omega

/-- A closed slot of enough hits enters the table; one of too few leaves it (R106, R107). -/
theorem correlationLaw_evaluateClosed {s : State} (h : CorrelationLaw s) (c : Chan) (x : Slot × CloseMark) :
    CorrelationLaw (evaluateClosed c s x) := by
  unfold evaluateClosed
  dsimp only
  split
  · exact (correlationLaw_insertRecord (h.of_keeps (keeps_setTrk _ _)) _).of_keeps (queueIndication_keeps _ _)
  · exact h.of_keeps (keeps_setTrk _ _)

theorem correlationLaw_settleSlots {s : State} (h : CorrelationLaw s) (c : Chan) (slots : ChanSlots)
    (closed : List (Slot × CloseMark)) : CorrelationLaw (settleSlots c slots closed s) := by
  have settled : CorrelationLaw (s.setTrk { s.trk with chan := s.trk.chan.set c slots }) := h.of_keeps (keeps_setTrk _ _)
  exact Serving.fold (inv := CorrelationLaw) (fun _ x g => correlationLaw_evaluateClosed g c x) closed _ settled

theorem correlationLaw_frontierIncrease {s : State} (h : CorrelationLaw s) (front : Int) :
    CorrelationLaw (frontierIncrease front s) := by
  obtain ⟨peers, epoch, -⟩ := (frontierIncrease_left front s).others
  refine ⟨?_, ?_, peers ▸ h.peers, epoch ▸ h.epoch⟩
  · rw [frontierIncrease_table]; exact (List.length_filter_le _ _).trans h.capacity
  · rw [frontierIncrease_spans]; exact h.spans.sublist List.filter_sublist

theorem correlationLaw_correlationDrainEnd {s : State} (h : CorrelationLaw s) : CorrelationLaw (correlationDrainEnd s) := by
  obtain ⟨peers, epoch, -⟩ := (correlationDrainEnd_left s).others
  refine ⟨?_, ?_, peers ▸ h.peers, epoch ▸ h.epoch⟩
  · rw [correlationDrainEnd_table]; exact Nat.zero_le _
  · rw [correlationDrainEnd_spans]; exact spansLaw_nil

theorem correlationLaw_peerCheck {s : State} (h : CorrelationLaw s) (origin seq : Nat) :
    CorrelationLaw (peerCheck origin seq s).2 := by
  refine h.of_parts h.capacity rfl List.length_set ?_
  unfold peerCheck
  dsimp only [State.setCorr_corr]
  split
  · exact nextEpoch_le _
  · exact h.epoch

theorem correlationLaw_indicationTaken {s : State} (h : CorrelationLaw s) (run : Byte) (p : IndicationPayload) :
    CorrelationLaw (indicationTaken run p s) := by
  have checked := fun origin seq => correlationLaw_peerCheck h origin seq
  unfold indicationTaken peerRecord
  dsimp only
  split
  · exact h
  · split
    · exact h
    · split
      · exact h.of_parts h.capacity rfl rfl h.epoch
      · split
        · exact h.of_keeps (reportConflict_keeps _ _)
        · split
          · exact h
          · split
            · exact checked _ _
            · split
              · exact checked _ _
              · exact correlationLaw_insertRecord (checked _ _) _

/-- A merge that would pass the list's capacity is not made (R126). -/
theorem correlationLaw_suppressTaken {s : State} (h : CorrelationLaw s) (run : Byte) (p : SuppressPayload) :
    CorrelationLaw (suppressTaken run p s) := by
  unfold suppressTaken
  dsimp only
  split
  · exact h
  · split
    · exact h.of_parts h.capacity rfl rfl h.epoch
    · split
      · exact h
      · split
        · exact h
        · rename_i ordered
          split
          · exact h.of_parts h.capacity rfl rfl h.epoch
          · rename_i room
            exact ⟨h.capacity, mergeSpan_law h.spans (Int.not_lt.1 ordered) (Nat.not_lt.1 room), h.peers, h.epoch⟩

theorem correlationLaw_frameEnds {s : State} (h : CorrelationLaw s) (chars : List Byte) : CorrelationLaw (frameEnds chars s) := by
  rcases frameEnds_corr chars s with same | raised
  · exact h.of_corr same
  · constructor <;> rw [raised]
    · exact h.capacity
    · exact h.spans
    · exact h.peers
    · exact nextEpoch_le _

theorem correlationLaw_startRun {s : State} (h : CorrelationLaw s) (r : Byte) : CorrelationLaw (startRun r s) :=
  ⟨Nat.zero_le _, spansLaw_nil, List.length_map _ |>.trans h.peers, Nat.zero_le _⟩

theorem correlationLaw_takeReset (cause : ResetCause) (s : State) : CorrelationLaw (takeReset cause s) :=
  ⟨Nat.zero_le _, spansLaw_nil, rfl, Nat.zero_le _⟩

/-! ### Every step -/

theorem correlationLaw_stable : Stable CorrelationLaw where
  frame _ _ k h := h.of_keeps k
  outcome c o b s h := h.of_keeps (takeOutcome_keeps c o b s)
  mark c s h := h.of_keeps (coverageMark_keeps c s)
  cut c _ h := correlationLaw_settleSlots h c _ _
  gap s c h := h.of_keeps (stopGap_keeps s c)
  frontier f _ h := correlationLaw_frontierIncrease h f
  event e s h := h.of_keeps (queueEvent_keeps e s)
  runCtl s x h _ := h.of_keeps (keeps_setRc s x)
  release _ _ h := h.of_corr rfl
  taken _ _ _ _ _ taken h := h.of_keeps (takeFrame_keeps taken)
  discards s h := h.of_keeps (dispatchDiscards_keeps s)
  received x _ _ h := correlationLaw_frameEnds h x
  peer r p _ h := correlationLaw_indicationTaken h r p
  span r p _ h := correlationLaw_suppressTaken h r p
  drained _ h := correlationLaw_correlationDrainEnd h
  start r _ h _ := correlationLaw_startRun h r
  load im s h _ _ := h.of_keeps (loadEnded_keeps im s)
  reset cause s := correlationLaw_takeReset cause s
  link c _ _ touches e h := h.of_keeps (exec_touches e) (by rw [touches]; decide)
  time s h := h.of_keeps (tick_keeps s)

/-- Settles O50: the law is stable, and a completion's hits and empty firings reach the table by the slots they close. -/
theorem everyStepKeepsTheCorrelationLaw : Obligations.EveryStepKeepsTheCorrelationLaw :=
  correlationLaw_stable.step_keeps fun x v e _ h => correlationLaw_stable.volleyCompleted
    (fun hit s g => correlationLaw_settleSlots (s := s.setTrk _) (g.of_keeps (keeps_setTrk s _)) hit.chan _ _)
    (fun c _ g => correlationLaw_settleSlots g c _ _) x v e h

end Sys2Proof.Machine
end

section
/-! SUPPORT. The sequence check (R115, R116): what it makes of each difference from the last seq, and what it leaves of the peers. -/

namespace Sys2Proof.Machine

/-! ### The check on an entry -/

/-- The first record of a peer since the run start is accepted (R115). -/
theorem sequenceCheck_first {p : PeerEntry} (seq : Nat) (h : p.seen = false ∨ p.valid = false) :
    sequenceCheck p seq = (true, { p with seen := true, valid := true, lastSeq := seq }, false) := by
  unfold sequenceCheck
  cases seen : p.seen with
  | false => simp
  | true =>
    have valid : p.valid = false := by simpa [seen] using h
    simp [seen, valid]

section
variable {p : PeerEntry} {seq : Nat} (seen : p.seen = true) (valid : p.valid = true)
include seen valid

/-- Of a peer already heard in this run the difference from its last seq decides (R115). -/
theorem sequenceCheck_heard : sequenceCheck p seq =
    let d := (seq + 65536 - p.lastSeq) % 65536
    if d = 0 then (false, p, false)
    else if d = 1 then (true, { p with lastSeq := seq }, false)
    else if d ≤ 32767 then (true, { p with lastSeq := seq, gapCount := satAdd p.gapCount (d - 1) }, true)
    else (false, { p with staleCount := satAdd p.staleCount 1 }, false) := by
  unfold sequenceCheck
  simp [seen, valid]

theorem sequenceCheck_same (d : (seq + 65536 - p.lastSeq) % 65536 = 0) : sequenceCheck p seq = (false, p, false) := by
  rw [sequenceCheck_heard seen valid]
  exact if_pos d

theorem sequenceCheck_next (d : (seq + 65536 - p.lastSeq) % 65536 = 1) :
    sequenceCheck p seq = (true, { p with lastSeq := seq }, false) := by
  rw [sequenceCheck_heard seen valid]
  simp [d]

theorem sequenceCheck_gap {n : Nat} (d : (seq + 65536 - p.lastSeq) % 65536 = n) (low : 2 ≤ n) (high : n ≤ 32767) :
    sequenceCheck p seq = (true, { p with lastSeq := seq, gapCount := satAdd p.gapCount (n - 1) }, true) := by
  rw [sequenceCheck_heard seen valid]
  simp [d, high, show n ≠ 0 by omega, show n ≠ 1 by omega]

theorem sequenceCheck_stale (d : 32767 < (seq + 65536 - p.lastSeq) % 65536) :
    sequenceCheck p seq = (false, { p with staleCount := satAdd p.staleCount 1 }, false) := by
  rw [sequenceCheck_heard seen valid]
  dsimp only
  rw [if_neg (by omega), if_neg (by omega), if_neg (by omega)]

end

/-! ### The check on the station -/

/-- The check replaces its peer's entry and may raise the epoch (R115, R116). -/
theorem peerCheck_eq {s : State} {origin seq : Nat} {p q : PeerEntry} {accepted raised : Bool}
    (held : s.corr.peers[origin]? = some p) (check : sequenceCheck p seq = (accepted, q, raised)) :
    peerCheck origin seq s = (accepted, s.setCorr { s.corr with
      peers := s.corr.peers.set origin q, epoch := if raised then nextEpoch s.corr.epoch else s.corr.epoch }) := by
  have peer : peerOf s origin = p := by simp [peerOf, held]
  unfold peerCheck
  rw [peer, check]

theorem peerCheck_keeps (origin seq : Nat) (s : State) : Keeps [.corr] s (peerCheck origin seq s).2 := keeps_setCorr _ _

/-- Settles O45: the case of the check is that of the difference modulo 65536. -/
theorem sequenceCheckJudgesThePeer : Obligations.SequenceCheckJudgesThePeer := by
  intro s origin seq p held lastSeq_le seq_le d ok t
  have entry : ∀ q, (s.corr.peers.set origin q)[origin]? = some q := fun q =>
    List.getElem?_set_self (List.getElem?_eq_some_iff.1 held).1
  have diff : d = ((seq + 65536 - p.lastSeq) % 65536 : Nat) := by omega
  refine ⟨peerCheck_keeps origin seq s, rfl, fun other ne => List.getElem?_set_ne ne.symm, fun first => ?_, fun seen valid => ?_⟩
  · have check := peerCheck_eq held (sequenceCheck_first seq first)
    dsimp only [ok, t]
    rw [check]
    exact ⟨rfl, rfl, entry _⟩
  · refine ⟨fun same => ?_, fun next => ?_, fun low high => ?_, fun stale => ?_⟩
    · have check := peerCheck_eq held (sequenceCheck_same (seq := seq) seen valid (by omega))
      dsimp only [ok, t]
      have unchanged : s.corr.peers.set origin p = s.corr.peers := by
        obtain ⟨lt, rfl⟩ := List.getElem?_eq_some_iff.1 held
        exact List.set_getElem_self lt
      rw [check, unchanged]
      exact ⟨rfl, rfl⟩
    · have check := peerCheck_eq held (sequenceCheck_next (seq := seq) seen valid (by omega))
      dsimp only [ok, t]
      rw [check]
      exact ⟨rfl, rfl, entry _⟩
    · have check := peerCheck_eq held (sequenceCheck_gap (seq := seq) (n := d.toNat) seen valid (by omega) (by omega) (by omega))
      have count : (min ((p.gapCount : Int) + (d - 1)) 65535).toNat = satAdd p.gapCount (d.toNat - 1) := by
        unfold satAdd; omega
      dsimp only [ok, t]
      rw [check, count]
      exact ⟨rfl, rfl, entry _⟩
    · have check := peerCheck_eq held (sequenceCheck_stale (seq := seq) seen valid (by omega))
      dsimp only [ok, t]
      rw [check]
      exact ⟨rfl, rfl, entry _⟩

end Sys2Proof.Machine
end

section
/-! SUPPORT. Entries that leave the table with the frontier and at the end of the drain (R122, R123, R131), and the summary of a run
(R153, R155). -/

namespace Sys2Proof.Machine

/-! ### The counts of calls and drops (R123) -/

theorem seqAfter_eq {n : Nat} (h : n ≤ 65535) : ∀ k, seqAfter n k = (n + k) % 65536
  | 0 => (Nat.mod_eq_of_lt (Nat.lt_succ_of_le h)).symm
  | _ + 1 => rfl

/-- Each own UNPAIRED entry that leaves takes a call sequence number or counts as dropped, by its beam (R123). -/
theorem EntriesLeft.counts {early : Bool} {s t : State} {gone : List Entry} (h : EntriesLeft early s gone t)
    (callSeq_le : s.corr.callSeq ≤ 65535) (unpairedDrop_le : s.corr.unpairedDrop ≤ 65535) :
    t.corr.callSeq = (s.corr.callSeq +
      ((ownUnpaired s gone).filter (fun e => inBeams s.cfg.single e.ind.beam)).length) % 65536 ∧
    t.corr.unpairedDrop = min 65535 (s.corr.unpairedDrop +
      ((ownUnpaired s gone).filter (fun e => !inBeams s.cfg.single e.ind.beam)).length) := by
  refine ⟨?_, (h.dropped unpairedDrop_le).trans (Nat.min_comm _ _)⟩
  rw [h.calls.seq, seqAfter_eq callSeq_le, singleCalls, List.length_map, List.length_zipIdx]

/-- Settles O48: the aged entries and spans leave, and what the entries leave is counted as the table stood. -/
theorem frontierIncreaseAgesTableAndSpans : Obligations.FrontierIncreaseAgesTableAndSpans := by
  intro s front callSeq_le unpairedDrop_le t leaving
  have left := frontierIncrease_left front s
  have own : ownUnpaired s (s.corr.table.filter (aged s.cfg.horizon front)) = leaving := by
    unfold ownUnpaired
    rw [List.filter_filter]
    exact List.filter_congr fun e _ => by simp only [aged, ← Bool.decide_and, and_comm]
  obtain ⟨callSeq, unpairedDrop⟩ := left.counts callSeq_le unpairedDrop_le
  rw [own] at callSeq unpairedDrop
  obtain ⟨peers, epoch, -⟩ := left.others
  refine ⟨?_, ?_, callSeq, unpairedDrop, left, peers, epoch, frontierIncrease_keeps front s⟩
  · rw [frontierIncrease_table]
    exact List.filter_congr fun e _ => by simp only [aged, ← decide_not, Int.not_lt]
  · rw [frontierIncrease_spans]
    exact List.filter_congr fun sp _ => by simp only [← decide_not, Int.not_lt]

/-! ### The summary (R153, R155) -/

/-- The two records of the summary go to class 0 one after the other (R155). -/
theorem queueSummary_handed (s : State) : ∃ m,
    EventHanded s.own s.rc.run (.runSummary1 (summaryCounters s)) s.link m ∧
    EventHanded s.own s.rc.run (.runSummary2 (summaryTotals s)) m (queueSummary s).link :=
  ⟨_, offer0_handed .., offer0_handed ..⟩

/-- Two events handed to class 0: both go last, or the second is refused, or both are (R135). -/
theorem EventHanded.twice {own : Nat} {run : Byte} {d e : StationEvent} {l m n : Link} (h : EventHanded own run d l m)
    (k : EventHanded own run e m n) : HandsTo own [.c0] l n ∧
    (l.q0.length + 2 ≤ 4 → n.drop0 = l.drop0 ∧ n.q0 = l.q0 ++ [⟨run, d⟩, ⟨run, e⟩]) ∧
    (l.q0.length + 1 = 4 → n.drop0 = min (l.drop0 + 1) 65535 ∧ n.q0 = l.q0 ++ [⟨run, d⟩]) ∧
    (4 ≤ l.q0.length → n = { l with drop0 := min (l.drop0 + 2) 65535 }) := by
  refine ⟨h.hands.trans k.hands, fun both => ?_, fun one => ?_, fun none => ?_⟩
  · obtain ⟨first, kept⟩ := h.room (by omega)
    obtain ⟨second, kept'⟩ := k.room (by rw [first, List.length_append, List.length_singleton]; omega)
    exact ⟨kept'.trans kept, by rw [second, first, List.append_assoc]; rfl⟩
  · obtain ⟨first, kept⟩ := h.room (by omega)
    have refused := k.full (by rw [first, List.length_append, List.length_singleton]; omega)
    rw [refused]
    exact ⟨by rw [kept], first⟩
  · have refused := h.full none
    rw [k.full (by rw [refused]; exact none), refused]
    congr 1
    dsimp only
    omega

/-- The station once the drain has ended, before a pending start (R153). -/
def drained (s : State) : State :=
  { correlationDrainEnd s with
    rc := { s.rc with runState := .standby, draining := false, drainTimer := 0 }
    link := (queueSummary (correlationDrainEnd s)).link }

theorem queueSummary_correlationDrainEnd_rc (s : State) : (queueSummary (correlationDrainEnd s)).rc = s.rc :=
  ((queueSummary_keeps _).rc (by decide)).trans ((correlationDrainEnd_keeps s).rc (by decide))

/-- The drain's end in the steps of R153: with no start pending the station rests, and a pending run starts from there. -/
theorem drainEnded_none {s : State} (h : s.rc.pendingStart = none) : drainEnded s = drained s := by
  unfold drainEnded drained
  simp only [State.setRc_rc, queueSummary_correlationDrainEnd_rc, h]
  rfl

theorem drainEnded_some {s : State} {r : Byte} (h : s.rc.pendingStart = some r) : drainEnded s = startRun r (drained s) := by
  unfold drainEnded
  simp only [State.setRc_rc, queueSummary_correlationDrainEnd_rc, h]
  rfl

/-- The end of the drain leaves of the summary's other counters and totals what they were (R155). -/
theorem correlationDrainEnd_summary (s : State) :
    let u := correlationDrainEnd s
    summaryCounters u =
      { encoderError := s.pos.encoderError, trackerOverflow := s.trk.overflow, sparse := s.trk.sparse,
        staleRun := s.corr.staleRun, unpairedDrop := u.corr.unpairedDrop, suppressed := u.corr.suppressed,
        suppressOverflow := s.corr.suppressOverflow, drop0 := s.link.drop0, drop1 := u.link.drop1,
        drop2 := s.link.drop2, drop3 := s.link.drop3, collision := s.link.collision,
        receiveError := s.link.receiveError, receiveOverflow := s.link.receiveOverflow } ∧
    summaryTotals u =
      { heard := (List.range 16).filter (fun a => (s.corr.peers.getD a ⟨false, false, 0, 0, 0⟩).seen),
        gapTotal := min 65535 (s.corr.peers.map (·.gapCount)).sum,
        staleTotal := min 65535 (s.corr.peers.map (·.staleCount)).sum, indicationSeq := s.trk.seq,
        callSeq := u.corr.callSeq, gapSeq := s.cov.gapSeq } := by
  have k := correlationDrainEnd_keeps s
  have hands := (correlationDrainEnd_hands s).link
  obtain ⟨peers, -, staleRun, suppressOverflow⟩ := (correlationDrainEnd_left s).others
  have collision := congrArg Link.collision hands.rest
  have receiveError := congrArg Link.receiveError hands.rest
  have receiveOverflow := congrArg Link.receiveOverflow hands.rest
  constructor
  · unfold summaryCounters
    rw [k.pos (by decide), k.trk (by decide), staleRun, suppressOverflow, (hands.c0 (by decide)).2, (hands.c2 (by decide)).2,
      (hands.c3 (by decide)).2, collision, receiveError, receiveOverflow]
  · unfold summaryTotals
    rw [k.trk (by decide), k.cov (by decide), peers]
    rfl

/-- Settles O53: the entries leave first, then the summary is queued, then the station enters STANDBY or starts the pending run. -/
theorem drainEndSummarisesTheRun : Obligations.DrainEndSummarisesTheRun := by
  intro s
  refine ⟨fun stopping draining callSeq_le unpairedDrop_le => ?_, fun outside => ?_⟩
  · have k := correlationDrainEnd_keeps s
    have own : (correlationDrainEnd s).own = s.own := (correlationDrainEnd_hands s).own
    have run : (correlationDrainEnd s).rc.run = s.rc.run := by rw [k.rc (by decide)]
    have left := correlationDrainEnd_left s
    obtain ⟨callSeq, unpairedDrop⟩ := left.counts callSeq_le unpairedDrop_le
    obtain ⟨peers, epoch, staleRun, suppressOverflow⟩ := left.others
    obtain ⟨q0, drop0⟩ := (correlationDrainEnd_hands s).link.c0 (by decide)
    have ends : exec .drainEnd s = .next (drainEnded s) := by rw [exec_drainEnd, if_pos ⟨stopping, draining⟩]
    refine ⟨correlationDrainEnd s, drained s, k, correlationDrainEnd_table s, correlationDrainEnd_spans s, callSeq,
      unpairedDrop, peers, epoch, staleRun, suppressOverflow, left, ?_, rfl, fun none => ?_, fun r some => ?_⟩
    · obtain ⟨counters, totals⟩ := correlationDrainEnd_summary s
      obtain ⟨m, first, second⟩ := queueSummary_handed (correlationDrainEnd s)
      rw [own, run, counters] at first
      rw [own, run, totals] at second
      obtain ⟨hands, both, one, refused⟩ := first.twice second
      rw [q0, drop0] at both one
      exact ⟨hands, both, one, fun full => drop0 ▸ refused (q0 ▸ full)⟩
    · rw [ends, drainEnded_none none]
    · rw [ends, drainEnded_some some]
      exact ⟨_, rfl, startRun_started r _⟩
  · rw [exec_drainEnd, if_neg]
    rintro ⟨stopping, draining⟩
    rcases outside with h | h
    · exact h stopping
    · rw [draining] at h; cases h

end Sys2Proof.Machine
end

section
/-! SUPPORT. A frame taken by its block (R144): the state its block acts on, and what the discards behind it leave. The SUPPRESS frame
(R126). -/

namespace Sys2Proof.Machine

/-! ### Frames taken (R144) -/

/-- A state that differs in three blocks at most is made of the other with those three. -/
theorem Keeps.eq_with {s t : State} (k : Keeps [.rc, .corr, .link] s t) :
    t = { s with rc := t.rc, corr := t.corr, link := t.link } := by
  obtain ⟨-, cfg, pos, seq, zone, acq, coup, cov, trk, -, -, pending⟩ := k
  cases t
  simp_all

theorem own_congr {s t : State} (rc : t.rc = s.rc) : t.own = s.own := by
  unfold State.own
  rw [rc]

/-- The station once a block has taken the frame offered to it, before the block acts on it (R144). -/
def takenBy (b : Block) (ticks : Nat) (s : State) : State :=
  s.setLink (setBusy { s.link with rxQueue := s.link.rxQueue.drop 1 } b (some ticks))

/-- Where a block's act leaves the link and the address, the link ends as the taking leaves it. -/
theorem dispatchDiscards_taken {b : Block} {ticks : Nat} {s t : State} (link : t.link = (takenBy b ticks s).link)
    (own : t.own = s.own) : dispatchDiscards t = t.setLink (linkAfterTaking b ticks s) := by
  unfold dispatchDiscards
  rw [link, own, linkAfterTaking_eq]
  rfl

theorem exec_suppress_offered {s : State} {run : Byte} {p : SuppressPayload}
    (offered : Offered .correlationUnit (.suppress run p) s) :
    exec (.suppress run p) s = .next (dispatchDiscards (suppressTaken run p (takenBy .correlationUnit 1250 s))) := by
  rw [exec_suppress, takeFrame_offered _ offered]
  rfl

theorem exec_indication_offered {s : State} {run : Byte} {p : IndicationPayload}
    (offered : Offered .correlationUnit (.indication run p) s) :
    exec (.indication run p) s = .next (dispatchDiscards (indicationTaken run p (takenBy .correlationUnit 5000 s))) := by
  rw [exec_indication, takeFrame_offered _ offered]
  rfl

/-! ### The SUPPRESS frame (R126) -/

section
variable {s : State} {run : Byte} {p : SuppressPayload}

/-- The unit judges the frame by the Run Controller and by what it holds itself. -/
theorem suppressTaken_setLink (l : Link) : suppressTaken run p (s.setLink l) = (suppressTaken run p s).setLink l := by
  unfold suppressTaken
  simp only [apply_ite (State.setLink · l)]
  rfl

/-- What the frame does to the unit, with the link as its taking leaves it (R126, R144). -/
theorem exec_suppress_eq (offered : Offered .correlationUnit (.suppress run p) s) : exec (.suppress run p) s =
    .next { s with corr := (suppressTaken run p s).corr, link := linkAfterTaking .correlationUnit 1250 s } := by
  have k := suppressTaken_keeps run p s
  have k' := suppressTaken_keeps run p (takenBy .correlationUnit 1250 s)
  have same := (k.mono (m := [.rc, .corr, .link]) (by decide)).eq_with
  rw [k.rc (by decide), k.link (by decide)] at same
  rw [exec_suppress_offered offered, dispatchDiscards_taken (s := s) (k'.link (by decide)) (own_congr (k'.rc (by decide))),
    takenBy, suppressTaken_setLink]
  exact congrArg (fun t : State => Host.Outcome.next (t.setLink (linkAfterTaking .correlationUnit 1250 s))) same

theorem suppressTaken_resting (h : s.rc.runState ≠ .running) : suppressTaken run p s = s := if_pos h

theorem suppressTaken_stale (h : s.rc.runState = .running) (other : run ≠ s.rc.run) :
    suppressTaken run p s = s.setCorr { s.corr with staleRun := satAdd s.corr.staleRun 1 } := by
  unfold suppressTaken
  rw [if_neg (not_not_intro h), if_pos other]

theorem suppressTaken_discarded (h : s.rc.runState = .running) (current : run = s.rc.run)
    (refused : p.rail ≠ railCode s.rail ∨ p.b.toInt < p.a.toInt) : suppressTaken run p s = s := by
  unfold suppressTaken
  rw [if_neg (not_not_intro h), if_neg (not_not_intro current)]
  by_cases rail : p.rail = railCode s.rail
  · rw [if_neg (not_not_intro rail), if_pos (refused.resolve_left (not_not_intro rail))]
  · rw [if_pos rail]

/-- A span of the own rail is merged where the list has room for what comes of it, and counted otherwise (R126). -/
theorem suppressTaken_accepted (h : s.rc.runState = .running) (current : run = s.rc.run) (rail : p.rail = railCode s.rail)
    (ordered : p.a.toInt ≤ p.b.toInt) : suppressTaken run p s =
    if 8 < (mergeSpan ⟨p.a.toInt, p.b.toInt⟩ s.corr.spans).length then
      s.setCorr { s.corr with suppressOverflow := satAdd s.corr.suppressOverflow 1 }
    else s.setCorr { s.corr with spans := mergeSpan ⟨p.a.toInt, p.b.toInt⟩ s.corr.spans } := by
  unfold suppressTaken
  rw [if_neg (not_not_intro h), if_neg (not_not_intro current), if_neg (not_not_intro rail), if_neg (Int.not_lt.2 ordered)]
  rfl

end

/-- A merge passes the list's capacity just where eight spans stand apart from the new one (R126). -/
theorem mergeSpan_overflows_iff {x : Span} {spans : List Span} (law : SpansLaw spans) :
    8 < (mergeSpan x spans).length ↔ (∀ sp ∈ spans, SpansApart x sp) ∧ spans.length = 8 := by
  have count := law.count
  constructor
  · intro overflow
    have apart : ∀ sp ∈ spans, SpansApart x sp := by
      intro sp mem
      by_contra near
      have := length_mergeSpan_of_touching mem near
      omega
    have := length_mergeSpan_of_apart apart
    exact ⟨apart, by omega⟩
  · rintro ⟨apart, eight⟩
    rw [length_mergeSpan_of_apart apart, eight]
    decide

/-- Settles O49: the frame's effect on the unit is one of four, and a merge overflows where eight spans stand apart from its own. -/
theorem suppressMergesItsSpan : Obligations.SuppressMergesItsSpan := by
  intro s run p offered law taken covers apart
  have act := exec_suppress_eq offered
  refine ⟨fun running current rail ordered => ?_, fun running other => ?_, fun running current refused => ?_, fun resting => ?_⟩
  · have accepted := suppressTaken_accepted running current rail ordered
    have overflows := mergeSpan_overflows_iff (x := ⟨p.a.toInt, p.b.toInt⟩) law
    have away : apart ↔ ∀ sp ∈ s.corr.spans, SpansApart ⟨p.a.toInt, p.b.toInt⟩ sp :=
      forall₂_congr fun sp _ => Or.comm
    rw [← away] at overflows
    refine ⟨_, act, rfl, fun room => ?_, fun isApart eight => ?_⟩
    · have fits := mt overflows.1 room
      rw [accepted, if_neg fits]
      exact ⟨mergeSpan_law law ordered (Nat.not_lt.1 fits), mergeSpan_covers law ordered, rfl⟩
    · rw [accepted, if_pos (overflows.2 ⟨isApart, eight⟩)]
      rfl
  · rw [act, suppressTaken_stale running other]
    rfl
  · rw [act, suppressTaken_discarded running current refused]
  · rw [act, suppressTaken_resting resting]

end Sys2Proof.Machine
end

section
/-! SUPPORT. Pairing (R119, R120): when a rule matches, which entry and rule the search finds, and where the pair's call goes (R125). -/

namespace Sys2Proof.Machine

/-! ### Rules (R119) -/

/-- A rule matches two indications: beams one in each of its sets, extents within Dx, depths within Dz (R119). -/
def Agrees (n e : Indication) (r : PairRule) : Prop :=
  ((inBeams r.setA n.beam = true ∧ inBeams r.setB e.beam = true) ∨
    (inBeams r.setB n.beam = true ∧ inBeams r.setA e.beam = true)) ∧
  max n.xStart e.xStart - min n.xEnd e.xEnd ≤ r.dx ∧ max n.zMin e.zMin ≤ min n.zMax e.zMax + r.dz

/-- The entry is UNPAIRED and not of the indication's own origin and channel (R119). -/
def Pairable (n : Indication) (e : Entry) : Prop :=
  e.partner = none ∧ ¬(e.ind.origin = n.origin ∧ e.ind.channel = n.channel)

theorem ruleMatches_iff (n e : Indication) (r : PairRule) : ruleMatches n e r = true ↔ Agrees n e r := by
  have along : gapX n e ≤ r.dx ↔ max n.xStart e.xStart - min n.xEnd e.xEnd ≤ r.dx := by unfold gapX; omega
  have deep : gapZ n e ≤ r.dz ↔ max n.zMin e.zMin ≤ min n.zMax e.zMax + r.dz := by unfold gapZ; omega
  simp only [ruleMatches, Agrees, Bool.and_eq_true, Bool.or_eq_true, decide_eq_true_eq, along, deep, and_assoc]

/-- An entry is passed over where no rule matches it, or it is not to be paired. -/
theorem pairRule_eq_none {rules : List PairRule} {n : Indication} {e : Entry}
    (h : Pairable n e → ∀ r ∈ rules, ¬Agrees n e.ind r) : pairRule rules n e = none := by
  unfold pairRule
  split
  · rename_i free
    refine List.find?_eq_none.2 fun r mem => ?_
    rw [ruleMatches_iff]
    exact h free r mem
  · rfl

/-- The lowest-numbered rule that matches is the one that pairs (R119). -/
theorem pairRule_eq_some {rules : List PairRule} {n : Indication} {e : Entry} {i : Nat} {r : PairRule} (free : Pairable n e)
    (rule : rules[i]? = some r) (agrees : Agrees n e.ind r)
    (lower : ∀ j < i, ∀ x, rules[j]? = some x → ¬Agrees n e.ind x) : pairRule rules n e = some r := by
  obtain ⟨lt, here⟩ := List.getElem?_eq_some_iff.1 rule
  refine (if_pos free).trans (List.find?_eq_some_iff_getElem.2 ⟨(ruleMatches_iff ..).2 agrees, i, lt, here, fun j below => ?_⟩)
  rw [Bool.not_eq_true', ← Bool.not_eq_true, ruleMatches_iff]
  exact lower j below _ (List.getElem?_eq_getElem _)

/-! ### The search (R120) -/

theorem pairSearch_eq_none {rules : List PairRule} {n : Indication} : ∀ {es : List Entry},
    (∀ e ∈ es, pairRule rules n e = none) → pairSearch rules n es = none
  | [], _ => rfl
  | e :: es, h => by
    obtain ⟨first, others⟩ := List.forall_mem_cons.1 h
    unfold pairSearch
    rw [first, pairSearch_eq_none others]

/-- The search stops at the oldest entry that a rule pairs (R120). -/
theorem pairSearch_eq_some {rules : List PairRule} {n : Indication} {e : Entry} {r : PairRule} {post : List Entry}
    (found : pairRule rules n e = some r) : ∀ {pre : List Entry}, (∀ x ∈ pre, pairRule rules n x = none) →
    pairSearch rules n (pre ++ e :: post) = some (pre, e, r, post)
  | [], _ => by
    rw [List.nil_append]
    unfold pairSearch
    rw [found]
  | x :: pre, h => by
    obtain ⟨first, others⟩ := List.forall_mem_cons.1 h
    rw [List.cons_append]
    unfold pairSearch
    rw [first, pairSearch_eq_some found others]

/-! ### The insertion -/

theorem insertPaired_unpaired {n : Indication} {s : State} (h : pairSearch s.cfg.rules n s.corr.table = none) :
    insertPaired n s = s.setCorr { s.corr with table := s.corr.table ++ [⟨n, none, false, s.corr.epoch⟩] } := by
  unfold insertPaired
  rw [h]

/-- The table once a pair is made: the two entries name each other, and a caller marks its own (R120). -/
def pairedTable (mine : Prop) [Decidable mine] (own epoch : Nat) (pre : List Entry) (e : Entry) (n : Indication)
    (post : List Entry) : List Entry :=
  pre ++ { e with partner := some (idOf n), issued := decide (mine ∧ e.ind.origin = own) } :: post ++
    [⟨n, some (idOf e.ind), decide (mine ∧ n.origin = own), epoch⟩]

theorem insertPaired_paired {n : Indication} {s : State} {pre post : List Entry} {e : Entry} {r : PairRule}
    (h : pairSearch s.cfg.rules n s.corr.table = some (pre, e, r, post)) : insertPaired n s =
    let paired := s.setCorr { s.corr with
      table := pairedTable (min e.ind.origin n.origin = s.own) s.own s.corr.epoch pre e n post }
    if min e.ind.origin n.origin = s.own then buildCall r.cls e.ind (some n) false false paired else paired := by
  unfold insertPaired pairedTable isOwn
  rw [h]
  simp only [decide_eq_true_eq, Bool.decide_and]

/-! ### Where a call goes (R125, R135) -/

section
variable {cls : Nat} {a : Indication} {b : Option Indication} {u early : Bool} {s : State}

theorem withinSpan_iff (spans : List Span) (lo hi : Int) :
    withinSpan spans lo hi = true ↔ ∃ sp ∈ spans, sp.a ≤ lo ∧ hi ≤ sp.b := by simp [withinSpan]

/-- A call within a span takes its number and is counted as suppressed (R125). -/
theorem buildCall_held (h : ∃ sp ∈ s.corr.spans, sp.a ≤ (callRecord s.corr.callSeq cls s.rail a b u early).xLo ∧
      (callRecord s.corr.callSeq cls s.rail a b u early).xHi ≤ sp.b) : buildCall cls a b u early s = s.setCorr
    { s.corr with callSeq := nextSeq s.corr.callSeq, suppressed := satAdd s.corr.suppressed 1 } := by
  unfold buildCall
  exact if_pos ((withinSpan_iff ..).2 h)

/-- Any other takes its number and goes to class 1 (R125, R135). -/
theorem buildCall_sent (h : ¬∃ sp ∈ s.corr.spans, sp.a ≤ (callRecord s.corr.callSeq cls s.rail a b u early).xLo ∧
      (callRecord s.corr.callSeq cls s.rail a b u early).xHi ≤ sp.b) : buildCall cls a b u early s =
    queueCall (callRecord s.corr.callSeq cls s.rail a b u early)
      (s.setCorr { s.corr with callSeq := nextSeq s.corr.callSeq }) := by
  unfold buildCall
  exact if_neg (mt (withinSpan_iff ..).1 h)

end

/-- A call goes last on class 1 while there is room, and is counted as dropped there otherwise (R135). -/
theorem queueCall_handed (call : Call) (s : State) :
    (s.link.q1.length < 24 → (queueCall call s).link.q1 = s.link.q1 ++ [⟨s.rc.run, call⟩] ∧
      (queueCall call s).link.drop1 = s.link.drop1) ∧
    (24 ≤ s.link.q1.length → (queueCall call s).link = { s.link with drop1 := min (s.link.drop1 + 1) 65535 }) := by
  rw [queueCall_link]
  refine ⟨fun room => ?_, fun full => offer1_full _ _ (Nat.not_lt.2 full)⟩
  rw [offer1_room _ _ room]
  simp

/-! ### A full table (R117) -/

theorem insertRecord_of_full (n : Indication) {s : State} (h : 48 ≤ s.corr.table.length) :
    insertRecord n s = insertPaired n (forceOut s) := by
  unfold insertRecord tableCap
  rw [if_pos h]

theorem forceOut_cons {s : State} {old : Entry} {rest : List Entry} (table : s.corr.table = old :: rest) :
    forceOut s = leaveEffect true (s.setCorr { s.corr with table := rest }) old := by
  unfold forceOut
  rw [table]

/-- Settles O47: the search finds the oldest match by the lowest rule, and the pair's call goes by the spans and class 1. -/
theorem pairNamesEachOtherAndIsCalledOnce : Obligations.PairNamesEachOtherAndIsCalledOnce := by
  intro s n t fresh free agrees unmatched
  have passed : ∀ e, unmatched e → pairRule s.cfg.rules n e = none := fun e h => pairRule_eq_none h
  refine ⟨fun none => ?_, fun pre post e i r table before isFree rule matched lower => ?_,
    fun room => insertRecord_room n room, fun old rest table full => insertRecord_full n table full⟩
  · exact insertPaired_unpaired (pairSearch_eq_none fun e h => passed e (none e h))
  · intro mine
    have found := pairSearch_eq_some (post := post) (pairRule_eq_some isFree rule matched lower) fun x h => passed x (before x h)
    rw [← table] at found
    have made : t = _ := insertPaired_paired found
    refine ⟨?_, insertPaired_keeps n s, fun notMine => ?_, fun isMine => ?_⟩
    · rw [made]
      dsimp only
      split
      · rw [buildCall_corr]; rfl
      · rfl
    · rw [made, if_neg notMine]
      exact ⟨rfl, rfl⟩
    · intro call held
      have hands := (insertPaired_hands n s).link
      rw [if_pos isMine] at made
      refine ⟨?_, hands, fun isHeld => ?_, fun notHeld => ?_⟩
      · rw [made, buildCall_corr]; rfl
      · rw [made, buildCall_held isHeld]
        exact ⟨rfl, rfl⟩
      · rw [made, buildCall_sent notHeld]
        exact ⟨rfl, queueCall_handed call _⟩

end Sys2Proof.Machine
end

section
/-! SUPPORT. An INDICATION frame (R114): the checks in their order, and what the frame leaves of the unit and the link in each case. -/

namespace Sys2Proof.Machine

/-! ### Address conflicts (R154) -/

section
variable {s : State} {r : Reporter}

theorem reportConflict_reported (flag : s.rc.conflict = true) : reportConflict r s = s := if_pos flag

theorem reportConflict_unreported (flag : s.rc.conflict = false) : reportConflict r s =
    (queueEvent (.addressConflict r) s).setRc { s.rc with conflict := true } := if_neg (by rw [flag]; decide)

end

/-! ### The checks (R114, R157) -/

section
variable {s : State} {run : Byte} {p : IndicationPayload} {r : Indication}

/-- The form check refuses what one of its clauses does (R114, R157). -/
theorem indicationRecord_refused (h : 15 < p.origin.toNat ∨ p.xEnd.toInt < p.xStart.toInt ∨ p.zMax.toNat < p.zMin.toNat ∨
    6143 < p.zMax.toNat ∨ 8 < p.beam.toNat ∨ p.hits.toNat = 0 ∨ 7 < p.channel.toNat) : indicationRecord p = none := by
  unfold indicationRecord
  refine if_neg fun passes => ?_
  omega

theorem indicationTaken_malformed (form : indicationRecord p = none) : indicationTaken run p s = s := by
  unfold indicationTaken
  rw [form]

variable (form : indicationRecord p = some r)
include form

theorem indicationTaken_formed : indicationTaken run p s =
    if s.inRun = false then s
    else if run ≠ s.rc.run then s.setCorr { s.corr with staleRun := satAdd s.corr.staleRun 1 }
    else peerRecord p.rail r s := by
  unfold indicationTaken
  rw [form]

theorem indicationTaken_resting (rests : s.inRun = false) : indicationTaken run p s = s :=
  (indicationTaken_formed form).trans (if_pos rests)

theorem indicationTaken_stale (inRun : s.inRun = true) (other : run ≠ s.rc.run) :
    indicationTaken run p s = s.setCorr { s.corr with staleRun := satAdd s.corr.staleRun 1 } := by
  rw [indicationTaken_formed form, if_neg (by rw [inRun]; decide), if_pos other]

variable (current : s.inRun = true ∧ run = s.rc.run)
include current

theorem indicationTaken_current : indicationTaken run p s = peerRecord p.rail r s := by
  rw [indicationTaken_formed form, if_neg (by rw [current.1]; decide), if_neg (not_not_intro current.2)]

theorem indicationTaken_own (own : r.origin = s.own) : indicationTaken run p s = reportConflict .origin s :=
  (indicationTaken_current form current).trans (if_pos own)

variable (peer : r.origin ≠ s.own)
include peer

theorem indicationTaken_otherRail (rail : p.rail ≠ railCode s.rail) : indicationTaken run p s = s := by
  rw [indicationTaken_current form current, peerRecord, if_neg peer, if_pos rail]

variable (rail : p.rail = railCode s.rail)
include rail

theorem indicationTaken_checked : indicationTaken run p s =
    let c := peerCheck r.origin r.seq s
    if c.1 = false then c.2
    else if c.2.corr.table.any (fun e => decide (idOf e.ind = idOf r)) then c.2
    else insertRecord r c.2 := by
  rw [indicationTaken_current form current, peerRecord, if_neg peer, if_neg (not_not_intro rail)]

theorem indicationTaken_outOfSequence (refused : (peerCheck r.origin r.seq s).1 = false) :
    indicationTaken run p s = (peerCheck r.origin r.seq s).2 := by
  rw [indicationTaken_checked form current peer rail]
  exact if_pos refused

omit form current peer rail in
/-- The (origin, seq) of the record stands in the table (check 5). -/
theorem standing_iff (table : List Entry) (r : Indication) : table.any (fun e => decide (idOf e.ind = idOf r)) = true ↔
    ¬∀ e ∈ table, e.ind.origin ≠ r.origin ∨ e.ind.seq ≠ r.seq := by
  simp [idOf]

variable (accepted : (peerCheck r.origin r.seq s).1 = true)
include accepted

theorem indicationTaken_standing (standing : ¬∀ e ∈ s.corr.table, e.ind.origin ≠ r.origin ∨ e.ind.seq ≠ r.seq) :
    indicationTaken run p s = (peerCheck r.origin r.seq s).2 := by
  rw [indicationTaken_checked form current peer rail]
  dsimp only
  rw [if_neg (by rw [accepted]; decide)]
  exact if_pos ((standing_iff ..).2 standing)

theorem indicationTaken_inserted (fresh : ∀ e ∈ s.corr.table, e.ind.origin ≠ r.origin ∨ e.ind.seq ≠ r.seq) :
    indicationTaken run p s = insertRecord r (peerCheck r.origin r.seq s).2 := by
  rw [indicationTaken_checked form current peer rail]
  dsimp only
  rw [if_neg (by rw [accepted]; decide)]
  exact if_neg fun standing => (standing_iff ..).1 standing fresh

end

/-! ### What the frame leaves -/

theorem peerCheck_setLink (origin seq : Nat) (s : State) (l : Link) :
    peerCheck origin seq (s.setLink l) = ((peerCheck origin seq s).1, (peerCheck origin seq s).2.setLink l) := rfl

section
variable {s : State} {run : Byte} {p : IndicationPayload} (offered : Offered .correlationUnit (.indication run p) s)
include offered

/-- A frame that changes the unit alone leaves the link as its taking does (R144). -/
theorem exec_indication_corr {c : Correlation}
    (act : indicationTaken run p (takenBy .correlationUnit 5000 s) = (takenBy .correlationUnit 5000 s).setCorr c) :
    exec (.indication run p) s = .next { s with corr := c, link := linkAfterTaking .correlationUnit 5000 s } := by
  rw [exec_indication_offered offered, act]
  exact congrArg Host.Outcome.next (dispatchDiscards_taken (b := .correlationUnit) (ticks := 5000) (s := s) rfl rfl)

/-- A frame without effect leaves what its taking does. -/
theorem exec_indication_discarded
    (act : indicationTaken run p (takenBy .correlationUnit 5000 s) = takenBy .correlationUnit 5000 s) : exec (.indication run p) s = .next { s with link := linkAfterTaking .correlationUnit 5000 s } :=
  exec_indication_corr (c := s.corr) offered act

/-- A record inserted leaves what the insertion would leave of the station without the taking. -/
theorem exec_indication_inserted {r : Indication} {checked : State} (kept : Keeps [.corr] s checked)
    (act : indicationTaken run p (takenBy .correlationUnit 5000 s) =
      insertRecord r (checked.setLink (takenBy .correlationUnit 5000 s).link)) :
    ∃ t, exec (.indication run p) s = .next t ∧ Keeps [.corr, .link] s t ∧
      HandsTo s.own [.c1] (linkAfterTaking .correlationUnit 5000 s) t.link ∧ SameTable (insertRecord r checked) t := by
  have rc := kept.rc (by decide)
  have taking : Keeps [.corr, .link] s (takenBy .correlationUnit 5000 s) := (keeps_setLink _ _).mono (by decide)
  have hands : Hands [.c1] (takenBy .correlationUnit 5000 s)
      (insertRecord r (checked.setLink (takenBy .correlationUnit 5000 s).link)) := by
    have inserted := insertRecord_hands r (checked.setLink (takenBy .correlationUnit 5000 s).link)
    have own : (checked.setLink (takenBy .correlationUnit 5000 s).link).own = s.own := own_congr rc
    exact ⟨inserted.own.trans own, own ▸ inserted.link⟩
  have same : SameTable checked (checked.setLink (takenBy .correlationUnit 5000 s).link) :=
    ⟨rfl, rfl, rfl, rfl, by rw [kept.link (by decide)]; rfl, by rw [kept.link (by decide)]; rfl⟩
  have inserted := insertRecord_same same r
  rw [exec_indication_offered offered, act]
  refine ⟨_, rfl, ?_, Hands.taken hands,
    ⟨inserted.run, inserted.straps, inserted.cfg, inserted.corr, inserted.q1, inserted.drop1⟩⟩
  exact (((kept.mono (by decide)).trans ((keeps_setLink _ _).mono (by decide))).trans (insertRecord_keeps r _)).trans
    ((dispatchDiscards_keeps _).mono (by decide))

/-- A record of own address is a conflict: reported once under the flag (R154). -/
theorem exec_indication_conflict (act : indicationTaken run p (takenBy .correlationUnit 5000 s) =
      reportConflict .origin (takenBy .correlationUnit 5000 s)) (unreported : s.rc.conflict = false) :
    ∃ t, exec (.indication run p) s = .next t ∧ t = { s with rc := { s.rc with conflict := true }, link := t.link } ∧
      EventHanded s.own s.rc.run (.addressConflict .origin) (linkAfterTaking .correlationUnit 5000 s) t.link := by
  rw [exec_indication_offered offered, act, reportConflict_unreported (s := takenBy .correlationUnit 5000 s) unreported]
  refine ⟨_, rfl, rfl, ?_⟩
  rw [linkAfterTaking_eq]
  exact (offer0_handed ..).discard

end

/-- The oldest entry forced out of a full table leaves with EARLY (R117). -/
theorem forceOut_left {s : State} {old : Entry} {rest : List Entry} (table : s.corr.table = old :: rest) :
    EntriesLeft true s [old] (forceOut s) ∧ (forceOut s).corr.table = rest ∧ (forceOut s).corr.spans = s.corr.spans := by
  rw [forceOut_cons table]
  obtain ⟨stays, spans⟩ := leaving_rest true [old] (s.setCorr { s.corr with table := rest })
  exact ⟨leaving_left_of_table true [old] rest s, stays, spans⟩

/-- The oldest entry forced out of a full table counts as dropped where it is own, UNPAIRED and of no single-call beam (R117,
R123). -/
theorem forceOut_unpairedDrop {s : State} {old : Entry} {rest : List Entry} (table : s.corr.table = old :: rest) :
    (forceOut s).corr.unpairedDrop =
      if (old.ind.origin = s.own ∧ old.partner = none) ∧ inBeams s.cfg.single old.ind.beam = false
      then satAdd s.corr.unpairedDrop 1 else s.corr.unpairedDrop := by
  rw [forceOut_cons table, leaveEffect_corr]
  rfl

/-- Settles O46: each check's case is one act of the unit on the station as the taking leaves it. -/
theorem indicationIsCheckedAndInserted : Obligations.IndicationIsCheckedAndInserted := by
  intro s run p offered taken
  refine ⟨fun refused => exec_indication_discarded offered (indicationTaken_malformed (indicationRecord_refused refused)), ?_⟩
  intro r form checked current passes fresh
  have kept : Keeps [.corr] s checked := peerCheck_keeps r.origin r.seq s
  refine ⟨fun passed isFresh room => ?_, fun old rest passed isFresh table full => ?_, fun passed standing => ?_,
    fun cur peer rail refused => ?_, fun cur peer rail => ?_, fun inRun other => ?_, fun standby => ?_,
    fun cur own reported => ?_, fun cur own unreported => ?_⟩
  · obtain ⟨cur, peer, rail, accepted⟩ := passed
    obtain ⟨t, next, keeps, hands, same⟩ := exec_indication_inserted offered kept
      (indicationTaken_inserted form cur peer rail accepted isFresh)
    rw [insertRecord_room (s := checked) r room] at same
    refine ⟨t, next, keeps, hands, ?_, ?_, ?_, same.corr, same.q1, same.drop1⟩ <;> rw [same.corr]
    · exact insertPaired_inds r checked
    · rw [insertPaired_corr]
    · rw [insertPaired_corr]
  · obtain ⟨cur, peer, rail, accepted⟩ := passed
    obtain ⟨t, next, keeps, hands, same⟩ := exec_indication_inserted offered kept
      (indicationTaken_inserted form cur peer rail accepted isFresh)
    have stands : checked.corr.table = old :: rest := table
    obtain ⟨left, stays, spans⟩ := forceOut_left stands
    obtain ⟨peers, epoch, -⟩ := left.others
    rw [insertRecord_of_full (s := checked) r (Nat.le_of_eq full.symm)] at same
    have drops := forceOut_unpairedDrop stands
    have own : checked.own = s.own := own_congr (kept.rc (by decide))
    have drop : t.corr.unpairedDrop = (forceOut checked).corr.unpairedDrop := by
      rw [same.corr, insertPaired_corr]
    rw [own, kept.cfg (by decide)] at drops
    refine ⟨t, next, keeps, hands, ?_, ?_, ?_, ⟨forceOut checked, (kept.mono (by decide)).trans (forceOut_keeps checked), left,
      stays, spans, same.corr, same.q1, same.drop1⟩, fun ours unpaired single => ?_, fun ours unpaired other => ?_,
      fun theirs => ?_⟩
    · rw [same.corr, insertPaired_inds, stays]
    · rw [same.corr, insertPaired_corr]; exact peers
    · rw [same.corr, insertPaired_corr]; exact epoch
    · rw [drop, drops, if_neg (by simp [single])]
      rfl
    · rw [drop, drops, if_pos ⟨⟨ours, unpaired⟩, other⟩]
      rfl
    · rw [drop, drops, if_neg (fun h => theirs.elim (· h.1.1) (· h.1.2))]
      rfl
  · obtain ⟨cur, peer, rail, accepted⟩ := passed
    exact exec_indication_corr offered (indicationTaken_standing form cur peer rail accepted standing)
  · exact exec_indication_corr offered (indicationTaken_outOfSequence form cur peer rail refused)
  · exact exec_indication_discarded offered (indicationTaken_otherRail form cur peer rail)
  · exact exec_indication_corr offered (indicationTaken_stale form inRun other)
  · exact exec_indication_discarded offered (indicationTaken_resting form (by
      show (takenBy .correlationUnit 5000 s).inRun = false
      unfold State.inRun takenBy
      rw [State.setLink_rc, standby]))
  · have act := indicationTaken_own (s := takenBy .correlationUnit 5000 s) form cur own
    exact exec_indication_discarded offered (act.trans (reportConflict_reported reported))
  · exact exec_indication_conflict offered (indicationTaken_own form cur own) unreported

end Sys2Proof.Machine
end

section
/-! SUPPORT. Reception (R141 to R144, R157): the disposal of a frame by its kind and length, the frames discarded at the head of the
receive queue, and what the end of a frame leaves. -/

namespace Sys2Proof.Machine

/-! ### Disposal by kind and length (R144, R157) -/

/-- The kinds that a block takes, each with the length of its payload (R157, 11.2). -/
def takenLengths : List (Byte × Nat) := [(0x01#8, 0), (0x02#8, 0), (0x03#8, 3), (0x04#8, 9), (0x10#8, 23)]

/-- A CALL, GAP, EVENT or unknown kind is discarded (R144). -/
theorem disposal_other (own : Nat) {f : Frame} (other : ∀ x ∈ takenLengths, f.kind ≠ x.1) : disposal own f = .discard := by
  simp only [takenLengths, List.forall_mem_cons, List.not_mem_nil, false_imp_iff, implies_true, and_true] at other
  obtain ⟨runstart, runstop, mask, suppress, indication⟩ := other
  exact (if_neg runstart).trans ((if_neg runstop).trans ((if_neg mask).trans ((if_neg suppress).trans (if_neg indication))))

/-- A frame of a block's kind is of a bad length just where its payload is not as long as that kind's (R157). -/
theorem disposal_badLength_iff (own : Nat) {f : Frame} {x : Byte × Nat} (mem : x ∈ takenLengths) (kind : f.kind = x.1) :
    f.payload.length ≠ x.2 ↔ disposal own f = .badLength := by
  simp only [takenLengths, List.mem_cons, List.not_mem_nil, or_false] at mem
  have kinds : kindRunstart = 0x01#8 ∧ kindRunstop = 0x02#8 ∧ kindMask = 0x03#8 ∧ kindSuppress = 0x04#8 ∧
    kindIndication = 0x10#8 := ⟨rfl, rfl, rfl, rfl, rfl⟩
  rcases mem with rfl | rfl | rfl | rfl | rfl <;> simp [disposal, kind, kinds]
  case inr.inr.inl => split <;> simp

/-- A MASK frame is discarded just where it names another target (R144). -/
theorem disposal_mask_discard_iff (own : Nat) {f : Frame} (kind : f.kind = 0x03#8) (length : f.payload.length = 3) :
    (f.payload.getD 0 0).toNat ≠ own ↔ disposal own f = .discard := by
  obtain ⟨source, k, run, payload⟩ := f
  obtain rfl : k = 0x03#8 := kind
  rw [disposal_mask own source run length]
  split
  · rename_i named
    exact iff_of_false (not_not_intro named) nofun
  · rename_i other
    exact iff_of_true other rfl

/-! ### Frames discarded at the head (R144) -/

/-- The frame is for a block, and waits there at the head of the queue. -/
def WaitsForBlock (own : Nat) (f : Frame) : Prop := ∃ b c, disposal own f = .hand b c

section
variable {own : Nat}

theorem discardHeads_waits {g : Frame} (rest : List Frame) (waits : WaitsForBlock own g) :
    discardHeads own (g :: rest) = (g :: rest, 0) := by
  obtain ⟨b, c, hand⟩ := waits
  unfold discardHeads
  rw [hand]

theorem discardHeads_cons {f : Frame} (fs : List Frame) (leaves : ¬WaitsForBlock own f) : discardHeads own (f :: fs) =
    ((discardHeads own fs).1,
      (discardHeads own fs).2 + if disposal own f = .badLength then 1 else 0) := by
  conv_lhs => unfold discardHeads
  cases disp : disposal own f with
  | discard => rfl
  | badLength => rfl
  | hand b c => exact absurd ⟨b, c, disp⟩ leaves

/-- The frames that no block takes leave the head one after the other, those of a bad length counted (R144, R157). -/
theorem discardHeads_append : ∀ {gone : List Frame} (kept : List Frame), (∀ x ∈ gone, ¬WaitsForBlock own x) →
    discardHeads own kept = (kept, 0) → discardHeads own (gone ++ kept) =
      (kept, (gone.filter (fun x => decide (disposal own x = .badLength))).length)
  | [], _, _, stays => stays
  | f :: gone, kept, leave, stays => by
    obtain ⟨first, others⟩ := List.forall_mem_cons.1 leave
    rw [List.cons_append, discardHeads_cons _ first, discardHeads_append kept others stays, List.filter_cons]
    by_cases bad : disposal own f = .badLength <;> simp [bad]

end

/-! ### The end of a frame (R141 to R143, R145) -/

/-- The link at the end of a good frame: the receiver waits for idle, and the recessive time starts again (R141). -/
def frameEnded (l : Link) : Link := { l with rx := .skip, gather := ⟨none, [], []⟩, recessiveTime := 0 }

section
variable {s : State} {chars : List Byte}

theorem frameEnds_fails (bad : parseFrame chars = none) : frameEnds chars s = s.setLink (receptionFails s.link) := by
  unfold frameEnds
  rw [bad]

variable {f : Frame} (good : parseFrame chars = some f)
include good

/-- The station's own frame, and every frame in FAULTED, is dropped (R142, R145). -/
theorem frameEnds_dropped (dropped : s.operating = false ∨ s.link.tx = .send) :
    frameEnds chars s = s.setLink (frameEnded s.link) := by
  unfold frameEnds
  rw [good]
  exact if_pos dropped

variable (op : s.operating = true) (tx : s.link.tx ≠ .send)
include op tx

/-- A frame of own address that the station did not send is a conflict (R142). -/
theorem frameEnds_conflict (own : f.source.toNat = s.own) :
    frameEnds chars s = reportConflict .link (s.setLink (frameEnded s.link)) := by
  unfold frameEnds
  rw [good]
  dsimp only
  rw [if_neg (by rintro (off | sending); exacts [absurd op (by rw [off]; decide), tx sending])]
  exact if_pos own

variable (other : f.source.toNat ≠ s.own)
include other

theorem frameEnds_room (room : s.link.rxQueue.length < 16) : frameEnds chars s = s.setLink
    (discardAtDispatch s.own { frameEnded s.link with rxQueue := s.link.rxQueue ++ [f] }) := by
  have enters := enterReceiveQueue_room f (s := s.setLink { receiverSkips s.link with recessiveTime := 0 }) room
  rw [frameEnds_enters good op tx other, enters]
  rfl

/-- At sixteen frames one is lost by the policy, and the epoch rises (R143, R116). -/
theorem frameEnds_overflow (full : ¬s.link.rxQueue.length < 16) : frameEnds chars s =
    (s.setCorr { s.corr with epoch := nextEpoch s.corr.epoch }).setLink (discardAtDispatch s.own { frameEnded s.link with
      rxQueue := if s.cfg.dropOldest then s.link.rxQueue.drop 1 ++ [f] else s.link.rxQueue
      receiveOverflow := satAdd s.link.receiveOverflow 1 }) := by
  have lost := enterReceiveQueue_full f (s := s.setLink { receiverSkips s.link with recessiveTime := 0 }) full
  rw [frameEnds_enters good op tx other, lost]
  rfl

/-- Where nothing is discarded at dispatch the frame waits at the end of the queue. -/
theorem frameEnds_waits (count : s.link.receiveError ≤ 65535) (room : s.link.rxQueue.length < 16)
    (stays : discardHeads s.own (s.link.rxQueue ++ [f]) = (s.link.rxQueue ++ [f], 0)) :
    frameEnds chars s = s.setLink { frameEnded s.link with rxQueue := s.link.rxQueue ++ [f] } := by
  rw [frameEnds_room good op tx other room]
  unfold discardAtDispatch
  dsimp only [frameEnded]
  rw [stays, satAdd_eq, Nat.add_zero, Nat.min_eq_left count]

/-- At an empty queue a frame that no block takes leaves at once, counted where its length is bad (R144, R157). -/
theorem frameEnds_leaves (empty : s.link.rxQueue = []) (leaves : ¬WaitsForBlock s.own f) :
    frameEnds chars s = s.setLink { frameEnded s.link with
      receiveError := satAdd s.link.receiveError (if disposal s.own f = .badLength then 1 else 0) } := by
  rw [frameEnds_room good op tx other (by rw [empty]; decide)]
  unfold discardAtDispatch
  dsimp only [frameEnded]
  rw [empty, List.nil_append, discardHeads_cons [] leaves]
  simp [discardHeads]

end

/-- Settles O56: the frame enters, then the head of the queue is judged; the disposal of a frame is by its kind and length. -/
theorem receptionQueuesOrDiscards : Obligations.ReceptionQueuesOrDiscards := by
  intro s chars f check gathering count ended failed lengths waits
  have receives : exec (.frameReceived chars) s = .next (frameEnds chars s) := by rw [exec_frameReceived, if_pos gathering]
  refine ⟨?_, fun bad => ?_, fun good op tx other => ⟨?_, fun g gs queue isTaken room => ?_, fun empty => ⟨fun isTaken => ?_,
    fun discard => ?_, fun bad => ?_⟩⟩, fun gone g rest leave stays => ⟨?_, ?_⟩, disposal_other s.own,
    fun x mem kind => disposal_badLength_iff s.own mem kind, disposal_mask_discard_iff s.own, fun good dropped => ?_,
    fun good op tx own => ?_⟩
  · rw [exec_receiveError, if_pos gathering]
    rfl
  · rw [receives, frameEnds_fails bad]
    rfl
  · rw [receives]
    by_cases room : s.link.rxQueue.length < 16
    · rw [frameEnds_room good op tx other room]
      simp only [room, if_true]
      rfl
    · rw [frameEnds_overflow good op tx other room]
      simp only [room, if_false]
      rfl
  · rw [receives, frameEnds_waits good op tx other count room (by rw [queue]; exact discardHeads_waits _ isTaken)]
    rfl
  · rw [receives, frameEnds_waits good op tx other count (by rw [empty]; decide) (by rw [empty]; exact discardHeads_waits _ isTaken),
      empty]
    rfl
  · rw [receives, frameEnds_leaves good op tx other empty (by rintro ⟨b, c, hand⟩; rw [discard] at hand; cases hand), discard,
      if_neg (by decide), satAdd_eq, Nat.add_zero, Nat.min_eq_left count]
    rfl
  · rw [receives, frameEnds_leaves good op tx other empty (by rintro ⟨b, c, hand⟩; rw [bad] at hand; cases hand), if_pos bad]
    rfl
  · exact discardHeads_append _ leave (discardHeads_waits _ stays)
  · have alone := discardHeads_append [] leave rfl
    rwa [List.append_nil] at alone
  · rw [receives, frameEnds_dropped good dropped]
    rfl
  · rw [receives, frameEnds_conflict good op tx own]
    cases flag : s.rc.conflict with
    | true =>
      rw [reportConflict_reported (s := s.setLink (frameEnded s.link)) flag]
      have stands : { s.rc with conflict := true } = s.rc := by rw [← flag]
      exact ⟨_, rfl, by rw [stands]; rfl, fun _ => rfl, nofun⟩
    | false =>
      rw [reportConflict_unreported (s := s.setLink (frameEnded s.link)) flag]
      exact ⟨_, rfl, rfl, nofun, fun _ => offer0_handed ..⟩

end Sys2Proof.Machine
end

section
/-! SUPPORT. The link law (law 10 in part), half by half: what the transmitter keeps under each operation of the link, and what the
receiver keeps; and that handing on a record keeps both. -/

namespace Sys2Proof.Machine

/-! ### The two halves -/

/-- The queues of a transmitter within their capacities (R135). -/
def QueuesFit (l : Link) : Prop := l.q0.length ≤ 4 ∧ l.q1.length ≤ 24 ∧ l.q2.length ≤ 32 ∧ l.q3.length ≤ 16

/-- What the law says of the transmitter, by whether the station is in LOADING. -/
structure TransmitterLaw (loading : Prop) (l : Link) : Prop where
  queues : QueuesFit l
  flight : l.tx = .send ↔ l.inFlight ≠ none
  record : ∀ fl, l.inFlight = some fl → headOf l fl.cls = true
  rank : ∀ r, l.rank = some r → r ≤ 63
  deferring : l.tx = .defer → l.rank ≠ none
  off : l.tx = .off ↔ loading

/-- What the law says of the receiver, by whether the station is in LOADING. -/
structure ReceiverLaw (loading : Prop) (l : Link) : Prop where
  received : l.rxQueue.length ≤ 16
  off : l.rx = .off ↔ loading
  gathering : l.rx ≠ .frame → l.gather = Gathering.empty

theorem linkLaw_iff (s : State) : LinkLaw s ↔
    TransmitterLaw (s.rc.runState = .loading) s.link ∧ ReceiverLaw (s.rc.runState = .loading) s.link :=
  ⟨fun ⟨queues, received, flight, record, rank, deferring, off, gathering⟩ =>
      ⟨⟨queues, flight, record, rank, deferring, off.1⟩, received, off.2, gathering⟩,
    fun ⟨⟨queues, flight, record, rank, deferring, txOff⟩, received, rxOff, gathering⟩ =>
      ⟨queues, received, flight, record, rank, deferring, ⟨txOff, rxOff⟩, gathering⟩⟩

section
variable {loading : Prop} {l : Link}

/-! ### The transmitter -/

/-- A transmitter in TX_IDLE, or deferring with a rank, has no frame in flight. -/
theorem TransmitterLaw.at_rest (on : ¬loading) (queues : QueuesFit l) (flight : l.inFlight = none)
    (rank : ∀ r, l.rank = some r → r ≤ 63) (tx : l.tx = .idle ∨ l.tx = .defer ∧ l.rank ≠ none) :
    TransmitterLaw loading l where
  queues := queues
  flight := by rw [flight]; exact iff_of_false (by rcases tx with tx | ⟨tx, -⟩ <;> rw [tx] <;> decide) (not_not_intro rfl)
  record fl e := by rw [flight] at e; cases e
  rank := rank
  deferring defers := by
    rcases tx with tx | ⟨-, ranked⟩
    · rw [tx] at defers; cases defers
    · exact ranked
  off := iff_of_false (by rcases tx with tx | ⟨tx, -⟩ <;> rw [tx] <;> decide) on

theorem TransmitterLaw.not_loading (h : TransmitterLaw loading l) (tx : l.tx ≠ .off) : ¬loading := fun off => tx (h.off.2 off)

theorem TransmitterLaw.no_flight (h : TransmitterLaw loading l) (tx : l.tx ≠ .send) : l.inFlight = none :=
  not_not.1 (mt h.flight.2 tx)

/-- The two links hold the same for the transmitter. -/
def SameSender (l m : Link) : Prop :=
  (m.q0, m.q1, m.q2, m.q3, m.tx, m.rank, m.inFlight) = (l.q0, l.q1, l.q2, l.q3, l.tx, l.rank, l.inFlight)

theorem TransmitterLaw.of_same (h : TransmitterLaw loading l) {m : Link} (same : SameSender l m) : TransmitterLaw loading m := by
  simp only [SameSender, Prod.mk.injEq] at same
  obtain ⟨q0, q1, q2, q3, tx, rank, flight⟩ := same
  refine ⟨?_, ?_, fun fl e => ?_, ?_, ?_, ?_⟩
  · unfold QueuesFit; rw [q0, q1, q2, q3]; exact h.queues
  · rw [tx, flight]; exact h.flight
  · exact headOf_grows (by rw [q0]) (by rw [q1]) (by rw [q2]) (by rw [q3]) (h.record fl (flight ▸ e))
  · rw [rank]; exact h.rank
  · rw [tx, rank]; exact h.deferring
  · rw [tx]; exact h.off

/-- A rank of the sixteen addresses and four classes is at most 63 (R137). -/
theorem rankOf_le {own : Nat} (c : TxClass) (address : own ≤ 15) : rankOf own c ≤ 63 := by
  have class_le : c.num ≤ 3 := by cases c <;> decide
  unfold rankOf
  omega

theorem TransmitterLaw.takeRank (h : TransmitterLaw loading l) {own : Nat} (address : own ≤ 15)
    (rests : l.tx = .idle ∨ l.tx = .defer) : TransmitterLaw loading (takeRank own l) := by
  have on : ¬loading := h.not_loading (by rcases rests with tx | tx <;> rw [tx] <;> decide)
  have flight : l.inFlight = none := h.no_flight (by rcases rests with tx | tx <;> rw [tx] <;> decide)
  rcases takeRank_cases own l with e | ⟨c, e⟩ <;> rw [e]
  · exact .at_rest on h.queues flight nofun (.inl rfl)
  · refine .at_rest on h.queues flight (fun r ranked => ?_) (.inr ⟨rfl, nofun⟩)
    cases ranked
    exact rankOf_le c address

theorem TransmitterLaw.transmitterIdle (h : TransmitterLaw loading l) {own : Nat} (address : own ≤ 15) :
    TransmitterLaw loading (transmitterIdle own l) := by
  unfold Machine.transmitterIdle
  have restarted : TransmitterLaw loading { l with sinceIdle := 0 } := h.of_same rfl
  split
  · rename_i tx; exact restarted.takeRank address (.inl tx)
  · rename_i tx; exact restarted.takeRank address (.inr tx)
  · exact h
  · exact h

theorem TransmitterLaw.linkDominant (h : TransmitterLaw loading l) : TransmitterLaw loading (linkDominant l) := by
  rw [linkDominant_eq]
  exact h.of_same rfl

/-- The frame sent is that of a record at the head of its class (R138). -/
theorem headFrame_queued {own : Nat} {fl : InFlight} (e : headFrame own l = some fl) : headOf l fl.cls = true := by
  unfold headFrame at e
  split at e <;> cases e <;> simp_all [headOf]

theorem TransmitterLaw.beginSending (h : TransmitterLaw loading l) {own : Nat} (tx : l.tx = .defer) :
    TransmitterLaw loading (beginSending own l) := by
  have on : ¬loading := h.not_loading (by rw [tx]; decide)
  have flight : l.inFlight = none := h.no_flight (by rw [tx]; decide)
  unfold Machine.beginSending
  split
  · split
    · rename_i fl frame
      refine TransmitterLaw.linkDominant
        ⟨h.queues, iff_of_true rfl nofun, fun fl' e => ?_, h.rank, nofun, iff_of_false nofun on⟩
      cases e
      exact headFrame_queued frame
    · exact .at_rest on h.queues flight nofun (.inl rfl)
  · exact .at_rest on h.queues flight h.rank (.inl rfl)

theorem QueuesFit.dropHead (h : QueuesFit l) (c : TxClass) : QueuesFit (dropHead c l) := by
  obtain ⟨q0, q1, q2, q3⟩ := h
  unfold QueuesFit
  cases c <;> simp only [Machine.dropHead, List.length_drop] <;> omega

theorem dropHead_rank (c : TxClass) (l : Link) : (dropHead c l).rank = l.rank := by cases c <;> rfl

/-- A transmitter that ends its frame rests, whatever its queues and ranks hold within their bounds (R138, R139). -/
theorem TransmitterLaw.frameSent (h : TransmitterLaw loading l) (tx : l.tx = .send) : TransmitterLaw loading (frameSent l) := by
  unfold Machine.frameSent
  split
  · exact h
  · rename_i fl _
    refine .at_rest (h.not_loading (by rw [tx]; decide)) (h.queues.dropHead fl.cls) rfl (fun r ranked => h.rank r ?_) (.inl rfl)
    rwa [← dropHead_rank fl.cls l]

theorem TransmitterLaw.linkLevel (h : TransmitterLaw loading l) (level : LineLevel) :
    TransmitterLaw loading (linkLevel level l) := by
  cases level
  · exact h.of_same rfl
  · exact h.linkDominant

/-- A drop counted is no part of the law. -/
theorem TransmitterLaw.countDrop (h : TransmitterLaw loading l) (c : TxClass) : TransmitterLaw loading (countDrop c l) := by
  cases c <;> exact h.of_same rfl

theorem dropHead_tx (c : TxClass) (l : Link) : (dropHead c l).tx = l.tx := by cases c <;> rfl

theorem dropHead_inFlight (c : TxClass) (l : Link) : (dropHead c l).inFlight = l.inFlight := by cases c <;> rfl

/-- A record leaves its queue once no frame is in flight (R136, R139). -/
theorem TransmitterLaw.dropHead (h : TransmitterLaw loading l) (rests : l.tx = .idle) (c : TxClass) :
    TransmitterLaw loading (dropHead c l) := by
  refine .at_rest (h.not_loading (by rw [rests]; decide)) (h.queues.dropHead c) ?_ ?_ (.inl ?_)
  · rw [dropHead_inFlight]; exact h.no_flight (by rw [rests]; decide)
  · rw [dropHead_rank]; exact h.rank
  · rw [dropHead_tx, rests]

theorem linkLevel_tx (level : LineLevel) (l : Link) : (linkLevel level l).tx = l.tx := by
  cases level
  · rfl
  · show (linkDominant l).tx = l.tx
    rw [linkDominant_eq]

theorem TransmitterLaw.frameAbandoned (h : TransmitterLaw loading l) (tx : l.tx = .send) :
    TransmitterLaw loading (frameAbandoned l) := by
  unfold Machine.frameAbandoned
  split
  · exact h
  · have rested : TransmitterLaw loading (sendingOver { l with collision := satAdd l.collision 1 }) :=
      .at_rest (h.not_loading (by rw [tx]; decide)) h.queues rfl h.rank (.inl rfl)
    have left := rested.linkLevel (mismatched l)
    dsimp only
    split
    · exact (left.dropHead (linkLevel_tx _ _) _).countDrop _
    · exact left

/-- The transmitter on leaving LOADING is in TX_IDLE (R145). -/
theorem TransmitterLaw.linkTakenUp (h : TransmitterLaw loading l) (load : loading) : TransmitterLaw False (linkTakenUp l) :=
  .at_rest id h.queues (h.no_flight (by rw [h.off.2 load]; decide)) nofun (.inl rfl)

theorem flushQueue_length_le {α : Type} (flies : Bool) (q : List α) : (flushQueue flies q).1.length ≤ q.length := by
  unfold flushQueue
  split
  · exact List.length_take_le' _ _
  · exact Nat.zero_le _

/-- A run start leaves a record in flight at the head of its queue (R136). -/
theorem flushQueue_flying {α : Type} {q : List α} (h : (!q.isEmpty) = true) : (!(flushQueue true q).1.isEmpty) = true := by
  cases q with
  | nil => exact h
  | cons _ _ => rfl

theorem headOf_linkRunStart {fl : InFlight} (flight : l.inFlight = some fl) (head : headOf l fl.cls = true) :
    headOf (linkRunStart l) fl.cls = true := by
  have flies : flying l fl.cls = true := by unfold flying; rw [flight]; exact decide_eq_true rfl
  cases cls : fl.cls <;> rw [cls] at head flies
  · exact head
  all_goals
    unfold headOf linkRunStart
    dsimp only
    rw [flies]
    exact flushQueue_flying head

theorem TransmitterLaw.linkRunStart (h : TransmitterLaw loading l) : TransmitterLaw loading (linkRunStart l) where
  queues := by
    obtain ⟨q0, q1, q2, q3⟩ := h.queues
    exact ⟨q0, (flushQueue_length_le _ _).trans q1, (flushQueue_length_le _ _).trans q2, (flushQueue_length_le _ _).trans q3⟩
  flight := h.flight.trans (not_congr Option.map_eq_none_iff.symm)
  record fl e := by
    obtain ⟨fl', flight, rfl⟩ := Option.map_eq_some_iff.1 e
    exact (headOf_linkRunStart flight (h.record fl' flight) : headOf (Machine.linkRunStart l) fl'.cls = true)
  rank := h.rank
  deferring := h.deferring
  off := h.off

/-- Records handed on keep the transmitter's half where the queues still fit: they only grow, and a rank is taken in TX_IDLE
alone (R135, R137). -/
theorem TransmitterLaw.of_handed (h : TransmitterLaw loading l) {m : Link} {own : Nat} {cs : List TxClass}
    (address : own ≤ 15) (hands : HandsTo own cs l m) (fits : QueuesFit m) : TransmitterLaw loading m := by
  obtain ⟨grow0, grow1, grow2, grow3⟩ := hands.queued
  have flight : m.inFlight = l.inFlight := by rw [hands.rest]
  rcases hands.ranked with ⟨tx, rank, -⟩ | ⟨rests, -, -, c, -, tx, rank, -⟩
  · refine ⟨fits, ?_, fun fl e => ?_, ?_, ?_, ?_⟩
    · rw [tx, flight]; exact h.flight
    · exact headOf_grows grow0 grow1 grow2 grow3 (h.record fl (flight ▸ e))
    · rw [rank]; exact h.rank
    · rw [tx, rank]; exact h.deferring
    · rw [tx]; exact h.off
  · refine .at_rest (h.not_loading (by rw [rests]; decide)) fits ?_ (fun r e => ?_) (.inr ⟨tx, by rw [rank]; nofun⟩)
    · rw [flight]; exact h.no_flight (by rw [rests]; decide)
    · rw [rank, Nat.mul_comm] at e
      cases e
      exact rankOf_le c address

/-! ### The receiver -/

theorem ReceiverLaw.of_same (h : ReceiverLaw loading l) {m : Link} (rxQueue : m.rxQueue = l.rxQueue) (rx : m.rx = l.rx)
    (gather : m.gather = l.gather) : ReceiverLaw loading m :=
  ⟨rxQueue ▸ h.received, rx ▸ h.off, by rw [rx, gather]; exact h.gathering⟩

/-- A receiver at work: it is not off, and holds nothing outside RX_FRAME. -/
theorem ReceiverLaw.at_work (h : ReceiverLaw loading l) {m : Link} (rxQueue : m.rxQueue = l.rxQueue) (on : l.rx ≠ .off)
    (works : m.rx = .frame ∨ (m.rx = .hunt ∨ m.rx = .skip) ∧ m.gather = Gathering.empty) : ReceiverLaw loading m where
  received := rxQueue ▸ h.received
  off := iff_of_false (by rcases works with rx | ⟨rx | rx, -⟩ <;> rw [rx] <;> decide) (fun load => on (h.off.2 load))
  gathering away := by
    rcases works with rx | ⟨-, empty⟩
    · exact absurd rx away
    · exact empty

theorem ReceiverLaw.linkDominant (h : ReceiverLaw loading l) : ReceiverLaw loading (linkDominant l) := by
  unfold Machine.linkDominant
  dsimp only
  split
  · rename_i rx; exact h.at_work rfl (by rw [rx]; decide) (.inl rfl)
  · rename_i rx
    split
    · exact h.at_work rfl (by rw [rx]; decide) (.inl rx)
    · exact h.of_same rfl rfl rfl
  · exact h.of_same rfl rfl rfl
  · exact h.of_same rfl rfl rfl

theorem ReceiverLaw.linkLevel (h : ReceiverLaw loading l) (level : LineLevel) : ReceiverLaw loading (linkLevel level l) := by
  cases level
  · exact h.of_same rfl rfl rfl
  · exact h.linkDominant

theorem ReceiverLaw.receiverIdle (h : ReceiverLaw loading l) : ReceiverLaw loading (receiverIdle l) := by
  unfold Machine.receiverIdle
  split
  · exact h
  · exact h
  · rename_i rx
    exact h.at_work rfl (by rw [rx]; decide) (.inr ⟨.inl rfl, h.gathering (by rw [rx]; decide)⟩)
  · rename_i rx; exact h.at_work rfl (by rw [rx]; decide) (.inr ⟨.inl rfl, rfl⟩)

theorem ReceiverLaw.transmitterIdle (h : ReceiverLaw loading l) (own : Nat) : ReceiverLaw loading (transmitterIdle own l) := by
  unfold Machine.transmitterIdle
  split
  · exact h.of_same (takeRank_rxQueue ..) (takeRank_rx ..) (takeRank_gather ..)
  · exact h.of_same (takeRank_rxQueue ..) (takeRank_rx ..) (takeRank_gather ..)
  · exact h
  · exact h

theorem ReceiverLaw.beginSending (h : ReceiverLaw loading l) (own : Nat) : ReceiverLaw loading (beginSending own l) := by
  unfold Machine.beginSending
  split
  · split
    · exact ReceiverLaw.linkDominant (h.of_same rfl rfl rfl)
    · exact h.of_same rfl rfl rfl
  · exact h.of_same rfl rfl rfl

theorem ReceiverLaw.dropHead (h : ReceiverLaw loading l) (c : TxClass) : ReceiverLaw loading (dropHead c l) := by
  cases c <;> exact h.of_same rfl rfl rfl

theorem ReceiverLaw.countDrop (h : ReceiverLaw loading l) (c : TxClass) : ReceiverLaw loading (countDrop c l) := by
  cases c <;> exact h.of_same rfl rfl rfl

theorem ReceiverLaw.frameSent (h : ReceiverLaw loading l) : ReceiverLaw loading (frameSent l) := by
  unfold Machine.frameSent
  split
  · exact h
  · rename_i fl _
    have kept := h.dropHead fl.cls
    refine ⟨kept.received, ?_, fun _ => rfl⟩
    dsimp only
    split
    · rename_i rx; exact iff_of_false nofun (fun load => by rw [h.off.2 load] at rx; cases rx)
    · exact h.off

theorem ReceiverLaw.frameAbandoned (h : ReceiverLaw loading l) : ReceiverLaw loading (frameAbandoned l) := by
  unfold Machine.frameAbandoned
  split
  · exact h
  · have rested : ReceiverLaw loading (sendingOver { l with collision := satAdd l.collision 1 }) := h.of_same rfl rfl rfl
    have left := rested.linkLevel (mismatched l)
    dsimp only
    split
    · exact (left.dropHead _).countDrop _
    · exact left

theorem ReceiverLaw.receiverSkips (h : ReceiverLaw loading l) (rx : l.rx = .frame) : ReceiverLaw loading (receiverSkips l) :=
  h.at_work rfl (by rw [rx]; decide) (.inr ⟨.inr rfl, rfl⟩)

theorem discardHeads_length_le (own : Nat) : ∀ q : List Frame, (discardHeads own q).1.length ≤ q.length
  | [] => Nat.le_refl _
  | f :: fs => by
    unfold discardHeads
    have rest := (discardHeads_length_le own fs).trans (Nat.le_succ _)
    split
    · exact rest
    · exact rest
    · exact Nat.le_refl _

theorem ReceiverLaw.discardAtDispatch (h : ReceiverLaw loading l) (own : Nat) :
    ReceiverLaw loading (discardAtDispatch own l) :=
  ⟨(discardHeads_length_le _ _).trans h.received, h.off, h.gathering⟩

theorem ReceiverLaw.tickReceiver (h : ReceiverLaw loading l) : ReceiverLaw loading (tickReceiver l) := by
  unfold Machine.tickReceiver
  split
  · rename_i rx _
    split
    · exact h.at_work rfl (by rw [rx]; decide) (.inl rx)
    · exact h.at_work rfl (by rw [rx]; decide) (.inl rx)
  · exact h

theorem ReceiverLaw.followDrive (h : ReceiverLaw loading l) (before : LineLevel) :
    ReceiverLaw loading (followDrive before l) := by
  unfold Machine.followDrive
  split
  · exact h
  · split
    · exact h.linkDominant
    · exact h.of_same rfl rfl rfl

end

/-! ### The station -/

theorem own_le (s : State) : s.own ≤ 15 := Nat.le_of_lt_succ s.rc.straps.address.isLt

theorem not_loading_of_operating {s : State} (op : s.operating = true) : ¬s.rc.runState = .loading := fun load => by
  unfold State.operating at op
  rw [load] at op
  cases op

theorem LinkLaw.of_link {s t : State} (h : LinkLaw s) (link : t.link = s.link)
    (run : t.rc.runState = .loading ↔ s.rc.runState = .loading) : LinkLaw t := by
  rw [linkLaw_iff] at h ⊢
  rwa [link, propext run]

theorem LinkLaw.of_keeps {l : List Part} {s t : State} (h : LinkLaw s) (k : Keeps l s t)
    (link : Part.link ∉ l := by decide) (rc : Part.rc ∉ l := by decide) : LinkLaw t :=
  h.of_link (k.link link) (by rw [k.rc rc])

/-- An operation of the link alone keeps the law where it keeps both halves. -/
theorem LinkLaw.setLink {s : State} (h : LinkLaw s) {l : Link}
    (tx : TransmitterLaw (s.rc.runState = .loading) s.link → TransmitterLaw (s.rc.runState = .loading) l)
    (rx : ReceiverLaw (s.rc.runState = .loading) s.link → ReceiverLaw (s.rc.runState = .loading) l) : LinkLaw (s.setLink l) :=
  (linkLaw_iff _).2 (((linkLaw_iff s).1 h).imp tx rx)

/-- Records handed on keep the law where their queues still fit. -/
theorem LinkLaw.of_handed {s t : State} {cs : List TxClass} (h : LinkLaw s) (hands : HandsTo s.own cs s.link t.link)
    (rc : t.rc = s.rc) (fits : QueuesFit t.link) : LinkLaw t := by
  obtain ⟨tx, rx⟩ := (linkLaw_iff s).1 h
  rw [linkLaw_iff, rc]
  exact ⟨tx.of_handed (own_le s) hands fits, rx.of_same (by rw [hands.rest]) (by rw [hands.rest]) (by rw [hands.rest])⟩

theorem offer0_length_le {l : Link} (fits : l.q0.length ≤ 4) (own : Nat) (r : Queued StationEvent) :
    (offer0 own r l).q0.length ≤ 4 := by
  unfold offer0 cap0
  split <;> simp <;> omega

theorem offer2_length_le {l : Link} (fits : l.q2.length ≤ 32) (own : Nat) (r : Queued Indication) :
    (offer2 own r l).q2.length ≤ 32 := by
  unfold offer2 cap2
  split <;> simp <;> omega

theorem offer3_length_le {l : Link} (fits : l.q3.length ≤ 16) (own : Nat) (r : Queued GapRecord) :
    (offer3 own r l).q3.length ≤ 16 := by
  unfold offer3 cap3
  split <;> simp <;> omega

section
variable {s : State} (h : LinkLaw s)
include h

theorem linkLaw_queueEvent (e : StationEvent) : LinkLaw (queueEvent e s) := by
  obtain ⟨q0, q1, q2, q3⟩ := h.queues
  refine h.of_handed (queueEvent_hands e s).link rfl ⟨offer0_length_le q0 _ _, ?_, ?_, ?_⟩ <;> rw [queueEvent_link]
  · rwa [offer0_q1]
  · rwa [offer0_q2]
  · rwa [offer0_q3]

theorem linkLaw_queueIndication (r : Indication) : LinkLaw (queueIndication r s) := by
  obtain ⟨q0, q1, q2, q3⟩ := h.queues
  refine h.of_handed (queueIndication_hands r s).link rfl ⟨?_, ?_, offer2_length_le q2 _ _, ?_⟩ <;> rw [queueIndication_link]
  · rwa [offer2_q0]
  · rwa [offer2_q1]
  · rwa [offer2_q3]

theorem linkLaw_queueGap (r : GapRecord) : LinkLaw (queueGap r s) := by
  obtain ⟨q0, q1, q2, q3⟩ := h.queues
  refine h.of_handed (queueGap_hands r s).link rfl ⟨?_, ?_, ?_, offer3_length_le q3 _ _⟩ <;> rw [queueGap_link]
  · rwa [offer3_q0]
  · rwa [offer3_q1]
  · rwa [offer3_q2]

/-- Calls go to class 1 while there is room there (R125, R135). -/
theorem LinkLaw.of_calls {t : State} {calls : List Call} (made : CallsMade s calls t) (rc : t.rc = s.rc) : LinkLaw t := by
  obtain ⟨q0, q1, q2, q3⟩ := h.queues
  refine h.of_handed made.hands rc ⟨?_, ?_, ?_, ?_⟩
  · rwa [(made.hands.c0 (by decide)).1]
  · rw [made.queued, List.length_append]
    have room := List.length_take_le (24 - s.link.q1.length)
      ((calls.filter (fun c => !heldBack s.corr.spans c)).map (fun c => (⟨s.rc.run, c⟩ : Queued Call)))
    omega
  · rwa [(made.hands.c2 (by decide)).1]
  · rwa [(made.hands.c3 (by decide)).1]

theorem linkLaw_frontierIncrease (front : Int) : LinkLaw (frontierIncrease front s) :=
  h.of_calls (frontierIncrease_left front s).calls ((frontierIncrease_keeps front s).rc (by decide))

theorem linkLaw_correlationDrainEnd : LinkLaw (correlationDrainEnd s) :=
  h.of_calls (correlationDrainEnd_left s).calls ((correlationDrainEnd_keeps s).rc (by decide))

theorem linkLaw_forceOut : LinkLaw (forceOut s) := by
  unfold forceOut
  split
  · exact h
  · rename_i e es _
    have shorter : LinkLaw (s.setCorr { s.corr with table := es }) := h.of_keeps (keeps_setCorr _ _)
    exact shorter.of_calls (leaveEffect_left true _ e).calls ((leaveEffect_keeps true _ e).rc (by decide))

theorem linkLaw_insertPaired (n : Indication) : LinkLaw (insertPaired n s) := by
  have entered := fun table => h.of_keeps (keeps_setCorr s { s.corr with table := table })
  unfold insertPaired
  dsimp only
  split
  · exact entered _
  · split
    · exact (entered _).of_calls (buildCall_made ..) ((buildCall_keeps ..).rc (by decide))
    · exact entered _

theorem linkLaw_insertRecord (n : Indication) : LinkLaw (insertRecord n s) := by
  unfold insertRecord
  split
  · exact linkLaw_insertPaired (linkLaw_forceOut h) n
  · exact linkLaw_insertPaired h n

theorem linkLaw_evaluateClosed (c : Chan) (x : Slot × CloseMark) : LinkLaw (evaluateClosed c s x) := by
  unfold evaluateClosed
  dsimp only
  split
  · exact linkLaw_queueIndication (linkLaw_insertRecord (h.of_keeps (keeps_setTrk _ _)) _) _
  · exact h.of_keeps (keeps_setTrk _ _)

theorem linkLaw_settleSlots (c : Chan) (slots : ChanSlots) (closed : List (Slot × CloseMark)) :
    LinkLaw (settleSlots c slots closed s) := by
  have settled : LinkLaw (s.setTrk { s.trk with chan := s.trk.chan.set c slots }) := h.of_keeps (keeps_setTrk _ _)
  exact Serving.fold (inv := LinkLaw) (fun _ x g => linkLaw_evaluateClosed g c x) closed _ settled

theorem linkLaw_closeGap (c : Chan) (g : OpenGap) (how : Closure) : LinkLaw (closeGap c g how s) := by
  unfold closeGap
  exact linkLaw_queueGap (h.of_keeps (keeps_setCov s _)) _

theorem linkLaw_takeOutcome (c : Chan) (o : ChanOutcome) (basis : Int) : LinkLaw (takeOutcome c o basis s) := by
  have covered := fun v => h.of_keeps (setCoverage_keeps c v s)
  unfold takeOutcome
  dsimp only
  split
  · exact covered _
  · exact linkLaw_closeGap (covered _) _ _ _
  · exact covered _
  · split
    · unfold extendGap
      dsimp only
      split
      · exact linkLaw_closeGap (covered _) _ _ _
      · exact covered _
    · exact (linkLaw_closeGap h _ _ _).of_keeps (setCoverage_keeps _ _ _)

theorem linkLaw_stopGap (c : Chan) : LinkLaw (stopGap s c) := by
  unfold stopGap
  split
  · exact h
  · exact linkLaw_closeGap h _ _ _

theorem linkLaw_reportConflict (r : Reporter) : LinkLaw (reportConflict r s) := by
  unfold reportConflict
  split
  · exact h
  · exact (linkLaw_queueEvent h _).of_link rfl Iff.rfl

theorem linkLaw_indicationTaken (run : Byte) (p : IndicationPayload) : LinkLaw (indicationTaken run p s) := by
  have checked : ∀ origin seq, LinkLaw (peerCheck origin seq s).2 := fun _ _ => h.of_keeps (keeps_setCorr _ _)
  unfold indicationTaken peerRecord
  dsimp only
  split
  · exact h
  · split
    · exact h
    · split
      · exact h.of_keeps (keeps_setCorr _ _)
      · split
        · exact linkLaw_reportConflict h _
        · split
          · exact h
          · split
            · exact checked _ _
            · split
              · exact checked _ _
              · exact linkLaw_insertRecord (checked _ _) _

/-! ### The link's own operations -/

theorem linkLaw_takeFrame {b : Block} {c : Instr} {n : Nat} {t : State} (taken : takeFrame b c n s = some t) : LinkLaw t := by
  have busy : ∀ q : List Frame, q.length ≤ s.link.rxQueue.length →
      LinkLaw (s.setLink (setBusy { s.link with rxQueue := q } b (some n))) := by
    refine fun q shorter => h.setLink (fun tx => ?_) (fun rx => ?_)
    · cases b <;> exact tx.of_same rfl
    · cases b <;> exact ⟨shorter.trans rx.received, rx.off, rx.gathering⟩
  unfold takeFrame at taken
  split at taken
  · split at taken
    · cases taken; exact busy _ (Nat.le_refl _)
    · rename_i f fs queue
      split at taken
      · cases taken; exact busy fs (by rw [queue]; exact Nat.le_succ _)
      · cases taken
  · cases taken

theorem linkLaw_dispatchDiscards : LinkLaw (dispatchDiscards s) :=
  h.setLink (fun tx => tx.of_same rfl) fun rx => rx.discardAtDispatch s.own

theorem linkLaw_idleInstant : LinkLaw (s.setLink (idleInstant s.own s.link)) := by
  refine h.setLink (fun tx => ?_) fun rx => ?_
  · refine TransmitterLaw.transmitterIdle ?_ (own_le s)
    unfold receiverIdle
    split <;> exact tx.of_same rfl
  · refine ReceiverLaw.transmitterIdle (ReceiverLaw.receiverIdle ?_) s.own
    exact rx.of_same rfl rfl rfl

theorem linkLaw_linkDominant : LinkLaw (s.setLink (linkDominant s.link)) :=
  h.setLink (fun tx => tx.linkDominant) fun rx => rx.linkDominant

theorem linkLaw_linkLevelGiven (level : LineLevel) : LinkLaw (linkLevelGiven level s) := by
  have known : LinkLaw (s.setLink { s.link with level := level }) :=
    h.setLink (fun tx => tx.of_same rfl) fun rx => rx.of_same rfl rfl rfl
  unfold linkLevelGiven
  split
  · cases level
    · exact known
    · show LinkLaw (linkEdge s)
      by_cases due : dueLinkIdle s = true
      · rw [linkEdge_due due]
        exact linkLaw_linkDominant (linkLaw_idleInstant h)
      · rw [linkEdge_else due]
        exact linkLaw_linkDominant h
  · exact known

/-- A receive queue of at most sixteen frames, at the end of a frame and after the discards (R143, R144). -/
theorem linkLaw_entered (rx : s.link.rx = .frame) {q : List Frame} (fits : q.length ≤ 16) (overflows : Nat) :
    LinkLaw (s.setLink (discardAtDispatch s.own
      { frameEnded s.link with rxQueue := q, receiveOverflow := overflows })) := by
  refine h.setLink (fun tx => tx.of_same rfl) fun r => ?_
  have skips := r.receiverSkips rx
  refine ReceiverLaw.discardAtDispatch ?_ s.own
  exact ⟨fits, skips.off, skips.gathering⟩

theorem linkLaw_frameEnds (rx : s.link.rx = .frame) (chars : List Byte) : LinkLaw (frameEnds chars s) := by
  have ended : LinkLaw (s.setLink (frameEnded s.link)) :=
    h.setLink (fun tx => tx.of_same rfl) fun r =>
      (r.receiverSkips rx).of_same rfl rfl rfl
  cases parsed : parseFrame chars with
  | none =>
    rw [frameEnds_fails parsed]
    exact h.setLink (fun tx => tx.of_same rfl) fun r =>
      (r.receiverSkips rx).of_same rfl rfl rfl
  | some f =>
    by_cases dropped : s.operating = false ∨ s.link.tx = .send
    · rw [frameEnds_dropped parsed dropped]
      exact ended
    · obtain ⟨on, tx⟩ := not_or.1 dropped
      have op : s.operating = true := Bool.not_eq_false _ ▸ on
      by_cases own : f.source.toNat = s.own
      · rw [frameEnds_conflict parsed op tx own]
        exact linkLaw_reportConflict ended _
      · by_cases room : s.link.rxQueue.length < 16
        · rw [frameEnds_room parsed op tx own room]
          exact linkLaw_entered h rx (by rw [List.length_append]; exact room) _
        · rw [frameEnds_overflow parsed op tx own room]
          have raised : LinkLaw (s.setCorr { s.corr with epoch := nextEpoch s.corr.epoch }) := h.of_keeps (keeps_setCorr _ _)
          refine linkLaw_entered raised rx ?_ _
          have count := h.received
          split
          · rw [List.length_append, List.length_drop, List.length_singleton]; omega
          · exact count

theorem linkLaw_serviceEnded (b : Block) : LinkLaw (serviceEnded b s) := by
  have freed : LinkLaw (s.setLink (setBusy s.link b none)) := h.setLink
    (fun tx => by cases b <;> exact tx.of_same rfl)
    (fun rx => by cases b <;> exact rx.of_same rfl rfl rfl)
  exact linkLaw_dispatchDiscards freed

/-! ### The run, the load, the reset and time -/

theorem linkLaw_startRun (r : Byte) (op : s.operating = true) : LinkLaw (startRun r s) := by
  have on := not_loading_of_operating op
  obtain ⟨tx, rx⟩ := (linkLaw_iff s).1 h
  have run : ((startRun r s).rc.runState = .loading) = (s.rc.runState = .loading) :=
    propext (iff_of_false (by decide : ¬RunState.running = .loading) on)
  rw [linkLaw_iff, run]
  exact ⟨tx.linkRunStart, rx.of_same rfl rfl rfl⟩

/-- The end of a load takes the link up, with one event (R145, R148, R149). -/
theorem linkLaw_loadEnded (im : List Byte) (load : s.rc.runState = .loading) : LinkLaw (loadEnded im s) := by
  obtain ⟨tx, rx⟩ := (linkLaw_iff s).1 h
  have upTx := tx.linkTakenUp load
  have upRx : ReceiverLaw False (linkTakenUp s.link) := ⟨rx.received, iff_of_false nofun id, fun _ => rfl⟩
  have up : ∀ t : State, ¬t.rc.runState = .loading → t.link = linkTakenUp s.link → LinkLaw t := fun t on link => by
    rw [linkLaw_iff, eq_false on, link]
    exact ⟨upTx, upRx⟩
  unfold loadEnded
  split
  · exact linkLaw_queueEvent (up _ (by decide : ¬RunState.faulted = .loading) rfl) _
  · exact linkLaw_queueEvent (up _ (by decide : ¬RunState.standby = .loading) rfl) _

omit h in
theorem linkLaw_takeReset (cause : ResetCause) : LinkLaw (takeReset cause s) where
  queues := ⟨Nat.zero_le _, Nat.zero_le _, Nat.zero_le _, Nat.zero_le _⟩
  received := Nat.zero_le _
  flight := iff_of_false nofun (not_not_intro rfl)
  record := nofun
  rank := nofun
  deferring := nofun
  off := ⟨iff_of_true rfl rfl, iff_of_true rfl rfl⟩
  gathering _ := rfl

theorem linkLaw_tick : LinkLaw (tick s) := by
  have run : (tickRun s.rc).runState = s.rc.runState := by unfold tickRun; split <;> rfl
  obtain ⟨tx, rx⟩ := (linkLaw_iff s).1 h
  rw [linkLaw_iff, show (tick s).rc.runState = s.rc.runState from run]
  refine ⟨?_, ?_⟩
  · rw [show (tick s).link = tickLink s.linkOn s.link from rfl, tickLink_frame]
    exact tx.of_same rfl
  · refine ReceiverLaw.followDrive (ReceiverLaw.tickReceiver ?_) _
    exact rx.of_same rfl rfl rfl

/-- The commands of the link alone (R134, R137 to R139, R141, R144). -/
theorem linkLaw_linkCommand {c : Instr} {t : State} (touches : touched c = [.link]) (e : exec c s = .next t) : LinkLaw t := by
  cases c with
  | linkIdleInstant =>
    rw [exec_linkIdleInstant] at e; cases e
    split
    · exact linkLaw_idleInstant h
    · exact h
  | beginTime =>
    rw [exec_beginTime] at e; cases e
    split
    · rename_i defers; exact h.setLink (fun tx => tx.beginSending defers) fun rx => rx.beginSending _
    · exact h
  | frameComplete =>
    rw [exec_frameComplete] at e; cases e
    split
    · rename_i sends; exact h.setLink (fun tx => tx.frameSent sends) fun rx => rx.frameSent
    · exact h
  | readbackMismatch =>
    rw [exec_readbackMismatch] at e; cases e
    split
    · rename_i sends; exact h.setLink (fun tx => tx.frameAbandoned sends) fun rx => rx.frameAbandoned
    · exact h
  | receiveError check =>
    rw [exec_receiveError] at e; cases e
    split
    · rename_i rx
      exact h.setLink (fun tx => tx.of_same rfl) fun r =>
        (r.receiverSkips rx).of_same rfl rfl rfl
    · exact h
  | serviceTimeEnd b =>
    rw [exec_serviceTimeEnd] at e; cases e
    split
    · exact linkLaw_serviceEnded h b
    · exact h
  | linkLevelChange level =>
    rw [exec_linkLevelChange] at e; cases e
    exact linkLaw_linkLevelGiven h level
  | _ => cases touches

end

/-! ### Every step -/

theorem linkLaw_stable : Stable LinkLaw where
  frame _ _ k h := h.of_keeps k
  outcome c o b _ h := linkLaw_takeOutcome h c o b
  mark c s h := h.of_keeps (coverageMark_keeps c s)
  cut c _ h := linkLaw_settleSlots h c _ _
  gap _ c h := linkLaw_stopGap h c
  frontier f _ h := linkLaw_frontierIncrease h f
  event e _ h := linkLaw_queueEvent h e
  runCtl _ _ h run := h.of_link rfl (run.elim (fun same => by rw [State.setRc_rc, same.1]) fun on =>
    iff_of_false (not_loading_of_operating on.2) (not_loading_of_operating on.1))
  release _ _ h := h.of_link rfl Iff.rfl
  taken _ _ _ _ _ taken h := linkLaw_takeFrame h taken
  discards _ h := linkLaw_dispatchDiscards h
  received x _ rx h := linkLaw_frameEnds h rx x
  peer r p _ h := linkLaw_indicationTaken h r p
  span r p s h := h.of_keeps (suppressTaken_keeps r p s)
  drained _ h := linkLaw_correlationDrainEnd h
  start r _ h op := linkLaw_startRun h r op
  load im _ h _ loading := linkLaw_loadEnded h im loading
  reset cause _ := linkLaw_takeReset cause
  link _ _ _ touches e h := linkLaw_linkCommand h touches e
  time _ h := linkLaw_tick h

/-- Settles O59: the law is stable, and a completion's hits and empty firings reach the queues by the slots they close. -/
theorem everyStepKeepsTheLinkLaw : Obligations.EveryStepKeepsTheLinkLaw :=
  linkLaw_stable.step_keeps fun x v e _ h => linkLaw_stable.volleyCompleted
    (fun hit s g => linkLaw_settleSlots (s := s.setTrk _) (g.of_keeps (keeps_setTrk s _)) hit.chan _ _)
    (fun c _ g => linkLaw_settleSlots g c _ _) x v e h

end Sys2Proof.Machine
end

section
/-! SUPPORT. The blocks that take the received frames: what each does with a frame leaves the receiver's side of the link alone,
so the taking alone decides the queue and the busy blocks (R144, R157). -/

namespace Sys2Proof.Machine

/-! ### A block's act leaves the receive queue and the service times alone -/

/-- The own address, the frames received and the service times are those of another state. -/
structure SameReceiving (s t : State) : Prop where
  own : t.own = s.own
  rxQueue : t.link.rxQueue = s.link.rxQueue
  busy : ∀ b, busyOf t.link b = busyOf s.link b

theorem SameReceiving.refl (s : State) : SameReceiving s s := ⟨rfl, rfl, fun _ => rfl⟩

theorem SameReceiving.trans {s t u : State} (h : SameReceiving s t) (k : SameReceiving t u) : SameReceiving s u :=
  ⟨k.own.trans h.own, k.rxQueue.trans h.rxQueue, fun b => (k.busy b).trans (h.busy b)⟩

/-- The transmitter's side is all that the handing of records touches (R135, R137). -/
theorem Hands.sameReceiving {cs : List TxClass} {s t : State} (h : Hands cs s t) : SameReceiving s t where
  own := h.own
  rxQueue := by rw [h.link.rest]
  busy b := by rw [h.link.rest]; cases b <;> rfl

theorem reportConflict_hands (r : Reporter) (s : State) : Hands [.c0] s (reportConflict r s) := by
  unfold reportConflict
  split
  · exact Hands.refl ..
  · exact (queueEvent_hands ..).trans ⟨rfl, HandsTo.refl ..⟩

theorem indicationTaken_hands (run : Byte) (p : IndicationPayload) (s : State) :
    Hands [.c0, .c1] s (indicationTaken run p s) := by
  have checked : ∀ origin seq, Hands [.c0, .c1] s (peerCheck origin seq s).2 := fun _ _ => .kept (keeps_setCorr _ _)
  unfold indicationTaken peerRecord
  dsimp only
  split
  · exact Hands.refl ..
  · split
    · exact Hands.refl ..
    · split
      · exact .kept (keeps_setCorr _ _)
      · split
        · exact (reportConflict_hands ..).mono (by decide)
        · split
          · exact Hands.refl ..
          · split
            · exact checked _ _
            · split
              · exact checked _ _
              · exact (checked _ _).trans ((insertRecord_hands ..).mono (by decide))

theorem startRun_sameReceiving (r : Byte) (s : State) : SameReceiving s (startRun r s) :=
  ⟨rfl, rfl, fun b => by cases b <;> rfl⟩

theorem runstartTaken_sameReceiving (r : Byte) (s : State) : SameReceiving s (runstartTaken r s) := by
  have pending : Hands [.c1, .c2, .c3] s (s.setRc { s.rc with pendingStart := some r }) := .setRc rfl
  unfold runstartTaken
  split
  · exact .refl s
  · split
    · exact startRun_sameReceiving r s
    · split
      · exact .refl s
      · exact (pending.trans (enterStopping_hands _)).sameReceiving
    · split
      · exact .refl s
      · exact pending.sameReceiving
    all_goals exact .refl s

theorem runstopTaken_sameReceiving (r : Byte) (s : State) : SameReceiving s (runstopTaken r s) := by
  unfold runstopTaken
  split
  · exact (enterStopping_hands s).sameReceiving
  · exact .refl s

/-! ### The frame commands -/

/-- A frame command is its block's: the frame is taken for a service time, the block acts on it, and the frames behind it are
judged for discard; the act leaves the receiving alone (R144). -/
structure ServedBy (b : Block) (c : Instr) (ticks : Nat) (s : State) (act : State → State) : Prop where
  answers : exec c s = .next ((takeFrame b c ticks s).elim s fun t => dispatchDiscards (act t))
  leaves : ∀ t, SameReceiving t (act t)

theorem runstart_served (r : Byte) (s : State) : ServedBy .runController (.runstart r) 250 s (runstartTaken r) where
  answers := by
    rw [exec_runstart, show runService = 250 from rfl]
    cases takeFrame .runController (.runstart r) 250 s <;> rfl
  leaves := runstartTaken_sameReceiving r

theorem runstop_served (r : Byte) (s : State) : ServedBy .runController (.runstop r) 250 s (runstopTaken r) where
  answers := by
    rw [exec_runstop, show runService = 250 from rfl]
    cases takeFrame .runController (.runstop r) 250 s <;> rfl
  leaves := runstopTaken_sameReceiving r

theorem mask_served {p : MaskPayload} {s : State} (target : p.target.toNat = s.own) :
    ServedBy .volleySequencer (.mask p) 250 s (applyMask p) where
  answers := by
    rw [exec_mask, if_pos target, show maskService = 250 from rfl]
    cases takeFrame .volleySequencer (.mask p) 250 s <;> rfl
  leaves t := (applyMask_hands p t).sameReceiving

theorem suppress_served (r : Byte) (p : SuppressPayload) (s : State) :
    ServedBy .correlationUnit (.suppress r p) 1250 s (suppressTaken r p) where
  answers := by
    rw [exec_suppress, show suppressService = 1250 from rfl]
    cases takeFrame .correlationUnit (.suppress r p) 1250 s <;> rfl
  leaves t := (Hands.kept (cs := []) (suppressTaken_keeps r p t)).sameReceiving

theorem indication_served (r : Byte) (p : IndicationPayload) (s : State) :
    ServedBy .correlationUnit (.indication r p) 5000 s (indicationTaken r p) where
  answers := by
    rw [exec_indication, show indicationService = 5000 from rfl]
    cases takeFrame .correlationUnit (.indication r p) 5000 s <;> rfl
  leaves t := (indicationTaken_hands r p t).sameReceiving

/-! ### Taking -/

theorem busyOf_setBusy (l : Link) (b other : Block) (t : Option Nat) :
    busyOf (setBusy l b t) other = if other = b then t else busyOf l other := by
  cases b <;> cases other <;> rfl

theorem rxQueue_setBusy (l : Link) (b : Block) (t : Option Nat) : (setBusy l b t).rxQueue = l.rxQueue := by
  cases b <;> rfl

theorem busyOf_dispatchDiscards (s : State) (b : Block) : busyOf (dispatchDiscards s).link b = busyOf s.link b := by
  cases b <;> rfl

theorem rxQueue_dispatchDiscards (s : State) : (dispatchDiscards s).link.rxQueue = (discardHeads s.own s.link.rxQueue).1 := rfl

/-- The frames discarded at dispatch are the first of the queue (R144). -/
theorem exists_drop_eq_discardHeads (own : Nat) : ∀ q : List Frame, ∃ k, q.drop k = (discardHeads own q).1
  | [] => ⟨0, rfl⟩
  | f :: fs => by
    obtain ⟨k, later⟩ := exists_drop_eq_discardHeads own fs
    unfold discardHeads
    split
    · exact ⟨k + 1, later⟩
    · exact ⟨k + 1, later⟩
    · exact ⟨0, rfl⟩

section
variable {b : Block} {c : Instr} {ticks : Nat} {s : State} {act : State → State}

/-- A frame offered makes its block busy and leaves the queue with the discarded ones behind it (R144). -/
theorem ServedBy.of_offered (served : ServedBy b c ticks s act) (offered : Offered b c s) :
    ∃ t, exec c s = .next t ∧ busyOf t.link b = some ticks ∧
      t.link.rxQueue = (discardHeads s.own (s.link.rxQueue.drop 1)).1 ∧
      ∀ other, other ≠ b → busyOf t.link other = busyOf s.link other := by
  have leaves := served.leaves (takenBy b ticks s)
  have busy : ∀ other, busyOf (dispatchDiscards (act (takenBy b ticks s))).link other =
      if other = b then some ticks else busyOf s.link other := fun other => by
    rw [busyOf_dispatchDiscards, leaves.busy, takenBy, State.setLink_link, busyOf_setBusy]
    cases other <;> rfl
  refine ⟨dispatchDiscards (act (takenBy b ticks s)), ?_, ?_, ?_, fun other ne => ?_⟩
  · rw [served.answers, takeFrame_offered ticks offered]; rfl
  · rw [busy, if_pos rfl]
  · rw [rxQueue_dispatchDiscards, leaves.own, leaves.rxQueue, takenBy, State.setLink_link, rxQueue_setBusy]; rfl
  · rw [busy, if_neg ne]

theorem ServedBy.of_refused (served : ServedBy b c ticks s act) (refused : ¬Offered b c s) : exec c s = .next s := by
  rw [served.answers, takeFrame_refused ticks refused]; rfl

end

/-! ### SERVICE_TIME_END -/

theorem exec_serviceTimeEnd_busy {b : Block} {s : State} {left : Nat} (busy : busyOf s.link b = some left) :
    exec (.serviceTimeEnd b) s = .next { s with link := { s.link with
      busyRun := if b = .runController then none else s.link.busyRun
      busySeq := if b = .volleySequencer then none else s.link.busySeq
      busyCorr := if b = .correlationUnit then none else s.link.busyCorr
      rxQueue := (discardHeads s.own s.link.rxQueue).1
      receiveError := min (s.link.receiveError + (discardHeads s.own s.link.rxQueue).2) 65535 } } := by
  rw [exec_serviceTimeEnd, busy]
  cases b <;> rfl

theorem exec_serviceTimeEnd_free {b : Block} {s : State} (free : busyOf s.link b = none) :
    exec (.serviceTimeEnd b) s = .next s := by
  rw [exec_serviceTimeEnd, free]; rfl

/-! ### O55 -/

/-- Settles O55: each of the five commands is served by its block, and the block's act leaves the receive queue and the service
times to the taking. -/
theorem takingAFrameMakesItsBlockBusy : Obligations.TakingAFrameMakesItsBlockBusy := by
  unfold Obligations.TakingAFrameMakesItsBlockBusy
  intro s b c ticks kinds
  have served : ∃ act, ServedBy b c ticks s act := by
    rcases kinds with ⟨⟨r, rfl⟩ | ⟨r, rfl⟩, rfl, rfl⟩ | ⟨⟨p, rfl, target⟩, rfl, rfl⟩ | ⟨⟨r, p, rfl⟩, rfl, rfl⟩ |
      ⟨⟨r, p, rfl⟩, rfl, rfl⟩
    · exact ⟨_, runstart_served r s⟩
    · exact ⟨_, runstop_served r s⟩
    · exact ⟨_, mask_served target⟩
    · exact ⟨_, suppress_served r p s⟩
    · exact ⟨_, indication_served r p s⟩
  obtain ⟨act, served⟩ := served
  exact ⟨served.of_offered, served.of_refused,
    fun _ busy => ⟨exec_serviceTimeEnd_busy busy, exists_drop_eq_discardHeads ..⟩, exec_serviceTimeEnd_free⟩

end Sys2Proof.Machine
end

section
/-! SUPPORT. The idle instant and the dominant edge, field by field, and the rank the transmitter takes from its queues (R134,
R137, R141). -/

namespace Sys2Proof.Machine

/-! ### The rank of the lowest class that holds a record (R137) -/

section
variable {l : Link} {c : TxClass}

/-- The transmitter defers with the rank of a class, and the begin time is that rank in microseconds after the idle instant. -/
def RankTaken (own : Nat) (c : TxClass) (sinceIdle : Nat) (l : Link) : Prop :=
  l.tx = .defer ∧ l.rank = some (16 * c.num + own) ∧ l.beginIn = 25 * (16 * c.num + own) - sinceIdle

theorem lowestClass_eq_some (holds : headOf l c = true) (lower : ∀ d : TxClass, d.num < c.num → headOf l d = false) :
    lowestClass l = some c := by
  have q0 : 0 < c.num → l.q0 = [] := fun x => by simpa [headOf] using lower .c0 x
  have q1 : 1 < c.num → l.q1 = [] := fun x => by simpa [headOf] using lower .c1 x
  have q2 : 2 < c.num → l.q2 = [] := fun x => by simpa [headOf] using lower .c2 x
  unfold lowestClass
  cases c with
  | c0 =>
    have head : l.q0 ≠ [] := by simpa [headOf] using holds
    simp [head]
  | c1 =>
    have head : l.q1 ≠ [] := by simpa [headOf] using holds
    simp [q0 (by decide), head]
  | c2 =>
    have head : l.q2 ≠ [] := by simpa [headOf] using holds
    simp [q0 (by decide), q1 (by decide), head]
  | c3 =>
    have head : l.q3 ≠ [] := by simpa [headOf] using holds
    simp [q0 (by decide), q1 (by decide), q2 (by decide), head]

theorem queues_nil (empty : ∀ d : TxClass, headOf l d = false) : l.q0 = [] ∧ l.q1 = [] ∧ l.q2 = [] ∧ l.q3 = [] := by
  have q0 := empty .c0
  have q1 := empty .c1
  have q2 := empty .c2
  have q3 := empty .c3
  simp only [headOf, Bool.not_eq_eq_eq_not, Bool.not_false, List.isEmpty_iff] at q0 q1 q2 q3
  exact ⟨q0, q1, q2, q3⟩

theorem lowestClass_eq_none (empty : ∀ d : TxClass, headOf l d = false) : lowestClass l = none := by
  obtain ⟨q0, q1, q2, q3⟩ := queues_nil empty
  simp [lowestClass, q0, q1, q2, q3]

theorem takeRank_ranked (own : Nat) (lowest : lowestClass l = some c) : RankTaken own c l.sinceIdle (takeRank own l) := by
  have rank : rankOf own c = 16 * c.num + own := by rw [rankOf, Nat.mul_comm]
  have times : rankOf own c * microsecond = 25 * (16 * c.num + own) := by rw [rank, Nat.mul_comm]; rfl
  unfold takeRank
  rw [lowest]
  exact ⟨rfl, congrArg some rank, congrArg (· - l.sinceIdle) times⟩

theorem takeRank_unranked (own : Nat) (lowest : lowestClass l = none) :
    (takeRank own l).tx = .idle ∧ (takeRank own l).rank = none := by
  unfold takeRank
  rw [lowest]
  exact ⟨rfl, rfl⟩

/-- A record that arrives in the idle, in a class below which nothing waits, gives the transmitter its rank (R137). -/
theorem recordArrived_ranked_lowest (own : Nat) (tx : l.tx = .idle) (idle : l.idle = true) (unranked : l.rank = none)
    (holds : headOf l c = true) (lower : ∀ d : TxClass, d.num < c.num → headOf l d = false) :
    RankTaken own c l.sinceIdle (recordArrived own l) := by
  rw [recordArrived, if_pos ⟨tx, idle, unranked⟩]
  exact takeRank_ranked own (lowestClass_eq_some holds lower)

/-- So the first record of a class, in queues empty until then, gives it the rank of that class. -/
theorem queued_ranked {s : State} (tx : s.link.tx = .idle) (idle : s.link.idle = true) (unranked : s.link.rank = none)
    (empty : ∀ d : TxClass, headOf s.link d = false) :
    (∀ e, RankTaken s.own .c0 s.link.sinceIdle (queueEvent e s).link) ∧
    (∀ r, RankTaken s.own .c1 s.link.sinceIdle (queueCall r s).link) ∧
    (∀ r, RankTaken s.own .c2 s.link.sinceIdle (queueIndication r s).link) ∧
    ∀ r, RankTaken s.own .c3 s.link.sinceIdle (queueGap r s).link := by
  obtain ⟨q0, q1, q2, q3⟩ := queues_nil empty
  refine ⟨fun e => ?_, fun r => ?_, fun r => ?_, fun r => ?_⟩
  · rw [queueEvent_link, offer0_room _ _ (by rw [q0]; decide)]
    exact recordArrived_ranked_lowest s.own tx idle unranked (by simp [headOf]) fun _ below => absurd below (Nat.not_lt_zero _)
  · rw [queueCall_link, offer1_room _ _ (by rw [q1]; decide)]
    exact recordArrived_ranked_lowest s.own tx idle unranked (by simp [headOf]) fun d below => by
      cases d with
      | c0 => exact empty .c0
      | c1 | c2 | c3 => exact absurd below (by decide)
  · rw [queueIndication_link, offer2_room _ _ (by rw [q2]; decide)]
    exact recordArrived_ranked_lowest s.own tx idle unranked (by simp [headOf]) fun d below => by
      cases d with
      | c0 => exact empty .c0
      | c1 => exact empty .c1
      | c2 | c3 => exact absurd below (by decide)
  · rw [queueGap_link, offer3_room _ _ (by rw [q3]; decide)]
    exact recordArrived_ranked_lowest s.own tx idle unranked (by simp [headOf]) fun d below => by
      cases d with
      | c0 => exact empty .c0
      | c1 => exact empty .c1
      | c2 => exact empty .c2
      | c3 => exact absurd below (by decide)

end

/-! ### The idle instant (R134, R141) -/

theorem receiverIdle_eq (l : Link) : receiverIdle l = { l with
    rx := if l.rx = .off then .off else .hunt
    gather := if l.rx = .frame then ⟨none, [], []⟩ else l.gather
    receiveError := if l.rx = .frame then min (l.receiveError + 1) 65535 else l.receiveError } := by
  unfold receiverIdle
  split <;> rename_i rx <;> simp only [rx, reduceCtorEq, if_true, if_false]
  · rw [← rx]
  · rw [← rx]
  · rfl

/-- The transmitter's part of the idle instant is its rank, begin time and the time since the idle instant. -/
theorem transmitterIdle_eq (own : Nat) (l : Link) : transmitterIdle own l = { l with
    tx := (transmitterIdle own l).tx, rank := (transmitterIdle own l).rank, beginIn := (transmitterIdle own l).beginIn
    sinceIdle := (transmitterIdle own l).sinceIdle } := by
  unfold transmitterIdle
  split
  · rw [takeRank_eq]
  · rw [takeRank_eq]
  · rfl
  · rfl

theorem transmitterIdle_takes (own : Nat) {l : Link} (tx : l.tx = .idle ∨ l.tx = .defer) :
    transmitterIdle own l = takeRank own { l with sinceIdle := 0 } := by
  unfold transmitterIdle
  rcases tx with tx | tx <;> rw [tx]

theorem transmitterIdle_sinceIdle (own : Nat) {l : Link} (since : l.sinceIdle = 0) : (transmitterIdle own l).sinceIdle = 0 := by
  unfold transmitterIdle
  split
  · rw [takeRank_sinceIdle]
  · rw [takeRank_sinceIdle]
  · exact since
  · exact since

/-- What an idle instant leaves: the link idle, and the receiver in wait of a frame (R134, R141; log entry 9). -/
theorem idleInstant_eq (own : Nat) (l : Link) : idleInstant own l = { l with
    level := .recessive, idle := true, recessiveTime := 150, sinceIdle := 0
    rx := if l.rx = .off then .off else .hunt
    gather := if l.rx = .frame then ⟨none, [], []⟩ else l.gather
    receiveError := if l.rx = .frame then min (l.receiveError + 1) 65535 else l.receiveError
    tx := (idleInstant own l).tx, rank := (idleInstant own l).rank, beginIn := (idleInstant own l).beginIn } := by
  have since := transmitterIdle_sinceIdle own
    (l := receiverIdle { l with level := .recessive, idle := true, recessiveTime := idleTicks, sinceIdle := 0 })
    (by rw [receiverIdle_eq])
  unfold idleInstant
  rw [transmitterIdle_eq, since, receiverIdle_eq]
  rfl

/-- The transmitter takes its rank from the queues as the idle instant finds them (R137). -/
theorem idleInstant_takes (own : Nat) {l : Link} (tx : l.tx = .idle ∨ l.tx = .defer) :
    ∃ m, idleInstant own l = takeRank own m ∧ m.sinceIdle = 0 ∧ lowestClass m = lowestClass l := by
  unfold idleInstant
  rw [receiverIdle_eq]
  exact ⟨_, transmitterIdle_takes own tx, rfl, rfl⟩

theorem idleInstant_ranked (own : Nat) {l : Link} {c : TxClass} (tx : l.tx = .idle ∨ l.tx = .defer)
    (lowest : lowestClass l = some c) : RankTaken own c 0 (idleInstant own l) := by
  obtain ⟨m, takes, since, same⟩ := idleInstant_takes own tx
  rw [takes, ← since]
  exact takeRank_ranked own (same.trans lowest)

theorem idleInstant_unranked (own : Nat) {l : Link} (tx : l.tx = .idle ∨ l.tx = .defer) (lowest : lowestClass l = none) :
    (idleInstant own l).tx = .idle ∧ (idleInstant own l).rank = none := by
  obtain ⟨m, takes, -, same⟩ := idleInstant_takes own tx
  rw [takes]
  exact takeRank_unranked own (same.trans lowest)

/-! ### The commands -/

section
variable {s : State}

theorem exec_linkIdleInstant_on (on : s.linkOn = true) (tx : s.link.tx ≠ .send) :
    exec .linkIdleInstant s = .next (s.setLink (idleInstant s.own s.link)) := by
  rw [exec_linkIdleInstant, if_pos ⟨on, tx⟩]

theorem exec_linkIdleInstant_ignored (ignored : s.linkOn = false ∨ s.link.tx = .send) : exec .linkIdleInstant s = .next s := by
  rw [exec_linkIdleInstant, if_neg]
  rintro ⟨on, tx⟩
  rcases ignored with off | send
  · exact Bool.false_ne_true (off.symm.trans on)
  · exact tx send

theorem exec_linkLevelChange_off (off : s.linkOn = false) (level : LineLevel) :
    exec (.linkLevelChange level) s = .next (s.setLink { s.link with level := level }) := by
  rw [exec_linkLevelChange]
  unfold linkLevelGiven
  rw [off]
  rfl

theorem exec_linkLevelChange_recessive (on : s.linkOn = true) :
    exec (.linkLevelChange .recessive) s = .next (s.setLink { s.link with level := .recessive }) := by
  rw [exec_linkLevelChange, linkLevelGiven, on]
  rfl

theorem exec_linkLevelChange_dominant (on : s.linkOn = true) :
    exec (.linkLevelChange .dominant) s = .next (linkEdge s) := by
  rw [exec_linkLevelChange, linkLevelGiven, on]
  rfl

/-- The 6 µs are over, and the idle instant has not been taken (R134). -/
def IdleDue (l : Link) : Prop := l.tx ≠ .send ∧ l.idle = false ∧ l.level = .recessive ∧ 150 ≤ l.recessiveTime

theorem exec_edge_due (on : s.linkOn = true) (late : IdleDue s.link) : exec (.linkLevelChange .dominant) s =
    .next (s.setLink (linkDominant (idleInstant s.own s.link))) := by
  rw [exec_linkLevelChange_dominant on, linkEdge_due ((dueLinkIdle_iff s).2 ⟨on, late⟩)]

theorem exec_edge_else (on : s.linkOn = true) (early : ¬IdleDue s.link) : exec (.linkLevelChange .dominant) s =
    .next (s.setLink (linkDominant s.link)) := by
  rw [exec_linkLevelChange_dominant on, linkEdge_else fun due => early ((dueLinkIdle_iff s).1 due).2]

/-- An edge on a link already recessive for 6 µs comes after its idle instant (R134). -/
theorem edge_after_idleInstant (on : s.linkOn = true) (late : IdleDue s.link) :
    ∃ t u, exec .linkIdleInstant s = .next t ∧ t.link.idle = true ∧
      exec (.linkLevelChange .dominant) t = .next u ∧ exec (.linkLevelChange .dominant) s = .next u ∧
      u.link.idle = false ∧ u.link.level = .dominant ∧ u.link.recessiveTime = 0 ∧
      (s.link.rx ≠ .off → u.link.rx = .frame ∧ u.link.gather = ⟨some 0, [], []⟩) ∧
      u.link.tx = t.link.tx ∧ u.link.rank = t.link.rank ∧ u.link.beginIn = t.link.beginIn := by
  have idle : (idleInstant s.own s.link).idle = true := by rw [idleInstant_eq]
  refine ⟨_, _, exec_linkIdleInstant_on on late.1, idle,
    exec_edge_else (s := s.setLink _) on fun due => Bool.false_ne_true (due.2.1.symm.trans idle), exec_edge_due on late, ?_⟩
  have hunts : s.link.rx ≠ .off → (idleInstant s.own s.link).rx = .hunt := fun rx => by rw [idleInstant_eq]; exact if_neg rx
  rw [State.setLink_link, State.setLink_link, linkDominant_eq]
  exact ⟨rfl, rfl, rfl, fun rx => ⟨if_pos (hunts rx), if_pos (hunts rx)⟩, rfl, rfl, rfl⟩

/-- Any other edge makes the link busy, and starts a character where the receiver looks for one (R134, R141). -/
theorem edge_without_idleInstant (on : s.linkOn = true) (early : ¬IdleDue s.link) :
    ∃ t, exec (.linkLevelChange .dominant) s = .next t ∧ t = { s with link := { s.link with
      level := .dominant, idle := false, recessiveTime := 0, rx := t.link.rx, gather := t.link.gather } } ∧
      (s.link.rx = .hunt → t.link.rx = .frame ∧ t.link.gather = ⟨some 0, [], []⟩) ∧
      (s.link.rx ≠ .hunt → t.link.rx = s.link.rx) ∧
      (s.link.rx = .frame → t.link.gather = if s.link.level = .recessive ∧ s.link.gather.since = none
        then ⟨some 0, [], s.link.gather.chars⟩ else s.link.gather) ∧
      (s.link.rx ≠ .hunt → s.link.rx ≠ .frame → t.link.gather = s.link.gather) := by
  refine ⟨_, exec_edge_else on early, ?_⟩
  rw [State.setLink_link, linkDominant_eq]
  refine ⟨rfl, fun hunt => ⟨if_pos hunt, if_pos hunt⟩, fun other => if_neg other, fun frame => ?_, fun hunts gathers => ?_⟩
  · simp [frame]
  · simp [hunts, gathers]

theorem idleInstant_taken (c : TxClass) (on : s.linkOn = true) (tx : s.link.tx ≠ .send) :
    ∃ t, exec .linkIdleInstant s = .next t ∧ Keeps [.link] s t ∧
      t.link.idle = true ∧ t.link.level = .recessive ∧ t.link.sinceIdle = 0 ∧
      (s.link.rx ≠ .off → t.link.rx = .hunt) ∧
      t.link.gather = (if s.link.rx = .frame then ⟨none, [], []⟩ else s.link.gather) ∧
      t.link.receiveError =
        (if s.link.rx = .frame then min (s.link.receiveError + 1) 65535 else s.link.receiveError) ∧
      (t.link.q0 = s.link.q0 ∧ t.link.q1 = s.link.q1 ∧ t.link.q2 = s.link.q2 ∧ t.link.q3 = s.link.q3 ∧
        t.link.rxQueue = s.link.rxQueue) ∧
      (s.link.tx = .idle ∨ s.link.tx = .defer →
        (headOf s.link c = true → (∀ lower : TxClass, lower.num < c.num → headOf s.link lower = false) →
          RankTaken s.own c 0 t.link) ∧
        ((∀ any : TxClass, headOf s.link any = false) → t.link.tx = .idle ∧ t.link.rank = none)) := by
  have ranked : s.link.tx = .idle ∨ s.link.tx = .defer →
      (headOf s.link c = true → (∀ lower : TxClass, lower.num < c.num → headOf s.link lower = false) →
        RankTaken s.own c 0 (idleInstant s.own s.link)) ∧
      ((∀ any : TxClass, headOf s.link any = false) →
        (idleInstant s.own s.link).tx = .idle ∧ (idleInstant s.own s.link).rank = none) := fun rests =>
    ⟨fun holds lower => idleInstant_ranked s.own rests (lowestClass_eq_some holds lower),
      fun empty => idleInstant_unranked s.own rests (lowestClass_eq_none empty)⟩
  refine ⟨_, exec_linkIdleInstant_on on tx, keeps_setLink _ _, ?_⟩
  rw [State.setLink_link, idleInstant_eq]
  exact ⟨rfl, rfl, rfl, fun rx => if_neg rx, rfl, rfl, ⟨rfl, rfl, rfl, rfl, rfl⟩, ranked⟩

end

/-! ### O57 -/

/-- Settles O57, by the commands' cases; the rank is that of the lowest class that holds a record. -/
theorem idleInstantGivesTheRank : Obligations.IdleInstantGivesTheRank := by
  unfold Obligations.IdleInstantGivesTheRank
  intro s c
  refine ⟨fun off => ⟨exec_linkIdleInstant_ignored (.inl off), exec_linkLevelChange_off off⟩, fun on => ?_⟩
  exact ⟨edge_after_idleInstant on, edge_without_idleInstant on, exec_linkLevelChange_recessive on, idleInstant_taken c on,
    fun send => exec_linkIdleInstant_ignored (.inr send), queued_ranked⟩

end Sys2Proof.Machine
end

section
/-! SUPPORT. The transmitter: what it begins to send, what a frame sent or abandoned leaves of the link, and the bit that the
station drives (R133, R136 to R139). -/

namespace Sys2Proof.Machine

/-! ### The bit in flight (R133) -/

/-- The bit that the time since the start of the frame lies in, with some ticks of the frame left. -/
def bitInFlight (fl : InFlight) (left : Nat) : LineLevel :=
  (fl.chars.flatMap charLevels).getD ((125 * fl.chars.length - left) * 2 / 25) .recessive

theorem length_flatMap_charLevels (chars : List Byte) : (chars.flatMap charLevels).length = 10 * chars.length := by
  induction chars with
  | nil => rfl
  | cons c cs ih =>
    rw [List.flatMap_cons, List.length_append, ih, List.length_cons]
    show 10 + _ = _
    omega

/-- Past its last stop bit a frame has no bit (R133). -/
theorem bitInFlight_end (fl : InFlight) : bitInFlight fl 0 = .recessive := by
  have last : (125 * fl.chars.length - 0) * 2 / 25 = (fl.chars.flatMap charLevels).length := by
    rw [length_flatMap_charLevels]
    omega
  rw [bitInFlight, last, List.getD_eq_default _ _ (Nat.le_refl _)]

section
variable {l : Link} {fl : InFlight}

theorem driven_eq_bitInFlight (tx : l.tx = .send) (flies : l.inFlight = some fl) : driven l = bitInFlight fl l.sendLeft :=
  driven_send tx flies

/-! ### The queues and their drop counters (R135, R136) -/

/-- The transmit queues are those of a link, less the head of one class where one is named. -/
def QueuesLess (l : Link) (gone : Option TxClass) (m : Link) : Prop :=
  m.q0 = (if gone = some .c0 then l.q0.drop 1 else l.q0) ∧ m.q1 = (if gone = some .c1 then l.q1.drop 1 else l.q1) ∧
  m.q2 = (if gone = some .c2 then l.q2.drop 1 else l.q2) ∧ m.q3 = (if gone = some .c3 then l.q3.drop 1 else l.q3)

/-- The drop counters are those of a link, with one drop more in the class named. -/
def DropsMore (l : Link) (counted : Option TxClass) (m : Link) : Prop :=
  m.drop0 = (if counted = some .c0 then min (l.drop0 + 1) 65535 else l.drop0) ∧
  m.drop1 = (if counted = some .c1 then min (l.drop1 + 1) 65535 else l.drop1) ∧
  m.drop2 = (if counted = some .c2 then min (l.drop2 + 1) 65535 else l.drop2) ∧
  m.drop3 = (if counted = some .c3 then min (l.drop3 + 1) 65535 else l.drop3)

theorem dropHead_eq (c : TxClass) (l : Link) : dropHead c l = { l with
    q0 := if c = .c0 then l.q0.drop 1 else l.q0, q1 := if c = .c1 then l.q1.drop 1 else l.q1
    q2 := if c = .c2 then l.q2.drop 1 else l.q2, q3 := if c = .c3 then l.q3.drop 1 else l.q3 } := by
  cases c <;> rfl

theorem countDrop_eq (c : TxClass) (l : Link) : countDrop c l = { l with
    drop0 := if c = .c0 then min (l.drop0 + 1) 65535 else l.drop0, drop1 := if c = .c1 then min (l.drop1 + 1) 65535 else l.drop1
    drop2 := if c = .c2 then min (l.drop2 + 1) 65535 else l.drop2
    drop3 := if c = .c3 then min (l.drop3 + 1) 65535 else l.drop3 } := by
  cases c <;> rfl

/-! ### The start of a frame (R137, R138) -/

/-- The frame begins: its class and characters are in flight, and its start bit makes the link busy (R138). -/
def Sends (l : Link) (cls : TxClass) (chars : List Byte) (m : Link) : Prop :=
  m.tx = .send ∧ m.inFlight = some ⟨cls, chars, false⟩ ∧ m.sendLeft = 125 * chars.length ∧ m.idle = false ∧
  m.level = .dominant ∧ m.recessiveTime = 0 ∧ m.rx = (if l.rx = .hunt then .frame else l.rx) ∧
  (l.rx = .hunt → m.gather = ⟨some 0, [], []⟩)

theorem beginSending_busy (own : Nat) (busy : l.idle = false) : beginSending own l = { l with tx := .idle, beginIn := 0 } := by
  unfold beginSending
  rw [busy]
  rfl

theorem beginSending_empty (own : Nat) (idle : l.idle = true) (empty : headFrame own l = none) :
    beginSending own l = { l with tx := .idle, rank := none, beginIn := 0 } := by
  unfold beginSending
  rw [idle, empty]
  rfl

theorem beginSending_frame (own : Nat) (idle : l.idle = true) (head : headFrame own l = some fl) : beginSending own l =
    linkDominant { l with tx := .send, inFlight := some fl, beginIn := 0, sendLeft := sendTicks fl.chars } := by
  unfold beginSending
  rw [idle, head]
  rfl

theorem beginSending_sends {cls : TxClass} {chars : List Byte} (own : Nat) (idle : l.idle = true)
    (head : headFrame own l = some ⟨cls, chars, false⟩) : Sends l cls chars (beginSending own l) := by
  rw [beginSending_frame own idle head, linkDominant_eq]
  exact ⟨rfl, rfl, sendTicks_eq chars, rfl, rfl, rfl, rfl, fun hunt => if_pos hunt⟩

/-- The begin time touches the transmitter, the receiver and the line, and neither queues nor counters. -/
theorem beginSending_leaves (own : Nat) (l : Link) : QueuesLess l none (beginSending own l) ∧
    DropsMore l none (beginSending own l) ∧ (beginSending own l).collision = l.collision := by
  unfold beginSending
  split
  · split
    · rw [linkDominant_eq]
      exact ⟨⟨rfl, rfl, rfl, rfl⟩, ⟨rfl, rfl, rfl, rfl⟩, rfl⟩
    · exact ⟨⟨rfl, rfl, rfl, rfl⟩, ⟨rfl, rfl, rfl, rfl⟩, rfl⟩
  · exact ⟨⟨rfl, rfl, rfl, rfl⟩, ⟨rfl, rfl, rfl, rfl⟩, rfl⟩

/-- The frame is that of the head record of the lowest class that holds one, of the kind of the class (R138, 11.1). -/
theorem headFrame_lowest (own : Nat) (l : Link) :
    (∀ r rest, l.q0 = r :: rest →
      headFrame own l = some ⟨.c0, frameChars own 0x20#8 r.run (eventPayload r.item), false⟩) ∧
    (∀ r rest, l.q0 = [] → l.q1 = r :: rest →
      headFrame own l = some ⟨.c1, frameChars own 0x11#8 r.run (callPayload r.item), false⟩) ∧
    (∀ r rest, l.q0 = [] → l.q1 = [] → l.q2 = r :: rest →
      headFrame own l = some ⟨.c2, frameChars own 0x10#8 r.run (indicationPayload r.item), false⟩) ∧
    (∀ r rest, l.q0 = [] → l.q1 = [] → l.q2 = [] → l.q3 = r :: rest →
      headFrame own l = some ⟨.c3, frameChars own 0x12#8 r.run (gapPayload r.item), false⟩) ∧
    (l.q0 = [] → l.q1 = [] → l.q2 = [] → l.q3 = [] → headFrame own l = none) := by
  unfold headFrame
  refine ⟨fun r rest q0 => ?_, fun r rest q0 q1 => ?_, fun r rest q0 q1 q2 => ?_, fun r rest q0 q1 q2 q3 => ?_,
    fun q0 q1 q2 q3 => ?_⟩
  · rw [q0]; rfl
  · rw [q0, q1]; rfl
  · rw [q0, q1, q2]; rfl
  · rw [q0, q1, q2, q3]; rfl
  · rw [q0, q1, q2, q3]

/-! ### The end of a frame (R138, R139, R142) -/

theorem frameSent_eq (flies : l.inFlight = some fl) : frameSent l = { dropHead fl.cls l with
    tx := .idle, inFlight := none, sendLeft := 0, level := levelUndriven (driven l) l.level, recessiveTime := 0
    rx := if l.rx = .frame then .skip else l.rx, gather := ⟨none, [], []⟩ } := by
  unfold frameSent
  rw [flies]
  rfl

theorem frameSent_none (rests : l.inFlight = none) : frameSent l = l := by
  unfold frameSent
  rw [rests]

theorem frameAbandoned_none (rests : l.inFlight = none) : frameAbandoned l = l := by
  unfold frameAbandoned
  rw [rests]

/-- The link after a mismatch, before a flushed record is taken out (R139). -/
def mismatchTaken (l : Link) : Link :=
  linkLevel (mismatched l) { l with collision := satAdd l.collision 1, tx := .idle, inFlight := none, sendLeft := 0 }

theorem frameAbandoned_kept (flies : l.inFlight = some fl) (kept : fl.flushed = false) : frameAbandoned l = mismatchTaken l := by
  unfold frameAbandoned
  rw [flies]
  dsimp only
  rw [kept]
  rfl

theorem frameAbandoned_flushed (flies : l.inFlight = some fl) (flushed : fl.flushed = true) :
    frameAbandoned l = countDrop fl.cls (dropHead fl.cls (mismatchTaken l)) := by
  unfold frameAbandoned
  rw [flies]
  dsimp only
  rw [flushed]
  rfl

/-- What a mismatch leaves, by the bit that the station sent: the link carries the other level (R139). -/
structure Mismatched (l : Link) (bit : LineLevel) (m : Link) : Prop where
  tx : m.tx = .idle
  inFlight : m.inFlight = none
  collision : m.collision = min (l.collision + 1) 65535
  overridden : bit = .recessive → m.level = .dominant ∧ m.idle = false ∧ m.recessiveTime = 0
  receiver : bit = .recessive → l.level = .dominant → l.rx ≠ .hunt → m.rx = l.rx ∧ m.gather = l.gather
  failed : bit = .dominant → m.level = .recessive ∧ m.idle = l.idle ∧ m.recessiveTime = l.recessiveTime ∧
    m.rx = l.rx ∧ m.gather = l.gather

theorem mismatchTaken_recessive (sent : driven l = .recessive) : mismatchTaken l =
    linkDominant { l with collision := satAdd l.collision 1, tx := .idle, inFlight := none, sendLeft := 0 } := by
  unfold mismatchTaken mismatched
  rw [sent]
  rfl

theorem mismatchTaken_dominant (sent : driven l = .dominant) : mismatchTaken l =
    { l with collision := satAdd l.collision 1, tx := .idle, inFlight := none, sendLeft := 0, level := .recessive } := by
  unfold mismatchTaken mismatched
  rw [sent]
  rfl

theorem mismatchTaken_mismatched (l : Link) : Mismatched l (driven l) (mismatchTaken l) := by
  cases sent : driven l with
  | recessive =>
    rw [mismatchTaken_recessive sent, linkDominant_eq]
    refine ⟨rfl, rfl, rfl, fun _ => ⟨rfl, rfl, rfl⟩, fun _ level rx => ⟨if_neg rx, ?_⟩, nofun⟩
    simp [rx, level]
  | dominant =>
    rw [mismatchTaken_dominant sent]
    exact ⟨rfl, rfl, rfl, nofun, nofun, fun _ => ⟨rfl, rfl, rfl, rfl, rfl⟩⟩

theorem mismatchTaken_leaves (l : Link) : QueuesLess l none (mismatchTaken l) ∧ DropsMore l none (mismatchTaken l) := by
  cases sent : driven l with
  | recessive =>
    rw [mismatchTaken_recessive sent, linkDominant_eq]
    exact ⟨⟨rfl, rfl, rfl, rfl⟩, ⟨rfl, rfl, rfl, rfl⟩⟩
  | dominant =>
    rw [mismatchTaken_dominant sent]
    exact ⟨⟨rfl, rfl, rfl, rfl⟩, ⟨rfl, rfl, rfl, rfl⟩⟩

theorem Mismatched.takenOut {bit : LineLevel} {m : Link} (h : Mismatched l bit m) (c : TxClass) :
    Mismatched l bit (countDrop c (dropHead c m)) := by
  rw [countDrop_eq, dropHead_eq]
  exact ⟨h.tx, h.inFlight, h.collision, h.overridden, h.receiver, h.failed⟩

theorem QueuesLess.takenOut {m : Link} (h : QueuesLess l none m) (c : TxClass) :
    QueuesLess l (some c) (countDrop c (dropHead c m)) := by
  obtain ⟨q0, q1, q2, q3⟩ := h
  rw [countDrop_eq, dropHead_eq]
  refine ⟨?_, ?_, ?_, ?_⟩
  · simp [q0]
  · simp [q1]
  · simp [q2]
  · simp [q3]

theorem DropsMore.takenOut {m : Link} (h : DropsMore l none m) (c : TxClass) :
    DropsMore l (some c) (countDrop c (dropHead c m)) := by
  obtain ⟨drop0, drop1, drop2, drop3⟩ := h
  rw [countDrop_eq, dropHead_eq]
  refine ⟨?_, ?_, ?_, ?_⟩
  · simp [drop0]
  · simp [drop1]
  · simp [drop2]
  · simp [drop3]

theorem frameAbandoned_mismatched (flies : l.inFlight = some fl) : Mismatched l (driven l) (frameAbandoned l) := by
  cases flushed : fl.flushed with
  | false => rw [frameAbandoned_kept flies flushed]; exact mismatchTaken_mismatched l
  | true => rw [frameAbandoned_flushed flies flushed]; exact (mismatchTaken_mismatched l).takenOut _

end

/-! ### The commands -/

section
variable {s : State}

theorem exec_beginTime_defer (tx : s.link.tx = .defer) : exec .beginTime s = .next (s.setLink (beginSending s.own s.link)) := by
  rw [exec_beginTime, if_pos tx]

theorem exec_frameComplete_send (tx : s.link.tx = .send) : exec .frameComplete s = .next (s.setLink (frameSent s.link)) := by
  rw [exec_frameComplete, if_pos tx]

theorem exec_readbackMismatch_send (tx : s.link.tx = .send) :
    exec .readbackMismatch s = .next (s.setLink (frameAbandoned s.link)) := by
  rw [exec_readbackMismatch, if_pos tx]

/-- A deferring transmitter on an idle link sends the head record of the lowest class, or has nothing to send (R137, R138). -/
theorem beginTime_idle (tx : s.link.tx = .defer) (idle : s.link.idle = true) :
    ∃ t, exec .beginTime s = .next t ∧ Keeps [.link] s t ∧ QueuesLess s.link none t.link ∧ DropsMore s.link none t.link ∧
      t.link.collision = s.link.collision ∧
      (∀ r rest, s.link.q0 = r :: rest →
        Sends s.link .c0 (frameChars s.own 0x20#8 r.run (eventPayload r.item)) t.link) ∧
      (∀ r rest, s.link.q0 = [] → s.link.q1 = r :: rest →
        Sends s.link .c1 (frameChars s.own 0x11#8 r.run (callPayload r.item)) t.link) ∧
      (∀ r rest, s.link.q0 = [] → s.link.q1 = [] → s.link.q2 = r :: rest →
        Sends s.link .c2 (frameChars s.own 0x10#8 r.run (indicationPayload r.item)) t.link) ∧
      (∀ r rest, s.link.q0 = [] → s.link.q1 = [] → s.link.q2 = [] → s.link.q3 = r :: rest →
        Sends s.link .c3 (frameChars s.own 0x12#8 r.run (gapPayload r.item)) t.link) ∧
      (s.link.q0 = [] → s.link.q1 = [] → s.link.q2 = [] → s.link.q3 = [] →
        t.link = { s.link with tx := .idle, rank := none, beginIn := 0 }) := by
  obtain ⟨queues, drops, collision⟩ := beginSending_leaves s.own s.link
  obtain ⟨c0, c1, c2, c3, empty⟩ := headFrame_lowest s.own s.link
  refine ⟨_, exec_beginTime_defer tx, keeps_setLink _ _, queues, drops, collision, ?_⟩
  exact ⟨fun r rest q0 => beginSending_sends _ idle (c0 r rest q0),
    fun r rest q0 q1 => beginSending_sends _ idle (c1 r rest q0 q1),
    fun r rest q0 q1 q2 => beginSending_sends _ idle (c2 r rest q0 q1 q2),
    fun r rest q0 q1 q2 q3 => beginSending_sends _ idle (c3 r rest q0 q1 q2 q3),
    fun q0 q1 q2 q3 => beginSending_empty _ idle (empty q0 q1 q2 q3)⟩

/-- A frame sent to its end takes its record out of its queue (R138). -/
theorem frameComplete_sent {fl : InFlight} (tx : s.link.tx = .send) (flies : s.link.inFlight = some fl) :
    ∃ t, exec .frameComplete s = .next t ∧ Keeps [.link] s t ∧ t.link.tx = .idle ∧ t.link.inFlight = none ∧
      QueuesLess s.link (some fl.cls) t.link ∧ DropsMore s.link none t.link ∧ t.link.collision = s.link.collision ∧
      (bitInFlight fl s.link.sendLeft = .dominant → t.link.level = .recessive) ∧
      (bitInFlight fl s.link.sendLeft = .recessive → t.link.level = s.link.level) ∧
      (s.link.sendLeft = 0 → bitInFlight fl s.link.sendLeft = .recessive) ∧ t.link.idle = s.link.idle ∧
      t.link.recessiveTime = 0 ∧ t.link.rx = (if s.link.rx = .frame then .skip else s.link.rx) ∧
      t.link.gather = ⟨none, [], []⟩ ∧ t.link.receiveError = s.link.receiveError ∧ t.link.rxQueue = s.link.rxQueue := by
  have level : ∀ bit, bitInFlight fl s.link.sendLeft = bit →
      (frameSent s.link).level = levelUndriven bit s.link.level := fun bit sent => by
    rw [frameSent_eq flies, driven_eq_bitInFlight tx flies, sent]
  have queues : QueuesLess s.link (some fl.cls) (frameSent s.link) := by
    rw [frameSent_eq flies, dropHead_eq]
    simp [QueuesLess]
  refine ⟨_, exec_frameComplete_send tx, keeps_setLink _ _, ?_⟩
  rw [State.setLink_link]
  rw [frameSent_eq flies, dropHead_eq] at level queues ⊢
  exact ⟨rfl, rfl, queues, ⟨rfl, rfl, rfl, rfl⟩, rfl, level .dominant, level .recessive,
    fun last => last ▸ bitInFlight_end fl, rfl, rfl, rfl, rfl, rfl, rfl⟩

/-- A frame abandoned on a mismatch keeps its record at the head, unless a run has started since it began (R136, R139). -/
theorem readbackMismatch_abandoned {fl : InFlight} (tx : s.link.tx = .send) (flies : s.link.inFlight = some fl) :
    ∃ t, exec .readbackMismatch s = .next t ∧ Keeps [.link] s t ∧
      Mismatched s.link (bitInFlight fl s.link.sendLeft) t.link ∧
      (fl.flushed = false → QueuesLess s.link none t.link ∧ DropsMore s.link none t.link) ∧
      (fl.flushed = true → QueuesLess s.link (some fl.cls) t.link ∧ DropsMore s.link (some fl.cls) t.link) := by
  obtain ⟨queues, drops⟩ := mismatchTaken_leaves s.link
  refine ⟨_, exec_readbackMismatch_send tx, keeps_setLink _ _, ?_, fun kept => ?_, fun flushed => ?_⟩
  · rw [← driven_eq_bitInFlight tx flies]
    exact frameAbandoned_mismatched flies
  · rw [State.setLink_link, frameAbandoned_kept flies kept]
    exact ⟨queues, drops⟩
  · rw [State.setLink_link, frameAbandoned_flushed flies flushed]
    exact ⟨queues.takenOut _, drops.takenOut _⟩

end

/-! ### O58 -/

/-- Settles O58, by the state of the transmitter: the frame begun is the head record's, and it leaves its queue when it is sent,
or when a run has started since. -/
theorem transmitterSendsTheHeadRecord : Obligations.TransmitterSendsTheHeadRecord := by
  unfold Obligations.TransmitterSendsTheHeadRecord
  intro s
  refine ⟨fun tx busy => ?_, fun tx idle => beginTime_idle tx idle, fun fl tx flies => ⟨frameComplete_sent tx flies, ?_⟩,
    fun tx rests => ?_, fun tx => ?_, fun tx => ?_⟩
  · rw [exec_beginTime_defer tx, beginSending_busy s.own busy]
    rfl
  · obtain ⟨t, answers, keeps, left, kept, flushed⟩ := readbackMismatch_abandoned tx flies
    exact ⟨t, answers, keeps, left.tx, left.inFlight, left.collision, kept, flushed, left.overridden, left.receiver,
      left.failed⟩
  · rw [exec_frameComplete_send tx, exec_readbackMismatch_send tx, frameSent_none rests, frameAbandoned_none rests]
    exact ⟨rfl, rfl⟩
  · exact ⟨by rw [exec_frameComplete, if_neg tx], by rw [exec_readbackMismatch, if_neg tx]⟩
  · rw [exec_beginTime, if_neg tx]

end Sys2Proof.Machine
end

section
/-! SUPPORT. The frames as built and as read: the characters of a frame parse to it, and each field of a payload stands at its
offset (11.1, 11.2, R141, R155 to R158). -/

namespace Sys2Proof.Machine

/-! ### The frame on the link (R138, R141, 11.1) -/

theorem frameChars_eq (source : Nat) (kind run : Byte) (payload : List Byte) : frameChars source kind run payload =
    0x5A#8 :: BitVec.ofNat 8 source :: kind :: run :: BitVec.ofNat 8 payload.length :: (payload ++
      crcBytes (crc16 (BitVec.ofNat 8 source :: kind :: run :: BitVec.ofNat 8 payload.length :: payload))) := rfl

theorem crcBytes_length (crc : BitVec 16) : (crcBytes crc).length = 2 := rfl

theorem frameChars_length (source : Nat) (kind run : Byte) (payload : List Byte) :
    (frameChars source kind run payload).length = 7 + payload.length := by
  simp only [frameChars_eq, List.length_cons, List.length_append, crcBytes_length]
  omega

/-- A frame as built passes the checks, and is read as it was built (R141). -/
theorem parseFrame_frameChars {source : Nat} (kind run : Byte) {payload : List Byte}
    (fits : payload.length ≤ 32) : parseFrame (frameChars source kind run payload) =
      some ⟨BitVec.ofNat 5 source, kind, run, payload⟩ := by
  have length : (BitVec.ofNat 8 payload.length).toNat = payload.length := byte_toNat (by omega)
  have address : (BitVec.ofNat 8 source).truncate 5 = BitVec.ofNat 5 source := by
    apply BitVec.eq_of_toNat_eq
    simp only [BitVec.truncate_eq_setWidth, BitVec.toNat_setWidth, BitVec.toNat_ofNat]
    omega
  rw [frameChars_eq]
  unfold parseFrame
  dsimp only
  rw [length, List.take_left, List.drop_left, if_pos ⟨rfl, fits, by rw [List.length_append, crcBytes_length], rfl⟩, address]

/-! ### Fields at their offsets (chapter 11: least significant byte first) -/

def field1 (p : List Byte) (off : Nat) : Nat := (p.getD off 0).toNat
def field2 (p : List Byte) (off : Nat) : Nat := field1 p off + 256 * field1 p (off + 1)
def field4 (p : List Byte) (off : Nat) : Nat := field2 p off + 65536 * field2 p (off + 2)

/-- A four-byte field as a position, in two's complement. -/
def positionField (p : List Byte) (off : Nat) : Int :=
  if field4 p off < 2147483648 then (field4 p off : Int) else field4 p off - 4294967296

/-- A number holds a list of flags, the first flag in bit 0, and 0 in the bits beyond. -/
def HoldsFlags (n : Nat) (bits : List Bool) : Prop := ∀ i, n.testBit i = bits.getD i false

/-- A position that 32 bits in two's complement hold. -/
def InPlaces (x : Int) : Prop := -2147483648 ≤ x ∧ x < 2147483648

/-- A rail as a number of 11.2. -/
def railNumber (r : Rail) : Nat := if r = .left then 0 else 1

theorem railCode_toNat (r : Rail) : (railCode r).toNat = railNumber r := by cases r <;> rfl

theorem position_of_word {x : Int} (places : InPlaces x) {n : Nat} (word : n = (BitVec.ofInt 32 x).toNat) :
    (if n < 2147483648 then (n : Int) else n - 4294967296) = x := by
  rw [word]
  exact (ofInt32_toNat places.1 places.2).2

section
variable {p : List Byte} {off : Nat}

theorem positionField_eq {x : Int} (places : InPlaces x) (word : field4 p off = (BitVec.ofInt 32 x).toNat) :
    positionField p off = x := position_of_word places word

theorem byteAt_eq_field1 (inside : off < p.length) : byteAt p off = field1 p off := by
  rw [byteAt, field1, List.getD_eq_getElem _ _ inside, List.getD_eq_getElem _ _ inside]

theorem wordAt_eq_field2 (inside : off + 1 < p.length) : wordAt p off = field2 p off := by
  rw [wordAt, field2, byteAt_eq_field1 (by omega), byteAt_eq_field1 inside]

theorem wordAt_toNat (inside : off + 1 < p.length) : (BitVec.ofNat 16 (wordAt p off)).toNat = field2 p off := by
  rw [BitVec.toNat_ofNat, Nat.mod_eq_of_lt (wordAt_lt p off), wordAt_eq_field2 inside]

theorem longAt_eq_position (inside : off + 3 < p.length) : (longAt p off).toInt = positionField p off := by
  rw [longAt_toInt, wordAt_eq_field2 (by omega), wordAt_eq_field2 (by omega)]
  rfl

/-- The numbers of a list, two bytes each, stand at the even offsets. -/
theorem field2_flatMap : ∀ (ns : List Nat) (i : Nat), i < ns.length → (∀ n ∈ ns, n ≤ 65535) →
    ns[i]? = some (field2 (ns.flatMap bytes2) (2 * i))
  | n :: _, 0, _, small => congrArg some (bytes2_value (small n (List.mem_cons_self ..))).symm
  | _ :: ns, i + 1, inside, small =>
    field2_flatMap ns i (Nat.lt_of_succ_lt_succ inside) fun m mem => small m (List.mem_cons_of_mem _ mem)

end

/-! ### INDICATION (11.2, R155) -/

section
variable {r : Indication}

/-- What 11.2 holds of an indication record. -/
structure IndicationInRange (r : Indication) : Prop where
  origin : r.origin ≤ 15
  seq : r.seq ≤ 65535
  beam : r.beam ≤ 8
  xStart : InPlaces r.xStart
  xEnd : InPlaces r.xEnd
  extent : r.xStart ≤ r.xEnd
  depth : r.zMin ≤ r.zMax
  zMax : r.zMax ≤ 6143
  peak : r.peak ≤ 255
  hit : 1 ≤ r.hits
  hits : r.hits ≤ 255
  spanned : r.spanned ≤ 65535

/-- The fields of an indication record at their offsets. -/
structure IndicationFields (p : List Byte) (r : Indication) : Prop where
  length : p.length = 23
  origin : field1 p 0 = r.origin
  seq : field2 p 1 = r.seq
  channel : field1 p 3 = r.channel.num
  rail : field1 p 4 = railNumber r.rail
  beam : field1 p 5 = r.beam
  xStart : positionField p 6 = r.xStart
  xEnd : positionField p 10 = r.xEnd
  zMin : field2 p 14 = r.zMin
  zMax : field2 p 16 = r.zMax
  peak : field1 p 18 = r.peak
  hits : field1 p 19 = r.hits
  spanned : field2 p 20 = r.spanned
  flags : HoldsFlags (field1 p 22) [r.saturated, r.doubtful, r.gapped, r.long, r.cut]

theorem indicationPayload_fields (h : IndicationInRange r) : IndicationFields (indicationPayload r) r := by
  simp only [indicationPayload, bytes2, bytes4, List.cons_append, List.nil_append]
  exact {
    length := rfl
    origin := byte_toNat (h.origin.trans (by decide))
    seq := bytes2_value h.seq
    channel := byte_toNat (r.channel.num_lt.le.trans (by decide))
    rail := railCode_toNat r.rail
    beam := byte_toNat (h.beam.trans (by decide))
    xStart := positionField_eq h.xStart (bytes4_value (BitVec.isLt _))
    xEnd := positionField_eq h.xEnd (bytes4_value (BitVec.isLt _))
    zMin := bytes2_value ((h.depth.trans h.zMax).trans (by decide))
    zMax := bytes2_value (h.zMax.trans (by decide))
    peak := byte_toNat h.peak
    hits := byte_toNat h.hits
    spanned := bytes2_value h.spanned
    flags := packBits_byte (by simp) }

/-- A received INDICATION payload is read at the offsets of 11.2 (R157). -/
structure IndicationRead (p : List Byte) (m : IndicationPayload) : Prop where
  origin : m.origin.toNat = field1 p 0
  seq : m.seq.toNat = field2 p 1
  channel : m.channel.toNat = field1 p 3
  rail : m.rail.toNat = field1 p 4
  beam : m.beam.toNat = field1 p 5
  xStart : m.xStart.toInt = positionField p 6
  xEnd : m.xEnd.toInt = positionField p 10
  zMin : m.zMin.toNat = field2 p 14
  zMax : m.zMax.toNat = field2 p 16
  peak : m.peak.toNat = field1 p 18
  hits : m.hits.toNat = field1 p 19
  spanned : m.spanned.toNat = field2 p 20
  flags : m.flags.toNat = field1 p 22

theorem indicationOfBytes_read {p : List Byte} (length : p.length = 23) : IndicationRead p (indicationOfBytes p) where
  origin := rfl
  seq := wordAt_toNat (by omega)
  channel := rfl
  rail := rfl
  beam := rfl
  xStart := longAt_eq_position (by omega)
  xEnd := longAt_eq_position (by omega)
  zMin := wordAt_toNat (by omega)
  zMax := wordAt_toNat (by omega)
  peak := rfl
  hits := rfl
  spanned := wordAt_toNat (by omega)
  flags := rfl

theorem rail_of_number {b : Byte} {rail : Rail} (number : b.toNat = railNumber rail) :
    (if b = 0x00#8 then Rail.left else .right) = rail := by
  cases rail with
  | left => exact if_pos (BitVec.eq_of_toNat_eq number)
  | right => exact if_neg fun zero => by rw [zero] at number; cases number

/-- The record sent is the record read (R114, R157). -/
theorem indicationRecord_payload (h : IndicationInRange r) :
    indicationRecord (indicationOfBytes (indicationPayload r)) = some r := by
  have sent := indicationPayload_fields h
  have read := indicationOfBytes_read sent.length
  generalize indicationOfBytes (indicationPayload r) = m at read
  have origin := read.origin.trans sent.origin
  have channel := read.channel.trans sent.channel
  have beam := read.beam.trans sent.beam
  have xStart := read.xStart.trans sent.xStart
  have xEnd := read.xEnd.trans sent.xEnd
  have zMin := read.zMin.trans sent.zMin
  have zMax := read.zMax.trans sent.zMax
  have hits := read.hits.trans sent.hits
  have rail := rail_of_number (read.rail.trans sent.rail)
  have flags : ∀ i, m.flags.getLsbD i = [r.saturated, r.doubtful, r.gapped, r.long, r.cut].getD i false := fun i => by
    rw [← sent.flags i, ← read.flags]
    rfl
  have passes : m.origin.toNat ≤ 15 ∧ m.xStart.toInt ≤ m.xEnd.toInt ∧ m.zMin.toNat ≤ m.zMax.toNat ∧
      m.zMax.toNat ≤ 6143 ∧ m.beam.toNat ≤ 8 ∧ m.hits.toNat ≠ 0 ∧ m.channel.toNat ≤ 7 := by
    rw [origin, xStart, xEnd, zMin, zMax, beam, hits, channel]
    exact ⟨h.origin, h.extent, h.depth, h.zMax, h.beam, Nat.ne_of_gt h.hit, Nat.le_of_lt_succ r.channel.num_lt⟩
  unfold indicationRecord
  rw [if_pos passes, origin, read.seq.trans sent.seq, channel, Chan.ofNum_num, rail, beam, xStart, xEnd, zMin, zMax,
    read.peak.trans sent.peak, hits, read.spanned.trans sent.spanned, flags 0, flags 1, flags 2, flags 3, flags 4]
  rfl

end
/-! ### CALL (11.2, R155) -/

/-- A call's member at its offset. -/
def MemberFields (p : List Byte) (off : Nat) (m : Member) : Prop :=
  field1 p off = m.origin ∧ field2 p (off + 1) = m.seq ∧ field1 p (off + 3) = m.beam

def MemberInRange (m : Member) : Prop := m.origin ≤ 15 ∧ m.seq ≤ 65535 ∧ m.beam ≤ 8

section
variable {r : Call}

/-- What 11.2 holds of a call, but for its members. -/
structure CallInRange (r : Call) : Prop where
  seq : r.seq ≤ 65535
  cls : r.cls ≤ 3
  xLo : InPlaces r.xLo
  xHi : InPlaces r.xHi
  zLo : r.zLo ≤ 65535
  zHi : r.zHi ≤ 65535
  peak : r.peak ≤ 255

/-- The payload of a call up to its first member. -/
def callHead (r : Call) : List Byte :=
  bytes2 r.seq ++ [BitVec.ofNat 8 r.cls, railCode r.rail] ++ bytes4 r.xLo ++ bytes4 r.xHi ++ bytes2 r.zLo ++
  bytes2 r.zHi ++ [BitVec.ofNat 8 r.peak,
    BitVec.ofNat 8 (packBits [r.uncertain, r.early, r.saturated, r.doubtful, r.long])] ++ memberBytes r.first

theorem callPayload_none (single : r.second = none) : callPayload r = callHead r ++ [] := by
  unfold callPayload
  rw [single]
  rfl

theorem callPayload_some {m : Member} (pair : r.second = some m) : callPayload r = callHead r ++ memberBytes m := by
  unfold callPayload
  rw [pair]
  rfl

theorem callHead_length (r : Call) : (callHead r).length = 22 := rfl

theorem callHead_fields (h : CallInRange r) (first : MemberInRange r.first) (rest : List Byte) :
    let p := callHead r ++ rest
    field2 p 0 = r.seq ∧ field1 p 2 = r.cls ∧ field1 p 3 = railNumber r.rail ∧
    positionField p 4 = r.xLo ∧ positionField p 8 = r.xHi ∧ field2 p 12 = r.zLo ∧ field2 p 14 = r.zHi ∧ field1 p 16 = r.peak ∧
    HoldsFlags (field1 p 17) [r.uncertain, r.early, r.saturated, r.doubtful, r.long] ∧ MemberFields p 18 r.first := by
  obtain ⟨origin, seq, beam⟩ := first
  simp only [callHead, memberBytes, bytes2, bytes4, List.cons_append, List.nil_append]
  exact ⟨bytes2_value h.seq, byte_toNat (h.cls.trans (by decide)), railCode_toNat r.rail,
    positionField_eq h.xLo (bytes4_value (BitVec.isLt _)), positionField_eq h.xHi (bytes4_value (BitVec.isLt _)),
    bytes2_value h.zLo, bytes2_value h.zHi, byte_toNat h.peak, packBits_byte (by simp),
    byte_toNat (origin.trans (by decide)), bytes2_value seq, byte_toNat (beam.trans (by decide))⟩

theorem secondMember_fields {m : Member} (second : MemberInRange m) : MemberFields (callHead r ++ memberBytes m) 22 m := by
  obtain ⟨origin, seq, beam⟩ := second
  simp only [callHead, memberBytes, bytes2, bytes4, List.cons_append, List.nil_append]
  exact ⟨byte_toNat (origin.trans (by decide)), bytes2_value seq, byte_toNat (beam.trans (by decide))⟩

theorem callPayload_fields (h : CallInRange r) (members : ∀ m : Member, m = r.first ∨ r.second = some m → MemberInRange m)
    (pairs : r.second = none ↔ r.cls = 0) :
    let p := callPayload r
    p.length = (if r.cls = 0 then 22 else 26) ∧ field2 p 0 = r.seq ∧ field1 p 2 = r.cls ∧ field1 p 3 = railNumber r.rail ∧
    positionField p 4 = r.xLo ∧ positionField p 8 = r.xHi ∧ field2 p 12 = r.zLo ∧ field2 p 14 = r.zHi ∧ field1 p 16 = r.peak ∧
    HoldsFlags (field1 p 17) [r.uncertain, r.early, r.saturated, r.doubtful, r.long] ∧ MemberFields p 18 r.first ∧
    ∀ m, r.second = some m → MemberFields p 22 m := by
  have head := callHead_fields h (members _ (.inl rfl))
  cases second : r.second with
  | none =>
    rw [callPayload_none second, if_pos (pairs.1 second)]
    obtain ⟨seq, cls, rail, xLo, xHi, zLo, zHi, peak, flags, first⟩ := head []
    exact ⟨callHead_length r, seq, cls, rail, xLo, xHi, zLo, zHi, peak, flags, first, nofun⟩
  | some m =>
    rw [callPayload_some second, if_neg fun zero => by rw [pairs.2 zero] at second; cases second]
    obtain ⟨seq, cls, rail, xLo, xHi, zLo, zHi, peak, flags, first⟩ := head (memberBytes m)
    refine ⟨rfl, seq, cls, rail, xLo, xHi, zLo, zHi, peak, flags, first, fun x same => ?_⟩
    cases same
    exact secondMember_fields (members m (.inr second))

end

/-! ### GAP (11.2, R155) -/

theorem reasonCode_listed (r : Reason) :
    some r = [.uncoupled, .muted, .unassigned, .missed, .blocked][(reasonCode r).toNat - 1]? ∧ 1 ≤ (reasonCode r).toNat := by
  cases r <;> decide

theorem closureCode_listed (c : Closure) :
    some c = [.resumed, .changed, .full, .stopped][(closureCode c).toNat - 1]? ∧ 1 ≤ (closureCode c).toNat := by
  cases c <;> decide

theorem gapPayload_fields {r : GapRecord} (origin : r.origin ≤ 15) (seq : r.seq ≤ 65535) (beam : r.beam ≤ 8)
    (xStart : InPlaces r.xStart) (xEnd : InPlaces r.xEnd) (firings : r.firings ≤ 65535) :
    let p := gapPayload r
    p.length = 18 ∧ field1 p 0 = r.origin ∧ field2 p 1 = r.seq ∧ field1 p 3 = r.channel.num ∧ field1 p 4 = r.beam ∧
    field1 p 5 = railNumber r.rail ∧
    some r.reason = [.uncoupled, .muted, .unassigned, .missed, .blocked][field1 p 6 - 1]? ∧ 1 ≤ field1 p 6 ∧
    positionField p 7 = r.xStart ∧ positionField p 11 = r.xEnd ∧ field2 p 15 = r.firings ∧
    some r.closure = [.resumed, .changed, .full, .stopped][field1 p 17 - 1]? ∧ 1 ≤ field1 p 17 := by
  obtain ⟨reason, reasoned⟩ := reasonCode_listed r.reason
  obtain ⟨closure, closed⟩ := closureCode_listed r.closure
  simp only [gapPayload, bytes2, bytes4, List.cons_append, List.nil_append]
  exact ⟨rfl, byte_toNat (origin.trans (by decide)), bytes2_value seq, byte_toNat (r.channel.num_lt.le.trans (by decide)),
    byte_toNat (beam.trans (by decide)), railCode_toNat r.rail, reason, reasoned,
    positionField_eq xStart (bytes4_value (BitVec.isLt _)), positionField_eq xEnd (bytes4_value (BitVec.isLt _)),
    bytes2_value firings, closure, closed⟩

/-! ### EVENT (11.2, R155) -/

theorem causeCode_listed (c : ResetCause) :
    some c = [.powerOn, .resetPin, .supplyLow][(causeCode c).toNat - 1]? ∧ 1 ≤ (causeCode c).toNat := by
  cases c <;> decide

theorem faultCodeByte_listed (c : FaultCode) : 1 ≤ (faultCodeByte c).toNat ∧ some c =
    [.format, .length, .imageCrc, .noEndMark, .entryEmpty, .entryOverfull, .ruleCount][(faultCodeByte c).toNat - 1]? := by
  cases c <;> decide

/-- A channel's two bytes of the warning set hold its thirteen kinds, each channel after the one before it. -/
theorem chanWarnings_field (cause : ResetCause) (w : Warnings) (c : Chan) :
    HoldsFlags (field2 (eventPayload (.stationUp cause w)) (6 + 2 * c.num)) (chanWarningBits (w.chan.get c)) := by
  have kinds : (chanWarningBits (w.chan.get c)).length ≤ 16 := by simp [chanWarningBits]
  simp only [eventPayload, warningBytes, Chan.all, List.flatMap_cons, List.flatMap_nil, bytes2, List.cons_append, List.nil_append]
  cases c <;> exact packBits_word kinds

theorem stationUp_fields (cause : ResetCause) {w : Warnings} (rules : w.ruleClass.length = 8)
    (ports : w.portConflict.length = 12) :
    let p := eventPayload (.stationUp cause w)
    p.length = 22 ∧ field1 p 0 = 1 ∧ some cause = [.powerOn, .resetPin, .supplyLow][field1 p 1 - 1]? ∧ 1 ≤ field1 p 1 ∧
    HoldsFlags (field1 p 2) [w.encoder, w.plan, w.zoneTw, w.lmax, w.horizon, w.drain] ∧ HoldsFlags (field1 p 3) w.ruleClass ∧
    HoldsFlags (field2 p 4) w.portConflict := by
  obtain ⟨listed, coded⟩ := causeCode_listed cause
  simp only [eventPayload, warningBytes, bytes2, List.cons_append, List.nil_append]
  exact ⟨rfl, rfl, listed, coded, packBits_byte (by simp), packBits_byte rules.le, packBits_word (ports.trans_le (by decide))⟩

theorem configFault_fields (code : FaultCode) {entry : Nat} (last : entry ≤ 31) :
    let p := eventPayload (.configFault code entry)
    p.length = 3 ∧ field1 p 0 = 2 ∧ field1 p 2 = entry ∧ 1 ≤ field1 p 1 ∧ some code =
      [.format, .length, .imageCrc, .noEndMark, .entryEmpty, .entryOverfull, .ruleCount][field1 p 1 - 1]? := by
  obtain ⟨coded, listed⟩ := faultCodeByte_listed code
  exact ⟨rfl, rfl, byte_toNat (last.trans (by decide)), coded, listed⟩

theorem runSummary1_fields {k : SummaryCounters} (small : ∀ n ∈ summaryCounterList k, n ≤ 65535) :
    let p := eventPayload (.runSummary1 k)
    p.length = 30 ∧ field1 p 0 = 7 ∧ field1 p 1 = 1 ∧ ∀ i < 14, (summaryCounterList k)[i]? = some (field2 p (2 + 2 * i)) := by
  refine ⟨rfl, rfl, rfl, fun i inside => ?_⟩
  rw [field2_flatMap (summaryCounterList k) i inside small, Nat.add_comm 2]
  rfl

theorem runSummary2_fields {k : SummaryTotals} (gaps : k.gapTotal ≤ 65535) (stales : k.staleTotal ≤ 65535)
    (indications : k.indicationSeq ≤ 65535) (calls : k.callSeq ≤ 65535) (gapSeq : k.gapSeq ≤ 65535) :
    let p := eventPayload (.runSummary2 k)
    p.length = 14 ∧ field1 p 0 = 7 ∧ field1 p 1 = 2 ∧ (∀ a < 16, (field2 p 2).testBit a = k.heard.contains a) ∧
    field2 p 4 = k.gapTotal ∧ field2 p 6 = k.staleTotal ∧ field2 p 8 = k.indicationSeq ∧ field2 p 10 = k.callSeq ∧
    field2 p 12 = k.gapSeq := by
  have heard : ∀ a < 16, ((List.range 16).map (fun a => k.heard.contains a)).getD a false = k.heard.contains a :=
    fun a address => by simp [List.getD, address]
  simp only [eventPayload, bytes2, List.cons_append, List.nil_append]
  exact ⟨rfl, rfl, rfl, fun a address => (packBits_word (by simp) a).trans (heard a address), bytes2_value gaps,
    bytes2_value stales, bytes2_value indications, bytes2_value calls, bytes2_value gapSeq⟩

/-! ### The frames handed over (R144, R157, R158) -/

/-- A byte of a MASK frame lists the channels whose bit is 1. -/
theorem inSet_field1 (p : List Byte) (off : Nat) (c : Chan) : inSet (p.getD off 0) c = (field1 p off).testBit c.num := rfl

section
variable {own : Nat} {source : BitVec 5} {run : Byte} {p : List Byte}

theorem disposal_runCommands (empty : p.length = 0) :
    disposal own ⟨source, 0x01#8, run, p⟩ = .hand .runController (.runstart run) ∧
    disposal own ⟨source, 0x02#8, run, p⟩ = .hand .runController (.runstop run) := by
  constructor <;> simp [disposal, empty, kindRunstart, kindRunstop]

theorem mask_discarded (length : p.length = 3) (other : field1 p 0 ≠ own) :
    disposal own ⟨source, 0x03#8, run, p⟩ = .discard := by
  rw [disposal_mask own source run length]
  exact if_neg other

theorem mask_handed (length : p.length = 3) (target : field1 p 0 = own) :
    ∃ m, disposal own ⟨source, 0x03#8, run, p⟩ = .hand .volleySequencer (.mask m) ∧ m.target.toNat = field1 p 0 ∧
      (∀ c, inSet m.setList c = (field1 p 1).testBit c.num) ∧ ∀ c, inSet m.clearList c = (field1 p 2).testBit c.num := by
  refine ⟨maskOfBytes p, ?_, rfl, inSet_field1 p 1, inSet_field1 p 2⟩
  rw [disposal_mask own source run length]
  exact if_pos target

theorem suppress_handed (length : p.length = 9) :
    ∃ m, disposal own ⟨source, 0x04#8, run, p⟩ = .hand .correlationUnit (.suppress run m) ∧
      m.rail.toNat = field1 p 0 ∧ m.a.toInt = positionField p 1 ∧ m.b.toInt = positionField p 5 :=
  ⟨_, disposal_suppress own source run length, rfl, longAt_eq_position (by omega), longAt_eq_position (by omega)⟩

theorem indication_handed (length : p.length = 23) :
    ∃ m, disposal own ⟨source, 0x10#8, run, p⟩ = .hand .correlationUnit (.indication run m) ∧ IndicationRead p m :=
  ⟨_, disposal_indication own source run length, indicationOfBytes_read length⟩

end

/-! ### O54 -/

/-- Settles O54: the frame by its characters, and each kind of payload by its fields. -/
theorem builtFramesPassReception : Obligations.BuiltFramesPassReception := by
  unfold Obligations.BuiltFramesPassReception
  refine ⟨fun source kind run payload _ fits => ⟨frameChars_length .., parseFrame_frameChars kind run fits⟩, ?_, ?_, ?_, ?_,
    fun code entry last => configFault_fields code last, ⟨rfl, rfl, rfl, rfl, rfl, rfl⟩, fun k small => runSummary1_fields small,
    fun k gaps stales indications calls gapSeq => runSummary2_fields gaps stales indications calls gapSeq, ?_⟩
  · intro r origin seq beam xStart xEnd extent depth zMax peak hit hits spanned
    have range : IndicationInRange r := ⟨origin, seq, beam, xStart, xEnd, extent, depth, zMax, peak, hit, hits, spanned⟩
    have sent := indicationPayload_fields range
    exact ⟨⟨sent.length, sent.origin, sent.seq, sent.channel, sent.rail, sent.beam, sent.xStart, sent.xEnd, sent.zMin, sent.zMax,
      sent.peak, sent.hits, sent.spanned, sent.flags⟩, indicationRecord_payload range⟩
  · intro r seq cls xLo xHi zLo zHi peak members pairs
    exact callPayload_fields ⟨seq, cls, xLo, xHi, zLo, zHi, peak⟩ members pairs
  · intro r origin seq beam xStart xEnd firings
    exact gapPayload_fields origin seq beam xStart xEnd firings
  · intro cause w rules ports
    obtain ⟨length, event, listed, coded, kinds, ruleClass, portConflict⟩ := stationUp_fields cause rules ports
    exact ⟨length, event, listed, coded, kinds, ruleClass, portConflict, chanWarnings_field cause w⟩
  · intro own source run p
    refine ⟨disposal_runCommands, mask_discarded, mask_handed, suppress_handed, fun length => ?_⟩
    obtain ⟨m, handed, read⟩ := indication_handed (own := own) (source := source) (run := run) length
    exact ⟨m, handed, read.origin, read.seq, read.channel, read.rail, read.beam, read.xStart, read.xEnd, read.zMin, read.zMax,
      read.peak, read.hits, read.spanned, read.flags⟩

end Sys2Proof.Machine
end

section
/-! SUPPORT. The reset and its release (R146, R147): what a reset makes of the levels of the shared lines, and the laws met right after
it. -/

namespace Sys2Proof.Machine

/-! ### The shared lines at a reset (R54, R145) -/

/-- A line that the station drives dominant goes recessive when it lets go of it, and any other keeps its level. -/
theorem levelUndriven_iff {drive level : LineLevel} {drives : Prop} (h : drive = .dominant ↔ drives) :
    (drives → levelUndriven drive level = .recessive) ∧ (¬drives → levelUndriven drive level = level) := by
  cases drive with
  | dominant => exact ⟨fun _ => rfl, fun lets => absurd (h.1 rfl) lets⟩
  | recessive => exact ⟨fun drives => absurd (h.2 drives) nofun, fun _ => rfl⟩

/-- The station drives the zone line dominant in a hold, and in the dominant slots of its claim (R44, R47). -/
theorem zoneDrives_iff (z : Zone) : zoneDriven z = .dominant ↔ z.ctl = .hold ∨ (z.ctl = .claim ∧
    (z.claimPeriod.getD 0 / 25 = 0 ∨ z.claimCode.getLsbD (5 - min 5 (z.claimPeriod.getD 0 / 25)) = false)) := by
  by_cases hold : z.ctl = .hold
  · exact iff_of_true (zoneDriven_hold hold) (.inl hold)
  · rw [zoneDriven_dominant_iff hold, or_iff_right hold]

/-- Out of TX_SEND the station drives nothing on the carriage link (R133). -/
theorem linkLevelAfterReset_rest {l : Link} (rests : l.tx ≠ .send) : linkLevelAfterReset l = l.level := by
  unfold linkLevelAfterReset
  rw [driven_rest rests]
  rfl

/-- A frame that a reset cuts off leaves the link by its bit (R133, R145). -/
theorem linkLevelAfterReset_send {l : Link} {fl : InFlight} (tx : l.tx = .send) (flies : l.inFlight = some fl) :
    linkLevelAfterReset l = levelUndriven (bitInFlight fl l.sendLeft) l.level := by
  unfold linkLevelAfterReset
  rw [driven_eq_bitInFlight tx flies]

/-! ### The reset and its release (R146, R147) -/

/-- Settles O4: each cause takes the same reset, block by block, and each shared line keeps what the station does not drive. -/
theorem resetInitialisesEveryBlock : Obligations.ResetInitialisesEveryBlock := by
  intro s c cause causes
  have acts : exec c s = .next (takeReset cause s) := by
    rcases causes with ⟨rfl, rfl⟩ | ⟨rfl, rfl⟩ | ⟨rfl, rfl⟩
    exacts [exec_powerOn s, exec_supplyLow s, exec_resetPin s]
  have chan : ∀ ch, Params.cleared.chan.get ch = ChanParams.cleared := PerChan.get_ofFn _
  refine ⟨takeReset cause s, acts, ⟨rfl, rfl, rfl, rfl, rfl, rfl, rfl, rfl, rfl, rfl⟩,
    ⟨rfl, rfl, rfl, rfl, rfl, rfl, rfl, rfl, rfl, rfl, rfl, rfl, rfl⟩, ⟨rfl, rfl, rfl, rfl, rfl, rfl, rfl, rfl, rfl⟩,
    ⟨rfl, rfl, rfl, rfl, rfl, rfl, rfl⟩, PerChan.get_ofFn _, PerChan.get_ofFn _, rfl, PerChan.get_ofFn _,
    ⟨rfl, rfl, rfl, rfl⟩, ⟨rfl, rfl, rfl, rfl, rfl, rfl, rfl, rfl, rfl⟩,
    ⟨rfl, rfl, rfl, rfl, rfl, rfl, rfl, rfl, rfl, rfl, rfl, rfl, rfl, rfl, rfl, rfl, rfl, rfl, rfl, rfl⟩,
    ⟨rfl, rfl, rfl, fun ch => ?_⟩, levelUndriven_iff (zoneDrives_iff s.zone), linkLevelAfterReset_rest, fun fl tx flies => ?_, rfl⟩
  · show (Params.cleared.chan.get ch).port = none ∧ (Params.cleared.chan.get ch).f.enabled = false ∧
      (Params.cleared.chan.get ch).m.enabled = false
    rw [chan]
    exact ⟨rfl, rfl, rfl⟩
  · have left : (takeReset cause s).link.level = levelUndriven (bitInFlight fl s.link.sendLeft) s.link.level :=
      linkLevelAfterReset_send tx flies
    exact ⟨fun dominant => by rw [left, bitInFlight, dominant]; rfl, fun recessive => by rw [left, bitInFlight, recessive]; rfl⟩

/-- Settles O5: the release is a change of the Run Controller alone, made where a reset stands. -/
theorem releaseReadsTheStraps : Obligations.ReleaseReadsTheStraps := by
  intro s straps
  refine ⟨fun held => ⟨releaseReset straps s, ?_, rfl, keeps_setRc _ _⟩, fun free => ?_⟩
  · rw [exec_resetRelease, if_pos held]
  · rw [exec_resetRelease, if_neg (Bool.not_eq_true _ ▸ free)]

/-! ### The laws right after reset -/

/-- The machine right after reset is one that a POWER_ON has reset. -/
theorem takeReset_reset : takeReset .powerOn State.reset = State.reset := rfl

/-- Settles O60: every reset meets each law. -/
theorem resetMeetsEveryLaw : Obligations.ResetMeetsEveryLaw := by
  unfold Obligations.ResetMeetsEveryLaw
  rw [← takeReset_reset]
  exact ⟨travelLaw_takeReset .powerOn _, (firingLaw_iff _).2 (firingFit_takeReset .powerOn _), coverageLaw_cleared rfl,
    trackerLaw_takeReset .powerOn _, correlationLaw_takeReset .powerOn _, linkLaw_takeReset .powerOn⟩

end Sys2Proof.Machine
end

section
/-! SUPPORT. The load (R147 to R149): the first plan entry that check 5 refuses, the verdict of an image whose plan ends, and what
either end of a load leaves of the link. -/

namespace Sys2Proof.Machine

/-! ### The plan's end and its entries (R19, R147) -/

section
variable {im : List Byte} {last bad : Nat}

theorem planLength_unmarked (unmarked : ∀ e < 32, endMark im e = false) : planLength im = none := by
  have notFound : (List.range 32).find? (endMark im) = none :=
    List.find?_range_eq_none.2 fun e he => by rw [unmarked e he]; rfl
  rw [planLength, notFound]
  rfl

/-- The plan ends with its first marked entry (R19). -/
theorem planLength_marked (inside : last < 32) (marked : endMark im last = true) (first : ∀ e < last, endMark im e = false) :
    planLength im = some (last + 1) := by
  have found : (List.range 32).find? (endMark im) = some last :=
    List.find?_range_eq_some.2 ⟨marked, List.mem_range.2 inside, fun e he => by rw [first e he]; rfl⟩
  rw [planLength, found]
  rfl

/-- What check 5 finds at one entry (R147). -/
def entryVerdict (im : List Byte) (e : Nat) : Option (FaultCode × Nat) :=
  if (chansOf (entryChans im e)).length = 0 then some (.entryEmpty, e)
  else if 4 < (chansOf (entryChans im e)).length then some (.entryOverfull, e)
  else none

theorem entryFault_eq (im : List Byte) (len : Nat) : entryFault im len = (List.range len).findSome? (entryVerdict im) := rfl

theorem entryVerdict_empty (empty : (chansOf (entryChans im bad)).length = 0) :
    entryVerdict im bad = some (.entryEmpty, bad) := if_pos empty

theorem entryVerdict_overfull (overfull : 4 < (chansOf (entryChans im bad)).length) :
    entryVerdict im bad = some (.entryOverfull, bad) := by
  rw [entryVerdict, if_neg (by omega), if_pos overfull]

theorem entryVerdict_good {e : Nat} (good : (chansOf (entryChans im e)).length ∈ [1, 2, 3, 4]) : entryVerdict im e = none := by
  simp only [List.mem_cons, List.not_mem_nil, or_false] at good
  rw [entryVerdict, if_neg (by omega), if_neg (by omega)]

/-- The first entry refused gives the fault (R147). -/
theorem entryFault_first {fault : FaultCode × Nat} (reached : bad ≤ last) (passed : ∀ e < bad, entryVerdict im e = none)
    (refused : entryVerdict im bad = some fault) : entryFault im (last + 1) = some fault := by
  have before : (List.range bad).findSome? (entryVerdict im) = none :=
    List.findSome?_eq_none_iff.2 fun e he => passed e (List.mem_range.1 he)
  have parts : List.range (last + 1) = List.range bad ++ (List.range (last - bad + 1)).map (bad + ·) := by
    rw [← List.range_add]
    congr 1
    omega
  rw [entryFault_eq, parts, List.findSome?_append, before, Option.none_or, List.range_succ_eq_map, List.map_cons,
    List.findSome?_cons, Nat.add_zero, refused]

theorem entryFault_none (good : ∀ e ≤ last, (chansOf (entryChans im e)).length ∈ [1, 2, 3, 4]) :
    entryFault im (last + 1) = none :=
  List.findSome?_eq_none_iff.2 fun e he => entryVerdict_good (good e (Nat.le_of_lt_succ (List.mem_range.1 he)))

end

/-! ### The verdict past the CRC (R147) -/

section
variable {b : List Byte} (format : byteAt (imageBytes b) 0 = 0x81) (length : wordAt (imageBytes b) 1 = 477)
  (crc : crcBytes (crc16 ((imageBytes b).take 475)) = (imageBytes b).drop 475)
include format length crc

theorem judgeImage_unmarked (unmarked : planLength (imageBytes b) = none) : judgeImage b = .refused .noEndMark 0 := by
  rw [judgeImage_good format length crc, unmarked]

variable {len : Nat} (plan : planLength (imageBytes b) = some len)
include plan

theorem judgeImage_entry {code : FaultCode} {e : Nat} (fault : entryFault (imageBytes b) len = some (code, e)) :
    judgeImage b = .refused code e := by
  rw [judgeImage_good format length crc, plan]
  dsimp only
  rw [fault]

/-- With every entry good the rule count decides (R147). -/
theorem judgeImage_rules (good : entryFault (imageBytes b) len = none) : judgeImage b =
    if 8 < byteAt (imageBytes b) 0x193 then .refused .ruleCount 0
    else .accepted (readImage (imageBytes b) len).1 (readImage (imageBytes b) len).2 := by
  rw [judgeImage_good format length crc, plan]
  dsimp only
  rw [good]

end

/-- A memory that does not answer reads as all ones, which is no format (R147). -/
theorem imageBytes_nil : byteAt (imageBytes []) 0 = 0xFF := by
  rw [byteAt, imageBytes, List.getD_eq_getElem?_getD, List.getElem?_map, List.getElem?_range (by decide)]
  rfl

/-- Settles O7: past the CRC the end mark, the first bad entry and the rule count decide in turn. -/
theorem loadChecksStandInOrder : Obligations.LoadChecksStandInOrder := by
  intro bytes im crcGood
  refine ⟨judgeImage_format, judgeImage_length, judgeImage_crc, fun format length crc unmarked => ?_,
    fun last inside format length crc marked first => ?_, judgeImage_format (by rw [imageBytes_nil]; decide)⟩
  · exact judgeImage_unmarked format length crc (planLength_unmarked unmarked)
  · have plan : planLength im = some (last + 1) := planLength_marked inside marked first
    refine ⟨fun bad reached passed => ?_, fun good => ?_⟩
    · have refused : ∀ code, entryVerdict im bad = some (code, bad) → judgeImage bytes = .refused code bad := fun code fault =>
        judgeImage_entry format length crc plan (entryFault_first reached (fun e he => entryVerdict_good (passed e he)) fault)
      exact ⟨fun empty => refused _ (entryVerdict_empty empty), fun overfull => refused _ (entryVerdict_overfull overfull)⟩
    · have judged := judgeImage_rules format length crc plan (entryFault_none good)
      refine ⟨fun many => ?_, fun few => ⟨_, (readImage im (last + 1)).2, ?_, ?_, readImage_rules_length im (last + 1)⟩⟩
      · rw [judged, if_pos many]
      · rw [judged, if_neg (Nat.not_lt.2 few)]
      · rw [readImage_plan, List.length_map, List.length_range]

/-! ### The ends of a load (R148, R149) -/

/-- While the link is not idle an event takes its place in class 0 and nothing more (R135, R137). -/
theorem offer0_busy (own : Nat) (r : Queued StationEvent) {l : Link} (busy : l.idle = false) (room : l.q0.length < 4) :
    offer0 own r l = { l with q0 := l.q0 ++ [r] } := by
  rw [offer0_room own r room]
  exact recordArrived_busy own busy

theorem exec_loadEnd_loading {s : State} (im : List Byte) (free : s.rc.inReset = false) (loading : s.rc.runState = .loading) :
    exec (.loadEnd im) s = .next (loadEnded im s) := by
  rw [exec_loadEnd, if_pos ⟨free, loading⟩]

theorem loadRefused_keeps (code : FaultCode) (entry : Nat) (s : State) : Keeps [.rc, .link] s (loadRefused code entry s) := by
  unfold loadRefused
  exact (((keeps_setRc s _).mono (by decide)).trans ((keeps_setLink _ _).mono (by decide))).trans
    ((queueEvent_keeps _ _).mono (by decide))

/-- Settles O6: either end of a load is a few changes and one event, on a link taken up busy. -/
theorem loadEndsInFaultedOrStandby : Obligations.LoadEndsInFaultedOrStandby := by
  intro s image up
  refine ⟨fun free loading code entry refused => ?_, fun free loading p w accepted => ?_, fun outside => ?_⟩
  · have acts := exec_loadEnd_loading image free loading
    rw [loadEnded_refused refused] at acts
    exact ⟨_, acts, rfl, offer0_handed s.own 0 (.configFault code entry) up, fun room => offer0_busy s.own _ rfl room,
      loadRefused_keeps code entry s⟩
  · have acts := exec_loadEnd_loading image free loading
    have keeps := loadEnded_keeps image s
    rw [loadEnded_accepted accepted] at acts keeps
    exact ⟨_, acts, rfl, rfl, rfl, rfl, offer0_handed s.own 0 (.stationUp s.rc.cause w) up,
      fun room => offer0_busy s.own _ rfl room, keeps⟩
  · rw [exec_loadEnd, if_neg]
    rintro ⟨free, loading⟩
    rcases outside with held | other
    · exact absurd (held.symm.trans free) nofun
    · exact other loading

end Sys2Proof.Machine
end

section
/-! SUPPORT. RUNSTART and RUNSTOP (R150 to R152): what the Run Controller makes of each by the run state, and what STOPPING entry
leaves of each block. -/

namespace Sys2Proof.Machine

/-! ### The Run Controller's frames (R150, R152) -/

theorem exec_runstart_offered {s : State} {r : Byte} (offered : Offered .runController (.runstart r) s) :
    exec (.runstart r) s = .next (dispatchDiscards (runstartTaken r (takenBy .runController 250 s))) := by
  rw [exec_runstart, takeFrame_offered _ offered]
  rfl

theorem exec_runstop_offered {s : State} {r : Byte} (offered : Offered .runController (.runstop r) s) :
    exec (.runstop r) s = .next (dispatchDiscards (runstopTaken r (takenBy .runController 250 s))) := by
  rw [exec_runstop, takeFrame_offered _ offered]
  rfl

section
variable {s : State} {r : Byte}

theorem runstartTaken_standby (other : r ≠ 0) (standby : s.rc.runState = .standby) : runstartTaken r s = startRun r s := by
  rw [runstartTaken, if_neg other, standby]

/-- In RUNNING a RUNSTART of another run becomes the pending start, and STOPPING is entered (R150, R152). -/
theorem runstartTaken_running (other : r ≠ 0) (running : s.rc.runState = .running) (another : r ≠ s.rc.run) :
    runstartTaken r s = enterStopping (s.setRc { s.rc with pendingStart := some r }) := by
  rw [runstartTaken, if_neg other, running]
  exact if_neg another

/-- In STOPPING a RUNSTART of another run becomes the pending start (R150). -/
theorem runstartTaken_stopping (other : r ≠ 0) (stopping : s.rc.runState = .stopping) (another : r ≠ s.rc.run) :
    runstartTaken r s = s.setRc { s.rc with pendingStart := some r } := by
  rw [runstartTaken, if_neg other, stopping]
  exact if_neg another

theorem runstartTaken_zero : runstartTaken 0 s = s := if_pos rfl

/-- A RUNSTART of the current run changes nothing (R150). -/
theorem runstartTaken_current (current : r = s.rc.run) (inRun : s.inRun = true) : runstartTaken r s = s := by
  unfold runstartTaken
  by_cases zero : r = 0
  · exact if_pos zero
  · rw [if_neg zero]
    rcases (inRun_iff s).1 inRun with state | state <;> rw [state] <;> exact if_pos current

theorem runstopTaken_current (running : s.rc.runState = .running) (current : r = s.rc.run) : runstopTaken r s = enterStopping s :=
  if_pos ⟨running, current⟩

theorem runstopTaken_ignored (ignored : s.rc.runState ≠ .running ∨ r ≠ s.rc.run) : runstopTaken r s = s :=
  if_neg fun h => ignored.elim (· h.1) (· h.2)

end

/-- A frame that its block takes without acting on it only leaves the queue (R144). -/
theorem dispatchDiscards_takenBy (b : Block) (ticks : Nat) (s : State) :
    dispatchDiscards (takenBy b ticks s) = { s with link := linkAfterTaking b ticks s } :=
  dispatchDiscards_taken rfl rfl

/-- Settles O51: the run starts in the state that the taking leaves, and the frames behind are judged in the new run. -/
theorem runstartStartsARun : Obligations.RunstartStartsARun := by
  intro s r other standby offered taken behind
  refine ⟨startRun r taken, startRun_started r taken, ?_⟩
  have starts : runstartTaken r (takenBy .runController 250 s) = startRun r taken := runstartTaken_standby other standby
  have counted : satAdd 0 behind.2 = min behind.2 65535 := by rw [satAdd, Nat.zero_add]
  rw [exec_runstart_offered offered, starts, ← counted]
  rfl

/-! ### STOPPING entry (R37, R54, R81, R109, R152) -/

/-- The station as STOPPING is entered: the frame is taken, and the pending start set. -/
def stoppingFrom (start : Option Byte) (s : State) : State :=
  (takenBy .runController 250 s).setRc { s.rc with pendingStart := start }

/-- The same once the sequencer and the zone line have stopped: the state whose slots and gaps close where no volley is in hold. -/
def stoppingRest (start : Option Byte) (s : State) : State :=
  (((stoppingFrom start s).setRc { (stoppingFrom start s).rc with runState := .stopping }).setSeq (seqStop s.seq)).setZone
    (zoneStop s.zone)

theorem GapsStopped.discards {s t : State} (h : GapsStopped s t) : GapsStopped s (dispatchDiscards t) :=
  ⟨h.closed, h.seq, h.sent, h.dropped⟩

theorem zoneStop_losses (z : Zone) : (zoneStop z).losses = z.losses := by
  unfold zoneStop
  cases z.ctl <;> rfl

section
variable (start : Option Byte) (s : State)

/-- The run state and the pending start do not wait for a volley in hold (R152). -/
theorem enterStopping_run : let q := (dispatchDiscards (enterStopping (stoppingFrom start s))).rc
    q.runState = .stopping ∧ q.run = s.rc.run ∧ q.pendingStart = start := by
  have rc := enterStopping_rc (stoppingFrom start s)
  rw [← (dispatchDiscards_keeps _).rc (by decide)] at rc
  rw [rc]
  split <;> exact ⟨rfl, rfl, rfl⟩

theorem enterStopping_link : HandsTo s.own [.c1, .c2, .c3] (linkAfterTaking .runController 250 s)
    (dispatchDiscards (enterStopping (stoppingFrom start s))).link := by
  have pending : Hands [.c1, .c2, .c3] (takenBy .runController 250 s) (stoppingFrom start s) := .setRc rfl
  exact Hands.taken (pending.trans (enterStopping_hands _))

variable {s}

/-- With a volley in hold the slots, the gaps and the drain wait for it (R37, R152). -/
theorem enterStopping_waits (hold : s.seq.sq = .hold) : dispatchDiscards (enterStopping (stoppingFrom start s)) =
    { s with rc := { s.rc with runState := .stopping, pendingStart := start }, seq := seqStop s.seq, zone := zoneStop s.zone,
             link := linkAfterTaking .runController 250 s } := by
  rw [enterStopping_hold (s := stoppingFrom start s) hold]
  exact dispatchDiscards_taken rfl rfl

/-- With none the slots close with CUT and the gaps with STOPPED (R81, R109). -/
theorem enterStopping_closes (idle : s.seq.sq ≠ .hold) :
    let t := dispatchDiscards (enterStopping (stoppingFrom start s))
    (∀ ch, t.trk.chan.get ch = ⟨none, none⟩) ∧ (∀ ch, (t.cov.chan.get ch).gap = none) ∧
      CutFor s Chan.all t ∧ GapsStopped s t := by
  intro t
  have closes : t = dispatchDiscards (stoppingClose (stoppingRest start s)) :=
    congrArg dispatchDiscards (enterStopping_rest (s := stoppingFrom start s) idle)
  have k := dispatchDiscards_keeps (stoppingClose (stoppingRest start s))
  obtain ⟨cut, stopped⟩ := stoppingClose_closes (stoppingRest start s)
  have cut : CutFor s Chan.all _ := cut.of_same (u := stoppingRest start s) ⟨rfl, rfl, rfl, rfl, rfl, rfl⟩ rfl rfl rfl
  have stopped : GapsStopped s _ := stopped.of_same (u := stoppingRest start s) rfl rfl rfl rfl rfl rfl
  rw [closes]
  refine ⟨fun ch => ?_, fun ch => ?_, cut.discards, stopped.discards⟩
  · rw [k.trk (by decide), stoppingClose_slots]
  · rw [k.cov (by decide), stoppingClose_gap]

theorem enterStopping_touches : Keeps [.rc, .seq, .zone, .cov, .trk, .corr, .link] s
    (dispatchDiscards (enterStopping (stoppingFrom start s))) := by
  have taken : Keeps [.rc, .seq, .zone, .cov, .trk, .corr, .link] s (stoppingFrom start s) :=
    ((keeps_setLink s _).mono (by decide)).trans ((keeps_setRc _ _).mono (by decide))
  exact (taken.trans (enterStopping_keeps _)).trans ((dispatchDiscards_keeps _).mono (by decide))

end

/-- A RUNSTOP of the current run and a RUNSTART of another enter STOPPING, each with its pending start (R150, R152). -/
theorem exec_entersStopping {s : State} {c : Instr} {r : Byte} {start : Option Byte}
    (command : (c = .runstop r ∧ r = s.rc.run ∧ start = s.rc.pendingStart) ∨
      (c = .runstart r ∧ r ≠ 0 ∧ r ≠ s.rc.run ∧ start = some r))
    (running : s.rc.runState = .running) (offered : Offered .runController c s) :
    exec c s = .next (dispatchDiscards (enterStopping (stoppingFrom start s))) := by
  rcases command with ⟨rfl, current, rfl⟩ | ⟨rfl, other, another, rfl⟩
  · rw [exec_runstop_offered offered, runstopTaken_current (s := takenBy .runController 250 s) running current]
    rfl
  · rw [exec_runstart_offered offered, runstartTaken_running (s := takenBy .runController 250 s) other running another]
    rfl

/-- Settles O52: STOPPING entry block by block, and the frames that leave nothing but their taking. -/
theorem runstopEntersStopping : Obligations.RunstopEntersStopping := by
  refine ⟨fun s c r start command running offered => ?_, fun s r ignored offered => ?_, fun s r offered => ⟨?_, ?_⟩⟩
  · have k := enterStopping_touches start (s := s)
    have seq : (dispatchDiscards (enterStopping (stoppingFrom start s))).seq = seqStop s.seq := enterStopping_seq _
    have zone : (dispatchDiscards (enterStopping (stoppingFrom start s))).zone = zoneStop s.zone := enterStopping_zone _
    obtain ⟨stops, run, pending⟩ := enterStopping_run start s
    refine ⟨_, exec_entersStopping command running offered, stops, run, pending, k.pos (by decide), ?_, enterStopping_link start s, ?_,
      fun claim => ?_, fun hold => ?_, fun rest => ?_, fun hold => ?_, fun idle => ?_⟩
    · rw [seq, seqStop_eq]
    · rw [zone, zoneStop_losses]
    · rw [zone, zoneStop_claim claim]
    · rw [zone, zoneStop_hold hold]
    · rw [zone, zoneStop_rest (by rintro h; simp [h] at rest) (by rintro h; simp [h] at rest)]
      rfl
    · rw [enterStopping_waits start hold]
      exact ⟨((((keeps_setRc s _).mono (by decide)).trans ((keeps_setSeq _ _).mono (by decide))).trans
        ((keeps_setZone _ _).mono (by decide))).trans ((keeps_setLink _ _).mono (by decide)), rfl, rfl⟩
    · have drains : (enterStopping (stoppingFrom start s)).rc = { s.rc with
          runState := .stopping, pendingStart := start, draining := true, drainTimer := drainTicks s.cfg.drain } :=
        (enterStopping_rc (stoppingFrom start s)).trans (if_neg idle)
      obtain ⟨slots, gaps, cut, stopped⟩ := enterStopping_closes start idle
      exact ⟨k, congrArg RunCtl.draining drains, congrArg RunCtl.drainTimer drains, slots, gaps, cut, stopped⟩
  · rw [exec_runstop_offered offered, runstopTaken_ignored (s := takenBy .runController 250 s) ignored, dispatchDiscards_takenBy]
  · intro stopping other another
    rw [exec_runstart_offered offered, runstartTaken_stopping (s := takenBy .runController 250 s) other stopping another]
    exact congrArg Host.Outcome.next (dispatchDiscards_taken rfl rfl)
  · intro ignored
    have stays : runstartTaken r (takenBy .runController 250 s) = takenBy .runController 250 s := by
      rcases ignored with rfl | ⟨inRun, current⟩
      · exact runstartTaken_zero
      · exact runstartTaken_current current inRun
    rw [exec_runstart_offered offered, stays, dispatchDiscards_takenBy]

end Sys2Proof.Machine
end

section
/-! SUPPORT. The queue of commands (log entries 1 and 15): no command lists it among the blocks it touches, and a step takes its
front. -/

namespace Sys2Proof.Machine

/-- A reset is no exception: its list holds every block but the queue. -/
theorem pending_not_mem_touched (c : Instr) : Part.pending ∉ touched c := by
  cases c <;> simp [touched]

/-- Settles O1: `setPending` is the update of the queue alone. -/
theorem stepRunsTheFrontCommand : Obligations.StepRunsTheFrontCommand := by
  unfold Obligations.StepRunsTheFrontCommand
  intro s c rest front
  exact step_cons front

/-- Settles O2, by what each command touches. -/
theorem execKeepsTheQueue : Obligations.ExecKeepsTheQueue := by
  unfold Obligations.ExecKeepsTheQueue
  intro c s t next
  exact (exec_touches next).pending (pending_not_mem_touched c)

end Sys2Proof.Machine
end
